-- ==== Sys2Proof/Word.lean ====
section
/-! DEFINITION. The words of the KM6200: 32-bit words of the two windows, bytes, channels and links. -/

namespace Sys2Proof

/-- A word of a request or response area (R179). -/
abbrev Word := BitVec 32

/-- A byte of a write transaction (R179). -/
abbrev Byte := BitVec 8

/-- A request channel, 0 to 7 (R155). -/
abbrev Chan := Fin 8

/-- A shore link, 0 to 7 (R106). -/
abbrev LinkId := Fin 8

end Sys2Proof
end

