-- ==== Sys2Proof/Syntax.lean ====
section
/-! DEFINITION. The commands: one constructor for each row of spec/opcode_table.json, in the table's order, with the
operands its rule gives it. A claim on a request names the channel whose outstanding request its owner takes; the
request's own operands stand in the message that was dispatched (R159). -/

namespace Sys2Proof

inductive Instr where
  /-- POWER_ON_RESET (R175): RESET_N is asserted. -/
  | powerOnReset
  /-- INITIALIZATION_COMPLETE (R175). -/
  | initializationComplete
  /-- STAGING_WRITE (R156): one write transaction, each byte with its offset in the endpoint's memory. -/
  | stagingWrite (bytes : List Host.Cell)
  /-- REQUEST_SUBMIT (R156): one write transaction that covers a byte of a request area's word 0. -/
  | requestSubmit (bytes : List Host.Cell)
  /-- RESPONSE_RELEASE (R158): one write transaction that covers a byte of a response area's word 0. -/
  | responseRelease (bytes : List Host.Cell)
  /-- IGNORED_WRITE (R158, R179): one write transaction none of whose bytes is kept. -/
  | ignoredWrite (bytes : List Host.Cell)
  /-- DISPATCH (R159) of the head message of a channel. -/
  | dispatch (ch : Chan)
  | attach (ch : Chan)
  | detach (ch : Chan)
  | subFind (ch : Chan)
  | subRead (ch : Chan)
  | subUpdate (ch : Chan)
  | grant (ch : Chan)
  | settle (ch : Chan)
  | usagePost (ch : Chan)
  | flowOpen (ch : Chan)
  | flowClose (ch : Chan)
  | flowFind (ch : Chan)
  | charge (ch : Chan)
  | flowRead (ch : Chan)
  | flowUpdate (ch : Chan)
  | linkReport (ch : Chan)
  | enable (ch : Chan)
  | disable (ch : Chan)
  | drain (ch : Chan)
  | inject (ch : Chan)
  | snapshot (ch : Chan)
  | linkConfig (ch : Chan)
  | linkRead (ch : Chan)
  /-- DRAINED_NOTICE (R122): the LM takes the notice waiting for a link. -/
  | drainedNotice (link : LinkId)
  | zoneChange (ch : Chan)
  | zoneDefine (ch : Chan)
  | zoneRead (ch : Chan)
  | agreementSet (ch : Chan)
  | agreementRemove (ch : Chan)
  | agreementFind (ch : Chan)
  | tariffSet (ch : Chan)
  | tariffRead (ch : Chan)
  | age (ch : Chan)
  | walkStatus (ch : Chan)
  | walkAbort (ch : Chan)
  | noticeFetch (ch : Chan)
  | deviceStatus (ch : Chan)
  | deviceConfig (ch : Chan)
  | channelStatus (ch : Chan)
  | clearFault (ch : Chan)
  | channelSet (ch : Chan)
  | channelReset (ch : Chan)
  | softReset (ch : Chan)
  /-- SOFT_RESET_CLEARING (R167). R178 empties the attention list in one event in the course of the clearing:
  here when the operand is true, else in SOFT_RESET_COMPLETE (log 8). -/
  | softResetClearing (emptyListNow : Bool)
  | softResetComplete
  | shipSecondAdvance
  /-- GRANT_DEADLINE_EXPIRY (R71) of the head of the grant deadline list. -/
  | grantDeadlineExpiry
  | staleExpiry (link : LinkId)
  | autoSnapshot (link : LinkId)
  | ageExpiry
  | walkStart
  | agePass1Visit
  | agePass2Visit
  | ageWalkEnd
  | zoneVisit
  | zoneWalkEnd
  | recheckVisit
  | recheckWalkEnd
  | repinVisit
  | repinWalkEnd
  | unwindStep
  | endOfUnwinding
  /-- RESET_N_RELEASE (R175). -/
  | resetNRelease
deriving DecidableEq, Repr

end Sys2Proof
end

