-- ==== Sys2Proof/Decode.lean ====
section
/-! DEFINITION. Commands that the table spells by bits: none. The words of the request messages are another matter and
are decoded in Sys2Proof/Machine/Operands.lean (R180). -/

namespace Sys2Proof

/-- The command that a word spells by the bits of spec/opcode_table.json: no row of the table has bits. -/
def decodeTableWord (_nbits _w : Nat) : Option Instr := none

end Sys2Proof
end

