-- ==== Sys2Proof/Config.lean ====
section
/-! DEFINITION. What the part fixes (sizes, windows, limits) and the two codes the manual leaves open. -/

namespace Sys2Proof.Config

/-- Records of the subscriber table (R1, R131). -/
def subscriberCount : Nat := 4096

/-- Records of the flow table (section 2.1, R131). -/
def flowCount : Nat := 16384

/-- Capacity of a request FIFO and of a response FIFO (R155). -/
def fifoDepth : Nat := 16

/-- Capacity of the agreement list (R88). -/
def agreementCapacity : Nat := 256

/-- The flow limit of a subscriber whose tariff is NONE (R32). -/
def flowLimitWithoutTariff : Nat := 64

/-- BAD classifications in a row that declare a FAST link lost (R110). -/
def fastWindow : Nat := 3

/-- BAD classifications in a row that declare a STEADY link lost (R110). -/
def steadyWindow : Nat := 24

/-- The shortest and longest age interval other than 0, in seconds (R144). -/
def ageIntervalMin : Nat := 60
def ageIntervalMax : Nat := 86400

/-- Flow handles that one FLOWS read returns at most (R19). -/
def flowsPerRead : Nat := 12

/-- The code with which a LINK_REPORT answer gives the classification GOOD (0), BAD (1), NEUTRAL (2) or NONE (3):
R108 and R181 name the content and give no code, so it has no value here (log 14). -/
opaque reportClassCode : Nat → BitVec 8

/-- The code with which an AGE answer says that the walker is IDLE: R129 names it and R181 gives no code (log 14). -/
opaque idleWalkCode : BitVec 8

end Sys2Proof.Config
end

