-- ==== Sys2Proof/Machine/State.lean ====
section
/-! DEFINITION. The state of the KM6200, block by block (00_scope section 3), and its value after power-on reset. -/

namespace Sys2Proof.Machine

/-! ## Names shared by records, requests and answers -/

abbrev SubIx := BitVec 12
abbrev FlowIx := BitVec 14
abbrev Tag := BitVec 64
abbrev Operator := BitVec 24
abbrev Epoch := BitVec 16
abbrev Second := BitVec 32
abbrev ZoneIx := BitVec 5
abbrev ZoneClass := BitVec 2
abbrev TariffIx := BitVec 6

/-- A generation mark value 0, 1 or 2, without meaning of its own (R22, R132). -/
abbrev Mark := Fin 3

/-- Records by index, sparse: sorted by index, no index twice, none at its power-on value (log 16). -/
abbrev Table (α : Type) := List (Nat × α)

/-- A subscriber handle (section 1.4). -/
structure SubHandle where
  index : SubIx
  stamp : BitVec 8
deriving DecidableEq, Repr

/-- A flow handle (section 2.5). -/
structure FlowHandle where
  index : FlowIx
  stamp : BitVec 8
deriving DecidableEq, Repr

inductive SubState where
  | vacant | attached | roamBarred | detaching | unsettled
deriving DecidableEq, Repr

inductive SubClass where
  | passenger | crew | shipSystem
deriving DecidableEq, Repr

inductive FlowClass where
  | emergency | voice | interactive | bulk
deriving DecidableEq, Repr

/-- The five owner classes of channels (R155). -/
inductive OwnerClass where
  | gateway | cell | backhaul | billing | supervisor
deriving DecidableEq, Repr

/-- The statuses of R181. -/
inductive Status where
  | ok | late | already | notFound | staleHandle | bucketFull | flowLimit | tableFull | detaching | notAttached
  | notPermitted | malformed | outOfRange | settlePending | walkPending | guardFalse | deferredFault | conflict
  | nothing
deriving DecidableEq, Repr

/-- The causes of section 10.1. -/
inductive Cause where
  | grantNeeded | grantTimeout | exhausted | unsettled | roamBarred | roamCleared | closeHeld
  | state | congestion | counterSaturated | repinDone
  | ageDone | zoneDone | recheckDone
  | ready | channelOverrun
deriving DecidableEq, Repr

/-! ## Subscriber Table Controller -/

/-- Bytes, seconds and the mixed flag of usage counted under one rating zone (section 4.1). -/
structure Usage where
  bytes : BitVec 40
  seconds : BitVec 32
  mixed : Bool
deriving DecidableEq, Repr

/-- An occupied closed slot (section 4.1, R77). -/
structure ClosedSlot where
  zone : ZoneIx
  usage : Usage
deriving DecidableEq, Repr

/-- The grant state; the deadline is present only while REQUESTED (section 4.1). -/
inductive GrantState where
  | none
  | requested (deadline : Second)
  | timedOut
deriving DecidableEq, Repr

/-- A subscriber record (R1, R62). The flow count is the length of the flow list (section 2.6); the pending causes
are the record's set on the attention list (R168). -/
structure SubRecord where
  tag : Tag
  stamp : BitVec 8
  state : SubState
  cls : SubClass
  home : Operator
  permanent : Bool
  mark : Mark
  zoneEpoch : Epoch
  policyEpoch : Epoch
  tariff : Option TariffIx
  ratingZone : ZoneIx
  flowList : List FlowHandle
  userWord : Word
  current : Usage
  closed : Option ClosedSlot
  closeHeld : Bool
  byteAllowance : BitVec 32
  secondsAllowance : BitVec 32
  byteOverrun : BitVec 32
  secondsOverrun : BitVec 32
  grant : GrantState
  overdraftUsed : Bool
  exhaustedNoted : Bool
  so : Bool
deriving DecidableEq, Repr

def Usage.zero : Usage := { bytes := 0, seconds := 0, mixed := false }

/-- R1, R23, R62: a subscriber record after power-on reset. -/
def SubRecord.powerOn : SubRecord :=
  { tag := 0, stamp := 0, state := .vacant, cls := .passenger, home := 0, permanent := false, mark := 0,
    zoneEpoch := 0, policyEpoch := 0, tariff := none, ratingZone := 0, flowList := [], userWord := 0,
    current := .zero, closed := none, closeHeld := false, byteAllowance := 0, secondsAllowance := 0,
    byteOverrun := 0, secondsOverrun := 0, grant := .none, overdraftUsed := false, exhaustedNoted := false,
    so := false }

/-- The STC (R2, section 1.2). -/
structure Stc where
  subs : Table SubRecord
  /-- DETACHING records, head first (R12). -/
  unwind : List SubIx
  /-- REQUESTED records, head first (R70). -/
  deadlines : List SubIx
  /-- R78. -/
  closedCount : Nat
  /-- The channel the arbiter last granted (R2). -/
  lastGranted : Chan
deriving DecidableEq, Repr

/-! ## Flow Table Controller -/

/-- The key of a flow (section 2.1). -/
structure FlowKey where
  subscriber : SubIx
  address : BitVec 128
  remotePort : BitVec 16
  localPort : BitVec 16
  protocol : BitVec 8
deriving DecidableEq, Repr

/-- A flow's state; an OPEN flow has a pin, a HELD flow has none (R39). -/
inductive FlowState where
  | vacant
  | opened (pin : LinkId)
  | held
deriving DecidableEq, Repr

/-- A flow record (R25). -/
structure FlowRecord where
  key : FlowKey
  stamp : BitVec 8
  state : FlowState
  cls : FlowClass
  owner : SubHandle
  mark : Mark
  userWord : Word
deriving DecidableEq, Repr

def FlowKey.zero : FlowKey := { subscriber := 0, address := 0, remotePort := 0, localPort := 0, protocol := 0 }

/-- R25, R42: a flow record after power-on reset. -/
def FlowRecord.powerOn : FlowRecord :=
  { key := .zero, stamp := 0, state := .vacant, cls := .bulk, owner := { index := 0, stamp := 0 }, mark := 0,
    userWord := 0 }

/-- The three pseudo-LRU bits of a flow bucket (R28); true is 1. -/
structure Plru where
  root : Bool
  first : Bool
  second : Bool
deriving DecidableEq, Repr

/-- R28: every bit 0 after power-on reset. -/
def Plru.powerOn : Plru := { root := false, first := false, second := false }

/-- The FTC (R26). -/
structure Ftc where
  flows : Table FlowRecord
  plru : Table Plru
  /-- The pinned count of each link (R40). -/
  pinned : Vector Nat 8
  /-- The channel the arbiter last granted (R26). -/
  lastGranted : Chan
deriving DecidableEq, Repr

/-! ## Link Monitor -/

inductive LinkState where
  | offline | probing | up | lost | draining
deriving DecidableEq, Repr

inductive DeclareWindow where
  | fast | steady
deriving DecidableEq, Repr

inductive StateNotice where
  | downward | all
deriving DecidableEq, Repr

inductive CongestionNotice where
  | onset | both
deriving DecidableEq, Repr

inductive SnapshotMode where
  | manual | auto
deriving DecidableEq, Repr

/-- The configuration of a link (R106, first table). -/
structure LinkConfig where
  threshold : BitVec 6
  hysteresis : BitVec 4
  declareWindow : DeclareWindow
  clearWindow : BitVec 7
  staleInterval : BitVec 6
  highWater : BitVec 8
  lowWater : BitVec 8
  admitVoice : Bool
  admitInteractive : Bool
  admitBulk : Bool
  rank : BitVec 4
  fallback : Option LinkId
  stateNotice : StateNotice
  congestionNotice : CongestionNotice
  snapshotMode : SnapshotMode
deriving DecidableEq, Repr

/-- The snapshot of a link (R117). -/
structure Snapshot where
  degrade : BitVec 16
  saturated : Bool
  peak : BitVec 8
  taken : Second
deriving DecidableEq, Repr

/-- The REPIN summary of a link (R141). -/
structure RepinSummary where
  moved : Nat
  held : Nat
  aborted : Bool
  completed : Second
deriving DecidableEq, Repr

/-- A link record (R106). Its pending causes are its set on the attention list (R168); its pinned count is the FTC's. -/
structure LinkRecord where
  config : LinkConfig
  state : LinkState
  badRun : BitVec 8
  goodRun : BitVec 8
  lastQuality : BitVec 6
  lastOccupancy : BitVec 8
  congested : Bool
  deadline : Option Second
  degrade : BitVec 16
  saturated : Bool
  peak : BitVec 8
  snapshot : Snapshot
  repin : RepinSummary
deriving DecidableEq, Repr

/-- R106: the default configuration of link `l`. -/
def LinkConfig.powerOn (l : LinkId) : LinkConfig :=
  { threshold := 20, hysteresis := 4, declareWindow := .fast, clearWindow := 8, staleInterval := 3,
    highWater := 192, lowWater := 64, admitVoice := true, admitInteractive := true, admitBulk := true,
    rank := BitVec.ofNat 4 l.val, fallback := none, stateNotice := .all, congestionNotice := .both,
    snapshotMode := .manual }

/-- R106, R127: the record of link `l` after power-on reset. -/
def LinkRecord.powerOn (l : LinkId) : LinkRecord :=
  { config := .powerOn l, state := .offline, badRun := 0, goodRun := 0, lastQuality := 0, lastOccupancy := 0,
    congested := false, deadline := none, degrade := 0, saturated := false, peak := 0,
    snapshot := { degrade := 0, saturated := false, peak := 0, taken := 0 },
    repin := { moved := 0, held := 0, aborted := false, completed := 0 } }

/-- The LM (R107). -/
structure Lm where
  links : Vector LinkRecord 8
  /-- The drained notices handed by the FTC and not yet taken, at most one for each link (R41). -/
  drained : Vector Bool 8
  /-- The AUTO snapshots that the last advance of the count calls for and that are not yet taken (R117, log 7). -/
  autoDue : Vector Bool 8
deriving DecidableEq, Repr

/-! ## Zone and Agreement Store -/

/-- A zone record (R85). -/
structure ZoneRecord where
  defined : Bool
  cls : ZoneClass
deriving DecidableEq, Repr

/-- An agreement (R88). -/
structure Agreement where
  code : Operator
  active : Bool
  tariff0 : Option TariffIx
  tariff1 : Option TariffIx
  tariff2 : Option TariffIx
  tariff3 : Option TariffIx
deriving DecidableEq, Repr

inductive ExhaustAction where
  | block | redirect
deriving DecidableEq, Repr

inductive NoAnswerAction where
  | block | overdraft
deriving DecidableEq, Repr

/-- The fields of a tariff record other than its state (R92). `carry` is true for YES. -/
structure TariffTerms where
  lowBytes : BitVec 32
  lowSeconds : BitVec 32
  exhaust : ExhaustAction
  timeout : BitVec 8
  noAnswer : NoAnswerAction
  overdraftBytes : BitVec 32
  overdraftSeconds : BitVec 32
  carry : Bool
  bridgeBytes : BitVec 32
  bridgeSeconds : BitVec 32
  flowLimit : BitVec 8
deriving DecidableEq, Repr

/-- A tariff record (R92). -/
structure TariffRecord where
  defined : Bool
  terms : TariffTerms
deriving DecidableEq, Repr

/-- R85: zones 1 to 31 after power-on reset. -/
def ZoneRecord.powerOn : ZoneRecord := { defined := false, cls := 0 }

/-- R92: the fields of every tariff after power-on reset. -/
def TariffTerms.powerOn : TariffTerms :=
  { lowBytes := 1048576, lowSeconds := 60, exhaust := .block, timeout := 30, noAnswer := .block,
    overdraftBytes := 0, overdraftSeconds := 0, carry := true, bridgeBytes := 0, bridgeSeconds := 0,
    flowLimit := 16 }

/-- The ZAS (R87). -/
structure Zas where
  zones : Vector ZoneRecord 32
  agreements : List Agreement
  tariffs : Vector TariffRecord 64
  currentZone : ZoneIx
  zoneEpoch : Epoch
  policyEpoch : Epoch
deriving DecidableEq, Repr

/-! ## Table Walker -/

/-- An entry of the walk queue: a kind and, for REPIN, its link (R128). -/
inductive WalkEntry where
  | age | zone | recheck
  | repin (link : LinkId)
deriving DecidableEq, Repr

/-- The running counts of a walk (R130); a walk uses those of its kind. -/
structure WalkCounts where
  subsRetired : Nat
  flowsRetired : Nat
  closed : Nat
  held : Nat
  barred : Nat
  rechecked : Nat
  cleared : Nat
  moved : Nat
  flowsHeld : Nat
deriving DecidableEq, Repr

def WalkCounts.zero : WalkCounts :=
  { subsRetired := 0, flowsRetired := 0, closed := 0, held := 0, barred := 0, rechecked := 0, cleared := 0,
    moved := 0, flowsHeld := 0 }

/-- What the walker holds while WALKING (R130). `flowPass` is pass 2 of an AGE walk. -/
structure Walk where
  entry : WalkEntry
  flowPass : Bool
  cursor : Nat
  counts : WalkCounts
  started : Second
  zone : ZoneIx
  zoneEpoch : Epoch
  policyEpoch : Epoch
deriving DecidableEq, Repr

structure AgeSummary where
  subsRetired : Nat
  flowsRetired : Nat
  started : Second
  completed : Second
deriving DecidableEq, Repr

structure ZoneSummary where
  zone : ZoneIx
  zoneEpoch : Epoch
  closed : Nat
  held : Nat
  barred : Nat
  completed : Second
deriving DecidableEq, Repr

structure RecheckSummary where
  policyEpoch : Epoch
  rechecked : Nat
  barred : Nat
  cleared : Nat
  held : Nat
  completed : Second
deriving DecidableEq, Repr

/-- The TW (R128, R130, R132). The walker is IDLE when `walk` is none. `third` holds the empty role, or, while an AGE
walk is in progress, the doomed role. -/
structure Tw where
  queue : List WalkEntry
  walk : Option Walk
  currentMark : Mark
  previousMark : Mark
  thirdMark : Mark
  ageSummary : AgeSummary
  zoneSummary : ZoneSummary
  recheckSummary : RecheckSummary
deriving DecidableEq, Repr

/-! ## Attention List and Timebase -/

/-- A record that can stand on the attention list (section 10.1). -/
inductive AttnRecord where
  | subscriber (index : SubIx)
  | link (l : LinkId)
  | walker
  | device
deriving DecidableEq, Repr

/-- An entry of the attention list (R168): a record and its pending causes, as a cause word (R179). -/
structure AttnEntry where
  record : AttnRecord
  causes : Word
deriving DecidableEq, Repr

/-- The AL/TB, with the DEVICE record (R168, R172 to R174, R144). -/
structure Al where
  list : List AttnEntry
  overrunBitmap : BitVec 8
  /-- The device state: READY, else INIT (R173). -/
  ready : Bool
  count : Second
  ageInterval : Word
  ageDeadline : Option Second
  interruptEnable : Bool
deriving DecidableEq, Repr

/-! ## Channel Interface: requests, answers, channel records -/

inductive GuardTest where
  | eq | lt | gt | allBits | anyBits
deriving DecidableEq, Repr

/-- The guardable fields of a subscriber record (R147). -/
inductive SubGuardField where
  | state | cls | flowCount | byteAllowance | secondsAllowance | grantState | closedOccupied | permanent | userWord
deriving DecidableEq, Repr

/-- The guardable fields of a flow record (R147). -/
inductive FlowGuardField where
  | state | cls | pin | userWord
deriving DecidableEq, Repr

/-- A guard part (R146) on a record kind's fields `φ`. -/
structure Guard (φ : Type) where
  field : φ
  test : GuardTest
  negate : Bool
  operand : Word
deriving DecidableEq, Repr

abbrev SubGuard := Guard SubGuardField
abbrev FlowGuard := Guard FlowGuardField

inductive SubSection where
  | identity | charging | flows
deriving DecidableEq, Repr

inductive SubField where
  | userWord | permanent | so
deriving DecidableEq, Repr

inductive FlowField where
  | userWord | cls
deriving DecidableEq, Repr

inductive UpdateAction where
  | set | addSat | setBits | clearBits
deriving DecidableEq, Repr

inductive SettlePart where
  | closed | current | both
deriving DecidableEq, Repr

inductive LinkCommand where
  | enable | disable | drain | inject | snapshot
deriving DecidableEq, Repr

inductive WalkSection where
  | walker | summaries
deriving DecidableEq, Repr

/-- The walk kinds of WALK_ABORT (R180). -/
inductive WalkKind where
  | age | zone | recheck | repin
deriving DecidableEq, Repr

inductive NoticeFilter where
  | subscriber | link | walker | device | any
deriving DecidableEq, Repr

/-- A request that has passed the form check, with its operands as its message holds them (R180). A field wide enough
to hold a value outside its range keeps that value for the owner's check. -/
inductive Request where
  | attach (tag : Tag) (cls : BitVec 2) (permanent : Bool) (tariff : TariffIx) (home : Operator)
  | detach (handle : SubHandle) (guard : Option SubGuard)
  | subFind (tag : Tag)
  | subRead (handle : SubHandle) (guard : Option SubGuard) (part : SubSection) (start : BitVec 8)
  | subUpdate (handle : SubHandle) (guard : Option SubGuard) (field : SubField) (action : UpdateAction) (value : Word)
  | grant (handle : SubHandle) (guard : Option SubGuard) (bytes seconds : Word)
  | settle (handle : SubHandle) (guard : Option SubGuard) (part : SettlePart)
  | usagePost (handle : SubHandle) (cls : BitVec 3) (bytes seconds : Word)
  | flowOpen (handle : SubHandle) (address : BitVec 128) (remotePort localPort : BitVec 16) (protocol : BitVec 8)
      (cls : BitVec 3) (reclaim : Bool)
  | flowClose (handle : FlowHandle) (guard : Option FlowGuard)
  | flowFind (key : FlowKey)
  | charge (handle : FlowHandle) (bytes : BitVec 16) (seconds : BitVec 8)
  | flowRead (handle : FlowHandle) (guard : Option FlowGuard)
  | flowUpdate (handle : FlowHandle) (guard : Option FlowGuard) (field : FlowField) (action : UpdateAction)
      (value : Word)
  | linkReport (link : BitVec 4) (quality occupancy : BitVec 8)
  | linkAdmin (link : BitVec 4) (command : LinkCommand)
  /-- `config.fallback` is the link that `fallbackCode` names, none for every other code. -/
  | linkConfig (link : BitVec 4) (config : LinkConfig) (fallbackCode : BitVec 4)
  | linkRead (link : BitVec 4)
  | zoneChange (zone : BitVec 8) (force : Bool)
  | zoneDefine (zone : BitVec 8) (state : BitVec 2) (cls : BitVec 8)
  | zoneRead (zone : BitVec 8)
  | agreementSet (code : Operator) (state : BitVec 2) (tariff0 tariff1 tariff2 tariff3 : BitVec 8)
  | agreementRemove (code : Operator)
  | agreementFind (code : Operator) (next : Bool)
  | tariffSet (index : BitVec 8) (terms : TariffTerms)
  | tariffRead (index : BitVec 8)
  | age
  | walkStatus (part : WalkSection)
  | walkAbort (kind : WalkKind) (selector : BitVec 8)
  | noticeFetch (filter : NoticeFilter)
  | deviceStatus
  | deviceConfig (interval : Word) (enable : Bool)
  | channelStatus (channel : BitVec 8)
  | clearFault
  | channelSet (channel : BitVec 8) (cls : OwnerClass) (quiet : Bool)
  | channelReset (channel : BitVec 8)
  | softReset
deriving DecidableEq, Repr

/-- The condition bits of an answer (R20, R149). -/
structure Nibble where
  lt : Bool
  gt : Bool
  eq : Bool
  so : Bool
deriving DecidableEq, Repr

/-- The flags of the status word (R181). -/
structure AnswerFlags where
  revived : Bool := false
  closeFollowed : Bool := false
  repinned : Bool := false
  forced : Bool := false
  policyAdvanced : Bool := false
  replaced : Bool := false
  definedNew : Bool := false
deriving DecidableEq, Repr

/-- What an owner gives for a request's answer: all but the kind and the tag (R159, R181). -/
structure Reply where
  status : Status
  nibble : Nibble
  flags : AnswerFlags
  body : List Word
deriving DecidableEq, Repr

/-- An answer in a response FIFO (R159, R181). -/
structure Answer where
  kind : BitVec 8
  tag : BitVec 16
  reply : Reply
deriving DecidableEq, Repr

/-- A message in a request FIFO: its words, header first, and the mark of an unfitting count (R156). -/
structure Message where
  words : List Word
  unfitting : Bool
deriving DecidableEq, Repr

/-- A held fault: status, kind and tag of a failed posted request (R155, R162). -/
structure HeldFault where
  status : Status
  kind : BitVec 8
  tag : BitVec 16
deriving DecidableEq, Repr

/-- The outstanding request of a channel, with the discard mark of CHANNEL_RESET (R159, R166). -/
structure Outstanding where
  tag : BitVec 16
  request : Request
  discard : Bool
deriving DecidableEq, Repr

/-- A channel record (R155). -/
structure ChannelRecord where
  ownerClass : OwnerClass
  quiet : Bool
  pendingFault : Option HeldFault
  faultOverflow : BitVec 8
  overrun : Bool
  requests : List Message
  responses : List Answer
  staging : Vector Word 16
  outstanding : Option Outstanding
deriving DecidableEq, Repr

/-- How far a SOFT_RESET has come (R167): none taken; taken from a channel and waiting until no other request is
outstanding; clearing, with whether the attention list has been emptied (R178). -/
inductive SoftResetPhase where
  | idle
  | waiting (ch : Chan)
  | clearing (ch : Chan) (listEmptied : Bool)
deriving DecidableEq, Repr

/-- The CI (R155, R167). -/
structure Ci where
  channels : Vector ChannelRecord 8
  softReset : SoftResetPhase
deriving DecidableEq, Repr

/-- R155: the owner class of channel `ch` after power-on reset. -/
def OwnerClass.powerOn (ch : Chan) : OwnerClass :=
  match ch with
  | 0 | 1 | 2 | 3 => .gateway
  | 4 => .cell
  | 5 => .backhaul
  | 6 => .billing
  | 7 => .supervisor

/-- R155: the record of channel `ch` after power-on reset. -/
def ChannelRecord.powerOn (ch : Chan) : ChannelRecord :=
  { ownerClass := .powerOn ch, quiet := false, pendingFault := none, faultOverflow := 0, overrun := false,
    requests := [], responses := [], staging := Vector.replicate 16 0, outstanding := none }

/-! ## The whole part -/

/-- The part stops with no fault: a failed request is an answer with a status or a deferred fault of its channel
(R161, R162), so there is no constructor. -/
inductive Fault where
deriving DecidableEq, Repr

/-- Reasons for which the model has no meaning for a command. -/
inductive Refusal where
  /-- Raised by an arm of exec whose command has no meaning yet; safe. No arm raises it. -/
  | notModelled (mnemonic : String)
deriving DecidableEq, Repr

structure State where
  /-- RESET_N is asserted (R175). -/
  resetHeld : Bool
  ci : Ci
  stc : Stc
  ftc : Ftc
  lm : Lm
  zas : Zas
  tw : Tw
  al : Al
  /-- The commands that are waiting, first in, first out; the model's own queue (log 2). -/
  pending : List Instr
deriving DecidableEq, Repr

/-- R2, R23, R26, R42: after a reset an arbiter holds channel 7 as the last granted. -/
def arbiterStart : Chan := 7

def Stc.powerOn : Stc :=
  { subs := [], unwind := [], deadlines := [], closedCount := 0, lastGranted := arbiterStart }

def Ftc.powerOn : Ftc :=
  { flows := [], plru := [], pinned := Vector.replicate 8 0, lastGranted := arbiterStart }

def Lm.powerOn : Lm :=
  { links := #v[.powerOn 0, .powerOn 1, .powerOn 2, .powerOn 3, .powerOn 4, .powerOn 5, .powerOn 6, .powerOn 7],
    drained := Vector.replicate 8 false, autoDue := Vector.replicate 8 false }

/-- R105. -/
def Zas.powerOn : Zas :=
  { zones := (Vector.replicate 32 .powerOn).set 0 { defined := true, cls := 0 }, agreements := [],
    tariffs := (Vector.replicate 64 { defined := false, terms := .powerOn }).set 0
      { defined := true, terms := .powerOn },
    currentZone := 0, zoneEpoch := 0, policyEpoch := 0 }

/-- R132, R145: marks current 0, previous 2, empty 1. -/
def Tw.powerOn : Tw :=
  { queue := [], walk := none, currentMark := 0, previousMark := 2, thirdMark := 1,
    ageSummary := { subsRetired := 0, flowsRetired := 0, started := 0, completed := 0 },
    zoneSummary := { zone := 0, zoneEpoch := 0, closed := 0, held := 0, barred := 0, completed := 0 },
    recheckSummary := { policyEpoch := 0, rechecked := 0, barred := 0, cleared := 0, held := 0, completed := 0 } }

def Al.powerOn : Al :=
  { list := [], overrunBitmap := 0, ready := false, count := 0, ageInterval := 0, ageDeadline := none,
    interruptEnable := false }

def Ci.powerOn : Ci :=
  { channels := #v[.powerOn 0, .powerOn 1, .powerOn 2, .powerOn 3, .powerOn 4, .powerOn 5, .powerOn 6, .powerOn 7],
    softReset := .idle }

/-- The part right after the assertion of RESET_N (R175): every block in its power-on state, device INIT, RESET_N
still asserted (log 3). -/
def State.reset : State :=
  { resetHeld := true, ci := .powerOn, stc := .powerOn, ftc := .powerOn, lm := .powerOn, zas := .powerOn,
    tw := .powerOn, al := .powerOn, pending := [] }

end Sys2Proof.Machine
end

