-- ==== Sys2Proof/Machine/Ops.lean ====
section
/-! DEFINITION. The named operations over the state: tables, records, the attention list, the walk queue, the channel
arbiters, claims, answers and deferred faults. -/

namespace Sys2Proof.Machine

/-! ## Tables -/

/-- The record at index `i`; an index not listed holds the power-on value `d`. -/
def Table.read {α : Type} (d : α) : Table α → Nat → α
  | [], _ => d
  | (k, x) :: rest, i => if k = i then x else Table.read d rest i

/-- Insert an entry before the first entry of a higher index. -/
def Table.place {α : Type} : Table α → Nat → α → Table α
  | [], i, v => [(i, v)]
  | (k, x) :: rest, i, v => if i < k then (i, v) :: (k, x) :: rest else (k, x) :: Table.place rest i v

/-- Write the record at index `i`, keeping the canonical form. -/
def Table.write {α : Type} [DecidableEq α] (d : α) (t : Table α) (i : Nat) (v : α) : Table α :=
  let others := t.filter fun e => e.1 != i
  if v = d then others else Table.place others i v

/-- Apply `f` to every listed record, keeping the canonical form. Unlisted records are not changed, so `f` must keep
the power-on value `d`. -/
def Table.mapRecords {α : Type} [DecidableEq α] (d : α) (f : α → α) (t : Table α) : Table α :=
  (t.map fun e => (e.1, f e.2)).filter fun e => decide (e.2 ≠ d)

/-- The canonical form of a table of `size` records with power-on value `d`. -/
def Table.wf {α : Type} [DecidableEq α] (d : α) (size : Nat) (t : Table α) : Bool :=
  decide (t.Pairwise fun a b => a.1 < b.1) && t.all fun e => decide (e.1 < size) && decide (e.2 ≠ d)

/-! ## Records -/

def State.sub (s : State) (i : SubIx) : SubRecord := Table.read .powerOn s.stc.subs i.toNat

def State.setSub (s : State) (i : SubIx) (r : SubRecord) : State :=
  { s with stc := { s.stc with subs := Table.write .powerOn s.stc.subs i.toNat r } }

def State.flow (s : State) (i : FlowIx) : FlowRecord := Table.read .powerOn s.ftc.flows i.toNat

def State.setFlow (s : State) (i : FlowIx) (r : FlowRecord) : State :=
  { s with ftc := { s.ftc with flows := Table.write .powerOn s.ftc.flows i.toNat r } }

/-- The pseudo-LRU bits of a flow bucket (R28). -/
def State.plru (s : State) (b : BitVec 12) : Plru := Table.read .powerOn s.ftc.plru b.toNat

def State.setPlru (s : State) (b : BitVec 12) (p : Plru) : State :=
  { s with ftc := { s.ftc with plru := Table.write .powerOn s.ftc.plru b.toNat p } }

def State.pinnedCount (s : State) (l : LinkId) : Nat := s.ftc.pinned[l]

def State.setPinned (s : State) (l : LinkId) (n : Nat) : State :=
  { s with ftc := { s.ftc with pinned := s.ftc.pinned.set l.val n l.isLt } }

def State.link (s : State) (l : LinkId) : LinkRecord := s.lm.links[l]

def State.setLink (s : State) (l : LinkId) (r : LinkRecord) : State :=
  { s with lm := { s.lm with links := s.lm.links.set l.val r l.isLt } }

/-- Is a drained notice for the link waiting at the LM (R41)? -/
def State.drainedWaiting (s : State) (l : LinkId) : Bool := s.lm.drained[l]

def State.setDrained (s : State) (l : LinkId) (b : Bool) : State :=
  { s with lm := { s.lm with drained := s.lm.drained.set l.val b l.isLt } }

/-- Is an AUTO snapshot of the link due (R117)? -/
def State.autoSnapshotDue (s : State) (l : LinkId) : Bool := s.lm.autoDue[l]

def State.setAutoDue (s : State) (l : LinkId) (b : Bool) : State :=
  { s with lm := { s.lm with autoDue := s.lm.autoDue.set l.val b l.isLt } }

def State.zone (s : State) (z : ZoneIx) : ZoneRecord := s.zas.zones[z.toNat]'z.isLt

def State.setZone (s : State) (z : ZoneIx) (r : ZoneRecord) : State :=
  { s with zas := { s.zas with zones := s.zas.zones.set z.toNat r z.isLt } }

def State.tariff (s : State) (t : TariffIx) : TariffRecord := s.zas.tariffs[t.toNat]'t.isLt

def State.setTariff (s : State) (t : TariffIx) (r : TariffRecord) : State :=
  { s with zas := { s.zas with tariffs := s.zas.tariffs.set t.toNat r t.isLt } }

def State.chan (s : State) (ch : Chan) : ChannelRecord := s.ci.channels[ch]

def State.setChan (s : State) (ch : Chan) (c : ChannelRecord) : State :=
  { s with ci := { s.ci with channels := s.ci.channels.set ch.val c ch.isLt } }

/-- Live: in any state other than VACANT (00_scope section 5). -/
def SubRecord.live (r : SubRecord) : Bool := r.state != .vacant

def FlowRecord.live (f : FlowRecord) : Bool := f.state != .vacant

/-- The pin of an OPEN flow; a HELD flow has none (R39). -/
def FlowRecord.pin (f : FlowRecord) : Option LinkId :=
  match f.state with
  | .opened l => some l
  | .held => none
  | .vacant => none

/-- The flow count is the length of the flow list (section 2.6). -/
def SubRecord.flowCount (r : SubRecord) : Nat := r.flowList.length

/-- Usage is nonzero when its byte count or its seconds count is above zero (section 1.5). -/
def Usage.nonzero (u : Usage) : Bool := u.bytes != 0 || u.seconds != 0

/-- Section 1.5: the current accumulator is nonzero or the closed slot is occupied. -/
def SubRecord.unsettledUsage (r : SubRecord) : Bool := r.current.nonzero || r.closed.isSome

/-- The records of class PASSENGER and CREW are charged (R1, R47). -/
def SubRecord.charged (r : SubRecord) : Bool := r.cls != .shipSystem

/-! ## Saturating counts (00_scope section 6) -/

/-- Add and hold at the maximum of the width. -/
def satAdd {w : Nat} (x : BitVec w) (n : Nat) : BitVec w :=
  if x.toNat + n < 2 ^ w then BitVec.ofNat w (x.toNat + n) else BitVec.allOnes w

/-- Does the true sum exceed the maximum of the width? -/
def exceeds {w : Nat} (x : BitVec w) (n : Nat) : Bool := decide (2 ^ w ≤ x.toNat + n)

/-! ## Buckets -/

/-- R3: seven groups of the tag, 10 bits each from the least significant end (the seventh holds 4), combined by
exclusive OR. -/
def subBucket (tag : Tag) : BitVec 10 :=
  ((List.range 7).map fun g => tag.extractLsb' (10 * g) 10).foldl (· ^^^ ·) 0

/-- R3: way `w` of subscriber bucket `b` is record 4b + w. -/
def subWay (b : BitVec 10) (w : BitVec 2) : SubIx := b ++ w

/-- R27: the 180 bits of a key laid end to end. -/
def FlowKey.bits (k : FlowKey) : BitVec 180 :=
  k.subscriber ++ k.address ++ k.remotePort ++ k.localPort ++ k.protocol

/-- R27: fifteen groups of 12 bits combined by exclusive OR. -/
def flowBucket (k : FlowKey) : BitVec 12 :=
  ((List.range 15).map fun g => k.bits.extractLsb' (12 * g) 12).foldl (· ^^^ ·) 0

/-- R27: way `w` of flow bucket `b` is record 4b + w. -/
def flowWay (b : BitVec 12) (w : BitVec 2) : FlowIx := b ++ w

/-- The bucket and the way of a flow record. -/
def bucketOf (i : FlowIx) : BitVec 12 := i.extractLsb' 2 12
def wayOf (i : FlowIx) : BitVec 2 := i.extractLsb' 0 2

/-- The ways of a bucket, lowest number first. -/
def ways : List (BitVec 2) := [0, 1, 2, 3]

/-- R3: the live record whose tag equals the tag sought. -/
def State.findTag (s : State) (tag : Tag) : Option SubIx :=
  (ways.map (subWay (subBucket tag))).find? fun i => (s.sub i).live && (s.sub i).tag == tag

/-- R3: the VACANT way of lowest number of the tag's bucket. -/
def State.vacantSub (s : State) (tag : Tag) : Option SubIx :=
  (ways.map (subWay (subBucket tag))).find? fun i => !(s.sub i).live

/-- R27: the live flow whose key equals the key sought. -/
def State.findKey (s : State) (k : FlowKey) : Option FlowIx :=
  (ways.map (flowWay (flowBucket k))).find? fun i => (s.flow i).live && (s.flow i).key == k

/-- R27: the VACANT way of lowest number of the key's bucket. -/
def State.vacantFlow (s : State) (k : FlowKey) : Option FlowIx :=
  (ways.map (flowWay (flowBucket k))).find? fun i => !(s.flow i).live

/-! ## Handles -/

/-- R4: the record a subscriber handle names, none when it is stale. -/
def State.subOf (s : State) (h : SubHandle) : Option SubRecord :=
  let r := s.sub h.index
  if r.live && r.stamp == h.stamp then some r else none

/-- R29: the record a flow handle names, none when it is stale. -/
def State.flowOf (s : State) (h : FlowHandle) : Option FlowRecord :=
  let f := s.flow h.index
  if f.live && f.stamp == h.stamp then some f else none

/-- The handle of a record as it stands. -/
def State.subHandle (s : State) (i : SubIx) : SubHandle := { index := i, stamp := (s.sub i).stamp }
def State.flowHandle (s : State) (i : FlowIx) : FlowHandle := { index := i, stamp := (s.flow i).stamp }

/-! ## The attention list (R168, R169) -/

/-- The bit of a cause in the cause word (R179). -/
def Cause.bit : Cause → Nat
  | .grantNeeded => 0 | .grantTimeout => 1 | .exhausted => 2 | .unsettled => 3 | .roamBarred => 4
  | .roamCleared => 5 | .closeHeld => 6
  | .state => 8 | .congestion => 9 | .counterSaturated => 10 | .repinDone => 11
  | .ageDone => 16 | .zoneDone => 17 | .recheckDone => 18
  | .ready => 24 | .channelOverrun => 25

def Cause.mask (c : Cause) : Word := BitVec.twoPow 32 c.bit

/-- R169: a cause joins the record's entry, which keeps its place, or starts an entry at the tail. -/
def raiseIn : List AttnEntry → AttnRecord → Cause → List AttnEntry
  | [], r, c => [{ record := r, causes := c.mask }]
  | e :: rest, r, c =>
    if e.record = r then { e with causes := e.causes ||| c.mask } :: rest else e :: raiseIn rest r c

/-- R169: a cause is withdrawn from the record's set; an entry left with no cause leaves the list. -/
def withdrawIn : List AttnEntry → AttnRecord → Cause → List AttnEntry
  | [], _, _ => []
  | e :: rest, r, c =>
    if e.record = r then
      let left := e.causes &&& ~~~c.mask
      if left = 0 then rest else { e with causes := left } :: rest
    else e :: withdrawIn rest r c

/-- R169: the record's entry leaves the list with all its causes. -/
def removeIn (l : List AttnEntry) (r : AttnRecord) : List AttnEntry :=
  l.filter fun e => decide (e.record ≠ r)

def State.setList (s : State) (l : List AttnEntry) : State := { s with al := { s.al with list := l } }

def State.raise (s : State) (r : AttnRecord) (c : Cause) : State := s.setList (raiseIn s.al.list r c)

def State.withdraw (s : State) (r : AttnRecord) (c : Cause) : State := s.setList (withdrawIn s.al.list r c)

def State.removeEntry (s : State) (r : AttnRecord) : State := s.setList (removeIn s.al.list r)

/-- R168: the pending causes of a record, as a cause word. -/
def State.causesOf (s : State) (r : AttnRecord) : Word :=
  match s.al.list.find? fun e => decide (e.record = r) with
  | some e => e.causes
  | none => 0

/-- R172: ATTN_N is asserted. -/
def State.attnAsserted (s : State) : Bool := !s.al.list.isEmpty && s.al.interruptEnable

/-! ## The walk queue (R128) -/

/-- An addition merges with an identical queued entry, else joins the tail. -/
def State.addWalk (s : State) (e : WalkEntry) : State :=
  if e ∈ s.tw.queue then s else { s with tw := { s.tw with queue := s.tw.queue ++ [e] } }

/-! ## Deadlines -/

/-- The seconds remaining from the present count to a deadline, modulo 2^32 (R70). -/
def State.remaining (s : State) (deadline : Second) : Nat := (deadline - s.al.count).toNat

/-- The count plus a number of seconds, modulo 2^32 (R68, R113, R144). -/
def State.after (s : State) (seconds : Nat) : Second := s.al.count + BitVec.ofNat 32 seconds

/-! ## Requests and their owners (R159) -/

/-- The blocks that take requests (R159, section 3 of 00_scope). -/
inductive Owner where
  | stc | ftc | lm | zas | tw | al | ci
deriving DecidableEq, Repr

/-- The owner block of a request (R2, R26, R87, R107, R129, R142, R143, R155, R170, R176, R177). -/
def Request.owner : Request → Owner
  | .attach .. | .detach .. | .subFind .. | .subRead .. | .subUpdate .. | .grant .. | .settle .. | .usagePost .. => .stc
  | .flowOpen .. | .flowClose .. | .flowFind .. | .charge .. | .flowRead .. | .flowUpdate .. => .ftc
  | .linkReport .. | .linkAdmin .. | .linkConfig .. | .linkRead .. => .lm
  | .zoneChange .. | .zoneDefine .. | .zoneRead .. | .agreementSet .. | .agreementRemove .. | .agreementFind ..
  | .tariffSet .. | .tariffRead .. => .zas
  | .age | .walkStatus .. | .walkAbort .. => .tw
  | .noticeFetch .. | .deviceStatus | .deviceConfig .. => .al
  | .channelStatus .. | .clearFault | .channelSet .. | .channelReset .. | .softReset => .ci

/-- The kind code of a request (R180). -/
def Request.kind : Request → BitVec 8
  | .attach .. => 0x01 | .detach .. => 0x02 | .subFind .. => 0x03 | .subRead .. => 0x04 | .subUpdate .. => 0x05
  | .grant .. => 0x06 | .settle .. => 0x07 | .usagePost .. => 0x08
  | .flowOpen .. => 0x10 | .flowClose .. => 0x11 | .flowFind .. => 0x12 | .charge .. => 0x13
  | .flowRead .. => 0x14 | .flowUpdate .. => 0x15
  | .linkReport .. => 0x20 | .linkAdmin .. => 0x21 | .linkConfig .. => 0x22 | .linkRead .. => 0x23
  | .zoneChange .. => 0x30 | .zoneDefine .. => 0x31 | .zoneRead .. => 0x32 | .agreementSet .. => 0x33
  | .agreementRemove .. => 0x34 | .agreementFind .. => 0x35 | .tariffSet .. => 0x36 | .tariffRead .. => 0x37
  | .age => 0x40 | .walkStatus .. => 0x41 | .walkAbort .. => 0x42
  | .noticeFetch .. => 0x50 | .deviceStatus => 0x51 | .deviceConfig .. => 0x52
  | .channelStatus .. => 0x60 | .clearFault => 0x61 | .channelSet .. => 0x62 | .channelReset .. => 0x63
  | .softReset => 0x64

/-- The request that channel `ch` has outstanding, where `o` is its owner (R159). -/
def State.handed (s : State) (o : Owner) (ch : Chan) : Option Request :=
  match (s.chan ch).outstanding with
  | some out => if out.request.owner = o then some out.request else none
  | none => none

/-- R2, R26: of the channels that wait, the one that follows the last granted in rotation. -/
def nextGranted (last : Chan) (waits : Chan → Bool) : Option Chan :=
  ((List.finRange 8).map fun k => last + 1 + k).find? waits

/-- R2, R26: may the owner take the request of channel `ch` next? At the STC and the FTC the arbiter decides. -/
def State.grants (s : State) (o : Owner) (ch : Chan) : Bool :=
  match o with
  | .stc => nextGranted s.stc.lastGranted (fun c => (s.handed .stc c).isSome) == some ch
  | .ftc => nextGranted s.ftc.lastGranted (fun c => (s.handed .ftc c).isSome) == some ch
  | .lm | .zas | .tw | .al | .ci => true

/-- RESET_N is released, the device is READY and no clearing runs: claims, walks and timers go on (R167, R175). -/
def State.running (s : State) : Bool :=
  !s.resetHeld && s.al.ready &&
    match s.ci.softReset with
    | .idle => true
    | .waiting _ => true
    | .clearing _ _ => false

/-- The request that owner `o` takes as its claim from channel `ch`, none when the claim does not come about. -/
def State.claim (s : State) (o : Owner) (ch : Chan) : Option Request :=
  if s.running && s.grants o ch then s.handed o ch else none

/-- The owner's arbiter holds `ch` as the channel last granted (R2, R26). -/
def State.grantTo (s : State) (o : Owner) (ch : Chan) : State :=
  match o with
  | .stc => { s with stc := { s.stc with lastGranted := ch } }
  | .ftc => { s with ftc := { s.ftc with lastGranted := ch } }
  | .lm | .zas | .tw | .al | .ci => s

/-! ## Answers and deferred faults -/

/-- R159, R166: the request of channel `ch` completes with its answer; an answer marked for discard is dropped. -/
def ChannelRecord.complete (c : ChannelRecord) (r : Reply) : ChannelRecord :=
  match c.outstanding with
  | none => c
  | some out =>
    let answer : Answer := { kind := out.request.kind, tag := out.tag, reply := r }
    { c with
      outstanding := none
      responses := if out.discard then c.responses else c.responses ++ [answer] }

def State.complete (s : State) (ch : Chan) (r : Reply) : State := s.setChan ch ((s.chan ch).complete r)

/-- A claim taken whole: the state it leaves and its answer. -/
abbrev Taken := State × Reply

/-- The claim's answer joins the response FIFO in the claim itself (R159). -/
def Taken.finish (t : Taken) (ch : Chan) : State := t.1.complete ch t.2

/-- R162: a failed posted request becomes the pending fault, or increases the overflow count. -/
def ChannelRecord.recordFault (c : ChannelRecord) (f : HeldFault) : ChannelRecord :=
  if !c.quiet && c.pendingFault.isNone then { c with pendingFault := some f }
  else { c with faultOverflow := satAdd c.faultOverflow 1 }

/-- R159, R162, R166: a posted request completes; a failure is recorded unless the request is marked for discard. -/
def ChannelRecord.completePosted (c : ChannelRecord) (failure : Option Status) : ChannelRecord :=
  match c.outstanding with
  | none => c
  | some out =>
    let freed := { c with outstanding := none }
    match failure with
    | none => freed
    | some st =>
      if out.discard then freed
      else freed.recordFault { status := st, kind := out.request.kind, tag := out.tag }

def State.completePosted (s : State) (ch : Chan) (failure : Option Status) : State :=
  s.setChan ch ((s.chan ch).completePosted failure)

end Sys2Proof.Machine
end

