-- ==== Sys2Proof/Machine/Operands.lean ====
section
/-! DEFINITION. The operand forms: request messages read word by word (R156, R180), their form (R161), and whom a
request is permitted to (R160). -/

namespace Sys2Proof

/-! ## Bit fields -/

/-- Bits `lo` to `lo + len - 1` of a word. -/
def Word.field (w : Word) (lo len : Nat) : BitVec len := w.extractLsb' lo len

/-- Bit `n` of a word as a flag. -/
def Word.flag (w : Word) (n : Nat) : Bool := w.getLsbD n

/-- Replace byte `k` of a little-endian word (R179). -/
def Word.setByte (w : Word) (k : Nat) (b : Byte) : Word :=
  (w &&& ~~~((0xFF : Word) <<< (8 * k))) ||| ((b.setWidth 32) <<< (8 * k))

/-- Byte `k` of a little-endian word (R179). -/
def Word.byte (w : Word) (k : Nat) : Byte := w.extractLsb' (8 * k) 8

/-- A subscriber handle word and a flow handle word (R179). -/
def Word.subHandle (w : Word) : Machine.SubHandle := { index := w.field 0 12, stamp := w.field 16 8 }

def Word.flowHandle (w : Word) : Machine.FlowHandle := { index := w.field 0 14, stamp := w.field 16 8 }

end Sys2Proof

namespace Sys2Proof.Machine

/-! ## The request header and the guard part (R180) -/

def Message.header (m : Message) : Word := m.words.headD 0

/-- The kind field, as it was written. -/
def Message.kind (m : Message) : BitVec 8 := m.header.field 0 8

def Message.tag (m : Message) : BitVec 16 := m.header.field 16 16

def Message.guarded (m : Message) : Bool := m.header.flag 13

/-- R159: USAGE_POST is the posted kind; every other kind, an unknown one included, is answered. -/
def Message.posted (m : Message) : Bool := m.kind == 0x08

/-- The word count of a request header (R180). -/
def headerCount (header : Word) : Nat := (header.field 8 5).toNat

/-- R180: the bits of a header that are not reserved. -/
def headerMask : Word := 0xFFFF3FFF

/-- R180: the bits of a guard's first word that are not reserved. -/
def guardMask : Word := 0x0000870F

/-- R180: the bits of a subscriber handle word, of a flow handle word, and of a whole word. -/
def subHandleMask : Word := 0x00FF0FFF
def flowHandleMask : Word := 0x00FF3FFF
def wholeMask : Word := 0xFFFFFFFF

/-- R180: for each kind, the bits of each body word that are not reserved; the fitting word count is one more than
their number. None for an unknown kind. -/
def bodyMasks (kind : BitVec 8) : Option (List Word) :=
  match kind with
  | 0x01 => some [wholeMask, wholeMask, 0x00003F13, 0x00FFFFFF]
  | 0x02 => some [subHandleMask]
  | 0x03 => some [wholeMask, wholeMask]
  | 0x04 => some [subHandleMask, 0x0000FF03]
  | 0x05 => some [subHandleMask, 0x00000033, wholeMask]
  | 0x06 => some [subHandleMask, wholeMask, wholeMask]
  | 0x07 => some [subHandleMask, 0x00000003]
  | 0x08 => some [subHandleMask, 0x00000007, wholeMask, wholeMask]
  | 0x10 => some [subHandleMask, wholeMask, wholeMask, wholeMask, wholeMask, wholeMask, 0x000107FF]
  | 0x11 => some [flowHandleMask]
  | 0x12 => some [0x00000FFF, wholeMask, wholeMask, wholeMask, wholeMask, wholeMask, 0x000000FF]
  | 0x13 => some [flowHandleMask, 0x00FFFFFF]
  | 0x14 => some [flowHandleMask]
  | 0x15 => some [flowHandleMask, 0x00000033, wholeMask]
  | 0x20 => some [0x00FFFF0F]
  | 0x21 => some [0x0000070F]
  | 0x22 => some [0x0000000F, 0x3F7F1F3F, 0x00F7FFFF, 0x0000070F]
  | 0x23 => some [0x0000000F]
  | 0x30 => some [0x000100FF]
  | 0x31 => some [0x00FF03FF]
  | 0x32 => some [0x000000FF]
  | 0x33 => some [0x03FFFFFF, wholeMask]
  | 0x34 => some [0x00FFFFFF]
  | 0x35 => some [0x01FFFFFF]
  | 0x36 => some [0xFFFF07FF, wholeMask, wholeMask, wholeMask, wholeMask, wholeMask, wholeMask]
  | 0x37 => some [0x000000FF]
  | 0x40 => some []
  | 0x41 => some [0x00000003]
  | 0x42 => some [0x0000FF03]
  | 0x50 => some [0x00000007]
  | 0x51 => some []
  | 0x52 => some [wholeMask, 0x00000001]
  | 0x60 => some [0x000000FF]
  | 0x61 => some []
  | 0x62 => some [0x000107FF]
  | 0x63 => some [0x000000FF]
  | 0x64 => some []
  | _ => none

/-- R146: the kinds that may carry a guard on a subscriber field, and on a flow field. -/
def guardsSub (kind : BitVec 8) : Bool := kind ∈ [0x02, 0x04, 0x05, 0x06, 0x07]
def guardsFlow (kind : BitVec 8) : Bool := kind ∈ [0x11, 0x14, 0x15]

/-- R161: every bit outside the masks is 0, and there are as many words as masks. -/
def fits : List Word → List Word → Bool
  | [], [] => true
  | w :: ws, m :: ms => (w &&& ~~~m) == 0 && fits ws ms
  | [], _ :: _ => false
  | _ :: _, [] => false

/-- The words of a message after its header: its guard words, if the header says that it has some, and its body. -/
def Message.parts (m : Message) : Option (Option (Word × Word) × List Word) :=
  match m.guarded, m.words.tail with
  | false, body => some (none, body)
  | true, g1 :: g2 :: body => some (some (g1, g2), body)
  | true, _ => none

def guardTest (code : BitVec 3) : Option GuardTest :=
  match code with
  | 0 => some .eq
  | 1 => some .lt
  | 2 => some .gt
  | 3 => some .allBits
  | 4 => some .anyBits
  | _ => none

def subGuardField (code : BitVec 4) : Option SubGuardField :=
  match code with
  | 0 => some .state
  | 1 => some .cls
  | 2 => some .flowCount
  | 3 => some .byteAllowance
  | 4 => some .secondsAllowance
  | 5 => some .grantState
  | 6 => some .closedOccupied
  | 7 => some .permanent
  | 8 => some .userWord
  | _ => none

def flowGuardField (code : BitVec 4) : Option FlowGuardField :=
  match code with
  | 0 => some .state
  | 1 => some .cls
  | 2 => some .pin
  | 3 => some .userWord
  | _ => none

/-- R180: a guard part, whose field selector is read by `field`. None when it is malformed (R146, R161). -/
def readGuard {φ : Type} (field : BitVec 4 → Option φ) (w1 w2 : Word) : Option (Guard φ) := do
  if (w1 &&& ~~~guardMask) != 0 then none
  let f ← field (w1.field 0 4)
  let t ← guardTest (w1.field 8 3)
  some { field := f, test := t, negate := w1.flag 15, operand := w2 }

/-- The guard of a request, absent or read; the outer none is MALFORMED. -/
def optionalGuard {φ : Type} (field : BitVec 4 → Option φ) : Option (Word × Word) → Option (Option (Guard φ))
  | none => some none
  | some (w1, w2) => (readGuard field w1 w2).map some

/-! ## Named alternatives (R161, R180) -/

def subSection (code : BitVec 2) : Option SubSection :=
  match code with
  | 0 => some .identity
  | 1 => some .charging
  | 2 => some .flows
  | _ => none

def subField (code : BitVec 2) : Option SubField :=
  match code with
  | 0 => some .userWord
  | 1 => some .permanent
  | 2 => some .so
  | _ => none

def flowField (code : BitVec 2) : Option FlowField :=
  match code with
  | 0 => some .userWord
  | 1 => some .cls
  | _ => none

def updateAction (code : BitVec 2) : UpdateAction :=
  match code with
  | 0 => .set
  | 1 => .addSat
  | 2 => .setBits
  | 3 => .clearBits

def settlePart (code : BitVec 2) : Option SettlePart :=
  match code with
  | 1 => some .closed
  | 2 => some .current
  | 3 => some .both
  | _ => none

def linkCommand (code : BitVec 3) : Option LinkCommand :=
  match code with
  | 0 => some .enable
  | 1 => some .disable
  | 2 => some .drain
  | 3 => some .inject
  | 4 => some .snapshot
  | _ => none

def walkSection (code : BitVec 2) : Option WalkSection :=
  match code with
  | 0 => some .walker
  | 1 => some .summaries
  | _ => none

def walkKind (code : BitVec 2) : WalkKind :=
  match code with
  | 0 => .age
  | 1 => .zone
  | 2 => .recheck
  | 3 => .repin

def noticeFilter (code : BitVec 3) : Option NoticeFilter :=
  match code with
  | 0 => some .subscriber
  | 1 => some .link
  | 2 => some .walker
  | 3 => some .device
  | 4 => some .any
  | _ => none

def ownerClass (code : BitVec 3) : Option OwnerClass :=
  match code with
  | 0 => some .gateway
  | 1 => some .cell
  | 2 => some .backhaul
  | 3 => some .billing
  | 4 => some .supervisor
  | _ => none

/-! ## Range-checked codes, read by the owners -/

/-- The subscriber class codes (R147); code 3 is outside the range (R5). -/
def subClass (code : BitVec 2) : Option SubClass :=
  match code with
  | 0 => some .passenger
  | 1 => some .crew
  | 2 => some .shipSystem
  | _ => none

/-- The flow class codes (R147); codes above 3 are outside the range (R31, R66). -/
def flowClass (code : BitVec 3) : Option FlowClass :=
  match code with
  | 0 => some .emergency
  | 1 => some .voice
  | 2 => some .interactive
  | 3 => some .bulk
  | _ => none

/-- A link number 0 to 7 in a four-bit field, none when it is above 7. -/
def linkOf (code : BitVec 4) : Option LinkId :=
  if h : code.toNat < 8 then some ⟨code.toNat, h⟩ else none

/-- A channel number 0 to 7 in an eight-bit field, none when it is above 7. -/
def chanOf (code : BitVec 8) : Option Chan :=
  if h : code.toNat < 8 then some ⟨code.toNat, h⟩ else none

/-- R179: an agreement's tariff field: 0 to 63, or NONE as 255; the outer none is outside the range. -/
def tariffField (code : BitVec 8) : Option (Option TariffIx) :=
  if code = 255 then some none
  else if code.toNat < 64 then some (some (code.setWidth 6))
  else none

/-! ## Bodies (R180) -/

/-- A 64-bit tag in two words, least significant first (R179). -/
def tagOf (w1 w2 : Word) : Tag := w2 ++ w1

/-- A 128-bit remote address in four words, least significant first (R179). -/
def addressOf (w1 w2 w3 w4 : Word) : BitVec 128 := w4 ++ w3 ++ w2 ++ w1

/-- The configuration fields in words 2 to 4 of LINK_CONFIG (R180). -/
def linkConfigOf (w2 w3 w4 : Word) : LinkConfig :=
  { threshold := w2.field 0 6
    hysteresis := w2.field 8 4
    declareWindow := if w2.flag 12 then .steady else .fast
    clearWindow := w2.field 16 7
    staleInterval := w2.field 24 6
    highWater := w3.field 0 8
    lowWater := w3.field 8 8
    admitVoice := w3.flag 16
    admitInteractive := w3.flag 17
    admitBulk := w3.flag 18
    rank := w3.field 20 4
    fallback := linkOf (w4.field 0 4)
    stateNotice := if w4.flag 8 then .all else .downward
    congestionNotice := if w4.flag 9 then .both else .onset
    snapshotMode := if w4.flag 10 then .auto else .manual }

/-- The fields in words 1 to 7 of TARIFF_SET (R180). -/
def tariffTermsOf (w1 w2 w3 w4 w5 w6 w7 : Word) : TariffTerms :=
  { lowBytes := w2
    lowSeconds := w3
    exhaust := if w1.flag 8 then .redirect else .block
    timeout := w1.field 16 8
    noAnswer := if w1.flag 9 then .overdraft else .block
    overdraftBytes := w4
    overdraftSeconds := w5
    carry := w1.flag 10
    bridgeBytes := w6
    bridgeSeconds := w7
    flowLimit := w1.field 24 8 }

/-- The subscriber requests that take no guard, from their body words. -/
def readSubPlain (kind : BitVec 8) (body : List Word) : Option Request :=
  if kind = 0x01 then
    match body with
    | [w1, w2, w3, w4] =>
      some (.attach (tagOf w1 w2) (w3.field 0 2) (w3.flag 4) (w3.field 8 6) (w4.field 0 24))
    | _ => none
  else if kind = 0x03 then
    match body with
    | [w1, w2] => some (.subFind (tagOf w1 w2))
    | _ => none
  else if kind = 0x08 then
    match body with
    | [w1, w2, w3, w4] => some (.usagePost w1.subHandle (w2.field 0 3) w3 w4)
    | _ => none
  else none

/-- The flow requests that take no guard. -/
def readFlowPlain (kind : BitVec 8) (body : List Word) : Option Request :=
  if kind = 0x10 then
    match body with
    | [w1, w2, w3, w4, w5, w6, w7] =>
      some (.flowOpen w1.subHandle (addressOf w2 w3 w4 w5) (w6.field 0 16) (w6.field 16 16) (w7.field 0 8)
        (w7.field 8 3) (w7.flag 16))
    | _ => none
  else if kind = 0x12 then
    match body with
    | [w1, w2, w3, w4, w5, w6, w7] =>
      some (.flowFind { subscriber := w1.field 0 12, address := addressOf w2 w3 w4 w5, remotePort := w6.field 0 16,
                        localPort := w6.field 16 16, protocol := w7.field 0 8 })
    | _ => none
  else if kind = 0x13 then
    match body with
    | [w1, w2] => some (.charge w1.flowHandle (w2.field 0 16) (w2.field 16 8))
    | _ => none
  else none

/-- The link requests. -/
def readLink (kind : BitVec 8) (body : List Word) : Option Request :=
  if kind = 0x20 then
    match body with
    | [w1] => some (.linkReport (w1.field 0 4) (w1.field 8 8) (w1.field 16 8))
    | _ => none
  else if kind = 0x21 then
    match body with
    | [w1] => (linkCommand (w1.field 8 3)).map fun c => .linkAdmin (w1.field 0 4) c
    | _ => none
  else if kind = 0x22 then
    match body with
    | [w1, w2, w3, w4] => some (.linkConfig (w1.field 0 4) (linkConfigOf w2 w3 w4) (w4.field 0 4))
    | _ => none
  else if kind = 0x23 then
    match body with
    | [w1] => some (.linkRead (w1.field 0 4))
    | _ => none
  else none

/-- The requests on zones, agreements and tariffs. -/
def readZone (kind : BitVec 8) (body : List Word) : Option Request :=
  if kind = 0x30 then
    match body with
    | [w1] => some (.zoneChange (w1.field 0 8) (w1.flag 16))
    | _ => none
  else if kind = 0x31 then
    match body with
    | [w1] => some (.zoneDefine (w1.field 0 8) (w1.field 8 2) (w1.field 16 8))
    | _ => none
  else if kind = 0x32 then
    match body with
    | [w1] => some (.zoneRead (w1.field 0 8))
    | _ => none
  else if kind = 0x33 then
    match body with
    | [w1, w2] =>
      some (.agreementSet (w1.field 0 24) (w1.field 24 2) (w2.field 0 8) (w2.field 8 8) (w2.field 16 8)
        (w2.field 24 8))
    | _ => none
  else if kind = 0x34 then
    match body with
    | [w1] => some (.agreementRemove (w1.field 0 24))
    | _ => none
  else if kind = 0x35 then
    match body with
    | [w1] => some (.agreementFind (w1.field 0 24) (w1.flag 24))
    | _ => none
  else if kind = 0x36 then
    match body with
    | [w1, w2, w3, w4, w5, w6, w7] => some (.tariffSet (w1.field 0 8) (tariffTermsOf w1 w2 w3 w4 w5 w6 w7))
    | _ => none
  else if kind = 0x37 then
    match body with
    | [w1] => some (.tariffRead (w1.field 0 8))
    | _ => none
  else none

/-- The walker's requests. -/
def readWalk (kind : BitVec 8) (body : List Word) : Option Request :=
  if kind = 0x40 then
    match body with
    | [] => some .age
    | _ => none
  else if kind = 0x41 then
    match body with
    | [w1] => (walkSection (w1.field 0 2)).map .walkStatus
    | _ => none
  else if kind = 0x42 then
    match body with
    | [w1] => some (.walkAbort (walkKind (w1.field 0 2)) (w1.field 8 8))
    | _ => none
  else none

/-- The requests of the attention list and the timebase. -/
def readDevice (kind : BitVec 8) (body : List Word) : Option Request :=
  if kind = 0x50 then
    match body with
    | [w1] => (noticeFilter (w1.field 0 3)).map .noticeFetch
    | _ => none
  else if kind = 0x51 then
    match body with
    | [] => some .deviceStatus
    | _ => none
  else if kind = 0x52 then
    match body with
    | [w1, w2] => some (.deviceConfig w1 (w2.flag 0))
    | _ => none
  else none

/-- The requests on channels. -/
def readChannel (kind : BitVec 8) (body : List Word) : Option Request :=
  if kind = 0x60 then
    match body with
    | [w1] => some (.channelStatus (w1.field 0 8))
    | _ => none
  else if kind = 0x61 then
    match body with
    | [] => some .clearFault
    | _ => none
  else if kind = 0x62 then
    match body with
    | [w1] => (ownerClass (w1.field 8 3)).map fun c => .channelSet (w1.field 0 8) c (w1.flag 16)
    | _ => none
  else if kind = 0x63 then
    match body with
    | [w1] => some (.channelReset (w1.field 0 8))
    | _ => none
  else if kind = 0x64 then
    match body with
    | [] => some .softReset
    | _ => none
  else none

/-- The request of a kind that takes no guard, from its body words. -/
def readPlain (kind : BitVec 8) (body : List Word) : Option Request :=
  readSubPlain kind body <|> readFlowPlain kind body <|> readLink kind body <|> readZone kind body
    <|> readWalk kind body <|> readDevice kind body <|> readChannel kind body

/-- The request of a kind that may carry a guard on a subscriber field. -/
def readSubGuarded (kind : BitVec 8) (g : Option SubGuard) (body : List Word) : Option Request :=
  match kind, body with
  | 0x02, [w1] => some (.detach w1.subHandle g)
  | 0x04, [w1, w2] => (subSection (w2.field 0 2)).map fun p => .subRead w1.subHandle g p (w2.field 8 8)
  | 0x05, [w1, w2, w3] =>
    (subField (w2.field 0 2)).map fun f => .subUpdate w1.subHandle g f (updateAction (w2.field 4 2)) w3
  | 0x06, [w1, w2, w3] => some (.grant w1.subHandle g w2 w3)
  | 0x07, [w1, w2] => (settlePart (w2.field 0 2)).map fun p => .settle w1.subHandle g p
  | _, _ => none

/-- The request of a kind that may carry a guard on a flow field. -/
def readFlowGuarded (kind : BitVec 8) (g : Option FlowGuard) (body : List Word) : Option Request :=
  match kind, body with
  | 0x11, [w1] => some (.flowClose w1.flowHandle g)
  | 0x14, [w1] => some (.flowRead w1.flowHandle g)
  | 0x15, [w1, w2, w3] =>
    (flowField (w2.field 0 2)).map fun f => .flowUpdate w1.flowHandle g f (updateAction (w2.field 4 2)) w3
  | _, _ => none

/-- The request of a kind from its guard words and its body words. -/
def readRequest (kind : BitVec 8) (guardWords : Option (Word × Word)) (body : List Word) : Option Request :=
  if guardsSub kind then
    (optionalGuard subGuardField guardWords).bind fun g => readSubGuarded kind g body
  else if guardsFlow kind then
    (optionalGuard flowGuardField guardWords).bind fun g => readFlowGuarded kind g body
  else
    match guardWords with
    | none => readPlain kind body
    | some _ => none

/-- R161, step 2: the request that a message of fitting form holds; none is MALFORMED. -/
def Message.request (m : Message) : Option Request :=
  match bodyMasks m.kind, m.parts with
  | some masks, some (guardWords, body) =>
    if m.unfitting || (m.header &&& ~~~headerMask) != 0 || !fits body masks then none
    else readRequest m.kind guardWords body
  | _, _ => none

/-! ## Permission (R160) -/

/-- R150: the classes that may write a subscriber field. -/
def subFieldPermitted (c : OwnerClass) (f : SubField) : Bool :=
  match f with
  | .userWord => c ∈ [OwnerClass.cell, .billing, .supervisor]
  | .permanent => c ∈ [OwnerClass.cell, .supervisor]
  | .so => c ∈ [OwnerClass.billing, .supervisor]

/-- R160: is the request permitted to channel `ch` of class `c`? -/
def permitted (c : OwnerClass) (ch : Chan) : Request → Bool
  | .attach .. => c == .cell
  | .detach .. => c ∈ [OwnerClass.cell, .supervisor]
  | .subFind .. => c ∈ [OwnerClass.gateway, .cell, .billing, .supervisor]
  | .subRead .. => c ∈ [OwnerClass.gateway, .cell, .billing, .supervisor]
  | .subUpdate _ _ f _ _ => subFieldPermitted c f
  | .grant .. => c == .billing
  | .settle .. => c == .billing
  | .usagePost .. => c == .gateway
  | .flowOpen .. => c == .gateway
  | .flowFind .. => c == .gateway
  | .charge .. => c == .gateway
  | .flowClose .. => c ∈ [OwnerClass.gateway, .supervisor]
  | .flowRead .. => c ∈ [OwnerClass.gateway, .supervisor]
  | .flowUpdate .. => c ∈ [OwnerClass.gateway, .supervisor]
  | .linkReport .. => c == .backhaul
  | .linkAdmin _ command =>
    match command with
    | .inject | .snapshot => c ∈ [OwnerClass.backhaul, .supervisor]
    | .enable | .disable | .drain => c == .supervisor
  | .linkConfig .. => c == .supervisor
  | .linkRead .. => true
  | .zoneChange .. => c ∈ [OwnerClass.cell, .supervisor]
  | .zoneDefine .. => c == .supervisor
  | .zoneRead .. => true
  | .agreementFind .. => true
  | .tariffRead .. => true
  | .agreementSet .. => c ∈ [OwnerClass.billing, .supervisor]
  | .agreementRemove .. => c ∈ [OwnerClass.billing, .supervisor]
  | .tariffSet .. => c ∈ [OwnerClass.billing, .supervisor]
  | .age => c ∈ [OwnerClass.cell, .supervisor]
  | .walkStatus .. => true
  | .walkAbort .. => c == .supervisor
  | .noticeFetch .. => c ∈ [OwnerClass.cell, .billing, .supervisor]
  | .deviceStatus => true
  | .deviceConfig .. => c == .supervisor
  | .softReset => c == .supervisor
  | .channelStatus n => c == .supervisor || n.toNat == ch.val
  | .clearFault => true
  | .channelSet .. => c == .supervisor
  | .channelReset .. => c == .supervisor

end Sys2Proof.Machine
end

