-- ==== Sys2Proof/Machine/Flags.lean ====
section
/-! DEFINITION. The condition nibble (R20, R38, R149), guards (R147, R148) and the codes of enumerated fields. -/

namespace Sys2Proof.Machine

/-! ## Codes (R147, R179, R181) -/

def SubState.code : SubState → Nat
  | .vacant => 0 | .attached => 1 | .roamBarred => 2 | .detaching => 3 | .unsettled => 4

def SubClass.code : SubClass → Nat
  | .passenger => 0 | .crew => 1 | .shipSystem => 2

def GrantState.code : GrantState → Nat
  | .none => 0 | .requested _ => 1 | .timedOut => 2

def FlowState.code : FlowState → Nat
  | .vacant => 0 | .opened _ => 1 | .held => 2

def FlowClass.code : FlowClass → Nat
  | .emergency => 0 | .voice => 1 | .interactive => 2 | .bulk => 3

def LinkState.code : LinkState → Nat
  | .offline => 0 | .probing => 1 | .up => 2 | .lost => 3 | .draining => 4

def OwnerClass.code : OwnerClass → Nat
  | .gateway => 0 | .cell => 1 | .backhaul => 2 | .billing => 3 | .supervisor => 4

def Status.code : Status → Nat
  | .ok => 0 | .late => 1 | .already => 2 | .notFound => 3 | .staleHandle => 4 | .bucketFull => 5
  | .flowLimit => 6 | .tableFull => 7 | .detaching => 8 | .notAttached => 9 | .notPermitted => 10
  | .malformed => 11 | .outOfRange => 12 | .settlePending => 13 | .walkPending => 14 | .guardFalse => 15
  | .deferredFault => 16 | .conflict => 17 | .nothing => 18

/-- R179: an absent pin or link reads 8. -/
def linkCode : Option LinkId → Nat
  | some l => l.val
  | none => 8

/-- R179: a tariff of NONE reads 255. -/
def tariffCode : Option TariffIx → Nat
  | some t => t.toNat
  | none => 255

/-! ## Guards -/

/-- R147: the value a guard reads of a subscriber record. -/
def SubGuardField.value (f : SubGuardField) (r : SubRecord) : Word :=
  match f with
  | .state => BitVec.ofNat 32 r.state.code
  | .cls => BitVec.ofNat 32 r.cls.code
  | .flowCount => BitVec.ofNat 32 r.flowCount
  | .byteAllowance => r.byteAllowance
  | .secondsAllowance => r.secondsAllowance
  | .grantState => BitVec.ofNat 32 r.grant.code
  | .closedOccupied => if r.closed.isSome then 1 else 0
  | .permanent => if r.permanent then 1 else 0
  | .userWord => r.userWord

/-- R147: the value a guard reads of a flow record. -/
def FlowGuardField.value (f : FlowGuardField) (r : FlowRecord) : Word :=
  match f with
  | .state => BitVec.ofNat 32 r.state.code
  | .cls => BitVec.ofNat 32 r.cls.code
  | .pin => BitVec.ofNat 32 (linkCode r.pin)
  | .userWord => r.userWord

/-- R148: the test of a value against an operand, negate clear. -/
def GuardTest.holds (t : GuardTest) (value operand : Word) : Bool :=
  match t with
  | .eq => value == operand
  | .lt => decide (value < operand)
  | .gt => decide (operand < value)
  | .allBits => (value &&& operand) == operand
  | .anyBits => (value &&& operand) != 0

/-- R148: does the guard hold of a value? -/
def Guard.passes {φ : Type} (g : Guard φ) (value : Word) : Bool := g.test.holds value g.operand != g.negate

/-- R146: an absent guard does not stop a request. -/
def subGuardPasses (g : Option SubGuard) (r : SubRecord) : Bool :=
  match g with
  | some g => g.passes (g.field.value r)
  | none => true

def flowGuardPasses (g : Option FlowGuard) (f : FlowRecord) : Bool :=
  match g with
  | some g => g.passes (g.field.value f)
  | none => true

/-! ## Nibbles -/

def Nibble.zero : Nibble := { lt := false, gt := false, eq := false, so := false }

/-- R20: the nibble of an answer that names one live subscriber, from its record. -/
def State.nibbleOf (s : State) (r : SubRecord) : Nibble :=
  { lt := match r.tariff with
      | some t => decide (r.byteAllowance < (s.tariff t).terms.lowBytes)
      | none => false
    gt := r.closed.isSome
    eq := r.byteAllowance == 0
    so := r.so }

/-- R20, of the record at an index as it stands. -/
def State.subNibble (s : State) (i : SubIx) : Nibble := s.nibbleOf (s.sub i)

/-- R149: the nibble of a guarded answer, from the guarded field's value before the claim and SO after it. -/
def guardedNibble (before operand : Word) (so : Bool) : Nibble :=
  { lt := decide (before < operand), gt := decide (operand < before), eq := before == operand, so := so }

/-- The nibble after a claim on subscriber `i`: R149 when a guard was carried, `before` being the record before the
claim, else R20. -/
def State.nibbleAfter (s : State) (i : SubIx) (g : Option SubGuard) (before : SubRecord) : Nibble :=
  match g with
  | some g => guardedNibble (g.field.value before) g.operand (s.sub i).so
  | none => s.subNibble i

/-- The nibble after a claim on a flow of owner `i` (R38, R149). -/
def State.flowNibbleAfter (s : State) (i : SubIx) (g : Option FlowGuard) (before : FlowRecord) : Nibble :=
  match g with
  | some g => guardedNibble (g.field.value before) g.operand (s.sub i).so
  | none => s.subNibble i

end Sys2Proof.Machine
end

