-- ==== Sys2Proof/Machine/Windows.lean ====
section
/-! DEFINITION. The endpoint's memory region: which area and word an offset lies in, and which row of the table a
write transaction is (R156, R158, R179). -/

namespace Sys2Proof.Machine

/-- Where an offset of the memory region lies (R179): a word of a channel's request area, a word of its response
area, or beyond the windows. -/
inductive Place where
  | request (ch : Chan) (word : Fin 16)
  | response (ch : Chan) (word : Fin 16)
  | beyond
deriving DecidableEq, Repr

/-- R179: request areas at 0x040 n, response areas at 0x200 + 0x040 n, word k at its area's offset plus 4k. -/
def placeOf (offset : Nat) : Place :=
  let ch : Chan := Fin.ofNat 8 (offset / 64)
  let word : Fin 16 := Fin.ofNat 16 (offset / 4)
  if offset < 0x200 then .request ch word
  else if offset < 0x400 then .response ch word
  else .beyond

/-- Does the transaction cover a byte of word 0 of channel `ch`'s request area? It then submits a message (R156). -/
def submitsOn (bytes : List Host.Cell) (ch : Chan) : Bool :=
  bytes.any fun b => placeOf b.1 == .request ch 0

/-- Does the transaction cover a byte of word 0 of channel `ch`'s response area? It then releases an answer (R158). -/
def releasesOn (bytes : List Host.Cell) (ch : Chan) : Bool :=
  bytes.any fun b => placeOf b.1 == .response ch 0

/-- Does the byte at this offset go to a staging word (R156)? -/
def stages (offset : Nat) : Bool :=
  match placeOf offset with
  | .request _ _ => true
  | .response _ _ => false
  | .beyond => false

/-- The row of the table that a write transaction is (log 10). -/
inductive WriteRow where
  | submit | release | staging | ignored
deriving DecidableEq, Repr

/-- R156, R158, R179: a transaction that covers a request word 0 submits; one that does not, but covers a response
word 0, releases; one that covers neither, but some staging word, stages; every other one is ignored. -/
def writeRow (bytes : List Host.Cell) : WriteRow :=
  if (List.finRange 8).any (submitsOn bytes) then .submit
  else if (List.finRange 8).any (releasesOn bytes) then .release
  else if bytes.any (fun b => stages b.1) then .staging
  else .ignored

end Sys2Proof.Machine
end

