-- ==== Sys2Proof/Machine/Answers.lean ====
section
/-! DEFINITION. The answers' words (R181): the header, the status word and the bodies; and what the windows read
(R156, R158, R179). The places that R181 does not lay out follow the order of the owning rule (logs 11 to 15). -/

namespace Sys2Proof.Machine

/-! ## Placing contents in words -/

/-- A number placed with its bit 0 at bit `lo` of a word. -/
def put (lo n : Nat) : Word := BitVec.ofNat 32 n <<< lo

/-- A flag at bit `lo` of a word. -/
def putFlag (lo : Nat) (b : Bool) : Word := if b then put lo 1 else 0

/-- A body of `n` words of zeros: a kind's fixed length with every content absent (R181). -/
def blank (n : Nat) : List Word := List.replicate n 0

def SubHandle.word (h : SubHandle) : Word := put 0 h.index.toNat ||| put 16 h.stamp.toNat

def FlowHandle.word (h : FlowHandle) : Word := put 0 h.index.toNat ||| put 16 h.stamp.toNat

/-- A 40-bit count in two words, least significant first (R179). -/
def countWords (n : BitVec 40) : List Word := [n.setWidth 32, put 0 (n.toNat / 2 ^ 32)]

/-- A deadline, 0 where absent (R181). -/
def deadlineWord : Option Second → Word
  | some d => d
  | none => 0

def GrantState.deadline : GrantState → Option Second
  | .requested d => some d
  | .none => Option.none
  | .timedOut => Option.none

/-! ## Replies -/

/-- A reply with no flag. -/
def Reply.of (status : Status) (nibble : Nibble) (body : List Word) : Reply :=
  { status := status, nibble := nibble, flags := {}, body := body }

/-- A reply with a nibble of zero and no flag. -/
def Reply.plain (status : Status) (body : List Word) : Reply := Reply.of status .zero body

/-- The status word (R181). -/
def Reply.statusWord (r : Reply) : Word :=
  put 0 r.status.code
    ||| putFlag 8 r.nibble.lt ||| putFlag 9 r.nibble.gt ||| putFlag 10 r.nibble.eq ||| putFlag 11 r.nibble.so
    ||| putFlag 16 r.flags.revived ||| putFlag 17 r.flags.closeFollowed ||| putFlag 18 r.flags.repinned
    ||| putFlag 19 r.flags.forced ||| putFlag 20 r.flags.policyAdvanced ||| putFlag 21 r.flags.replaced
    ||| putFlag 22 r.flags.definedNew

/-- The word count of an answer: header, status word and body (R181). -/
def Answer.count (a : Answer) : Nat := 2 + a.reply.body.length

/-- The words of an answer (R181). -/
def Answer.words (a : Answer) : List Word :=
  (put 0 a.kind.toNat ||| put 8 a.count ||| put 16 a.tag.toNat) :: a.reply.statusWord :: a.reply.body

/-- Word 2 of a DEFERRED_FAULT answer (R181); 0 where no fault is held. -/
def faultWord : Option HeldFault → Word
  | some f => put 0 f.status.code ||| put 8 f.kind.toNat ||| put 16 f.tag.toNat
  | none => 0

/-! ## The windows as they read -/

/-- R158: word `k` of a channel's response area: the head answer's words, then zeros; with an empty FIFO the empty
header and zeros. R158 and R181 give the empty header a word count of 0; that its kind and tag read 0 as well is the
model's choice (log 24). -/
def ChannelRecord.responseWord (c : ChannelRecord) (k : Nat) : Word :=
  match c.responses with
  | [] => 0
  | a :: _ => a.words.getD k 0

/-- R156, R158, R179: the byte that a read of the memory region finds at an offset. -/
def State.readByte (s : State) (offset : Nat) : Byte :=
  match placeOf offset with
  | .request ch k => Word.byte (s.chan ch).staging[k] (offset % 4)
  | .response ch k => Word.byte ((s.chan ch).responseWord k.val) (offset % 4)
  | .beyond => 0

/-- The word that a read of the memory region finds at an offset that is a multiple of 4. -/
def State.readWord (s : State) (offset : Nat) : Word :=
  match placeOf offset with
  | .request ch k => (s.chan ch).staging[k]
  | .response ch k => (s.chan ch).responseWord k.val
  | .beyond => 0

/-! ## Subscriber answers -/

/-- ATTACH: handle and state. -/
def State.attachBody (s : State) (i : SubIx) : List Word := [(s.subHandle i).word, put 0 (s.sub i).state.code]

/-- SUB_FIND: handle, state, class, flow count. -/
def State.subFindBody (s : State) (i : SubIx) : List Word :=
  let r := s.sub i
  [(s.subHandle i).word, put 0 r.state.code ||| put 8 r.cls.code, put 0 r.flowCount]

/-- SUB_READ of IDENTITY: the contents of R19 in their order, 16 words in all (log 11). -/
def State.identityBody (s : State) (i : SubIx) : List Word :=
  let r := s.sub i
  [r.tag.setWidth 32, r.tag.extractLsb' 32 32, put 0 r.state.code, put 0 r.cls.code, r.home.setWidth 32,
    putFlag 0 r.permanent, put 0 r.mark.val, r.zoneEpoch.setWidth 32, r.policyEpoch.setWidth 32,
    put 0 (tariffCode r.tariff), put 0 r.ratingZone.toNat, put 0 r.flowCount, s.causesOf (.subscriber i),
    r.userWord]

/-- SUB_READ of CHARGING (R181). -/
def State.chargingBody (s : State) (i : SubIx) : List Word :=
  let r := s.sub i
  let zone := match r.closed with
    | some c => c.zone.toNat
    | none => 0
  let usage := match r.closed with
    | some c => c.usage
    | none => Usage.zero
  [(s.subHandle i).word,
    put 0 r.grant.code ||| putFlag 4 r.current.mixed ||| putFlag 5 r.closed.isSome ||| putFlag 6 usage.mixed
      ||| put 8 zone ||| putFlag 16 r.closeHeld ||| putFlag 17 r.overdraftUsed ||| putFlag 18 r.exhaustedNoted
      ||| putFlag 19 r.so]
    ++ countWords r.current.bytes ++ [r.current.seconds] ++ countWords usage.bytes ++ [usage.seconds]
    ++ [r.byteAllowance, r.secondsAllowance, r.byteOverrun, r.secondsOverrun, deadlineWord r.grant.deadline]

/-- SUB_READ of FLOWS: the handle, the flow count and up to 12 handles from the start position (R19, R181). -/
def State.flowsBody (s : State) (i : SubIx) (start : Nat) : List Word :=
  let r := s.sub i
  [(s.subHandle i).word, put 0 r.flowCount]
    ++ ((r.flowList.drop start).take Config.flowsPerRead).map FlowHandle.word

/-- GRANT (R74, R181). -/
def State.grantBody (s : State) (i : SubIx) : List Word :=
  let r := s.sub i
  [(s.subHandle i).word, put 0 r.grant.code, deadlineWord r.grant.deadline, r.byteAllowance, r.secondsAllowance,
    r.byteOverrun, r.secondsOverrun]

/-- SETTLE (R82, R181): the handle named, the state after the claim, the closed part with its zone and the current
part with its rating zone where settled. -/
def settleBody (h : SubHandle) (state : SubState) (closed current : Option ClosedSlot) : List Word :=
  let zoneOf (p : Option ClosedSlot) : Nat := match p with
    | some c => c.zone.toNat
    | none => 0
  let usageOf (p : Option ClosedSlot) : Usage := match p with
    | some c => c.usage
    | none => .zero
  [h.word,
    put 0 state.code ||| putFlag 8 closed.isSome ||| putFlag 9 current.isSome ||| put 16 (zoneOf closed)
      ||| putFlag 21 (usageOf closed).mixed ||| put 24 (zoneOf current) ||| putFlag 29 (usageOf current).mixed]
    ++ countWords (usageOf closed).bytes ++ [(usageOf closed).seconds]
    ++ countWords (usageOf current).bytes ++ [(usageOf current).seconds]

/-! ## Flow answers -/

/-- Words 2 to 7 of a key, as FLOW_OPEN carries them (R180), after the subscriber index. -/
def FlowKey.words (k : FlowKey) : List Word :=
  [put 0 k.subscriber.toNat, k.address.extractLsb' 0 32, k.address.extractLsb' 32 32, k.address.extractLsb' 64 32,
    k.address.extractLsb' 96 32, put 0 k.remotePort.toNat ||| put 16 k.localPort.toNat, put 0 k.protocol.toNat]

/-- FLOW_FIND (R37, R181). -/
def State.flowFindBody (s : State) (i : FlowIx) : List Word :=
  let f := s.flow i
  [(s.flowHandle i).word, put 0 f.state.code ||| put 4 f.cls.code ||| put 8 (linkCode f.pin), f.owner.word]

/-- FLOW_READ: the contents of R38 in their order (log 11). -/
def FlowRecord.readBody (f : FlowRecord) : List Word :=
  f.key.words
    ++ [put 0 f.state.code, put 0 f.cls.code, f.owner.word, put 0 (linkCode f.pin), put 0 f.mark.val, f.userWord]

/-! ## Link answers -/

/-- Words 2 to 4 of LINK_CONFIG (R180). -/
def LinkConfig.words (c : LinkConfig) : List Word :=
  [put 0 c.threshold.toNat ||| put 8 c.hysteresis.toNat ||| putFlag 12 (c.declareWindow == .steady)
      ||| put 16 c.clearWindow.toNat ||| put 24 c.staleInterval.toNat,
    put 0 c.highWater.toNat ||| put 8 c.lowWater.toNat ||| putFlag 16 c.admitVoice
      ||| putFlag 17 c.admitInteractive ||| putFlag 18 c.admitBulk ||| put 20 c.rank.toNat,
    put 0 (linkCode c.fallback) ||| putFlag 8 (c.stateNotice == .all) ||| putFlag 9 (c.congestionNotice == .both)
      ||| putFlag 10 (c.snapshotMode == .auto)]

/-- LINK_READ (R124, R181). -/
def State.linkReadBody (s : State) (l : LinkId) : List Word :=
  let r := s.link l
  r.config.words
    ++ [put 0 r.state.code ||| putFlag 4 r.congested ||| putFlag 5 r.saturated ||| putFlag 6 r.snapshot.saturated
          ||| putFlag 7 r.repin.aborted ||| put 8 r.badRun.toNat ||| put 16 r.goodRun.toNat
          ||| put 24 r.lastQuality.toNat,
        put 0 r.lastOccupancy.toNat ||| put 8 r.peak.toNat ||| put 16 r.snapshot.peak.toNat,
        put 0 r.degrade.toNat ||| put 16 r.snapshot.degrade.toNat,
        deadlineWord r.deadline, r.snapshot.taken,
        put 0 r.repin.moved ||| put 16 r.repin.held, r.repin.completed,
        s.causesOf (.link l), put 0 (s.pinnedCount l)]

/-- The contents of a LINK_ADMIN answer in the order of its command's rule, filled with zeros to the kind's one
length (log 12). -/
def linkAdminBody (contents : List Word) : List Word := contents ++ blank (4 - contents.length)

/-! ## Zone, agreement and tariff answers -/

/-- ZONE_CHANGE (R96, R181), under every status. -/
def State.zoneChangeBody (s : State) (closedCountRead : Nat) : List Word :=
  [put 0 s.zas.currentZone.toNat, put 0 s.zas.zoneEpoch.toNat ||| put 16 s.zas.policyEpoch.toNat,
    put 0 closedCountRead]

/-- An agreement, laid out as AGREEMENT_SET carries it (R180, R181). -/
def Agreement.words (a : Agreement) : List Word :=
  [a.code.setWidth 32 ||| put 24 (if a.active then 1 else 2),
    put 0 (tariffCode a.tariff0) ||| put 8 (tariffCode a.tariff1) ||| put 16 (tariffCode a.tariff2)
      ||| put 24 (tariffCode a.tariff3)]

/-- TARIFF_READ (R93, R181). -/
def TariffRecord.words (t : TariffRecord) : List Word :=
  [putFlag 0 t.defined ||| putFlag 8 (t.terms.exhaust == .redirect) ||| putFlag 9 (t.terms.noAnswer == .overdraft)
      ||| putFlag 10 t.terms.carry ||| put 16 t.terms.timeout.toNat ||| put 24 t.terms.flowLimit.toNat,
    t.terms.lowBytes, t.terms.lowSeconds, t.terms.overdraftBytes, t.terms.overdraftSeconds, t.terms.bridgeBytes,
    t.terms.bridgeSeconds]

/-! ## Walker answers -/

/-- The kind codes of WALK_ABORT (R180). -/
def WalkEntry.kindCode : WalkEntry → Nat
  | .age => 0 | .zone => 1 | .recheck => 2
  | .repin _ => 3

/-- The target of a walk, absent but for REPIN. -/
def WalkEntry.target : WalkEntry → Option LinkId
  | .age => none | .zone => none | .recheck => none
  | .repin l => some l

/-- A queue entry's byte: kind in bits 0 to 1, target in bits 4 to 7 (R181). -/
def WalkEntry.byte (e : WalkEntry) : Nat := e.kindCode + 16 * linkCode e.target

/-- Words w5 and w6 of WALK_STATUS: the running counts by the walk's kind (R181). -/
def Walk.countWords (w : Walk) : List Word :=
  match w.entry with
  | .age => [put 0 w.counts.subsRetired ||| put 16 w.counts.flowsRetired, 0]
  | .zone => [put 0 w.counts.closed ||| put 16 w.counts.held, put 0 w.counts.barred]
  | .recheck => [put 0 w.counts.rechecked ||| put 16 w.counts.barred, put 0 w.counts.cleared ||| put 16 w.counts.held]
  | .repin _ => [put 0 w.counts.moved ||| put 16 w.counts.flowsHeld, 0]

/-- Four queue entries' bytes, from entry `k` on, in one word (R181). The byte of a place past the queue's end reads 0,
its target as well (log 13). -/
def queueWord (q : List WalkEntry) (k : Nat) : Word :=
  let byteAt (n : Nat) : Nat := match q[n]? with
    | some e => e.byte
    | none => 0
  put 0 (byteAt k) ||| put 8 (byteAt (k + 1)) ||| put 16 (byteAt (k + 2)) ||| put 24 (byteAt (k + 3))

/-- WALK_STATUS of WALKER (R143, R181). The cursor has 14 bits: after the last visit to a flow it reads 0 (log 22). A
walk other than REPIN has the absent link 8 as its target; an idle walker has no target at all, and that its place then
reads 0, as a content absent for the state, and not 8, is the model's choice (log 13). -/
def State.walkerBody (s : State) : List Word :=
  let marks := put 16 s.tw.currentMark.val ||| put 18 s.tw.previousMark.val ||| put 20 s.tw.thirdMark.val
    ||| put 24 s.tw.queue.length
  let walk := match s.tw.walk with
    | none => [marks, 0, 0, 0, 0]
    | some w =>
      [put 0 1 ||| putFlag 1 w.flowPass ||| put 4 w.entry.kindCode ||| put 8 (linkCode w.entry.target) ||| marks,
        put 0 (w.cursor % Config.flowCount), w.started] ++ w.countWords
  walk ++ [queueWord s.tw.queue 0, queueWord s.tw.queue 4, queueWord s.tw.queue 8, s.al.ageInterval,
    deadlineWord s.al.ageDeadline]

/-- WALK_STATUS of SUMMARIES (R143, R181). -/
def State.summariesBody (s : State) : List Word :=
  let a := s.tw.ageSummary
  let z := s.tw.zoneSummary
  let r := s.tw.recheckSummary
  [put 0 a.subsRetired ||| put 16 a.flowsRetired, a.started, a.completed,
    put 0 z.zone.toNat ||| put 16 z.zoneEpoch.toNat, put 0 z.closed ||| put 16 z.held, put 0 z.barred, z.completed,
    put 0 r.policyEpoch.toNat, put 0 r.rechecked ||| put 16 r.barred, put 0 r.cleared ||| put 16 r.held,
    r.completed]

/-! ## Attention list and device answers -/

/-- The kind codes of a notice (R180, R181). -/
def AttnRecord.kindCode : AttnRecord → Nat
  | .subscriber _ => 0
  | .link _ => 1
  | .walker => 2
  | .device => 3

/-- Does an entry's record match a filter (R170)? -/
def NoticeFilter.admits (f : NoticeFilter) (r : AttnRecord) : Bool :=
  match f with
  | .subscriber => r.kindCode == 0
  | .link => r.kindCode == 1
  | .walker => r.kindCode == 2
  | .device => r.kindCode == 3
  | .any => true

/-- R170: the state a notice carries, for SUBSCRIBER and LINK. -/
def State.noticeState (s : State) : AttnRecord → Nat
  | .subscriber i => (s.sub i).state.code
  | .link l => (s.link l).state.code
  | .walker => 0
  | .device => 0

/-- R170: the handle of a SUBSCRIBER notice, the index of the other kinds. -/
def State.noticeIndex (s : State) : AttnRecord → Word
  | .subscriber i => (s.subHandle i).word
  | .link l => put 0 l.val
  | .walker => 0
  | .device => 0

/-- R170: the overrun bitmap of a DEVICE notice. -/
def State.noticeBitmap (s : State) : AttnRecord → Nat
  | .subscriber _ => 0
  | .link _ => 0
  | .walker => 0
  | .device => s.al.overrunBitmap.toNat

/-- NOTICE_FETCH answered OK for an entry, with the entries left (R170, R181). -/
def State.noticeBody (s : State) (e : AttnEntry) (left : Nat) : List Word :=
  [put 0 e.record.kindCode ||| put 4 (s.noticeState e.record), s.noticeIndex e.record, e.causes,
    put 0 (s.noticeBitmap e.record) ||| put 16 left]

/-- DEVICE_STATUS (R176, R181). -/
def State.deviceStatusBody (s : State) : List Word :=
  let entriesOf (f : NoticeFilter) : Nat := (s.al.list.filter fun e => f.admits e.record).length
  [s.al.count,
    putFlag 0 s.al.interruptEnable ||| putFlag 1 s.attnAsserted ||| put 8 s.al.overrunBitmap.toNat,
    s.al.ageInterval, deadlineWord s.al.ageDeadline,
    put 0 s.al.list.length ||| put 16 (entriesOf .subscriber),
    put 0 (entriesOf .link) ||| put 8 (entriesOf .walker) ||| put 9 (entriesOf .device),
    s.causesOf .device, put 0 s.stc.closedCount,
    put 0 s.stc.unwind.length ||| put 16 s.stc.deadlines.length]

/-- The interval, the deadline and the enable, as a DEVICE_CONFIG answer gives them before and after (log 11). -/
def State.deviceConfigWords (s : State) : List Word :=
  [s.al.ageInterval, deadlineWord s.al.ageDeadline, putFlag 0 s.al.interruptEnable]

/-! ## Channel answers -/

/-- CHANNEL_STATUS: the contents of R164 in their order (log 11). That the pending fault takes one word, as in a
DEFERRED_FAULT answer, and the outstanding request's kind and 16-bit tag one word each, is the model's choice
(log 25). -/
def ChannelRecord.statusBody (c : ChannelRecord) : List Word :=
  let outstanding := match c.outstanding with
    | some out => [put 0 out.request.kind.toNat, put 0 out.tag.toNat]
    | none => [0, 0]
  [put 0 c.ownerClass.code, putFlag 0 c.quiet, faultWord c.pendingFault, put 0 c.faultOverflow.toNat,
    putFlag 0 c.overrun, put 0 c.requests.length, put 0 c.responses.length] ++ outstanding

end Sys2Proof.Machine
end

