-- ==== Sys2Proof/Machine/Credit.lean ====
section
/-! DEFINITION. The charging section at work: the charging arithmetic (R63 to R65), the low-credit check (R68), the
grant deadline list (R70), grants (R73), the filling of the closed slot (R77). -/

namespace Sys2Proof.Machine

/-! ## The grant deadline list (R70) -/

/-- The deadline of a REQUESTED record as seconds remaining; 0 for a record that is not REQUESTED. -/
def State.remainingOf (s : State) (i : SubIx) : Nat :=
  match (s.sub i).grant with
  | .requested d => s.remaining d
  | .none => 0
  | .timedOut => 0

/-- R70: insert a record after every entry whose deadline is at or before its own (log 18). -/
def State.insertDeadline (s : State) (i : SubIx) : List SubIx → List SubIx
  | [] => [i]
  | j :: rest => if s.remainingOf i < s.remainingOf j then i :: j :: rest else j :: s.insertDeadline i rest

/-- A record leaves the grant deadline list; the rest keep their order (R70). -/
def State.leaveDeadlines (s : State) (i : SubIx) : State :=
  { s with stc := { s.stc with deadlines := s.stc.deadlines.filter fun j => decide (j ≠ i) } }

/-! ## The low-credit check (R68) -/

/-- R68: is an allowance of the record below its tariff's threshold? -/
def belowThreshold (r : SubRecord) (t : TariffTerms) : Bool :=
  decide (r.byteAllowance < t.lowBytes) || decide (r.secondsAllowance < t.lowSeconds)

/-- R68: the tariff under which the record would ask for a grant: it is ATTACHED, holds a tariff and its grant state
is NONE. -/
def askingTariff (r : SubRecord) : Option TariffIx :=
  match r.state, r.grant with
  | .attached, .none => r.tariff
  | _, _ => none

/-- R68: the record enters REQUESTED with a deadline, joins the deadline list and raises GRANT_NEEDED. -/
def State.enterRequested (s : State) (i : SubIx) (timeout : Nat) : State :=
  let s1 := s.setSub i { s.sub i with grant := .requested (s.after timeout) }
  let s2 := { s1 with stc := { s1.stc with deadlines := s1.insertDeadline i s1.stc.deadlines } }
  s2.raise (.subscriber i) .grantNeeded

/-- The low-credit check (R68). -/
def State.lowCredit (s : State) (i : SubIx) : State :=
  match askingTariff (s.sub i) with
  | some t =>
    let terms := (s.tariff t).terms
    if belowThreshold (s.sub i) terms then s.enterRequested i terms.timeout.toNat else s
  | none => s

/-! ## Grants (R73) -/

/-- R73, for bytes or for seconds: the allowance and the overrun after a grant of `amount`. -/
def grantAmount (allowance overrun amount : BitVec 32) : BitVec 32 × BitVec 32 :=
  if amount ≤ overrun then (allowance, overrun - amount)
  else (satAdd allowance (amount.toNat - overrun.toNat), 0)

/-- R73: apply a grant to a record. -/
def SubRecord.applyGrant (r : SubRecord) (bytes seconds : BitVec 32) : SubRecord :=
  let (ba, bo) := grantAmount r.byteAllowance r.byteOverrun bytes
  let (sa, so) := grantAmount r.secondsAllowance r.secondsOverrun seconds
  { r with
    byteAllowance := ba
    byteOverrun := bo
    secondsAllowance := sa
    secondsOverrun := so
    exhaustedNoted := false }

/-! ## The charging arithmetic -/

/-- R64, for bytes or for seconds: the allowance and the overrun after `count` is taken, and whether the overrun
saturated. -/
def takeAmount (allowance overrun : BitVec 32) (count : Nat) : BitVec 32 × BitVec 32 × Bool :=
  if count ≤ allowance.toNat then (BitVec.ofNat 32 (allowance.toNat - count), overrun, false)
  else (0, satAdd overrun (count - allowance.toNat), exceeds overrun (count - allowance.toNat))

/-- R65: an allowance that was above zero before the charge is zero after it. -/
def emptied (before after : BitVec 32) : Bool := before != 0 && after == 0

/-- R63 to R65 on a record, but for the raising of EXHAUSTED. -/
def SubRecord.charge (r : SubRecord) (bytes seconds : Nat) : SubRecord :=
  let (ba, bo, bSat) := takeAmount r.byteAllowance r.byteOverrun bytes
  let (sa, so, sSat) := takeAmount r.secondsAllowance r.secondsOverrun seconds
  { r with
    current := { r.current with
      bytes := satAdd r.current.bytes bytes
      seconds := satAdd r.current.seconds seconds }
    byteAllowance := ba
    byteOverrun := bo
    secondsAllowance := sa
    secondsOverrun := so
    exhaustedNoted := r.exhaustedNoted || emptied r.byteAllowance ba || emptied r.secondsAllowance sa
    so := r.so || exceeds r.current.bytes bytes || exceeds r.current.seconds seconds || bSat || sSat }

/-- R65: does the charge of `before` that leaves `after` raise EXHAUSTED? -/
def raisesExhausted (before after : SubRecord) : Bool :=
  !before.exhaustedNoted &&
    (emptied before.byteAllowance after.byteAllowance || emptied before.secondsAllowance after.secondsAllowance)

/-- The charging arithmetic with the low-credit check that follows it (R63 to R65, R68). -/
def State.chargeSub (s : State) (i : SubIx) (bytes seconds : Nat) : State :=
  let before := s.sub i
  let after := before.charge bytes seconds
  let s1 := s.setSub i after
  let s2 := if raisesExhausted before after then s1.raise (.subscriber i) .exhausted else s1
  s2.lowCredit i

/-! ## The closed slot (R77) -/

/-- R77: a nonzero current accumulator is closed into the (empty) slot under the rating zone; a zero one is not. -/
def SubRecord.closeCurrent (r : SubRecord) : SubRecord :=
  if r.current.nonzero then
    { r with closed := some { zone := r.ratingZone, usage := r.current }, current := .zero }
  else r

def State.addClosed (s : State) (n : Nat) : State :=
  { s with stc := { s.stc with closedCount := s.stc.closedCount + n } }

def State.dropClosed (s : State) (n : Nat) : State :=
  { s with stc := { s.stc with closedCount := s.stc.closedCount - n } }

/-- R77, R78: close the current accumulator of a record and count the slot it fills. -/
def State.closeUsage (s : State) (i : SubIx) : State :=
  let r := s.sub i
  let s1 := s.setSub i r.closeCurrent
  if r.current.nonzero then s1.addClosed 1 else s1

end Sys2Proof.Machine
end

