-- ==== Sys2Proof/Machine/Roaming.lean ====
section
/-! DEFINITION. The recheck (R101), the tariff carry rule (R102), lazy processing (R98 to R100), touches (R21), and the
entry to DETACHING (R11) and freeing (R17) of a subscriber record. -/

namespace Sys2Proof.Machine

/-! ## Outcomes of operator codes (R88) -/

def Agreement.tariffFor (a : Agreement) (c : ZoneClass) : Option TariffIx :=
  match c with
  | 0 => a.tariff0
  | 1 => a.tariff1
  | 2 => a.tariff2
  | 3 => a.tariff3

/-- The agreement of an operator code. -/
def findAgreement (l : List Agreement) (code : Operator) : Option Agreement := l.find? fun a => a.code == code

/-- R88: the outcome of an operator code under a zone class: a tariff, or none for BARRED. -/
def outcomeIn (l : List Agreement) (code : Operator) (c : ZoneClass) : Option TariffIx :=
  match findAgreement l code with
  | some a => if a.active then a.tariffFor c else none
  | none => none

/-- The class of the current zone. -/
def State.currentClass (s : State) : ZoneClass := (s.zone s.zas.currentZone).cls

def State.outcome (s : State) (code : Operator) : Option TariffIx :=
  outcomeIn s.zas.agreements code s.currentClass

/-! ## The recheck -/

/-- R101: the decided tariff, and the decided state where the class has one. -/
def State.decision (s : State) (r : SubRecord) : Option TariffIx × Option SubState :=
  match r.cls with
  | .shipSystem => (none, none)
  | .crew => (r.tariff, none)
  | .passenger =>
    match s.outcome r.home with
    | some t => (some t, some .attached)
    | none => (none, some .roamBarred)

/-- R101: the state after a recheck: the decided one for ATTACHED and ROAM_BARRED records alone. -/
def recheckedState (now : SubState) (decided : Option SubState) : SubState :=
  match now, decided with
  | .attached, some d => d
  | .roamBarred, some d => d
  | _, _ => now

/-- R102: on a change of the tariff index of a charged subscriber to a tariff with carry NO, both allowances become 0
and the bridge amounts are applied as a grant. `r` holds the new tariff already. -/
def State.carryTariff (s : State) (r : SubRecord) (old : Option TariffIx) : SubRecord :=
  match r.tariff with
  | some t =>
    let terms := (s.tariff t).terms
    if r.charged && decide (old ≠ some t) && !terms.carry then
      { r with byteAllowance := 0, secondsAllowance := 0 }.applyGrant terms.bridgeBytes terms.bridgeSeconds
    else r
  | none => r

/-- The record after the recheck and the carry rule (R101, R102). -/
def State.rechecked (s : State) (r : SubRecord) : SubRecord :=
  let (tariff, state) := s.decision r
  s.carryTariff { r with tariff := tariff, state := recheckedState r.state state } r.tariff

/-- R101: the move from ATTACHED to ROAM_BARRED. -/
def barredBy (before after : SubRecord) : Bool := before.state == .attached && after.state == .roamBarred

/-- R101: the move from ROAM_BARRED to ATTACHED. -/
def clearedBy (before after : SubRecord) : Bool := before.state == .roamBarred && after.state == .attached

/-- R101: raise the roaming cause of a move of state. -/
def State.raiseRoaming (s : State) (i : SubIx) (before after : SubRecord) : State :=
  if barredBy before after then s.raise (.subscriber i) .roamBarred
  else if clearedBy before after then s.raise (.subscriber i) .roamCleared
  else s

/-- The recheck with the tariff carry rule and the low-credit check that follows it (R101, R102, R69). -/
def State.recheck (s : State) (i : SubIx) : State :=
  let before := s.sub i
  let after := s.rechecked before
  ((s.setSub i after).raiseRoaming i before after).lowCredit i

/-! ## Lazy processing -/

/-- What lazy processing reports to the claim that applies it (R98, R137, R138). -/
structure LazyReport where
  closed : Bool := false
  held : Bool := false
  rechecked : Bool := false
  barred : Bool := false
  cleared : Bool := false
deriving DecidableEq, Repr

/-- Has the record been brought to the device's epochs, current zone and terms? R99 steps 2 to 5, R80. -/
def State.bringUpToDate (s : State) (i : SubIx) : State :=
  (s.setSub i { s.sub i with
    ratingZone := s.zas.currentZone
    zoneEpoch := s.zas.zoneEpoch
    policyEpoch := s.zas.policyEpoch }).recheck i

/-- R100: close held is set and CLOSE_HELD raised. -/
def State.holdClose (s : State) (i : SubIx) : State :=
  (s.setSub i { s.sub i with closeHeld := true }).raise (.subscriber i) .closeHeld

/-- The branch of lazy processing that a record takes (R98 to R100). -/
inductive LazyBranch where
  | alreadyHeld | hold | zone | policy | nothing
deriving DecidableEq, Repr

/-- R98. -/
def State.lazyBranch (s : State) (r : SubRecord) : LazyBranch :=
  if r.closeHeld then .alreadyHeld
  else if r.zoneEpoch ≠ s.zas.zoneEpoch then (if r.closed.isSome then .hold else .zone)
  else if r.policyEpoch ≠ s.zas.policyEpoch then .policy
  else .nothing

/-- Lazy processing of a live record (R98). -/
def State.lazy (s : State) (i : SubIx) : State :=
  match s.lazyBranch (s.sub i) with
  | .alreadyHeld => s
  | .hold => s.holdClose i
  | .zone => (s.closeUsage i).bringUpToDate i
  | .policy => (s.setSub i { s.sub i with policyEpoch := s.zas.policyEpoch }).recheck i
  | .nothing => s

/-- What the lazy processing of record `i` in state `s` reports (R98). -/
def State.lazyReport (s : State) (i : SubIx) : LazyReport :=
  let r := s.sub i
  let after := s.rechecked r
  match s.lazyBranch r with
  | .alreadyHeld => { held := true }
  | .hold => { held := true }
  | .zone => { closed := r.current.nonzero, rechecked := true, barred := barredBy r after,
               cleared := clearedBy r after }
  | .policy => { rechecked := true, barred := barredBy r after, cleared := clearedBy r after }
  | .nothing => {}

/-- R21: a touch sets the mark to the current value, then gives lazy processing. -/
def State.touch (s : State) (i : SubIx) : State :=
  (s.setSub i { s.sub i with mark := s.tw.currentMark }).lazy i

/-! ## Entering DETACHING and freeing -/

/-- R11: the record enters DETACHING in one claim. -/
def State.enterDetaching (s : State) (i : SubIx) : State :=
  let s1 := (s.setSub i { s.sub i with state := .detaching, grant := .none }).leaveDeadlines i
  { s1 with stc := { s1.stc with unwind := s1.stc.unwind ++ [i] } }

/-- R1, R4: a record that becomes VACANT keeps its stamp, advanced by one, and nothing else. -/
def SubRecord.vacated (r : SubRecord) : SubRecord := { SubRecord.powerOn with stamp := r.stamp + 1 }

/-- R17: freeing. -/
def State.free (s : State) (i : SubIx) : State :=
  (s.setSub i (s.sub i).vacated).removeEntry (.subscriber i)

end Sys2Proof.Machine
end

