-- ==== Sys2Proof/Machine/Billing.lean ====
section
/-! DEFINITION. Chapter 4: GRANT, SETTLE, USAGE_POST and the grant deadline expiry. -/

namespace Sys2Proof.Machine

/-! ## GRANT -/

/-- R74: the record after the grant, before the low-credit check. -/
def SubRecord.granted (r : SubRecord) (bytes seconds : Word) : SubRecord :=
  { r with grant := .none, overdraftUsed := false }.applyGrant bytes seconds

/-- R74: LATE for a TIMED_OUT record, else OK. -/
def grantStatus (g : GrantState) : Status :=
  match g with
  | .timedOut => .late
  | .none => .ok
  | .requested _ => .ok

/-- R74: an ATTACHED or ROAM_BARRED record is granted. -/
def State.applyGrantTo (s : State) (i : SubIx) (bytes seconds : Word) : State :=
  ((s.setSub i ((s.sub i).granted bytes seconds)).leaveDeadlines i).lowCredit i

/-- R74: GRANT. Its contents stand under every status but STALE_HANDLE, whose handle is absent (R181). -/
def State.grantCredit (s : State) (h : SubHandle) (g : Option SubGuard) (bytes seconds : Word) : Taken :=
  match s.subOf h with
  | none => (s, .plain .staleHandle (blank 7))
  | some r =>
    if !subGuardPasses g r then (s, .of .guardFalse (s.nibbleAfter h.index g r) (s.grantBody h.index))
    else match r.state with
      | .attached | .roamBarred =>
        let t := s.applyGrantTo h.index bytes seconds
        (t, .of (grantStatus r.grant) (t.nibbleAfter h.index g r) (t.grantBody h.index))
      | .detaching => (s, .of .detaching (s.nibbleAfter h.index g r) (s.grantBody h.index))
      | .unsettled => (s, .of .notAttached (s.nibbleAfter h.index g r) (s.grantBody h.index))
      | .vacant => (s, .plain .staleHandle (blank 7))

def execGrant (ch : Chan) (s : State) : Host.Outcome State Fault Refusal :=
  .next <| match s.claim .stc ch with
    | some (.grant h g bytes seconds) => ((s.grantTo .stc ch).grantCredit h g bytes seconds).finish ch
    | _ => s

/-! ## SETTLE -/

/-- R79: the closed part that a selection settles: the slot's contents, where selected and occupied. -/
def SettlePart.closedOf (p : SettlePart) (r : SubRecord) : Option ClosedSlot :=
  match p with
  | .closed => r.closed
  | .both => r.closed
  | .current => none

/-- R79, R81: the current part that a selection settles, with its rating zone, where selected and nonzero. -/
def SettlePart.currentOf (p : SettlePart) (r : SubRecord) : Option ClosedSlot :=
  match p with
  | .current => if r.current.nonzero then some { zone := r.ratingZone, usage := r.current } else none
  | .both => if r.current.nonzero then some { zone := r.ratingZone, usage := r.current } else none
  | .closed => none

/-- R80, R81: the record with the settled parts cleared, before a deferred close. -/
def SubRecord.settled (r : SubRecord) (closed current : Option ClosedSlot) : SubRecord :=
  { r with
    closed := if closed.isSome then none else r.closed
    current := if current.isSome then .zero else r.current }

/-- R80: the deferred close of a close-held record. -/
def State.deferredClose (s : State) (i : SubIx) : State :=
  ((s.setSub i { s.sub i with closeHeld := false }).closeUsage i).bringUpToDate i

/-- R80, R81: clear the settled parts, then make the deferred close where the closed slot was settled and close is
held. -/
def State.settleParts (s : State) (i : SubIx) (closed current : Option ClosedSlot) : State :=
  let s1 := s.setSub i ((s.sub i).settled closed current)
  let s2 := if closed.isSome then s1.dropClosed 1 else s1
  if closed.isSome && (s2.sub i).closeHeld then s2.deferredClose i else s2

/-- R82: an UNSETTLED record left with nothing unsettled is freed. -/
def State.freeIfSettled (s : State) (i : SubIx) : State :=
  if (s.sub i).state == .unsettled && !(s.sub i).unsettledUsage then s.free i else s

/-- R82: zero where the record was freed, R149 where guarded, else R20. -/
def State.settleNibble (s : State) (i : SubIx) (g : Option SubGuard) (before : SubRecord) : Nibble :=
  match g with
  | some _ => s.nibbleAfter i g before
  | none => if (s.sub i).live then s.subNibble i else .zero

/-- R79 to R82: SETTLE. -/
def State.settle (s : State) (h : SubHandle) (g : Option SubGuard) (p : SettlePart) : Taken :=
  match s.subOf h with
  | none => (s, .plain .staleHandle (blank 8))
  | some r =>
    if !subGuardPasses g r then
      (s, .of .guardFalse (s.nibbleAfter h.index g r) (settleBody h r.state none none))
    else if (p.closedOf r).isNone && (p.currentOf r).isNone then
      (s, .of .nothing (s.nibbleAfter h.index g r) (settleBody h r.state none none))
    else
      let s1 := s.settleParts h.index (p.closedOf r) (p.currentOf r)
      let t := s1.freeIfSettled h.index
      (t, { status := .ok
            nibble := t.settleNibble h.index g r
            flags := { closeFollowed := (p.closedOf r).isSome && (s1.sub h.index).closed.isSome }
            body := settleBody h (t.sub h.index).state (p.closedOf r) (p.currentOf r) })

def execSettle (ch : Chan) (s : State) : Host.Outcome State Fault Refusal :=
  .next <| match s.claim .stc ch with
    | some (.settle h g p) => ((s.grantTo .stc ch).settle h g p).finish ch
    | _ => s

/-! ## USAGE_POST -/

/-- R66, step 3: usage counted while close is held is mixed. -/
def State.markMixed (s : State) (i : SubIx) : State :=
  if (s.sub i).closeHeld then
    s.setSub i { s.sub i with current := { (s.sub i).current with mixed := true } }
  else s

/-- R66, steps 1 to 4. -/
def State.postUsage (s : State) (i : SubIx) (c : FlowClass) (bytes seconds : Word) : State :=
  let s1 := s.touch i
  if (s1.sub i).charged && c != .emergency then (s1.markMixed i).chargeSub i bytes.toNat seconds.toNat
  else s1

/-- R66: USAGE_POST: the state it leaves and the failure, if it fails. -/
def State.usagePost (s : State) (h : SubHandle) (code : BitVec 3) (bytes seconds : Word) :
    State × Option Status :=
  match s.subOf h with
  | none => (s, some .staleHandle)
  | some _ =>
    match flowClass code with
    | none => (s, some .outOfRange)
    | some c => (s.postUsage h.index c bytes seconds, none)

def execUsagePost (ch : Chan) (s : State) : Host.Outcome State Fault Refusal :=
  .next <| match s.claim .stc ch with
    | some (.usagePost h code bytes seconds) =>
      let t := (s.grantTo .stc ch).usagePost h code bytes seconds
      t.1.completePosted ch t.2
    | _ => s

/-! ## Grant deadline expiry -/

/-- R71: the head of the grant deadline list, when its deadline equals the count. -/
def State.expiringGrant (s : State) : Option SubIx :=
  match s.stc.deadlines with
  | [] => none
  | i :: _ => if (s.sub i).grant = .requested s.al.count then some i else none

/-- R71, step 3: the record after the overdraft, where the no-answer action applies one. -/
def State.overdrawn (s : State) (r : SubRecord) : SubRecord :=
  match r.tariff with
  | none => r
  | some t =>
    let terms := (s.tariff t).terms
    if terms.noAnswer = .overdraft ∧ r.overdraftUsed = false then
      { r.applyGrant terms.overdraftBytes terms.overdraftSeconds with overdraftUsed := true }
    else r

/-- R71. -/
def State.expireGrant (s : State) (i : SubIx) : State :=
  ((s.setSub i (s.overdrawn { s.sub i with grant := .timedOut })).leaveDeadlines i).raise
    (.subscriber i) .grantTimeout

def execGrantDeadlineExpiry (s : State) : Host.Outcome State Fault Refusal :=
  .next <| match s.running, s.expiringGrant with
    | true, some i => s.expireGrant i
    | _, _ => s

end Sys2Proof.Machine
end

