-- ==== Sys2Proof/Machine/Pinning.lean ====
section
/-! DEFINITION. Flows and links together: pseudo-LRU bits (R28), pinned counts and drained notices (R40, R41),
retirement (R35), eligible links and link selection (R48, R50), moving a pin (R51, R140). -/

namespace Sys2Proof.Machine

/-! ## Pseudo-LRU bits (R28) -/

/-- R28: the bits after way `w` is used. -/
def Plru.use (p : Plru) (w : BitVec 2) : Plru :=
  match w with
  | 0 => { p with root := true, first := true }
  | 1 => { p with root := true, first := false }
  | 2 => { p with root := false, second := true }
  | 3 => { p with root := false, second := false }

/-- R28: the victim way. -/
def Plru.victim (p : Plru) : BitVec 2 :=
  match p.root, p.first, p.second with
  | false, false, _ => 0
  | false, true, _ => 1
  | true, _, false => 2
  | true, _, true => 3

/-- R28: a use of flow record `i`. -/
def State.useWay (s : State) (i : FlowIx) : State :=
  s.setPlru (bucketOf i) ((s.plru (bucketOf i)).use (wayOf i))

/-! ## Pinned counts (R40, R41) -/

def State.addPin (s : State) (l : LinkId) : State := s.setPinned l (s.pinnedCount l + 1)

/-- R40, R41: a pin naming `l` is taken from a flow; a count of 0 on a DRAINING link hands a drained notice. -/
def State.dropPin (s : State) (l : LinkId) : State :=
  let left := s.pinnedCount l - 1
  let s1 := s.setPinned l left
  if left = 0 ∧ (s.link l).state = .draining then s1.setDrained l true else s1

/-- Drop the pin of a flow, if it has one. -/
def State.dropPinOf (s : State) (p : Option LinkId) : State :=
  match p with
  | some l => s.dropPin l
  | none => s

/-! ## Retirement (R35) -/

/-- R25, R29: a flow that becomes VACANT keeps its stamp, advanced by one, and nothing else. -/
def FlowRecord.vacated (f : FlowRecord) : FlowRecord := { FlowRecord.powerOn with stamp := f.stamp + 1 }

/-- R30: a handle leaves its owner's flow list, keeping the order of the rest. -/
def State.unlistFlow (s : State) (i : SubIx) (h : FlowHandle) : State :=
  s.setSub i { s.sub i with flowList := (s.sub i).flowList.erase h }

/-- R35: retire a live flow. -/
def State.retire (s : State) (i : FlowIx) : State :=
  let f := s.flow i
  ((s.setFlow i f.vacated).unlistFlow f.owner.index { index := i, stamp := f.stamp }).dropPinOf f.pin

/-- Retire a flow where there is one to retire. -/
def State.retireSome (s : State) (v : Option FlowIx) : State :=
  match v with
  | some i => s.retire i
  | none => s

/-! ## Link selection -/

/-- R48: a link admits EMERGENCY always, the other classes by its admit mask. -/
def LinkRecord.admits (r : LinkRecord) (c : FlowClass) : Bool :=
  match c with
  | .emergency => true
  | .voice => r.config.admitVoice
  | .interactive => r.config.admitInteractive
  | .bulk => r.config.admitBulk

/-- R48: a link is eligible for a flow when it is UP and admits its class. -/
def State.eligible (s : State) (c : FlowClass) (l : LinkId) : Bool :=
  (s.link l).state == .up && (s.link l).admits c

/-- The links 0 to 7 in their order. -/
def links : List LinkId := List.finRange 8

/-- R50: of two candidates the one of lower rank; the earlier one where the ranks are equal. -/
def State.better (s : State) (best : Option LinkId) (l : LinkId) : Option LinkId :=
  match best with
  | none => some l
  | some b => if (s.link l).config.rank < (s.link b).config.rank then some l else some b

/-- R50: the candidate of lowest rank, and of lowest number among equals. -/
def State.lowestRank (s : State) (candidates : List LinkId) : Option LinkId :=
  candidates.foldl s.better none

/-- R50, step 1: the old pin's fallback, if it is a link, eligible and not congested. -/
def State.fallbackOf (s : State) (c : FlowClass) (old : Option LinkId) : Option LinkId :=
  match old with
  | none => none
  | some o =>
    match (s.link o).config.fallback with
    | none => none
    | some f => if s.eligible c f && !(s.link f).congested then some f else none

/-- R50: link selection for a class with an optional old pin. -/
def State.selectLink (s : State) (c : FlowClass) (old : Option LinkId) : Option LinkId :=
  match s.fallbackOf c old with
  | some l => some l
  | none =>
    match s.lowestRank (links.filter fun l => s.eligible c l && !(s.link l).congested) with
    | some l => some l
    | none => s.lowestRank (links.filter fun l => s.eligible c l && (s.link l).congested)

/-- R51, R140: the flow takes the selected link as its pin, or becomes HELD; its old pin's count decreases and the
new pin's increases. -/
def State.repinFlow (s : State) (i : FlowIx) (selected : Option LinkId) : State :=
  let f := s.flow i
  let s1 := s.dropPinOf f.pin
  match selected with
  | some l => (s1.setFlow i { f with state := .opened l }).addPin l
  | none => s1.setFlow i { f with state := .held }

end Sys2Proof.Machine
end

