-- ==== Sys2Proof/Machine/Channels.lean ====
section
/-! DEFINITION. Chapter 9: writes to the windows, dispatch with the checks of the CI, the requests the CI owns,
SOFT_RESET. -/

namespace Sys2Proof.Machine

/-! ## Writes to the windows (R156 to R158, R179) -/

/-- R156: one byte is stored in its staging word. -/
def ChannelRecord.storeByte (c : ChannelRecord) (word : Fin 16) (offset : Nat) (b : Byte) : ChannelRecord :=
  { c with staging := c.staging.set word.val (Word.setByte c.staging[word] (offset % 4) b) word.isLt }

/-- R156, R158, R179: a byte written outside the request areas is not kept. -/
def State.storeByte (s : State) (b : Host.Cell) : State :=
  match placeOf b.1 with
  | .request ch word => s.setChan ch ((s.chan ch).storeByte word b.1 b.2)
  | .response _ _ => s
  | .beyond => s

/-- R179: the bytes of one transaction, in the order given. -/
def State.storeBytes (s : State) (bytes : List Host.Cell) : State := bytes.foldl State.storeByte s

/-- R156: the message that the staging words submit. -/
def ChannelRecord.message (c : ChannelRecord) : Message :=
  let count := headerCount c.staging[0]
  if 1 ≤ count ∧ count ≤ 16 then { words := c.staging.toList.take count, unfitting := false }
  else { words := [c.staging[0]], unfitting := true }

/-- R157, R173: a message submitted to a full FIFO is discarded. -/
def State.discardMessage (s : State) (ch : Chan) : State :=
  let s1 := s.setChan ch { s.chan ch with overrun := true }
  { s1 with al := { s1.al with overrunBitmap := s1.al.overrunBitmap ||| BitVec.twoPow 8 ch.val } }.raise
    .device .channelOverrun

/-- R156, R157: submission of the message that stands in the staging words of channel `ch`. -/
def State.submit (s : State) (ch : Chan) : State :=
  if (s.chan ch).requests.length < Config.fifoDepth then
    s.setChan ch { s.chan ch with requests := (s.chan ch).requests ++ [(s.chan ch).message] }
  else s.discardMessage ch

/-- R158: the head answer leaves the response FIFO; an empty FIFO stays empty. -/
def State.release (s : State) (ch : Chan) : State :=
  s.setChan ch { s.chan ch with responses := (s.chan ch).responses.tail }

/-- The channels in their order. -/
def channels : List Chan := List.finRange 8

/-- R156: a submission on each channel whose request word 0 the transaction covers. -/
def State.submitAll (s : State) (bytes : List Host.Cell) : State :=
  channels.foldl (fun t ch => if submitsOn bytes ch then t.submit ch else t) s

/-- R158: a release on each channel whose response word 0 the transaction covers. -/
def State.releaseAll (s : State) (bytes : List Host.Cell) : State :=
  channels.foldl (fun t ch => if releasesOn bytes ch then t.release ch else t) s

/-- A transaction of the given row reaches the windows: RESET_N is released (log 3). -/
def State.accepts (s : State) (row : WriteRow) (bytes : List Host.Cell) : Bool :=
  !s.resetHeld && writeRow bytes == row

/-- R156: STAGING_WRITE. -/
def execStagingWrite (bytes : List Host.Cell) (s : State) : Host.Outcome State Fault Refusal :=
  .next <| if s.accepts .staging bytes then s.storeBytes bytes else s

/-- R156: every byte is stored, then the submissions are made; a response word 0 that the same transaction covers is
released (log 10). -/
def execRequestSubmit (bytes : List Host.Cell) (s : State) : Host.Outcome State Fault Refusal :=
  .next <| if s.accepts .submit bytes then ((s.storeBytes bytes).submitAll bytes).releaseAll bytes else s

/-- R158: bytes of the same transaction in words 1 to 15 of a request area are stored as well (log 10). -/
def execResponseRelease (bytes : List Host.Cell) (s : State) : Host.Outcome State Fault Refusal :=
  .next <| if s.accepts .release bytes then (s.storeBytes bytes).releaseAll bytes else s

/-- R158, R179: no byte of the transaction is kept. -/
def execIgnoredWrite (bytes : List Host.Cell) (s : State) : Host.Outcome State Fault Refusal :=
  .next <| if s.accepts .ignored bytes then s.storeBytes bytes else s

/-! ## Dispatch (R159 to R163) -/

/-- R159: the head message of channel `ch`, when it is dispatched. -/
def State.dispatchable (s : State) (ch : Chan) : Option Message :=
  if s.running && decide (s.ci.softReset = .idle) && (s.chan ch).outstanding.isNone then
    match (s.chan ch).requests with
    | [] => none
    | m :: _ => if m.posted || decide ((s.chan ch).responses.length < Config.fifoDepth) then some m else none
  else none

/-- R161, step 1: an answered kind other than CHANNEL_STATUS (0x60) and CLEAR_FAULT (0x61). -/
def Message.heldBack (m : Message) : Bool := !m.posted && m.kind != 0x60 && m.kind != 0x61

/-- What the checks at the CI find (R161). -/
inductive CiCheck where
  | deferred
  | fails (status : Status)
  | passes (request : Request)
deriving DecidableEq, Repr

/-- R161: held fault, form, permission, in this order. -/
def ChannelRecord.check (c : ChannelRecord) (ch : Chan) (m : Message) : CiCheck :=
  if c.pendingFault.isSome && m.heldBack then .deferred
  else match m.request with
    | none => .fails .malformed
    | some r => if permitted c.ownerClass ch r then .passes r else .fails .notPermitted

/-- R159, R161: an answer formed at the CI, with the kind and tag of the message. -/
def ChannelRecord.answer (c : ChannelRecord) (m : Message) (r : Reply) : ChannelRecord :=
  { c with responses := c.responses ++ [{ kind := m.kind, tag := m.tag, reply := r }] }

/-- R163: the held fault and the fault overflow count. -/
def ChannelRecord.deferredReply (c : ChannelRecord) : Reply :=
  .plain .deferredFault [faultWord c.pendingFault, put 0 c.faultOverflow.toNat]

/-- R159, R162, R163: the channel after the dispatch of message `m`, which has left the request FIFO. -/
def ChannelRecord.dispatched (c : ChannelRecord) (m : Message) (check : CiCheck) : ChannelRecord :=
  match check with
  | .deferred => c.answer m c.deferredReply
  | .fails status =>
    if m.posted then c.recordFault { status := status, kind := m.kind, tag := m.tag }
    else c.answer m (.plain status [])
  | .passes r => { c with outstanding := some { tag := m.tag, request := r, discard := false } }

/-- R159: DISPATCH of message `m`. -/
def State.dispatch (s : State) (ch : Chan) (m : Message) : State :=
  let c := { s.chan ch with requests := (s.chan ch).requests.tail }
  s.setChan ch (c.dispatched m (c.check ch m))

def execDispatch (ch : Chan) (s : State) : Host.Outcome State Fault Refusal :=
  .next <| match s.dispatchable ch with
    | some m => s.dispatch ch m
    | none => s

/-! ## CHANNEL_STATUS and CLEAR_FAULT (R164) -/

/-- R164: the answer of CHANNEL_STATUS, which changes nothing. -/
def State.channelStatus (s : State) (code : BitVec 8) : Reply :=
  match chanOf code with
  | none => .plain .outOfRange (blank 9)
  | some n => .plain .ok (s.chan n).statusBody

def execChannelStatus (ch : Chan) (s : State) : Host.Outcome State Fault Refusal :=
  .next <| match s.claim .ci ch with
    | some (.channelStatus code) => Taken.finish (s, s.channelStatus code) ch
    | _ => s

/-- R164: the pending fault is emptied and the fault overflow count is 0. -/
def ChannelRecord.faultCleared (c : ChannelRecord) : ChannelRecord :=
  { c with pendingFault := none, faultOverflow := 0 }

/-- R164: the fault that was pending, and the count before the claim. That the fault takes one word, as in a
DEFERRED_FAULT answer, is the model's choice (log 25). -/
def State.clearFault (s : State) (ch : Chan) : Taken :=
  let c := s.chan ch
  (s.setChan ch c.faultCleared, .plain .ok [faultWord c.pendingFault, put 0 c.faultOverflow.toNat])

def execClearFault (ch : Chan) (s : State) : Host.Outcome State Fault Refusal :=
  .next <| match s.claim .ci ch with
    | some .clearFault => (s.clearFault ch).finish ch
    | _ => s

/-! ## CHANNEL_SET and CHANNEL_RESET (R165, R166) -/

/-- R165: the owner class and the quiet flag, before or after. -/
def ChannelRecord.settings (c : ChannelRecord) : List Word := [put 0 c.ownerClass.code, putFlag 0 c.quiet]

/-- R165, for a channel number in range. -/
def State.setChannel (s : State) (n : Chan) (cls : OwnerClass) (quiet : Bool) : Taken :=
  let c := s.chan n
  if n = 7 ∧ cls ≠ .supervisor then (s, .plain .conflict (blank 4))
  else if c.ownerClass = cls ∧ c.quiet = quiet then (s, .plain .already (blank 4))
  else
    let after := { c with ownerClass := cls, quiet := quiet }
    (s.setChan n after, .plain .ok (c.settings ++ after.settings))

/-- R165. -/
def State.channelSet (s : State) (code : BitVec 8) (cls : OwnerClass) (quiet : Bool) : Taken :=
  match chanOf code with
  | none => (s, .plain .outOfRange (blank 4))
  | some n => s.setChannel n cls quiet

def execChannelSet (ch : Chan) (s : State) : Host.Outcome State Fault Refusal :=
  .next <| match s.claim .ci ch with
    | some (.channelSet code cls quiet) => (s.channelSet code cls quiet).finish ch
    | _ => s

/-- R166: an outstanding request is marked for discard. -/
def Outstanding.marked (o : Outstanding) : Outstanding := { o with discard := true }

/-- R166: the channel after its CHANNEL_RESET; the requester's own outstanding request is not marked by it. One that
another channel's CHANNEL_RESET has marked before keeps that mark (DESIGN CHOICE, log 26). -/
def ChannelRecord.resetBy (c : ChannelRecord) (own : Bool) : ChannelRecord :=
  { c with
    requests := []
    responses := []
    pendingFault := none
    faultOverflow := 0
    overrun := false
    outstanding := if own then c.outstanding else c.outstanding.map Outstanding.marked }

/-- R166: CHANNEL_RESET sent on channel `ch`. -/
def State.channelReset (s : State) (ch : Chan) (code : BitVec 8) : Taken :=
  match chanOf code with
  | none => (s, .plain .outOfRange (blank 2))
  | some n =>
    let c := s.chan n
    (s.setChan n (c.resetBy (n == ch)), .plain .ok [put 0 c.requests.length, put 0 c.responses.length])

def execChannelReset (ch : Chan) (s : State) : Host.Outcome State Fault Refusal :=
  .next <| match s.claim .ci ch with
    | some (.channelReset code) => (s.channelReset ch code).finish ch
    | _ => s

/-! ## SOFT_RESET (R167) -/

def State.setPhase (s : State) (p : SoftResetPhase) : State := { s with ci := { s.ci with softReset := p } }

/-- R167: the CI takes the SOFT_RESET and stops dispatch. One already taken is served first (log 9). -/
def State.takeSoftReset (s : State) (ch : Chan) : State :=
  if s.ci.softReset = .idle then s.setPhase (.waiting ch) else s

def execSoftReset (ch : Chan) (s : State) : Host.Outcome State Fault Refusal :=
  .next <| match s.claim .ci ch with
    | some .softReset => s.takeSoftReset ch
    | _ => s

/-- R167: nothing is outstanding on a channel but, perhaps, a SOFT_RESET that the CI has not taken (log 9). -/
def ChannelRecord.quiescent (c : ChannelRecord) : Bool :=
  match c.outstanding with
  | none => true
  | some o => decide (o.request = .softReset)

/-- R167: the channel of the SOFT_RESET whose clearing can begin. -/
def State.clearingFor (s : State) : Option Chan :=
  match s.ci.softReset with
  | .waiting ch => if s.running && channels.all (fun c => (s.chan c).quiescent) then some ch else none
  | .idle => none
  | .clearing _ _ => none

/-- R24: a live subscriber record is freed; a VACANT one keeps its stamp. -/
def SubRecord.cleared (r : SubRecord) : SubRecord := if r.live then r.vacated else r

/-- R43: a live flow record becomes VACANT; a VACANT one keeps its stamp. -/
def FlowRecord.cleared (f : FlowRecord) : FlowRecord := if f.live then f.vacated else f

/-- R24, R84. -/
def Stc.cleared (b : Stc) : Stc :=
  { subs := Table.mapRecords .powerOn SubRecord.cleared b.subs, unwind := [], deadlines := [], closedCount := 0,
    lastGranted := arbiterStart }

/-- R43. -/
def Ftc.cleared (b : Ftc) : Ftc :=
  { flows := Table.mapRecords .powerOn FlowRecord.cleared b.flows, plru := [], pinned := Vector.replicate 8 0,
    lastGranted := arbiterStart }

/-- R127: drained notices are discarded, and no AUTO snapshot is taken during the clearing. -/
def Lm.cleared (b : Lm) : Lm :=
  { b with drained := Vector.replicate 8 false, autoDue := Vector.replicate 8 false }

/-- R145: walk and queue abandoned, marks at their power-on values, summaries kept. -/
def Tw.cleared (b : Tw) : Tw := { b with queue := [], walk := none, currentMark := 0, previousMark := 2, thirdMark := 1 }

/-- R167: every channel's pending fault and fault overflow count. -/
def Ci.faultsCleared (b : Ci) : Ci := { b with channels := b.channels.map ChannelRecord.faultCleared }

/-- R178: the AL empties the attention list and the overrun bitmap. -/
def State.emptyList (s : State) : State := { s with al := { s.al with list := [], overrunBitmap := 0 } }

/-- R167: the clearing of the tables. -/
def State.clearTables (s : State) : State :=
  { s with ci := s.ci.faultsCleared, stc := s.stc.cleared, ftc := s.ftc.cleared, lm := s.lm.cleared,
           tw := s.tw.cleared }

/-- R167, R178: the clearing begins. -/
def State.beginClearing (s : State) (ch : Chan) (emptyListNow : Bool) : State :=
  let s1 := s.clearTables.setPhase (.clearing ch emptyListNow)
  if emptyListNow then s1.emptyList else s1

def execSoftResetClearing (emptyListNow : Bool) (s : State) : Host.Outcome State Fault Refusal :=
  .next <| match s.clearingFor with
    | some ch => s.beginClearing ch emptyListNow
    | none => s

/-- R127: the report deadline of a link in PROBING, UP or LOST is restarted at the present count. -/
def LinkRecord.afterClearing (r : LinkRecord) (count : Second) : LinkRecord :=
  match r.state with
  | .probing | .up | .lost => { r with deadline := some (count + BitVec.ofNat 32 r.config.staleInterval.toNat) }
  | .offline | .draining => r

/-- R145: a nonzero age interval has its deadline restarted. -/
def Al.afterClearing (b : Al) : Al :=
  { b with ageDeadline := if b.ageInterval = 0 then b.ageDeadline else some (b.count + b.ageInterval) }

/-- R127, R145, R167: the timers restart and dispatch resumes. -/
def State.resume (s : State) : State :=
  { s with
    lm := { s.lm with links := s.lm.links.map fun r => LinkRecord.afterClearing r s.al.count }
    al := s.al.afterClearing }.setPhase .idle

/-- R167, R178: the clearing ends; the answer OK joins the requester's response FIFO. -/
def State.endClearing (s : State) (ch : Chan) (listEmptied : Bool) : State :=
  ((if listEmptied then s else s.emptyList).resume).complete ch (.plain .ok [])

def execSoftResetComplete (s : State) : Host.Outcome State Fault Refusal :=
  .next <| match s.ci.softReset with
    | .clearing ch listEmptied => s.endClearing ch listEmptied
    | .idle => s
    | .waiting _ => s

end Sys2Proof.Machine
end

