-- ==== Sys2Proof/Machine/Links.lean ====
section
/-! DEFINITION. Chapter 6: the link monitor: reports and their classification, windows, stale expiries, snapshots,
congestion, LINK_ADMIN, LINK_CONFIG, LINK_READ, drained notices. -/

namespace Sys2Proof.Machine

/-! ## Notices and deadlines -/

/-- R126: does an entry into a state raise STATE in this mode? -/
def StateNotice.notifies (m : StateNotice) (entered : LinkState) : Bool :=
  match entered with
  | .lost => true
  | .offline => true
  | .probing => m == .all
  | .up => m == .all
  | .draining => m == .all

/-- R126: raise STATE for an entry into a state, as the link's mode decides. -/
def State.raiseEntry (s : State) (l : LinkId) (entered : LinkState) : State :=
  if (s.link l).config.stateNotice.notifies entered then s.raise (.link l) .state else s

/-- The states with a report deadline, in which reports are classified (R106, R108). -/
def LinkState.watched : LinkState → Bool
  | .probing => true
  | .up => true
  | .lost => true
  | .offline => false
  | .draining => false

/-- R113: the present count plus the link's stale interval. -/
def State.staleDeadline (s : State) (l : LinkId) : Second := s.after (s.link l).config.staleInterval.toNat

/-- R113: the report deadline is restarted. -/
def State.restartDeadline (s : State) (l : LinkId) : State :=
  s.setLink l { s.link l with deadline := some (s.staleDeadline l) }

/-! ## Classification and windows -/

/-- R109. -/
inductive ReportClass where
  | good | bad | neutral
deriving DecidableEq, Repr

/-- R109: the class of a quality against the threshold and the hysteresis. -/
def LinkConfig.classOf (c : LinkConfig) (quality : BitVec 6) : ReportClass :=
  if c.threshold.toNat + c.hysteresis.toNat ≤ quality.toNat then .good
  else if quality < c.threshold then .bad
  else .neutral

/-- R109, R115: the runs, the degrade counter and the saturated flag after a classification. -/
def LinkRecord.classified (r : LinkRecord) (k : ReportClass) : LinkRecord :=
  match k with
  | .good => { r with badRun := 0, goodRun := satAdd r.goodRun 1 }
  | .bad => { r with badRun := satAdd r.badRun 1, goodRun := 0, degrade := satAdd r.degrade 1,
                     saturated := r.saturated || exceeds r.degrade 1 }
  | .neutral => { r with badRun := 0, goodRun := 0 }

/-- R115: does the classification raise COUNTER_SATURATED? -/
def LinkRecord.saturatesOn (r : LinkRecord) (k : ReportClass) : Bool :=
  k == .bad && exceeds r.degrade 1 && !r.saturated

/-- R110: the declare window in reports. -/
def DeclareWindow.reports : DeclareWindow → Nat
  | .fast => Config.fastWindow
  | .steady => Config.steadyWindow

/-- What the window test finds (R110). -/
inductive WindowResult where
  | becomesLost | becomesUp | unchanged
deriving DecidableEq, Repr

/-- R110: the windows tested against the runs as they stand. -/
def LinkRecord.windowResult (r : LinkRecord) : WindowResult :=
  match r.state with
  | .up => if r.config.declareWindow.reports ≤ r.badRun.toNat then .becomesLost else .unchanged
  | .probing => if r.config.clearWindow.toNat ≤ r.goodRun.toNat then .becomesUp else .unchanged
  | .lost => if r.config.clearWindow.toNat ≤ r.goodRun.toNat then .becomesUp else .unchanged
  | .offline => .unchanged
  | .draining => .unchanged

/-- R110, R111: the link becomes LOST. -/
def State.becomeLost (s : State) (l : LinkId) : State :=
  ((s.setLink l { s.link l with state := .lost, badRun := 0, goodRun := 0, congested := false }).raiseEntry
    l .lost).addWalk (.repin l)

/-- R110, R112: the link becomes UP. -/
def State.becomeUp (s : State) (l : LinkId) : State :=
  (s.setLink l { s.link l with state := .up, badRun := 0, goodRun := 0 }).raiseEntry l .up

/-- R110. -/
def State.testWindows (s : State) (l : LinkId) : State :=
  match (s.link l).windowResult with
  | .becomesLost => s.becomeLost l
  | .becomesUp => s.becomeUp l
  | .unchanged => s

/-- R109, R115, R110: a classification with the window test. -/
def State.classify (s : State) (l : LinkId) (k : ReportClass) : State :=
  let r := s.link l
  let s1 := s.setLink l (r.classified k)
  let s2 := if r.saturatesOn k then s1.raise (.link l) .counterSaturated else s1
  s2.testWindows l

/-! ## Congestion -/

/-- What an evaluation of congestion finds (R118). -/
inductive CongestionChange where
  | onset | relief | unchanged
deriving DecidableEq, Repr

/-- R118. -/
def LinkRecord.congestionChange (r : LinkRecord) (occupancy : BitVec 8) : CongestionChange :=
  if r.congested then (if occupancy ≤ r.config.lowWater then .relief else .unchanged)
  else (if r.config.highWater ≤ occupancy then .onset else .unchanged)

/-- R118: the evaluation of an UP link; a link in another state is left as it is. -/
def State.evaluateCongestion (s : State) (l : LinkId) (occupancy : BitVec 8) : State :=
  let r := s.link l
  if r.state = .up then
    match r.congestionChange occupancy with
    | .onset => (s.setLink l { r with congested := true }).raise (.link l) .congestion
    | .relief =>
      let s1 := s.setLink l { r with congested := false }
      if r.config.congestionNotice = .both then s1.raise (.link l) .congestion else s1
    | .unchanged => s
  else s

/-! ## LINK_REPORT -/

/-- R108, steps 1 and 2, R116: the latest measurements and the peak. -/
def LinkRecord.measured (r : LinkRecord) (quality : BitVec 6) (occupancy : BitVec 8) : LinkRecord :=
  { r with
    lastQuality := quality
    lastOccupancy := occupancy
    peak := if r.peak < occupancy then occupancy else r.peak }

/-- The place of a classification in Config.reportClassCode; NONE is 3 (log 14). -/
def reportClassIndex : Option ReportClass → Nat
  | some .good => 0
  | some .bad => 1
  | some .neutral => 2
  | none => 3

/-- R108: state, classification, both runs, congested flag, degrade counter. -/
def State.reportBody (s : State) (l : LinkId) (k : Option ReportClass) : List Word :=
  let r := s.link l
  [put 0 r.state.code, (Config.reportClassCode (reportClassIndex k)).setWidth 32, put 0 r.badRun.toNat,
    put 0 r.goodRun.toNat, putFlag 0 r.congested, put 0 r.degrade.toNat]

/-- R108: a report of quality 0 to 63 on a link 0 to 7. -/
def State.report (s : State) (l : LinkId) (quality : BitVec 6) (occupancy : BitVec 8) : Taken :=
  let s1 := s.setLink l ((s.link l).measured quality occupancy)
  if (s.link l).state.watched then
    let k := (s.link l).config.classOf quality
    let t := ((s1.restartDeadline l).classify l k).evaluateCongestion l occupancy
    (t, .plain .ok (t.reportBody l (some k)))
  else (s1, .plain .ok (s1.reportBody l none))

/-- R108. -/
def State.linkReport (s : State) (code : BitVec 4) (quality occupancy : BitVec 8) : Taken :=
  match linkOf code with
  | none => (s, .plain .outOfRange (blank 6))
  | some l =>
    if 63 < quality.toNat then (s, .plain .outOfRange (blank 6))
    else s.report l (quality.setWidth 6) occupancy

def execLinkReport (ch : Chan) (s : State) : Host.Outcome State Fault Refusal :=
  .next <| match s.claim .lm ch with
    | some (.linkReport code quality occupancy) => (s.linkReport code quality occupancy).finish ch
    | _ => s

/-! ## LINK_ADMIN -/

/-- A LINK_ADMIN request that names no link 0 to 7. -/
def State.noLink (s : State) : Taken := (s, .plain .outOfRange (linkAdminBody []))

/-- R119: the record of a link that ENABLE takes to PROBING, its deadline apart. -/
def LinkRecord.enabled (r : LinkRecord) : LinkRecord :=
  { r with state := .probing, badRun := 0, goodRun := 0, degrade := 0, saturated := false, peak := 0,
           congested := false }

/-- R119. -/
def State.enableLink (s : State) (l : LinkId) : Taken :=
  if (s.link l).state.watched then (s, .plain .already (linkAdminBody []))
  else (((s.setLink l (s.link l).enabled).restartDeadline l).raiseEntry l .probing,
    .plain .ok (linkAdminBody []))

def State.enable (s : State) (code : BitVec 4) : Taken :=
  match linkOf code with
  | none => s.noLink
  | some l => s.enableLink l

def execEnable (ch : Chan) (s : State) : Host.Outcome State Fault Refusal :=
  .next <| match s.claim .lm ch with
    | some (.linkAdmin code .enable) => (s.enable code).finish ch
    | _ => s

/-- R120, R121: a link leaves service for OFFLINE or DRAINING: deadline discarded, congested and runs cleared. -/
def LinkRecord.leftService (r : LinkRecord) (entered : LinkState) : LinkRecord :=
  { r with state := entered, badRun := 0, goodRun := 0, congested := false, deadline := none }

def State.leaveService (s : State) (l : LinkId) (entered : LinkState) : State :=
  (s.setLink l ((s.link l).leftService entered)).raiseEntry l entered

/-- R125: request a REPIN walk of a link with flows pinned to it. -/
def State.requestRepin (s : State) (l : LinkId) : State :=
  if 0 < s.pinnedCount l then s.addWalk (.repin l) else s

/-- R120. -/
def State.disableLink (s : State) (l : LinkId) : Taken :=
  if (s.link l).state = .offline then (s, .plain .already (linkAdminBody []))
  else ((s.leaveService l .offline).requestRepin l, .plain .ok (linkAdminBody [put 0 (s.pinnedCount l)]))

def State.disable (s : State) (code : BitVec 4) : Taken :=
  match linkOf code with
  | none => s.noLink
  | some l => s.disableLink l

def execDisable (ch : Chan) (s : State) : Host.Outcome State Fault Refusal :=
  .next <| match s.claim .lm ch with
    | some (.linkAdmin code .disable) => (s.disable code).finish ch
    | _ => s

/-- R121: the state that DRAIN enters. -/
def State.drainTarget (s : State) (l : LinkId) : LinkState :=
  if 0 < s.pinnedCount l then .draining else .offline

/-- R121. -/
def State.drainLink (s : State) (l : LinkId) : Taken :=
  match (s.link l).state with
  | .draining => (s, .plain .already (linkAdminBody []))
  | .offline => (s, .plain .conflict (linkAdminBody []))
  | .probing | .up | .lost =>
    ((s.leaveService l (s.drainTarget l)).requestRepin l,
      .plain .ok (linkAdminBody [put 0 (s.drainTarget l).code, put 0 (s.pinnedCount l)]))

def State.drain (s : State) (code : BitVec 4) : Taken :=
  match linkOf code with
  | none => s.noLink
  | some l => s.drainLink l

def execDrain (ch : Chan) (s : State) : Host.Outcome State Fault Refusal :=
  .next <| match s.claim .lm ch with
    | some (.linkAdmin code .drain) => (s.drain code).finish ch
    | _ => s

/-- R114: state, bad run, degrade counter. -/
def State.injectBody (s : State) (l : LinkId) : List Word :=
  linkAdminBody [put 0 (s.link l).state.code, put 0 (s.link l).badRun.toNat, put 0 (s.link l).degrade.toNat]

/-- R114. -/
def State.injectLink (s : State) (l : LinkId) : Taken :=
  let t := if (s.link l).state.watched then s.classify l .bad else s
  (t, .plain .ok (t.injectBody l))

def State.inject (s : State) (code : BitVec 4) : Taken :=
  match linkOf code with
  | none => s.noLink
  | some l => s.injectLink l

def execInject (ch : Chan) (s : State) : Host.Outcome State Fault Refusal :=
  .next <| match s.claim .lm ch with
    | some (.linkAdmin code .inject) => (s.inject code).finish ch
    | _ => s

/-! ## Snapshots -/

/-- R117. -/
def LinkRecord.snapshotTaken (r : LinkRecord) (second : Second) : LinkRecord :=
  { r with
    snapshot := { degrade := r.degrade, saturated := r.saturated, peak := r.peak, taken := second }
    degrade := 0
    saturated := false
    peak := 0 }

def State.takeSnapshot (s : State) (l : LinkId) : State := s.setLink l ((s.link l).snapshotTaken s.al.count)

/-- R117: degrade value, saturated flag, peak occupancy, ship second taken (R106). -/
def Snapshot.words (n : Snapshot) : List Word :=
  [put 0 n.degrade.toNat, putFlag 0 n.saturated, put 0 n.peak.toNat, n.taken]

def State.snapshotLink (s : State) (l : LinkId) : Taken :=
  let t := s.takeSnapshot l
  (t, .plain .ok (linkAdminBody (t.link l).snapshot.words))

def State.snapshot (s : State) (code : BitVec 4) : Taken :=
  match linkOf code with
  | none => s.noLink
  | some l => s.snapshotLink l

def execSnapshot (ch : Chan) (s : State) : Host.Outcome State Fault Refusal :=
  .next <| match s.claim .lm ch with
    | some (.linkAdmin code .snapshot) => (s.snapshot code).finish ch
    | _ => s

/-- R117: an AUTO snapshot that the last advance of the count calls for. -/
def execAutoSnapshot (l : LinkId) (s : State) : Host.Outcome State Fault Refusal :=
  .next <| if s.running && s.autoSnapshotDue l then (s.takeSnapshot l).setAutoDue l false else s

/-! ## LINK_CONFIG and LINK_READ -/

/-- R123, step 1: every field in its range, Q + H at most 63, low below high, the fallback NONE or another link. -/
def LinkConfig.inRange (c : LinkConfig) (l : LinkId) (fallbackCode : BitVec 4) : Bool :=
  decide (1 ≤ c.hysteresis.toNat) && decide (c.threshold.toNat + c.hysteresis.toNat ≤ 63)
    && decide (1 ≤ c.clearWindow.toNat) && decide (c.clearWindow.toNat ≤ 64)
    && decide (1 ≤ c.staleInterval.toNat) && decide (c.staleInterval.toNat ≤ 60)
    && decide (1 ≤ c.highWater.toNat) && decide (c.lowWater < c.highWater)
    && decide (fallbackCode.toNat ≤ 8) && decide (c.fallback ≠ some l)

/-- R123. -/
def State.linkConfig (s : State) (code : BitVec 4) (c : LinkConfig) (fallbackCode : BitVec 4) : Taken :=
  match linkOf code with
  | none => (s, .plain .outOfRange [])
  | some l =>
    if !c.inRange l fallbackCode then (s, .plain .outOfRange [])
    else if c = (s.link l).config then (s, .plain .already [])
    else (s.setLink l { s.link l with config := c }, .plain .ok [])

def execLinkConfig (ch : Chan) (s : State) : Host.Outcome State Fault Refusal :=
  .next <| match s.claim .lm ch with
    | some (.linkConfig code c fallbackCode) => (s.linkConfig code c fallbackCode).finish ch
    | _ => s

/-- R124: the answer of LINK_READ, which changes nothing. -/
def State.linkRead (s : State) (code : BitVec 4) : Reply :=
  match linkOf code with
  | none => .plain .outOfRange (blank 12)
  | some l => .plain .ok (s.linkReadBody l)

def execLinkRead (ch : Chan) (s : State) : Host.Outcome State Fault Refusal :=
  .next <| match s.claim .lm ch with
    | some (.linkRead code) => Taken.finish (s, s.linkRead code) ch
    | _ => s

/-! ## Drained notices and stale expiries -/

/-- R122: a DRAINING link whose pinned count is 0 becomes OFFLINE; else the notice is set aside. -/
def State.takeDrained (s : State) (l : LinkId) : State :=
  let s1 := s.setDrained l false
  if (s1.link l).state = .draining ∧ s1.pinnedCount l = 0 then
    (s1.setLink l { s1.link l with state := .offline }).raiseEntry l .offline
  else s1

def execDrainedNotice (l : LinkId) (s : State) : Host.Outcome State Fault Refusal :=
  .next <| if s.running && s.drainedWaiting l then s.takeDrained l else s

/-- R113: is a stale expiry of the link due? -/
def State.staleDue (s : State) (l : LinkId) : Bool :=
  (s.link l).state.watched && decide ((s.link l).deadline = some s.al.count)

/-- R113. -/
def State.expireStale (s : State) (l : LinkId) : State := (s.restartDeadline l).classify l .bad

def execStaleExpiry (l : LinkId) (s : State) : Host.Outcome State Fault Refusal :=
  .next <| if s.running && s.staleDue l then s.expireStale l else s

end Sys2Proof.Machine
end

