-- ==== Sys2Proof/Machine/Walker.lean ====
section
/-! DEFINITION. Chapter 7: AGE, WALK_STATUS, WALK_ABORT, the start, the visits and the ends of walks, the age expiry. -/

namespace Sys2Proof.Machine

/-! ## The walker -/

def State.setWalk (s : State) (w : Option Walk) : State := { s with tw := { s.tw with walk := w } }

def State.setQueue (s : State) (q : List WalkEntry) : State := { s with tw := { s.tw with queue := q } }

/-- Any walker event but a start needs a walk in progress, outside a clearing (R130, R167). -/
def State.walking (s : State) : Option Walk := if s.running then s.tw.walk else none

/-! ## AGE -/

/-- R129: the kind of the walk in progress, or IDLE. -/
def State.walkKindWord (s : State) : Word :=
  match s.tw.walk with
  | some w => put 0 w.entry.kindCode
  | none => Config.idleWalkCode.setWidth 32

/-- R129: the entries ahead of the AGE entry, and the kind of the walk in progress. -/
def State.ageBody (s : State) : List Word :=
  [put 0 (s.tw.queue.findIdx fun e => e == .age), s.walkKindWord]

/-- R129. -/
def State.ageRequest (s : State) : Taken :=
  let t := s.addWalk .age
  (t, .plain (if WalkEntry.age ∈ s.tw.queue then .already else .ok) t.ageBody)

def execAge (ch : Chan) (s : State) : Host.Outcome State Fault Refusal :=
  .next <| match s.claim .tw ch with
    | some .age => s.ageRequest.finish ch
    | _ => s

/-! ## WALK_STATUS -/

/-- R143: the answer of WALK_STATUS, which changes nothing. -/
def State.walkStatus (s : State) (part : WalkSection) : Reply :=
  match part with
  | .walker => .plain .ok s.walkerBody
  | .summaries => .plain .ok s.summariesBody

def execWalkStatus (ch : Chan) (s : State) : Host.Outcome State Fault Refusal :=
  .next <| match s.claim .tw ch with
    | some (.walkStatus part) => Taken.finish (s, s.walkStatus part) ch
    | _ => s

/-! ## REPIN summaries and WALK_ABORT -/

/-- R130, R141, R142: the link's REPIN summary is written, REPIN_DONE raised and the walker made IDLE. -/
def State.endRepin (s : State) (l : LinkId) (moved held : Nat) (aborted : Bool) : State :=
  let summary : RepinSummary := { moved := moved, held := held, aborted := aborted, completed := s.al.count }
  ((s.setLink l { s.link l with repin := summary }).raise (.link l) .repinDone).setWalk none

/-- The links that a WALK_ABORT selects (R142): one, or ALL. -/
inductive LinkSelector where
  | one (l : LinkId)
  | all
deriving DecidableEq, Repr

/-- R142, R180: a link 0 to 7, or 255 for ALL; every other selector is out of range. -/
def linkSelector (code : BitVec 8) : Option LinkSelector :=
  if code = 255 then some .all
  else if h : code.toNat < 8 then some (.one ⟨code.toNat, h⟩)
  else none

def LinkSelector.selects (x : LinkSelector) (e : WalkEntry) : Bool :=
  match e with
  | .repin l =>
    match x with
    | .one k => decide (l = k)
    | .all => true
  | .age => false
  | .zone => false
  | .recheck => false

/-- R142, step 1: the walk in progress, when it is a REPIN of a selected link. -/
def State.abortedWalk (s : State) (x : LinkSelector) : Option (LinkId × Walk) :=
  match s.tw.walk with
  | none => none
  | some w => if x.selects w.entry then w.entry.target.map fun l => (l, w) else none

/-- R142: the REPIN walk in progress is aborted, then the queued entries are removed. -/
def State.abortWalks (s : State) (x : LinkSelector) : Taken :=
  let s1 := match s.abortedWalk x with
    | some (l, w) => s.endRepin l w.counts.moved w.counts.flowsHeld true
    | none => s
  let kept := s.tw.queue.filter fun e => !x.selects e
  let removed := s.tw.queue.length - kept.length
  if (s.abortedWalk x).isNone && removed == 0 then (s, .plain .nothing (blank 2))
  else (s1.setQueue kept,
    .plain .ok [put 0 (linkCode ((s.abortedWalk x).map Prod.fst)), put 0 removed])

/-- R142: the selector is checked first, then the kind. -/
def State.walkAbort (s : State) (kind : WalkKind) (selector : BitVec 8) : Taken :=
  match linkSelector selector with
  | none => (s, .plain .outOfRange (blank 2))
  | some x =>
    match kind with
    | .repin => s.abortWalks x
    | .age | .zone | .recheck => (s, .plain .conflict (blank 2))

def execWalkAbort (ch : Chan) (s : State) : Host.Outcome State Fault Refusal :=
  .next <| match s.claim .tw ch with
    | some (.walkAbort kind selector) => (s.walkAbort kind selector).finish ch
    | _ => s

/-! ## The start of a walk (R130) -/

/-- R132: at the start of an AGE walk the roles rotate. -/
def State.rotateMarks (s : State) : State :=
  { s with tw := { s.tw with
    currentMark := s.tw.thirdMark
    previousMark := s.tw.currentMark
    thirdMark := s.tw.previousMark } }

/-- R130: the walker at the start of a walk. -/
def State.newWalk (s : State) (e : WalkEntry) : Walk :=
  { entry := e, flowPass := false, cursor := 0, counts := .zero, started := s.al.count,
    zone := s.zas.currentZone, zoneEpoch := s.zas.zoneEpoch, policyEpoch := s.zas.policyEpoch }

/-- R130: the entry has left the queue; the start acts by kind. -/
def State.startWalk (s : State) (e : WalkEntry) : State :=
  let s1 := s.setWalk (some (s.newWalk e))
  match e with
  | .age => s1.rotateMarks
  | .repin l => if (s.link l).state = .up then s1.endRepin l 0 0 false else s1
  | .zone => s1
  | .recheck => s1

/-- R130: the head entry, when the walker is IDLE. -/
def State.startable (s : State) : Option WalkEntry :=
  match s.tw.walk with
  | some _ => none
  | none => s.tw.queue.head?

def execWalkStart (s : State) : Host.Outcome State Fault Refusal :=
  .next <| match s.running, s.startable with
    | true, some e => (s.setQueue s.tw.queue.tail).startWalk e
    | _, _ => s

/-! ## Visits (R131) -/

/-- R131: the tables that a walk's pass visits, by their number of records. -/
def Walk.size (w : Walk) : Nat :=
  match w.entry with
  | .age => if w.flowPass then Config.flowCount else Config.subscriberCount
  | .zone => Config.subscriberCount
  | .recheck => Config.subscriberCount
  | .repin _ => Config.flowCount

/-- Is a record left to visit in this pass? -/
def Walk.visiting (w : Walk) : Bool := decide (w.cursor < w.size)

/-- R131: the cursor advances by one. -/
def Walk.advance (w : Walk) (counts : WalkCounts) : Walk :=
  { w with counts := counts, cursor := w.cursor + 1 }

/-- R131: the visit to the last subscriber in pass 1 of an AGE walk sets pass 2 and cursor 0. -/
def Walk.advancePass1 (w : Walk) (counts : WalkCounts) : Walk :=
  if w.cursor + 1 = Config.subscriberCount then { w with counts := counts, flowPass := true, cursor := 0 }
  else w.advance counts

/-- The subscriber and the flow at the cursor. -/
def Walk.subAt (w : Walk) : SubIx := BitVec.ofNat 12 w.cursor
def Walk.flowAt (w : Walk) : FlowIx := BitVec.ofNat 14 w.cursor

/-- The walk in progress, when its next visit is a subscriber visit of pass 1 of an AGE walk. -/
def State.pass1Walk (s : State) : Option Walk :=
  s.walking.filter fun w => w.entry == .age && !w.flowPass && w.visiting

def State.pass2Walk (s : State) : Option Walk :=
  s.walking.filter fun w => w.entry == .age && w.flowPass && w.visiting

def State.zoneWalk (s : State) : Option Walk := s.walking.filter fun w => w.entry == .zone && w.visiting

def State.recheckWalk (s : State) : Option Walk := s.walking.filter fun w => w.entry == .recheck && w.visiting

/-! ## AGE visits -/

/-- R133: does a doomed record retire? -/
def SubRecord.retires (r : SubRecord) : Bool :=
  !r.permanent && (r.state == .attached || r.state == .roamBarred) && !r.closeHeld

/-- R133: the re-marking of a record that carries the doomed value. -/
def State.remark (s : State) (i : SubIx) : State := s.setSub i { s.sub i with mark := s.tw.previousMark }

/-- R133: does the visit act on the record: is it live, with the doomed mark? -/
def State.doomedSub (s : State) (i : SubIx) : Bool := (s.sub i).live && (s.sub i).mark == s.tw.thirdMark

/-- R133: the record's part of a pass-1 visit. -/
def State.ageSub (s : State) (i : SubIx) : State :=
  if s.doomedSub i then
    (if (s.sub i).retires then s.enterDetaching i else s).remark i
  else s

/-- R133: subscribers retired by the visit. -/
def State.ageSubCount (s : State) (i : SubIx) : Nat := if s.doomedSub i && (s.sub i).retires then 1 else 0

def State.pass1Visit (s : State) (w : Walk) : State :=
  let counts := { w.counts with subsRetired := w.counts.subsRetired + s.ageSubCount w.subAt }
  (s.ageSub w.subAt).setWalk (some (w.advancePass1 counts))

def execAgePass1Visit (s : State) : Host.Outcome State Fault Refusal :=
  .next <| match s.pass1Walk with
    | some w => s.pass1Visit w
    | none => s

/-- R134: is the flow live, with the doomed mark? -/
def State.doomedFlow (s : State) (i : FlowIx) : Bool := (s.flow i).live && (s.flow i).mark == s.tw.thirdMark

def State.pass2Visit (s : State) (w : Walk) : State :=
  let i := w.flowAt
  let doomed := s.doomedFlow i
  let counts := { w.counts with flowsRetired := w.counts.flowsRetired + if doomed then 1 else 0 }
  (if doomed then s.retire i else s).setWalk (some (w.advance counts))

def execAgePass2Visit (s : State) : Host.Outcome State Fault Refusal :=
  .next <| match s.pass2Walk with
    | some w => s.pass2Visit w
    | none => s

/-! ## ZONE and RECHECK visits -/

/-- R137, R138: lazy processing of a live record. -/
def State.lazyVisit (s : State) (i : SubIx) : State := if (s.sub i).live then s.lazy i else s

/-- R137, R138: what the visit's processing reports; nothing for a VACANT record. -/
def State.visitReport (s : State) (i : SubIx) : LazyReport := if (s.sub i).live then s.lazyReport i else {}

/-- One more where the condition holds. -/
def countIf (n : Nat) (b : Bool) : Nat := if b then n + 1 else n

/-- R137. -/
def State.zoneVisit (s : State) (w : Walk) : State :=
  let report := s.visitReport w.subAt
  let counts := { w.counts with
    closed := countIf w.counts.closed report.closed
    held := countIf w.counts.held report.held
    barred := countIf w.counts.barred report.barred }
  (s.lazyVisit w.subAt).setWalk (some (w.advance counts))

def execZoneVisit (s : State) : Host.Outcome State Fault Refusal :=
  .next <| match s.zoneWalk with
    | some w => s.zoneVisit w
    | none => s

/-- R138 (held: log 19). -/
def State.recheckVisit (s : State) (w : Walk) : State :=
  let report := s.visitReport w.subAt
  let counts := { w.counts with
    rechecked := countIf w.counts.rechecked report.rechecked
    barred := countIf w.counts.barred report.barred
    cleared := countIf w.counts.cleared report.cleared
    held := countIf w.counts.held report.held }
  (s.lazyVisit w.subAt).setWalk (some (w.advance counts))

def execRecheckVisit (s : State) : Host.Outcome State Fault Refusal :=
  .next <| match s.recheckWalk with
    | some w => s.recheckVisit w
    | none => s

/-! ## REPIN visits -/

/-- The REPIN walk in progress with its link, when a flow is left to visit. -/
def State.repinWalk (s : State) : Option (LinkId × Walk) :=
  match s.walking with
  | none => none
  | some w => if w.visiting then w.entry.target.map fun l => (l, w) else none

/-- R140: does the visit act on the flow: is it OPEN with the pin L, and L not UP? -/
def State.repins (s : State) (l : LinkId) (i : FlowIx) : Bool :=
  (s.flow i).pin == some l && decide ((s.link l).state ≠ .up)

/-- R140. -/
def State.repinVisit (s : State) (l : LinkId) (w : Walk) : State :=
  let i := w.flowAt
  if s.repins l i then
    let selected := s.selectLink (s.flow i).cls (some l)
    let counts := { w.counts with
      moved := countIf w.counts.moved selected.isSome
      flowsHeld := countIf w.counts.flowsHeld selected.isNone }
    (s.repinFlow i selected).setWalk (some (w.advance counts))
  else s.setWalk (some (w.advance w.counts))

def execRepinVisit (s : State) : Host.Outcome State Fault Refusal :=
  .next <| match s.repinWalk with
    | some (l, w) => s.repinVisit l w
    | none => s

/-! ## Ends of walks -/

/-- The walk in progress, when its last pass is over. -/
def State.endingWalk (s : State) : Option Walk :=
  s.walking.filter fun w => !w.visiting && (w.flowPass || w.entry != .age)

/-- R135: the doomed value takes the empty role, which `thirdMark` already holds. -/
def State.ageEnd (s : State) (w : Walk) : State :=
  let summary : AgeSummary :=
    { subsRetired := w.counts.subsRetired, flowsRetired := w.counts.flowsRetired, started := w.started,
      completed := s.al.count }
  ({ s with tw := { s.tw with ageSummary := summary } }.raise .walker .ageDone).setWalk none

def execAgeWalkEnd (s : State) : Host.Outcome State Fault Refusal :=
  .next <| match s.endingWalk with
    | some w => if w.entry = .age then s.ageEnd w else s
    | none => s

/-- R137. -/
def State.zoneEnd (s : State) (w : Walk) : State :=
  let summary : ZoneSummary :=
    { zone := w.zone, zoneEpoch := w.zoneEpoch, closed := w.counts.closed, held := w.counts.held,
      barred := w.counts.barred, completed := s.al.count }
  ({ s with tw := { s.tw with zoneSummary := summary } }.raise .walker .zoneDone).setWalk none

def execZoneWalkEnd (s : State) : Host.Outcome State Fault Refusal :=
  .next <| match s.endingWalk with
    | some w => if w.entry = .zone then s.zoneEnd w else s
    | none => s

/-- R138. -/
def State.recheckEnd (s : State) (w : Walk) : State :=
  let summary : RecheckSummary :=
    { policyEpoch := w.policyEpoch, rechecked := w.counts.rechecked, barred := w.counts.barred,
      cleared := w.counts.cleared, held := w.counts.held, completed := s.al.count }
  ({ s with tw := { s.tw with recheckSummary := summary } }.raise .walker .recheckDone).setWalk none

def execRecheckWalkEnd (s : State) : Host.Outcome State Fault Refusal :=
  .next <| match s.endingWalk with
    | some w => if w.entry = .recheck then s.recheckEnd w else s
    | none => s

/-- R141. -/
def execRepinWalkEnd (s : State) : Host.Outcome State Fault Refusal :=
  .next <| match s.endingWalk with
    | some w =>
      match w.entry.target with
      | some l => s.endRepin l w.counts.moved w.counts.flowsHeld false
      | none => s
    | none => s

/-! ## The age expiry (R144) -/

/-- R144: the deadline that a nonzero interval sets. -/
def State.ageDeadlineFor (s : State) (interval : Word) : Option Second :=
  if interval = 0 then none else some (s.al.count + interval)

/-- R144: the age deadline is present and equals the count. -/
def State.ageDue (s : State) : Bool := decide (s.al.ageDeadline = some s.al.count)

/-- R144: the age deadline is restarted, and an AGE entry added. -/
def State.expireAge (s : State) : State :=
  { s with al := { s.al with ageDeadline := some (s.al.count + s.al.ageInterval) } }.addWalk .age

def execAgeExpiry (s : State) : Host.Outcome State Fault Refusal :=
  .next <| if s.running && s.ageDue then s.expireAge else s

end Sys2Proof.Machine
end

