-- ==== Sys2Proof/Machine/Device.lean ====
section
/-! DEFINITION. Chapter 10: RESET_N, initialization complete, the ship second count, NOTICE_FETCH, DEVICE_STATUS,
DEVICE_CONFIG. -/

namespace Sys2Proof.Machine

/-! ## RESET_N and start-up (R175) -/

/-- R175: every block takes its power-on state; the commands still to come are outside the part. -/
def State.powerOn (s : State) : State := { State.reset with pending := s.pending }

def execPowerOnReset (s : State) : Host.Outcome State Fault Refusal := .next s.powerOn

/-- R175: RESET_N is released and the device is in INIT. -/
def State.releaseReset (s : State) : State := { s with resetHeld := false }

def execResetNRelease (s : State) : Host.Outcome State Fault Refusal := .next s.releaseReset

/-- R175: the device becomes READY and READY is raised on the DEVICE record. -/
def State.becomeReady (s : State) : State := { s with al := { s.al with ready := true } }.raise .device .ready

def execInitializationComplete (s : State) : Host.Outcome State Fault Refusal :=
  .next <| if !s.resetHeld && !s.al.ready then s.becomeReady else s

/-! ## The ship second count (R174) -/

/-- R71, R113, R117, R144: an expiry or an AUTO snapshot that the present count calls for has not been taken. -/
def State.expiryDue (s : State) : Bool :=
  s.expiringGrant.isSome || links.any (fun l => s.staleDue l || s.autoSnapshotDue l) || s.ageDue

/-- R167: a clearing runs. -/
def State.clearing (s : State) : Bool :=
  match s.ci.softReset with
  | .clearing _ _ => true
  | .idle => false
  | .waiting _ => false

/-- R117: one AUTO snapshot is due for each link in AUTO mode; none during a clearing (R127). -/
def State.callAutoSnapshots (s : State) : State :=
  { s with lm := { s.lm with
    autoDue := s.lm.links.map fun r => !s.clearing && r.config.snapshotMode == .auto } }

/-- R174. -/
def State.advanceCount (s : State) : State := { s with al := { s.al with count := s.al.count + 1 } }.callAutoSnapshots

/-- R174: the count advances while the device is READY; outside a clearing the claims that the present count calls
for come first (log 6). -/
def execShipSecondAdvance (s : State) : Host.Outcome State Fault Refusal :=
  .next <| if !s.resetHeld && s.al.ready && (s.clearing || !s.expiryDue) then s.advanceCount else s

/-! ## NOTICE_FETCH (R170) -/

/-- R170: the oldest entry that matches the filter. -/
def State.oldestNotice (s : State) (f : NoticeFilter) : Option AttnEntry :=
  s.al.list.find? fun e => f.admits e.record

/-- R170: R20 for a SUBSCRIBER entry, zero for the other kinds. -/
def State.noticeNibble (s : State) : AttnRecord → Nibble
  | .subscriber i => s.subNibble i
  | .link _ => .zero
  | .walker => .zero
  | .device => .zero

/-- R170, R173: a fetch of the DEVICE entry clears the overrun bitmap. -/
def State.clearBitmapFor (s : State) (r : AttnRecord) : State :=
  match r with
  | .device => { s with al := { s.al with overrunBitmap := 0 } }
  | .subscriber _ => s
  | .link _ => s
  | .walker => s

/-- R170: the entry leaves the list. -/
def State.fetch (s : State) (e : AttnEntry) : State := (s.removeEntry e.record).clearBitmapFor e.record

/-- R170: NOTHING with the number of entries, or the oldest matching entry. -/
def State.noticeFetch (s : State) (f : NoticeFilter) : Taken :=
  match s.oldestNotice f with
  | none => (s, .plain .nothing [0, 0, 0, put 16 s.al.list.length])
  | some e =>
    let t := s.fetch e
    (t, .of .ok (t.noticeNibble e.record) (s.noticeBody e t.al.list.length))

def execNoticeFetch (ch : Chan) (s : State) : Host.Outcome State Fault Refusal :=
  .next <| match s.claim .al ch with
    | some (.noticeFetch f) => (s.noticeFetch f).finish ch
    | _ => s

/-! ## DEVICE_STATUS and DEVICE_CONFIG -/

/-- R176: DEVICE_STATUS changes nothing. -/
def execDeviceStatus (ch : Chan) (s : State) : Host.Outcome State Fault Refusal :=
  .next <| match s.claim .al ch with
    | some .deviceStatus => Taken.finish (s, .plain .ok s.deviceStatusBody) ch
    | _ => s

/-- R144: 0, or 60 to 86,400 s. -/
def intervalInRange (interval : Word) : Bool :=
  interval == 0 || (decide (Config.ageIntervalMin ≤ interval.toNat) && decide (interval.toNat ≤ Config.ageIntervalMax))

/-- R144, R177: both values are written; the deadline is set, or discarded. -/
def State.configure (s : State) (interval : Word) (enable : Bool) : State :=
  { s with al := { s.al with ageInterval := interval, ageDeadline := s.ageDeadlineFor interval,
                             interruptEnable := enable } }

/-- R177: the interval, the deadline and the enable before and after. -/
def State.deviceConfig (s : State) (interval : Word) (enable : Bool) : Taken :=
  if intervalInRange interval then
    let t := s.configure interval enable
    (t, .plain .ok (s.deviceConfigWords ++ t.deviceConfigWords))
  else (s, .plain .outOfRange (blank 6))

/-- R177: a DEVICE_CONFIG that comes after an advance finds a due age expiry taken under the old deadline, so it waits
for it (log 6). -/
def execDeviceConfig (ch : Chan) (s : State) : Host.Outcome State Fault Refusal :=
  .next <| match s.claim .al ch with
    | some (.deviceConfig interval enable) =>
      if s.ageDue then s else (s.deviceConfig interval enable).finish ch
    | _ => s

end Sys2Proof.Machine
end

