-- ==== Sys2Proof/Machine/Subscribers.lean ====
section
/-! DEFINITION. Chapters 1 and 8: ATTACH, DETACH, SUB_FIND, SUB_READ, SUB_UPDATE, the unwinder. -/

namespace Sys2Proof.Machine

/-! ## ATTACH -/

/-- R6: the record an ATTACH creates at index `i`, before its recheck. -/
def State.newRecord (s : State) (i : SubIx) (tag : Tag) (cls : SubClass) (permanent : Bool) (tariff : TariffIx)
    (home : Operator) : SubRecord :=
  { SubRecord.powerOn with
    tag := tag
    stamp := (s.sub i).stamp
    state := .attached
    cls := cls
    home := home
    permanent := permanent
    mark := s.tw.currentMark
    zoneEpoch := s.zas.zoneEpoch
    policyEpoch := s.zas.policyEpoch
    tariff := if cls = .crew then some tariff else none
    ratingZone := s.zas.currentZone }

/-- R6, R7: create the record and recheck it; the low-credit check is the recheck's last part. -/
def State.createSub (s : State) (i : SubIx) (r : SubRecord) : State := (s.setSub i r).recheck i

/-- R8, steps 1 to 3: home operator and permanent flag from the request, UNSETTLED withdrawn, state ATTACHED. -/
def State.reviveStart (s : State) (i : SubIx) (permanent : Bool) (home : Operator) : State :=
  (s.setSub i { s.sub i with home := home, permanent := permanent, state := .attached }).withdraw
    (.subscriber i) .unsettled

/-- R8: the whole revive: the touch, the recheck if the touch made none, the low-credit check. -/
def State.revive (s : State) (i : SubIx) (permanent : Bool) (home : Operator) : State :=
  let s1 := s.reviveStart i permanent home
  let s2 := s1.touch i
  let s3 := if (s1.lazyReport i).rechecked then s2 else s2.recheck i
  s3.lowCredit i

/-- The answer of an ATTACH that names record `i` (R5). -/
def State.attachReply (s : State) (i : SubIx) (status : Status) (revived : Bool) : Reply :=
  { status := status, nibble := s.subNibble i, flags := { revived := revived }, body := s.attachBody i }

/-- R8: does the request conflict with the UNSETTLED record of its tag? -/
def reviveConflict (r : SubRecord) (cls : SubClass) (tariff : TariffIx) : Bool :=
  decide (cls ≠ r.cls) || (cls == .crew && decide (r.tariff ≠ some tariff))

/-- R5, step 3: a live record holds the tag. -/
def State.attachFound (s : State) (i : SubIx) (cls : SubClass) (permanent : Bool) (tariff : TariffIx)
    (home : Operator) : Taken :=
  match (s.sub i).state with
  | .attached | .roamBarred =>
    let t := s.touch i
    (t, t.attachReply i .already false)
  | .detaching => (s, s.attachReply i .detaching false)
  | .unsettled =>
    if reviveConflict (s.sub i) cls tariff then (s, s.attachReply i .conflict false)
    else
      let t := s.revive i permanent home
      (t, t.attachReply i .ok true)
  | .vacant => (s, .plain .notFound (blank 2))

/-- R5, steps 3 to 5, for a class and tariff in range. -/
def State.attachChecked (s : State) (tag : Tag) (cls : SubClass) (permanent : Bool) (tariff : TariffIx)
    (home : Operator) : Taken :=
  match s.findTag tag with
  | some i => s.attachFound i cls permanent tariff home
  | none =>
    match s.vacantSub tag with
    | none => (s, .plain .bucketFull (blank 2))
    | some i =>
      let t := s.createSub i (s.newRecord i tag cls permanent tariff home)
      (t, t.attachReply i .ok false)

/-- R5: ATTACH. -/
def State.attach (s : State) (tag : Tag) (code : BitVec 2) (permanent : Bool) (tariff : TariffIx)
    (home : Operator) : Taken :=
  match subClass code with
  | none => (s, .plain .outOfRange (blank 2))
  | some cls =>
    if cls = .crew ∧ (s.tariff tariff).defined = false then (s, .plain .outOfRange (blank 2))
    else s.attachChecked tag cls permanent tariff home

def execAttach (ch : Chan) (s : State) : Host.Outcome State Fault Refusal :=
  .next <| match s.claim .stc ch with
    | some (.attach tag cls permanent tariff home) =>
      ((s.grantTo .stc ch).attach tag cls permanent tariff home).finish ch
    | _ => s

/-! ## DETACH -/

/-- R9. -/
def State.detach (s : State) (h : SubHandle) (g : Option SubGuard) : Taken :=
  match s.subOf h with
  | none => (s, .plain .staleHandle [])
  | some r =>
    if !subGuardPasses g r then (s, .of .guardFalse (s.nibbleAfter h.index g r) [])
    else match r.state with
      | .attached | .roamBarred =>
        let t := s.enterDetaching h.index
        (t, .of .ok (t.nibbleAfter h.index g r) [])
      | .detaching => (s, .of .already (s.nibbleAfter h.index g r) [])
      | .unsettled => (s, .of .notAttached (s.nibbleAfter h.index g r) [])
      | .vacant => (s, .plain .staleHandle [])

def execDetach (ch : Chan) (s : State) : Host.Outcome State Fault Refusal :=
  .next <| match s.claim .stc ch with
    | some (.detach h g) => ((s.grantTo .stc ch).detach h g).finish ch
    | _ => s

/-! ## SUB_FIND -/

/-- R18. -/
def State.subFind (s : State) (tag : Tag) : Taken :=
  match s.findTag tag with
  | none => (s, .plain .notFound (blank 3))
  | some i =>
    let t := s.touch i
    (t, .of .ok (t.subNibble i) (t.subFindBody i))

def execSubFind (ch : Chan) (s : State) : Host.Outcome State Fault Refusal :=
  .next <| match s.claim .stc ch with
    | some (.subFind tag) => ((s.grantTo .stc ch).subFind tag).finish ch
    | _ => s

/-! ## SUB_READ -/

/-- R19: the section selected. -/
def State.sectionBody (s : State) (i : SubIx) (part : SubSection) (start : Nat) : List Word :=
  match part with
  | .identity => s.identityBody i
  | .charging => s.chargingBody i
  | .flows => s.flowsBody i start

/-- R19: the start position of a FLOWS read is above 63. -/
def startOutOfRange (part : SubSection) (start : BitVec 8) : Bool :=
  match part with
  | .flows => decide (63 < start.toNat)
  | .identity => false
  | .charging => false

/-- R19: the answer of SUB_READ, which changes nothing. -/
def State.subRead (s : State) (h : SubHandle) (g : Option SubGuard) (part : SubSection) (start : BitVec 8) : Reply :=
  if startOutOfRange part start then .plain .outOfRange []
  else match s.subOf h with
    | none => .plain .staleHandle []
    | some r =>
      if !subGuardPasses g r then .of .guardFalse (s.nibbleAfter h.index g r) []
      else .of .ok (s.nibbleAfter h.index g r) (s.sectionBody h.index part start.toNat)

def execSubRead (ch : Chan) (s : State) : Host.Outcome State Fault Refusal :=
  .next <| match s.claim .stc ch with
    | some (.subRead h g part start) =>
      let s1 := s.grantTo .stc ch
      Taken.finish (s1, s1.subRead h g part start) ch
    | _ => s

/-! ## SUB_UPDATE -/

/-- R150: the value an action leaves. -/
def UpdateAction.apply (a : UpdateAction) (old value : Word) : Word :=
  match a with
  | .set => value
  | .addSat => satAdd old value.toNat
  | .setBits => old ||| value
  | .clearBits => old &&& ~~~value

/-- R150: the action and value are accepted for the field. -/
def SubField.accepts (f : SubField) (a : UpdateAction) (value : Word) : Bool :=
  match f with
  | .userWord => true
  | .permanent => a == .set && decide (value.toNat ≤ 1)
  | .so => (a == .set && value == 0) || (a == .clearBits && value == 1)

def boolWord (b : Bool) : Word := if b then 1 else 0

def SubField.get (f : SubField) (r : SubRecord) : Word :=
  match f with
  | .userWord => r.userWord
  | .permanent => boolWord r.permanent
  | .so => boolWord r.so

def SubField.put (f : SubField) (r : SubRecord) (value : Word) : SubRecord :=
  match f with
  | .userWord => { r with userWord := value }
  | .permanent => { r with permanent := value != 0 }
  | .so => { r with so := value != 0 }

/-- R150: the record after the update. -/
def SubField.update (f : SubField) (a : UpdateAction) (value : Word) (r : SubRecord) : SubRecord :=
  f.put r (a.apply (f.get r) value)

/-- R150, steps 3 to 5 and the update; steps 1 and 2 are the CI's (R160, R161). -/
def State.subUpdate (s : State) (h : SubHandle) (g : Option SubGuard) (f : SubField) (a : UpdateAction)
    (value : Word) : Taken :=
  if !f.accepts a value then (s, .plain .outOfRange (blank 3))
  else match s.subOf h with
    | none => (s, .plain .staleHandle (blank 3))
    | some r =>
      if !subGuardPasses g r then (s, .of .guardFalse (s.nibbleAfter h.index g r) (blank 3))
      else
        let t := s.setSub h.index (f.update a value r)
        (t, .of .ok (t.nibbleAfter h.index g r) [h.word, f.get r, f.get (t.sub h.index)])

def execSubUpdate (ch : Chan) (s : State) : Host.Outcome State Fault Refusal :=
  .next <| match s.claim .stc ch with
    | some (.subUpdate h g f a value) => ((s.grantTo .stc ch).subUpdate h g f a value).finish ch
    | _ => s

/-! ## The unwinder -/

/-- R12: the head record's oldest flow, when it has one. -/
def State.unwindFlow (s : State) : Option FlowHandle :=
  match s.stc.unwind with
  | [] => none
  | i :: _ => (s.sub i).flowList.head?

/-- R14: the head record, when it has no flow left. -/
def State.unwindDone (s : State) : Option SubIx :=
  match s.stc.unwind with
  | [] => none
  | i :: _ => if (s.sub i).flowList.isEmpty then some i else none

/-- R12: an unwind step retires the head record's oldest flow. -/
def execUnwindStep (s : State) : Host.Outcome State Fault Refusal :=
  .next <| match s.running, s.unwindFlow with
    | true, some h => s.retire h.index
    | _, _ => s

/-- R14: the head leaves the queue and is freed, or becomes UNSETTLED. -/
def State.endUnwinding (s : State) (i : SubIx) : State :=
  let s1 := { s with stc := { s.stc with unwind := s.stc.unwind.tail } }
  if (s1.sub i).unsettledUsage then
    (s1.setSub i { s1.sub i with state := .unsettled }).raise (.subscriber i) .unsettled
  else s1.free i

def execEndOfUnwinding (s : State) : Host.Outcome State Fault Refusal :=
  .next <| match s.running, s.unwindDone with
    | true, some i => s.endUnwinding i
    | _, _ => s

end Sys2Proof.Machine
end

