-- ==== Sys2Proof/Machine/Flows.lean ====
section
/-! DEFINITION. Chapters 2 and 8: FLOW_OPEN, FLOW_CLOSE, FLOW_FIND, FLOW_READ, FLOW_UPDATE. -/

namespace Sys2Proof.Machine

/-! ## FLOW_OPEN: reclaim (R32) -/

/-- R32: the flow limit of a subscriber, read after its touch. -/
def State.flowLimit (s : State) (r : SubRecord) : Nat :=
  match r.tariff with
  | some t => (s.tariff t).terms.flowLimit.toNat
  | none => Config.flowLimitWithoutTariff

/-- A decision of R32: no victim, a victim, or a refusal. -/
inductive Reclaim where
  | clear
  | victim (i : FlowIx)
  | refuse
deriving DecidableEq, Repr

def Reclaim.index : Reclaim → Option FlowIx
  | .victim i => some i
  | .clear => none
  | .refuse => none

/-- R32, limit: below the limit no victim; else the oldest flow that is not EMERGENCY, if the reclaim flag is set. -/
def State.limitReclaim (s : State) (r : SubRecord) (reclaim : Bool) : Reclaim :=
  if r.flowCount < s.flowLimit r then .clear
  else if !reclaim then .refuse
  else match r.flowList.find? fun h => (s.flow h.index).cls != .emergency with
    | some h => .victim h.index
    | none => .refuse

/-- R32, bucket: are the four ways live, not counting the way of the limit victim? -/
def State.bucketFull (s : State) (b : BitVec 12) (limitVictim : Option FlowIx) : Bool :=
  (ways.map (flowWay b)).all fun i => (s.flow i).live && decide (some i ≠ limitVictim)

/-- R32, bucket: no victim where the bucket is not full; else the way the pseudo-LRU bits name, if the reclaim flag is
set and the way holds no EMERGENCY flow. -/
def State.bucketReclaim (s : State) (b : BitVec 12) (limitVictim : Option FlowIx) (reclaim : Bool) : Reclaim :=
  if !s.bucketFull b limitVictim then .clear
  else if !reclaim then .refuse
  else
    let i := flowWay b (s.plru b).victim
    if (s.flow i).cls = .emergency then .refuse else .victim i

/-! ## FLOW_OPEN: creation (R33) -/

/-- R33: the record a FLOW_OPEN creates at index `i`. -/
def State.newFlow (s : State) (i : FlowIx) (k : FlowKey) (c : FlowClass) (h : SubHandle)
    (selected : Option LinkId) : FlowRecord :=
  { key := k
    stamp := (s.flow i).stamp
    state := match selected with
      | some l => .opened l
      | none => .held
    cls := c
    owner := h
    mark := s.tw.currentMark
    userWord := 0 }

/-- R40: the selected link's pinned count increases. -/
def State.addPinOf (s : State) (selected : Option LinkId) : State :=
  match selected with
  | some l => s.addPin l
  | none => s

/-- R30: a handle joins the tail of its owner's flow list. -/
def State.listFlow (s : State) (i : SubIx) (h : FlowHandle) : State :=
  s.setSub i { s.sub i with flowList := (s.sub i).flowList ++ [h] }

/-- R33: create the flow at index `i`. -/
def State.createFlow (s : State) (i : FlowIx) (k : FlowKey) (c : FlowClass) (h : SubHandle) : State :=
  let selected := s.selectLink c none
  let f := s.newFlow i k c h selected
  (((s.setFlow i f).addPinOf selected).listFlow h.index { index := i, stamp := f.stamp }).useWay i

/-- R33, R181: the answer OK of FLOW_OPEN for the flow at index `i`: handle, state, pin, and the reclaimed handles
with the reason of each (LIMIT 0, BUCKET 1). -/
def State.openedBody (s : State) (i : FlowIx) (limit bucket : Option FlowHandle) : List Word :=
  let f := s.flow i
  let handles := limit.toList ++ bucket.toList
  let reasons := (limit.toList.map fun _ => 0) ++ (bucket.toList.map fun _ => 1)
  [(s.flowHandle i).word,
    put 0 f.state.code ||| put 8 (linkCode f.pin) ||| put 16 handles.length ||| put 20 (reasons.getD 0 0)
      ||| put 21 (reasons.getD 1 0),
    (handles.map FlowHandle.word).getD 0 0, (handles.map FlowHandle.word).getD 1 0]

/-- R33: the answer ALREADY: the existing flow's handle, state, class and pin. -/
def State.existingBody (s : State) (i : FlowIx) : List Word :=
  let f := s.flow i
  [(s.flowHandle i).word, put 0 f.state.code ||| put 4 f.cls.code ||| put 8 (linkCode f.pin), 0, 0]

/-- A flow's mark takes the current mark (R25). -/
def State.touchFlow (s : State) (i : FlowIx) : State :=
  s.setFlow i { s.flow i with mark := s.tw.currentMark }

/-- R31, step 7: the reclaims of R32, then the creation. -/
def State.openAfterReclaim (s : State) (k : FlowKey) (c : FlowClass) (h : SubHandle)
    (limit bucket : Option FlowIx) : Taken :=
  let s1 := (s.retireSome limit).retireSome bucket
  match s1.vacantFlow k with
  | none => (s, .of .bucketFull (s.subNibble h.index) (blank 4))
  | some i =>
    let t := s1.createFlow i k c h
    (t, .of .ok (t.subNibble h.index) (t.openedBody i (limit.map s.flowHandle) (bucket.map s.flowHandle)))

/-- R31, step 6, for a key that no live flow holds; `s` is the state after the touch. -/
def State.openNew (s : State) (k : FlowKey) (c : FlowClass) (h : SubHandle) (reclaim : Bool) : Taken :=
  let limit := s.limitReclaim (s.sub h.index) reclaim
  match limit with
  | .refuse => (s, .of .flowLimit (s.subNibble h.index) (blank 4))
  | .clear | .victim _ =>
    let bucket := s.bucketReclaim (flowBucket k) limit.index reclaim
    match bucket with
    | .refuse => (s, .of .bucketFull (s.subNibble h.index) (blank 4))
    | .clear | .victim _ => s.openAfterReclaim k c h limit.index bucket.index

/-- R31, steps 5 to 7; `s` is the state after the touch. -/
def State.openTouched (s : State) (k : FlowKey) (c : FlowClass) (h : SubHandle) (reclaim : Bool) : Taken :=
  match s.findKey k with
  | some i =>
    let t := s.touchFlow i
    (t, .of .already (t.subNibble h.index) (t.existingBody i))
  | none => s.openNew k c h reclaim

/-- R31: FLOW_OPEN. The key's subscriber index is the index of the handle. -/
def State.flowOpen (s : State) (h : SubHandle) (k : FlowKey) (code : BitVec 3) (reclaim : Bool) : Taken :=
  match flowClass code with
  | none => (s, .plain .outOfRange (blank 4))
  | some c =>
    match s.subOf h with
    | none => (s, .plain .staleHandle (blank 4))
    | some r =>
      match r.state with
      | .detaching => (s, .of .detaching (s.subNibble h.index) (blank 4))
      | .unsettled => (s, .of .notAttached (s.subNibble h.index) (blank 4))
      | .attached | .roamBarred => (s.touch h.index).openTouched k c h reclaim
      | .vacant => (s, .plain .staleHandle (blank 4))

def execFlowOpen (ch : Chan) (s : State) : Host.Outcome State Fault Refusal :=
  .next <| match s.claim .ftc ch with
    | some (.flowOpen h address remotePort localPort protocol code reclaim) =>
      let k : FlowKey := { subscriber := h.index, address := address, remotePort := remotePort,
                           localPort := localPort, protocol := protocol }
      ((s.grantTo .ftc ch).flowOpen h k code reclaim).finish ch
    | _ => s

/-! ## FLOW_CLOSE -/

/-- R36. -/
def State.flowClose (s : State) (h : FlowHandle) (g : Option FlowGuard) : Taken :=
  match s.flowOf h with
  | none => (s, .plain .staleHandle [])
  | some f =>
    if !flowGuardPasses g f then (s, .of .guardFalse (s.flowNibbleAfter f.owner.index g f) [])
    else
      let t := s.retire h.index
      (t, .of .ok (t.flowNibbleAfter f.owner.index g f) [])

def execFlowClose (ch : Chan) (s : State) : Host.Outcome State Fault Refusal :=
  .next <| match s.claim .ftc ch with
    | some (.flowClose h g) => ((s.grantTo .ftc ch).flowClose h g).finish ch
    | _ => s

/-! ## FLOW_FIND -/

/-- R37, R45: the flow and its owner are touched and the pseudo-LRU bits updated. -/
def State.useFlow (s : State) (i : FlowIx) : State :=
  ((s.touchFlow i).useWay i).touch (s.flow i).owner.index

/-- R37. -/
def State.flowFind (s : State) (k : FlowKey) : Taken :=
  match s.findKey k with
  | none => (s, .plain .notFound (blank 3))
  | some i =>
    let t := s.useFlow i
    (t, .of .ok (t.subNibble (t.flow i).owner.index) (t.flowFindBody i))

def execFlowFind (ch : Chan) (s : State) : Host.Outcome State Fault Refusal :=
  .next <| match s.claim .ftc ch with
    | some (.flowFind k) => ((s.grantTo .ftc ch).flowFind k).finish ch
    | _ => s

/-! ## FLOW_READ -/

/-- R38: the answer of FLOW_READ, which changes nothing. -/
def State.flowRead (s : State) (h : FlowHandle) (g : Option FlowGuard) : Reply :=
  match s.flowOf h with
  | none => .plain .staleHandle (blank 13)
  | some f =>
    if !flowGuardPasses g f then .of .guardFalse (s.flowNibbleAfter f.owner.index g f) []
    else .of .ok (s.flowNibbleAfter f.owner.index g f) f.readBody

def execFlowRead (ch : Chan) (s : State) : Host.Outcome State Fault Refusal :=
  .next <| match s.claim .ftc ch with
    | some (.flowRead h g) =>
      let s1 := s.grantTo .ftc ch
      Taken.finish (s1, s1.flowRead h g) ch
    | _ => s

/-! ## FLOW_UPDATE -/

/-- R152: the action and value are accepted for the field. -/
def FlowField.accepts (f : FlowField) (a : UpdateAction) (value : Word) : Bool :=
  match f with
  | .userWord => true
  | .cls => a == .set && decide (value.toNat ≤ 3)

def FlowField.get (f : FlowField) (r : FlowRecord) : Word :=
  match f with
  | .userWord => r.userWord
  | .cls => put 0 r.cls.code

def FlowField.put (f : FlowField) (r : FlowRecord) (value : Word) : FlowRecord :=
  match f with
  | .userWord => { r with userWord := value }
  | .cls =>
    match flowClass (value.field 0 3) with
    | some c => { r with cls := c }
    | none => r

/-- R152, R150: the record after the update. -/
def FlowField.update (f : FlowField) (a : UpdateAction) (value : Word) (r : FlowRecord) : FlowRecord :=
  f.put r (a.apply (f.get r) value)

/-- R152, steps 2 to 4 and the update; step 1 is the CI's (R161). R152 puts the action and the value before the handle,
R29 the handle before every other check: R152 is followed (DESIGN CHOICE, log 23). -/
def State.flowUpdate (s : State) (h : FlowHandle) (g : Option FlowGuard) (f : FlowField) (a : UpdateAction)
    (value : Word) : Taken :=
  if !f.accepts a value then (s, .plain .outOfRange (blank 3))
  else match s.flowOf h with
    | none => (s, .plain .staleHandle (blank 3))
    | some r =>
      if !flowGuardPasses g r then (s, .of .guardFalse (s.flowNibbleAfter r.owner.index g r) (blank 3))
      else
        let t := s.setFlow h.index (f.update a value r)
        (t, .of .ok (t.flowNibbleAfter r.owner.index g r) [h.word, f.get r, f.get (t.flow h.index)])

def execFlowUpdate (ch : Chan) (s : State) : Host.Outcome State Fault Refusal :=
  .next <| match s.claim .ftc ch with
    | some (.flowUpdate h g f a value) => ((s.grantTo .ftc ch).flowUpdate h g f a value).finish ch
    | _ => s

end Sys2Proof.Machine
end

