-- ==== Sys2Proof/Machine/Verdicts.lean ====
section
/-! DEFINITION. Chapter 3: CHARGE, the touch, the verdict order, the link step and the charge. -/

namespace Sys2Proof.Machine

/-- A verdict (R46 to R52). -/
inductive Verdict where
  | forward (link : LinkId)
  | pace (link : LinkId)
  | hold
  | block
  | redirect
deriving DecidableEq, Repr

/-- The verdict codes (R181). -/
def Verdict.code : Verdict → Nat
  | .forward _ => 0
  | .pace _ => 1
  | .hold => 2
  | .block => 3
  | .redirect => 4

/-- The link a verdict names (R54). -/
def Verdict.link : Verdict → Option LinkId
  | .forward l => some l
  | .pace l => some l
  | .hold => none
  | .block => none
  | .redirect => none

/-- R47: credit is exhausted for a flow of this class. -/
def creditExhausted (owner : SubRecord) (c : FlowClass) : Bool :=
  owner.byteAllowance == 0 || (c == .voice && owner.secondsAllowance == 0)

/-- R47: the exhaust action of the owner's tariff. -/
def State.exhaustVerdict (s : State) (owner : SubRecord) : Verdict :=
  match owner.tariff with
  | some t =>
    match (s.tariff t).terms.exhaust with
    | .block => .block
    | .redirect => .redirect
  | none => .block

/-- R46, R47: the verdict of the tests on the owner, none where they pass the flow on to the link step. -/
def State.ownerVerdict (s : State) (owner : SubRecord) (c : FlowClass) : Option Verdict :=
  if owner.state = .detaching then some .block
  else if c = .emergency then none
  else if owner.closeHeld then some .hold
  else if owner.state = .roamBarred then some .block
  else if owner.charged && creditExhausted owner c then some (s.exhaustVerdict owner)
  else none

/-- R49: the pin an OPEN flow keeps: one that is eligible for it. -/
def State.keptPin (s : State) (f : FlowRecord) : Option LinkId :=
  match f.pin with
  | some l => if s.eligible f.cls l then some l else none
  | none => none

/-- R52. -/
def State.linkVerdict (s : State) (c : FlowClass) (l : LinkId) : Verdict :=
  if (s.link l).congested && c == .bulk then .pace l else .forward l

/-- R53: charge the burst where the owner is charged and the flow is not EMERGENCY. -/
def State.chargeBurst (s : State) (owner : SubIx) (c : FlowClass) (bytes seconds : Nat) : State :=
  if (s.sub owner).charged && c != .emergency then s.chargeSub owner bytes seconds else s

/-- R54: the answer of a CHARGE. -/
def State.chargeReply (s : State) (i : FlowIx) (v : Verdict) (repinned : Bool) : Reply :=
  { status := .ok
    nibble := s.subNibble (s.flow i).owner.index
    flags := { repinned := repinned }
    body := [put 0 v.code ||| put 8 (linkCode v.link) ||| put 16 (s.flow i).state.code] }

/-- R52 to R54: verdict, charge and answer for a flow pinned to an eligible link. -/
def State.forwardOn (s : State) (i : FlowIx) (l : LinkId) (bytes seconds : Nat) (repinned : Bool) : Taken :=
  let f := s.flow i
  let t := s.chargeBurst f.owner.index f.cls bytes seconds
  (t, t.chargeReply i (s.linkVerdict f.cls l) repinned)

/-- R49 to R51: the link step. -/
def State.linkStep (s : State) (i : FlowIx) (bytes seconds : Nat) : Taken :=
  let f := s.flow i
  match s.keptPin f with
  | some l => s.forwardOn i l bytes seconds false
  | none =>
    let selected := s.selectLink f.cls f.pin
    let t := s.repinFlow i selected
    match selected with
    | some l => t.forwardOn i l bytes seconds true
    | none => (t, t.chargeReply i .hold false)

/-- R46 to R54, after the touch of R45. -/
def State.judge (s : State) (i : FlowIx) (bytes seconds : Nat) : Taken :=
  let f := s.flow i
  match s.ownerVerdict (s.sub f.owner.index) f.cls with
  | some v => (s, s.chargeReply i v false)
  | none => s.linkStep i bytes seconds

/-- R44: CHARGE. -/
def State.chargeFlow (s : State) (h : FlowHandle) (bytes : BitVec 16) (seconds : BitVec 8) : Taken :=
  match s.flowOf h with
  | none => (s, .plain .staleHandle (blank 1))
  | some _ =>
    if bytes = 0 then (s, .plain .outOfRange (blank 1))
    else (s.useFlow h.index).judge h.index bytes.toNat seconds.toNat

def execCharge (ch : Chan) (s : State) : Host.Outcome State Fault Refusal :=
  .next <| match s.claim .ftc ch with
    | some (.charge h bytes seconds) => ((s.grantTo .ftc ch).chargeFlow h bytes seconds).finish ch
    | _ => s

end Sys2Proof.Machine
end

