-- ==== Sys2Proof/Machine/Zones.lean ====
section
/-! DEFINITION. Chapter 5: ZONE_CHANGE, ZONE_DEFINE, ZONE_READ, the agreement list, tariffs, the policy epoch. -/

namespace Sys2Proof.Machine

/-! ## Numbers in range -/

/-- A zone number 0 to 31 in an eight-bit field, none when it is above 31. -/
def zoneOf (code : BitVec 8) : Option ZoneIx := if code.toNat < 32 then some (code.setWidth 5) else none

/-- A tariff index 0 to 63 in an eight-bit field, none when it is above 63. -/
def tariffOf (code : BitVec 8) : Option TariffIx := if code.toNat < 64 then some (code.setWidth 6) else none

/-- R95, R180: UNDEFINED 0, DEFINED 1; the state is DEFINED when true. -/
def zoneState (code : BitVec 2) : Option Bool :=
  match code with
  | 0 => some false
  | 1 => some true
  | _ => none

/-- A zone class 0 to 3 in an eight-bit field, none when it is above 3. -/
def zoneClassOf (code : BitVec 8) : Option ZoneClass :=
  if code.toNat < 4 then some (code.setWidth 2) else none

/-- R89, R180: ACTIVE 1, SUSPENDED 2; the state is ACTIVE when true. -/
def agreementState (code : BitVec 2) : Option Bool :=
  match code with
  | 1 => some true
  | 2 => some false
  | _ => none

/-! ## The policy epoch (R91) -/

/-- R91: the policy epoch advances by one and a RECHECK walk is queued. -/
def State.advancePolicy (s : State) : State :=
  { s with zas := { s.zas with policyEpoch := s.zas.policyEpoch + 1 } }.addWalk .recheck

def State.advancePolicyIf (s : State) (changed : Bool) : State := if changed then s.advancePolicy else s

/-- R91: the new policy epoch in the answer of a request that advanced it; absent otherwise. -/
def State.policyWord (s : State) (advanced : Bool) : Word := if advanced then put 0 s.zas.policyEpoch.toNat else 0

/-! ## ZONE_CHANGE -/

/-- R96: a ZONE or RECHECK walk. -/
def WalkEntry.blocksZoneChange : WalkEntry → Bool
  | .zone => true
  | .recheck => true
  | .age => false
  | .repin _ => false

/-- R96: such a walk is in the walk queue, or is the walk in progress. -/
def State.walkPending (s : State) : Bool :=
  s.tw.queue.any WalkEntry.blocksZoneChange ||
    match s.tw.walk with
    | some w => w.entry.blocksZoneChange
    | none => false

/-- R97. -/
def State.enterZone (s : State) (z : ZoneIx) : State :=
  { s with zas := { s.zas with currentZone := z, zoneEpoch := s.zas.zoneEpoch + 1 } }.addWalk .zone

/-- R96: the status of a ZONE_CHANGE to zone `z`. -/
def State.zoneChangeStatus (s : State) (z : ZoneIx) (force : Bool) : Status :=
  if !(s.zone z).defined then .outOfRange
  else if z = s.zas.currentZone then .already
  else if s.walkPending then .walkPending
  else if 0 < s.stc.closedCount ∧ force = false then .settlePending
  else .ok

/-- R96, R97. -/
def State.zoneChange (s : State) (code : BitVec 8) (force : Bool) : Taken :=
  match zoneOf code with
  | none => (s, .plain .outOfRange (s.zoneChangeBody s.stc.closedCount))
  | some z =>
    let status := s.zoneChangeStatus z force
    let t := if status = .ok then s.enterZone z else s
    (t, { status := status, nibble := .zero
          flags := { forced := status == .ok && decide (0 < s.stc.closedCount) }
          body := t.zoneChangeBody s.stc.closedCount })

def execZoneChange (ch : Chan) (s : State) : Host.Outcome State Fault Refusal :=
  .next <| match s.claim .zas ch with
    | some (.zoneChange code force) => (s.zoneChange code force).finish ch
    | _ => s

/-! ## ZONE_DEFINE and ZONE_READ -/

/-- R95, for operands in range. -/
def State.defineZone (s : State) (z : ZoneIx) (r : ZoneRecord) : Taken :=
  if r.defined = false ∧ z = s.zas.currentZone then (s, .plain .conflict (blank 1))
  else if r = s.zone z then (s, .plain .already (blank 1))
  else
    let changed := decide (z = s.zas.currentZone) && decide (r.cls ≠ (s.zone z).cls)
    let t := (s.setZone z r).advancePolicyIf changed
    (t, { status := .ok, nibble := .zero, flags := { policyAdvanced := changed }, body := [t.policyWord changed] })

/-- R95. -/
def State.zoneDefine (s : State) (zone : BitVec 8) (state : BitVec 2) (cls : BitVec 8) : Taken :=
  match zoneOf zone, zoneState state, zoneClassOf cls with
  | some z, some d, some c => s.defineZone z { defined := d, cls := c }
  | _, _, _ => (s, .plain .outOfRange (blank 1))

def execZoneDefine (ch : Chan) (s : State) : Host.Outcome State Fault Refusal :=
  .next <| match s.claim .zas ch with
    | some (.zoneDefine zone state cls) => (s.zoneDefine zone state cls).finish ch
    | _ => s

/-- R95: the zone's state and class, the current zone, the zone epoch, the policy epoch. -/
def State.zoneReadBody (s : State) (z : ZoneIx) : List Word :=
  [putFlag 0 (s.zone z).defined, put 0 (s.zone z).cls.toNat, put 0 s.zas.currentZone.toNat,
    put 0 s.zas.zoneEpoch.toNat, put 0 s.zas.policyEpoch.toNat]

/-- R95: the answer of ZONE_READ, which changes nothing. -/
def State.zoneRead (s : State) (code : BitVec 8) : Reply :=
  match zoneOf code with
  | none => .plain .outOfRange (blank 5)
  | some z => .plain .ok (s.zoneReadBody z)

def execZoneRead (ch : Chan) (s : State) : Host.Outcome State Fault Refusal :=
  .next <| match s.claim .zas ch with
    | some (.zoneRead code) => Taken.finish (s, s.zoneRead code) ch
    | _ => s

/-! ## The agreement list -/

/-- R89, step 6: insert after every entry of lower code and before every entry of higher code. -/
def insertAgreement (a : Agreement) : List Agreement → List Agreement
  | [] => [a]
  | b :: rest => if a.code < b.code then a :: b :: rest else b :: insertAgreement a rest

/-- R89, step 4: replace the agreement of the code in its place. -/
def replaceAgreement (a : Agreement) : List Agreement → List Agreement
  | [] => []
  | b :: rest => if b.code = a.code then a :: rest else b :: replaceAgreement a rest

/-- R90: remove the agreement of a code. -/
def removeAgreement (code : Operator) (l : List Agreement) : List Agreement :=
  l.filter fun a => decide (a.code ≠ code)

/-- The position in the list of the first agreement of a code (R89, R90). -/
def positionOf (code : Operator) (l : List Agreement) : Nat := l.findIdx fun a => a.code == code

/-- R89, steps 1 and 2: a tariff field is NONE or names a DEFINED tariff; the outer none is OUT_OF_RANGE. -/
def State.namedTariff (s : State) (code : BitVec 8) : Option (Option TariffIx) :=
  match tariffField code with
  | none => none
  | some none => some none
  | some (some t) => if (s.tariff t).defined then some (some t) else none

/-- R89, steps 1 and 2: the agreement that a request in range carries. -/
def State.requestedAgreement (s : State) (code : Operator) (state : BitVec 2) (t0 t1 t2 t3 : BitVec 8) :
    Option Agreement := do
  let active ← agreementState state
  let tariff0 ← s.namedTariff t0
  let tariff1 ← s.namedTariff t1
  let tariff2 ← s.namedTariff t2
  let tariff3 ← s.namedTariff t3
  some { code := code, active := active, tariff0 := tariff0, tariff1 := tariff1, tariff2 := tariff2,
         tariff3 := tariff3 }

def State.setAgreements (s : State) (l : List Agreement) : State :=
  { s with zas := { s.zas with agreements := l } }

/-- R91: the outcome of a code under the current zone's class differs between two lists. -/
def State.outcomeChanges (s : State) (code : Operator) (l : List Agreement) : Bool :=
  decide (s.outcome code ≠ outcomeIn l code s.currentClass)

/-- R89: write a changed list that holds agreement `a`, with the test of R91. -/
def State.writeAgreement (s : State) (a : Agreement) (l : List Agreement) (replaced : Bool) : Taken :=
  let changed := s.outcomeChanges a.code l
  let t := (s.setAgreements l).advancePolicyIf changed
  (t, { status := .ok, nibble := .zero, flags := { policyAdvanced := changed, replaced := replaced }
        body := [put 0 (positionOf a.code l), put 0 l.length, t.policyWord changed] })

/-- R89, steps 3 to 6. -/
def State.setAgreement (s : State) (a : Agreement) : Taken :=
  match findAgreement s.zas.agreements a.code with
  | some old =>
    if old = a then (s, .plain .already (blank 3))
    else s.writeAgreement a (replaceAgreement a s.zas.agreements) true
  | none =>
    if Config.agreementCapacity ≤ s.zas.agreements.length then (s, .plain .tableFull (blank 3))
    else s.writeAgreement a (insertAgreement a s.zas.agreements) false

/-- R89. -/
def State.agreementSet (s : State) (code : Operator) (state : BitVec 2) (t0 t1 t2 t3 : BitVec 8) : Taken :=
  match s.requestedAgreement code state t0 t1 t2 t3 with
  | none => (s, .plain .outOfRange (blank 3))
  | some a => s.setAgreement a

def execAgreementSet (ch : Chan) (s : State) : Host.Outcome State Fault Refusal :=
  .next <| match s.claim .zas ch with
    | some (.agreementSet code state t0 t1 t2 t3) => (s.agreementSet code state t0 t1 t2 t3).finish ch
    | _ => s

/-- R90, R91. -/
def State.agreementRemove (s : State) (code : Operator) : Taken :=
  match findAgreement s.zas.agreements code with
  | none => (s, .plain .notFound (blank 2))
  | some _ =>
    let l := removeAgreement code s.zas.agreements
    let changed := (s.outcome code).isSome
    let t := (s.setAgreements l).advancePolicyIf changed
    (t, { status := .ok, nibble := .zero, flags := { policyAdvanced := changed }
          body := [put 0 l.length, t.policyWord changed] })

def execAgreementRemove (ch : Chan) (s : State) : Host.Outcome State Fault Refusal :=
  .next <| match s.claim .zas ch with
    | some (.agreementRemove code) => (s.agreementRemove code).finish ch
    | _ => s

/-- R90: EXACT seeks the code, NEXT the first agreement whose code is at or above it. -/
def seekAgreement (l : List Agreement) (code : Operator) (next : Bool) : Option Agreement :=
  if next then l.find? fun a => decide (code ≤ a.code) else findAgreement l code

/-- R90: the answer of AGREEMENT_FIND, which changes nothing. -/
def State.agreementFind (s : State) (code : Operator) (next : Bool) : Reply :=
  match seekAgreement s.zas.agreements code next with
  | none => .plain .notFound (blank 4)
  | some a =>
    .plain .ok (a.words ++ [put 0 (positionOf a.code s.zas.agreements), put 0 s.zas.agreements.length])

def execAgreementFind (ch : Chan) (s : State) : Host.Outcome State Fault Refusal :=
  .next <| match s.claim .zas ch with
    | some (.agreementFind code next) => Taken.finish (s, s.agreementFind code next) ch
    | _ => s

/-! ## Tariffs -/

/-- R92, R93: the grant timeout is 1 to 255 s and the flow limit 1 to 64; every other field takes every value. -/
def TariffTerms.inRange (t : TariffTerms) : Bool :=
  decide (1 ≤ t.timeout.toNat) && decide (1 ≤ t.flowLimit.toNat) && decide (t.flowLimit.toNat ≤ 64)

/-- R91: some ACTIVE agreement names the tariff for the current zone's class. -/
def State.namedInForce (s : State) (t : TariffIx) : Bool :=
  s.zas.agreements.any fun a => a.active && a.tariffFor s.currentClass == some t

/-- R93, for operands in range. -/
def State.writeTariff (s : State) (i : TariffIx) (terms : TariffTerms) : Taken :=
  let old := s.tariff i
  if old.defined = true ∧ old.terms = terms then (s, .plain .already (blank 1))
  else
    let changed := old.defined && decide (old.terms ≠ terms) && s.namedInForce i
    let t := (s.setTariff i { defined := true, terms := terms }).advancePolicyIf changed
    (t, { status := .ok, nibble := .zero, flags := { policyAdvanced := changed, definedNew := !old.defined }
          body := [t.policyWord changed] })

/-- R93. -/
def State.tariffSet (s : State) (code : BitVec 8) (terms : TariffTerms) : Taken :=
  match tariffOf code with
  | none => (s, .plain .outOfRange (blank 1))
  | some i => if terms.inRange then s.writeTariff i terms else (s, .plain .outOfRange (blank 1))

def execTariffSet (ch : Chan) (s : State) : Host.Outcome State Fault Refusal :=
  .next <| match s.claim .zas ch with
    | some (.tariffSet code terms) => (s.tariffSet code terms).finish ch
    | _ => s

/-- R93: the answer of TARIFF_READ, which changes nothing. -/
def State.tariffRead (s : State) (code : BitVec 8) : Reply :=
  match tariffOf code with
  | none => .plain .outOfRange (blank 7)
  | some i => .plain .ok (s.tariff i).words

def execTariffRead (ch : Chan) (s : State) : Host.Outcome State Fault Refusal :=
  .next <| match s.claim .zas ch with
    | some (.tariffRead code) => Taken.finish (s, s.tariffRead code) ch
    | _ => s

end Sys2Proof.Machine
end

