-- ==== Sys2Proof/Machine/Dispatch.lean ====
section
/-! DEFINITION. Dispatch of the commands: one arm for each row of spec/opcode_table.json. -/

namespace Sys2Proof.Machine

def exec (i : Instr) (s : State) : Host.Outcome State Fault Refusal :=
  match i with
  | .powerOnReset => Sys2Proof.Machine.execPowerOnReset s
  | .initializationComplete => Sys2Proof.Machine.execInitializationComplete s
  | .stagingWrite bytes => Sys2Proof.Machine.execStagingWrite bytes s
  | .requestSubmit bytes => Sys2Proof.Machine.execRequestSubmit bytes s
  | .responseRelease bytes => Sys2Proof.Machine.execResponseRelease bytes s
  | .ignoredWrite bytes => Sys2Proof.Machine.execIgnoredWrite bytes s
  | .dispatch ch => Sys2Proof.Machine.execDispatch ch s
  | .attach ch => Sys2Proof.Machine.execAttach ch s
  | .detach ch => Sys2Proof.Machine.execDetach ch s
  | .subFind ch => Sys2Proof.Machine.execSubFind ch s
  | .subRead ch => Sys2Proof.Machine.execSubRead ch s
  | .subUpdate ch => Sys2Proof.Machine.execSubUpdate ch s
  | .grant ch => Sys2Proof.Machine.execGrant ch s
  | .settle ch => Sys2Proof.Machine.execSettle ch s
  | .usagePost ch => Sys2Proof.Machine.execUsagePost ch s
  | .flowOpen ch => Sys2Proof.Machine.execFlowOpen ch s
  | .flowClose ch => Sys2Proof.Machine.execFlowClose ch s
  | .flowFind ch => Sys2Proof.Machine.execFlowFind ch s
  | .charge ch => Sys2Proof.Machine.execCharge ch s
  | .flowRead ch => Sys2Proof.Machine.execFlowRead ch s
  | .flowUpdate ch => Sys2Proof.Machine.execFlowUpdate ch s
  | .linkReport ch => Sys2Proof.Machine.execLinkReport ch s
  | .enable ch => Sys2Proof.Machine.execEnable ch s
  | .disable ch => Sys2Proof.Machine.execDisable ch s
  | .drain ch => Sys2Proof.Machine.execDrain ch s
  | .inject ch => Sys2Proof.Machine.execInject ch s
  | .snapshot ch => Sys2Proof.Machine.execSnapshot ch s
  | .linkConfig ch => Sys2Proof.Machine.execLinkConfig ch s
  | .linkRead ch => Sys2Proof.Machine.execLinkRead ch s
  | .drainedNotice link => Sys2Proof.Machine.execDrainedNotice link s
  | .zoneChange ch => Sys2Proof.Machine.execZoneChange ch s
  | .zoneDefine ch => Sys2Proof.Machine.execZoneDefine ch s
  | .zoneRead ch => Sys2Proof.Machine.execZoneRead ch s
  | .agreementSet ch => Sys2Proof.Machine.execAgreementSet ch s
  | .agreementRemove ch => Sys2Proof.Machine.execAgreementRemove ch s
  | .agreementFind ch => Sys2Proof.Machine.execAgreementFind ch s
  | .tariffSet ch => Sys2Proof.Machine.execTariffSet ch s
  | .tariffRead ch => Sys2Proof.Machine.execTariffRead ch s
  | .age ch => Sys2Proof.Machine.execAge ch s
  | .walkStatus ch => Sys2Proof.Machine.execWalkStatus ch s
  | .walkAbort ch => Sys2Proof.Machine.execWalkAbort ch s
  | .noticeFetch ch => Sys2Proof.Machine.execNoticeFetch ch s
  | .deviceStatus ch => Sys2Proof.Machine.execDeviceStatus ch s
  | .deviceConfig ch => Sys2Proof.Machine.execDeviceConfig ch s
  | .channelStatus ch => Sys2Proof.Machine.execChannelStatus ch s
  | .clearFault ch => Sys2Proof.Machine.execClearFault ch s
  | .channelSet ch => Sys2Proof.Machine.execChannelSet ch s
  | .channelReset ch => Sys2Proof.Machine.execChannelReset ch s
  | .softReset ch => Sys2Proof.Machine.execSoftReset ch s
  | .softResetClearing emptyListNow => Sys2Proof.Machine.execSoftResetClearing emptyListNow s
  | .softResetComplete => Sys2Proof.Machine.execSoftResetComplete s
  | .shipSecondAdvance => Sys2Proof.Machine.execShipSecondAdvance s
  | .grantDeadlineExpiry => Sys2Proof.Machine.execGrantDeadlineExpiry s
  | .staleExpiry link => Sys2Proof.Machine.execStaleExpiry link s
  | .autoSnapshot link => Sys2Proof.Machine.execAutoSnapshot link s
  | .ageExpiry => Sys2Proof.Machine.execAgeExpiry s
  | .walkStart => Sys2Proof.Machine.execWalkStart s
  | .agePass1Visit => Sys2Proof.Machine.execAgePass1Visit s
  | .agePass2Visit => Sys2Proof.Machine.execAgePass2Visit s
  | .ageWalkEnd => Sys2Proof.Machine.execAgeWalkEnd s
  | .zoneVisit => Sys2Proof.Machine.execZoneVisit s
  | .zoneWalkEnd => Sys2Proof.Machine.execZoneWalkEnd s
  | .recheckVisit => Sys2Proof.Machine.execRecheckVisit s
  | .recheckWalkEnd => Sys2Proof.Machine.execRecheckWalkEnd s
  | .repinVisit => Sys2Proof.Machine.execRepinVisit s
  | .repinWalkEnd => Sys2Proof.Machine.execRepinWalkEnd s
  | .unwindStep => Sys2Proof.Machine.execUnwindStep s
  | .endOfUnwinding => Sys2Proof.Machine.execEndOfUnwinding s
  | .resetNRelease => Sys2Proof.Machine.execResetNRelease s

end Sys2Proof.Machine
end

