-- ==== Sys2Proof/Safety.lean ====
section
/-! DEFINITION. What counts as a safe state of the block, in the terms that statements use: the invariants that the
manual states of its tables, queues, channels and links. The block never stops (Fault has no constructor). -/

namespace Sys2Proof.Machine

/-! ## Tables and queues -/

/-- The three sparse tables are in their canonical form. -/
def State.TablesCanonical (s : State) : Prop :=
  Table.wf .powerOn Config.subscriberCount s.stc.subs = true ∧ Table.wf .powerOn Config.flowCount s.ftc.flows = true
    ∧ Table.wf .powerOn (Config.flowCount / 4) s.ftc.plru = true

/-- R128: no two entries of the walk queue are equal. -/
def State.WalkQueueDistinct (s : State) : Prop := s.tw.queue.Nodup

/-- R168: each record is on the attention list at most once, and with at least one pending cause. -/
def ListExact (l : List AttnEntry) : Prop := (l.map AttnEntry.record).Nodup ∧ ∀ e ∈ l, e.causes ≠ 0

def State.AttentionExact (s : State) : Prop := ListExact s.al.list

/-- R132: three different values play the three mark roles. -/
def State.MarksDistinct (s : State) : Prop :=
  s.tw.currentMark ≠ s.tw.previousMark ∧ s.tw.previousMark ≠ s.tw.thirdMark ∧ s.tw.currentMark ≠ s.tw.thirdMark

/-! ## Subscribers -/

/-- A property of every subscriber record. -/
def State.AllSubs (s : State) (P : SubRecord → Prop) : Prop := ∀ i, P (s.sub i)

/-- R64: an overrun is nonzero only while its allowance is zero. -/
def SubRecord.OverrunOnlyAtZero (r : SubRecord) : Prop :=
  (r.byteOverrun ≠ 0 → r.byteAllowance = 0) ∧ (r.secondsOverrun ≠ 0 → r.secondsAllowance = 0)

/-- R12: the unwind queue holds the DETACHING records, each once. -/
def State.UnwindExact (s : State) : Prop :=
  s.stc.unwind.Nodup ∧ ∀ i, i ∈ s.stc.unwind ↔ (s.sub i).state = .detaching

/-- Is the grant state REQUESTED? -/
def GrantState.isRequested : GrantState → Bool
  | .requested _ => true
  | .none => false
  | .timedOut => false

/-- R70: the grant deadline list holds exactly the REQUESTED records, each once. -/
def State.DeadlinesExact (s : State) : Prop :=
  s.stc.deadlines.Nodup ∧ ∀ i, i ∈ s.stc.deadlines ↔ (s.sub i).grant.isRequested = true

/-- A REQUESTED record is ATTACHED or ROAM_BARRED (R11, R68). -/
def SubRecord.RequestedServes (r : SubRecord) : Prop :=
  r.grant.isRequested = true → r.state = .attached ∨ r.state = .roamBarred

/-- R1, R17: a VACANT record holds nothing but its stamp. -/
def SubRecord.ClearWhileVacant (r : SubRecord) : Prop :=
  r.state = .vacant → r = { SubRecord.powerOn with stamp := r.stamp }

def SubRecord.Sound (r : SubRecord) : Prop := r.OverrunOnlyAtZero ∧ r.RequestedServes ∧ r.ClearWhileVacant

/-- The subscriber indices 0 to 4,095. -/
def subIndices : List SubIx := (List.range Config.subscriberCount).map (BitVec.ofNat 12)

/-- R78: the closed-slot count is the number of records whose closed slot is occupied. -/
def State.ClosedExact (s : State) : Prop :=
  s.stc.closedCount = subIndices.countP fun i => (s.sub i).closed.isSome

def State.SubsExact (s : State) : Prop :=
  s.AllSubs SubRecord.Sound ∧ s.UnwindExact ∧ s.DeadlinesExact ∧ s.ClosedExact

/-- R1, R3: a live subscriber record stands in a way of its tag's bucket, and no two live records hold one tag. -/
def State.TagsPlaced (s : State) : Prop :=
  (∀ i, (s.sub i).live = true → ∃ w, i = subWay (subBucket (s.sub i).tag) w) ∧
    ∀ i j, (s.sub i).live = true → (s.sub j).live = true → (s.sub i).tag = (s.sub j).tag → i = j

/-- R70: the grant deadline list is in nondecreasing order of the seconds remaining, none above 255; during a clearing,
when the count advances without waiting, it is empty (R24). -/
def State.DeadlinesInOrder (s : State) : Prop :=
  (s.stc.deadlines.Pairwise fun i j => s.remainingOf i ≤ s.remainingOf j) ∧
    (∀ i ∈ s.stc.deadlines, s.remainingOf i ≤ 255) ∧
    ∀ ch b, s.ci.softReset = .clearing ch b → s.stc.deadlines = []

/-- A ZONE walk that has not reached record `i`: one is queued, or the one in progress stands at `i` or before it. -/
def State.ZoneWalkAhead (s : State) (i : SubIx) : Prop :=
  WalkEntry.zone ∈ s.tw.queue ∨ ∃ w, s.tw.walk = some w ∧ w.entry = .zone ∧ w.cursor ≤ i.toNat

/-- R96, R104: a live record without close held carries the device zone epoch or, while a ZONE walk has yet to reach it,
the one before; no ZONE walk is queued while one is in progress. -/
def State.ZoneEpochsBounded (s : State) : Prop :=
  (∀ i, (s.sub i).live = true → (s.sub i).closeHeld = false → (s.sub i).zoneEpoch = s.zas.zoneEpoch ∨
    ((s.sub i).zoneEpoch + 1 = s.zas.zoneEpoch ∧ s.ZoneWalkAhead i)) ∧
    ∀ w, s.tw.walk = some w → w.entry = .zone → WalkEntry.zone ∉ s.tw.queue

/-! ## Flows -/

/-- R25, R29: a VACANT flow record holds nothing but its stamp. -/
def FlowRecord.ClearWhileVacant (f : FlowRecord) : Prop :=
  f.state = .vacant → f = { FlowRecord.powerOn with stamp := f.stamp }

/-- The flow indices 0 to 16,383. -/
def flowIndices : List FlowIx := (List.range Config.flowCount).map (BitVec.ofNat 14)

/-- R40: the pinned count of a link is the number of OPEN flows whose pin names it. -/
def State.PinnedExact (s : State) : Prop :=
  ∀ l, s.pinnedCount l = flowIndices.countP fun i => decide ((s.flow i).state = .opened l)

/-- R30: a live flow's owner handle names a live record whose flow list holds the flow. -/
def State.OwnersHold (s : State) : Prop :=
  ∀ i, (s.flow i).live = true →
    let r := s.sub (s.flow i).owner.index
    r.live = true ∧ r.stamp = (s.flow i).owner.stamp ∧ s.flowHandle i ∈ r.flowList

/-- R30: a flow list holds the handles of live flows of its own record, each once. -/
def State.ListsHold (s : State) : Prop :=
  ∀ i, (s.sub i).flowList.Nodup ∧ ∀ h ∈ (s.sub i).flowList,
    (s.flow h.index).live = true ∧ (s.flow h.index).stamp = h.stamp ∧ (s.flow h.index).owner.index = i

/-- R14, R17: a VACANT or UNSETTLED record has no flow. -/
def State.ListsEnd (s : State) : Prop :=
  ∀ i, (s.sub i).state = .vacant ∨ (s.sub i).state = .unsettled → (s.sub i).flowList = []

def State.FlowsExact (s : State) : Prop :=
  (∀ i, (s.flow i).ClearWhileVacant) ∧ s.PinnedExact ∧ s.OwnersHold ∧ s.ListsHold ∧ s.ListsEnd

/-- R25, R27: a live flow record stands in a way of its key's bucket, no two live records hold one key, and the key's
subscriber index is the owner's. -/
def State.KeysPlaced (s : State) : Prop :=
  (∀ i, (s.flow i).live = true → ∃ w, i = flowWay (flowBucket (s.flow i).key) w) ∧
    (∀ i j, (s.flow i).live = true → (s.flow j).live = true → (s.flow i).key = (s.flow j).key → i = j) ∧
    ∀ i, (s.flow i).live = true → (s.flow i).owner.index = (s.flow i).key.subscriber

/-- R30: no subscriber has more than 64 flows. -/
def State.FlowCountsBounded (s : State) : Prop := ∀ i, (s.sub i).flowList.length ≤ 64

/-- The subscriber and the flow records with their lists and counts. -/
def State.RecordsExact (s : State) : Prop := s.SubsExact ∧ s.FlowsExact

/-! ## Channels -/

/-- The place in the response FIFO that an outstanding answered request will take (R159); a posted one takes none. -/
def ChannelRecord.reserved (c : ChannelRecord) : Nat :=
  match c.outstanding with
  | none => 0
  | some o => if o.request.kind = 0x08 then 0 else 1

/-- R157, R159: the request FIFO holds at most 16 messages, and an answer always finds a free slot. -/
def ChannelRecord.Bounded (c : ChannelRecord) : Prop :=
  c.requests.length ≤ Config.fifoDepth ∧ c.responses.length + c.reserved ≤ Config.fifoDepth

/-- R167: the SOFT_RESET being served is its channel's outstanding request. -/
def State.SoftResetOutstanding (s : State) : Prop :=
  match s.ci.softReset with
  | .idle => True
  | .waiting ch => (s.chan ch).outstanding.map Outstanding.request = some .softReset
  | .clearing ch _ => (s.chan ch).outstanding.map Outstanding.request = some .softReset

/-- R155, R157, R159, R167. -/
def State.ChannelsSound (s : State) : Prop :=
  (∀ ch, (s.chan ch).Bounded) ∧ (s.chan 7).ownerClass = .supervisor ∧ s.SoftResetOutstanding

/-! ## Zones, agreements and tariffs -/

/-- R88: every tariff that an agreement names is DEFINED. -/
def State.NamesDefined (s : State) (a : Agreement) : Prop :=
  ∀ c t, a.tariffFor c = some t → (s.tariff t).defined = true

/-- R85, R88, R92: the current zone is DEFINED; the agreement list is in ascending order of code, holds at most 256
agreements and names DEFINED tariffs; every tariff's terms are in range. -/
def State.TermsSound (s : State) : Prop :=
  (s.zone s.zas.currentZone).defined = true ∧ (s.zas.agreements.Pairwise fun a b => a.code < b.code) ∧
    s.zas.agreements.length ≤ Config.agreementCapacity ∧ (∀ a ∈ s.zas.agreements, s.NamesDefined a) ∧
    ∀ t, (s.tariff t).terms.inRange = true

/-! ## Links -/

/-- R106, R118: the configuration is in range; a report deadline is present in PROBING, UP and LOST alone; the
congested flag is set in UP alone. -/
def LinkRecord.SoundAt (r : LinkRecord) (l : LinkId) : Prop :=
  r.config.inRange l 8 = true ∧ r.deadline.isSome = r.state.watched ∧ (r.congested = true → r.state = .up)

def State.LinksSound (s : State) : Prop := ∀ l, (s.link l).SoundAt l

/-! ## Marks -/

/-- R132: no live record carries the empty mark. -/
def State.EmptyMarkUnused (s : State) : Prop :=
  (∀ i, (s.sub i).live = true → (s.sub i).mark ≠ s.tw.thirdMark) ∧
    ∀ i, (s.flow i).live = true → (s.flow i).mark ≠ s.tw.thirdMark

/-- R131, R133, R134: an AGE walk leaves no doomed mark on the records it has passed: in pass 1 subscribers below the
cursor, in pass 2 every subscriber and flows below the cursor. -/
def State.AgePassed (s : State) (w : Walk) : Prop :=
  (∀ i, (s.sub i).live = true → w.flowPass = true ∨ i.toNat < w.cursor → (s.sub i).mark ≠ s.tw.thirdMark) ∧
    (w.flowPass = true → ∀ i, (s.flow i).live = true → i.toNat < w.cursor → (s.flow i).mark ≠ s.tw.thirdMark)

/-- R132: the three roles differ, no live record carries the empty mark while no AGE walk is in progress, and an AGE
walk in progress has cleared the doomed mark from what it has passed. -/
def State.MarksSound (s : State) : Prop :=
  s.MarksDistinct ∧
    match s.tw.walk with
    | none => s.EmptyMarkUnused
    | some w => if w.entry = .age then s.AgePassed w else s.EmptyMarkUnused

/-! ## What a command leaves as it was, in the terms of the statements -/

/-- RESET_N, the progress of a SOFT_RESET and the waiting commands are as they were. -/
def State.SameShell (s t : State) : Prop :=
  t.resetHeld = s.resetHeld ∧ t.ci.softReset = s.ci.softReset ∧ t.pending = s.pending

/-- The CI, RESET_N and the waiting commands are as they were. -/
def State.SameCi (s t : State) : Prop := t.ci = s.ci ∧ t.resetHeld = s.resetHeld ∧ t.pending = s.pending

/-- The six blocks behind the CI are as they were. -/
def State.SameBlocks (s t : State) : Prop :=
  t.stc = s.stc ∧ t.ftc = s.ftc ∧ t.lm = s.lm ∧ t.zas = s.zas ∧ t.tw = s.tw ∧ t.al = s.al

/-- The LM, the ZAS and the TW are as they were. -/
def State.SameTerms (s t : State) : Prop := t.lm = s.lm ∧ t.zas = s.zas ∧ t.tw = s.tw

def State.SameSubs (s t : State) : Prop := ∀ j, t.sub j = s.sub j

def State.OtherSubs (s : State) (i : SubIx) (t : State) : Prop := ∀ j, j ≠ i → t.sub j = s.sub j

def State.OtherFlows (s : State) (i : FlowIx) (t : State) : Prop := ∀ j, j ≠ i → t.flow j = s.flow j

def State.OtherLinks (s : State) (l : LinkId) (t : State) : Prop := ∀ k, k ≠ l → t.link k = s.link k

/-- The unwind queue, the grant deadline list and the closed-slot count are as they were. -/
def State.SameLists (s t : State) : Prop :=
  t.stc.unwind = s.stc.unwind ∧ t.stc.deadlines = s.stc.deadlines ∧ t.stc.closedCount = s.stc.closedCount

/-- The AL/TB but for the attention list is as it was. -/
def State.SameTimebase (s t : State) : Prop :=
  t.al = { s.al with list := t.al.list }

/-! ## Completion of a request -/

/-- R159, R166: channel `ch`'s request completes with answer `r`, dropped where it is marked for discard; the other
channels are as they were. -/
def State.Answers (s : State) (ch : Chan) (r : Reply) (t : State) : Prop :=
  (∃ o, (s.chan ch).outstanding = some o ∧
    t.chan ch = { s.chan ch with
      outstanding := none
      responses := (s.chan ch).responses ++
        if o.discard then [] else [{ kind := o.request.kind, tag := o.tag, reply := r }] }) ∧
    (∀ c, c ≠ ch → t.chan c = s.chan c) ∧ s.SameShell t

/-- The claim of owner `o` answers `r` and does nothing else; at the STC and the FTC the arbiter holds `ch` as last
granted. -/
def State.OnlyAnswers (s : State) (o : Owner) (ch : Chan) (r : Reply) (t : State) : Prop :=
  s.Answers ch r t ∧ (s.grantTo o ch).SameBlocks t

/-- The bytes of a transaction stand in the request areas: where an offset is written more than once, the last. -/
def State.Stores (s : State) (bytes : List Host.Cell) (t : State) : Prop :=
  ∀ off, off < 512 → t.readByte off =
    match bytes.reverse.find? fun b => b.1 == off with
    | some b => b.2
    | none => s.readByte off

end Sys2Proof.Machine
end

