-- ==== Sys2Proof/Certificates/Slice0/Obligations.lean ====
section
/-! DEFINITION. The statements for the provers. Each answers for a rule of spec/ or for a convention of the log that its
docstring names. -/

open Sys2Proof Sys2Proof.Machine


/-! ## The queue of commands and the claims -/

/-- One step runs the command at the front of the queue on the state with the queue's rest (log 2). -/
def Obligations.StepRunsTheFrontCommand : Prop :=
  (∀ (s : State) (c : Instr) (rest : List Instr), s.pending = c :: rest → step s = exec c { s with pending := rest }) ∧
    (∀ s : State, s.pending = [] → step s = .next s) ∧
    ∀ (s : State) (c : Instr), step { s with pending := c :: s.pending } = exec c s

/-- Every command answers a next state, and none touches the queue (log 2). -/
def Obligations.EveryCommandAnswersANextState : Prop :=
  ∀ (c : Instr) (s : State), ∃ t, exec c s = .next t ∧ t.pending = s.pending

/-- R2, R26, R159: a claim on a request comes about exactly when RESET_N is released, the device is READY, no
clearing runs, the request is outstanding on the channel, the block owns it and, at the STC and the FTC, no channel
with a request for the same block follows the last granted one sooner in rotation. -/
def Obligations.ClaimsComeAboutInRotation : Prop :=
  ∀ (s : State) (o : Owner) (ch : Chan) (r : Request),
    s.claim o ch = some r ↔
      s.resetHeld = false ∧ s.al.ready = true ∧ (∀ c b, s.ci.softReset ≠ .clearing c b) ∧
        (s.chan ch).outstanding.map Outstanding.request = some r ∧ r.owner = o ∧
        (o = .stc → ∀ c out, (s.chan c).outstanding = some out → out.request.owner = .stc →
          (ch - (s.stc.lastGranted + 1)).val ≤ (c - (s.stc.lastGranted + 1)).val) ∧
        (o = .ftc → ∀ c out, (s.chan c).outstanding = some out → out.request.owner = .ftc →
          (ch - (s.ftc.lastGranted + 1)).val ≤ (c - (s.ftc.lastGranted + 1)).val)

/-! ## Reset and start-up -/

/-- R1, R23, R25, R42, R62, R85, R86, R88, R92, R105, R106, R132, R145, R155, R172 to R175: the values after power-on
reset. RESET_N is still asserted (log 3); `pending` is the model's own (log 2). -/
def Obligations.ResetValues : Prop :=
  let s := State.reset
  (∀ i, s.sub i = {
      tag := 0, stamp := 0, state := .vacant, cls := .passenger, home := 0, permanent := false, mark := 0,
      zoneEpoch := 0, policyEpoch := 0, tariff := none, ratingZone := 0, flowList := [], userWord := 0,
      current := { bytes := 0, seconds := 0, mixed := false }, closed := none, closeHeld := false,
      byteAllowance := 0, secondsAllowance := 0, byteOverrun := 0, secondsOverrun := 0, grant := .none,
      overdraftUsed := false, exhaustedNoted := false, so := false }) ∧
    (∀ i, s.flow i = {
      key := { subscriber := 0, address := 0, remotePort := 0, localPort := 0, protocol := 0 }, stamp := 0,
      state := .vacant, cls := .bulk, owner := { index := 0, stamp := 0 }, mark := 0, userWord := 0 }) ∧
    (∀ b, s.plru b = { root := false, first := false, second := false }) ∧
    (∀ l, s.pinnedCount l = 0 ∧ s.drainedWaiting l = false ∧ s.autoSnapshotDue l = false) ∧
    s.stc.unwind = [] ∧ s.stc.deadlines = [] ∧ s.stc.closedCount = 0 ∧ s.stc.lastGranted = 7 ∧
    s.ftc.lastGranted = 7 ∧
    (∀ l, s.link l = {
      config := {
        threshold := 20, hysteresis := 4, declareWindow := .fast, clearWindow := 8, staleInterval := 3,
        highWater := 192, lowWater := 64, admitVoice := true, admitInteractive := true, admitBulk := true,
        rank := BitVec.ofNat 4 l.val, fallback := none, stateNotice := .all, congestionNotice := .both,
        snapshotMode := .manual }
      state := .offline, badRun := 0, goodRun := 0, lastQuality := 0, lastOccupancy := 0, congested := false,
      deadline := none, degrade := 0, saturated := false, peak := 0,
      snapshot := { degrade := 0, saturated := false, peak := 0, taken := 0 },
      repin := { moved := 0, held := 0, aborted := false, completed := 0 } }) ∧
    (∀ z, s.zone z = { defined := z == 0, cls := 0 }) ∧
    s.zas.currentZone = 0 ∧ s.zas.zoneEpoch = 0 ∧ s.zas.policyEpoch = 0 ∧ s.zas.agreements = [] ∧
    (∀ t, s.tariff t = {
      defined := t == 0
      terms := {
        lowBytes := 1048576, lowSeconds := 60, exhaust := .block, timeout := 30, noAnswer := .block,
        overdraftBytes := 0, overdraftSeconds := 0, carry := true, bridgeBytes := 0, bridgeSeconds := 0,
        flowLimit := 16 } }) ∧
    s.tw.queue = [] ∧ s.tw.walk = none ∧ s.tw.currentMark = 0 ∧ s.tw.previousMark = 2 ∧ s.tw.thirdMark = 1 ∧
    s.tw.ageSummary = { subsRetired := 0, flowsRetired := 0, started := 0, completed := 0 } ∧
    s.tw.zoneSummary = { zone := 0, zoneEpoch := 0, closed := 0, held := 0, barred := 0, completed := 0 } ∧
    s.tw.recheckSummary = { policyEpoch := 0, rechecked := 0, barred := 0, cleared := 0, held := 0, completed := 0 } ∧
    s.al = {
      list := [], overrunBitmap := 0, ready := false, count := 0, ageInterval := 0, ageDeadline := none,
      interruptEnable := false } ∧
    (∀ ch : Chan, s.chan ch = {
      ownerClass := if ch.val < 4 then .gateway else if ch.val = 4 then .cell else if ch.val = 5 then .backhaul
        else if ch.val = 6 then .billing else .supervisor
      quiet := false, pendingFault := none, faultOverflow := 0, overrun := false, requests := [], responses := [],
      staging := Vector.replicate 16 0, outstanding := none }) ∧
    s.ci.softReset = .idle ∧ s.resetHeld = true ∧ s.pending = []

/-- R175: the two edges of RESET_N and the end of the clearing of record memory. -/
def Obligations.StartUp : Prop :=
  ∀ s : State,
    exec .powerOnReset s = .next { State.reset with pending := s.pending } ∧
      exec .resetNRelease s = .next { s with resetHeld := false } ∧
      (s.resetHeld = false → s.al.ready = false →
        exec .initializationComplete s = .next
          { s with al := { s.al with ready := true, list := raiseIn s.al.list .device .ready } })

/-- R23, R42, R87, R105, R127, R130, R145, R175: while RESET_N is asserted or the device is in INIT, no command but
RESET_N's edges, initialization complete and writes to the windows changes anything. -/
def Obligations.NothingElseHappensInInit : Prop :=
  ∀ (c : Instr) (s : State), s.resetHeld = true ∨ s.al.ready = false →
    (match c with
      | .powerOnReset | .resetNRelease | .initializationComplete | .stagingWrite _ | .requestSubmit _
      | .responseRelease _ | .ignoredWrite _ => False
      | _ => True) →
    (∀ ch b, s.ci.softReset ≠ .clearing ch b) → exec c s = .next s

/-! ## Channels -/

/-- R156, R158, R179 (which row a transaction is: log 10; a write while RESET_N is asserted: log 3): a STAGING_WRITE
covers request words 1 to 15 and no word 0, and stores its bytes in staging words alone; a RESPONSE_RELEASE covers a
response word 0, and no request word 0, and releases the head answer of each channel whose response word 0 it covers; an
IGNORED_WRITE covers none of these and changes nothing; and none changes anything while RESET_N is asserted. -/
def Obligations.WritesThatSubmitNothing : Prop :=
  ∀ (s : State) (bytes : List Host.Cell),
    let submits (ch : Chan) : Bool :=
      bytes.any fun b => decide (0x040 * ch.val ≤ b.1 ∧ b.1 ≤ 0x040 * ch.val + 3)
    let releases (ch : Chan) : Bool :=
      bytes.any fun b => decide (0x200 + 0x040 * ch.val ≤ b.1 ∧ b.1 ≤ 0x200 + 0x040 * ch.val + 3)
    let stages : Bool := bytes.any fun b => decide (b.1 < 0x200)
    (s.resetHeld = true → exec (.stagingWrite bytes) s = .next s ∧ exec (.responseRelease bytes) s = .next s ∧
      exec (.ignoredWrite bytes) s = .next s) ∧
    (s.resetHeld = false → (∀ ch, submits ch = false) →
      ((∀ ch, releases ch = false) → stages = true → ∃ t, exec (.stagingWrite bytes) s = .next t ∧ s.Stores bytes t ∧
        (∀ ch, t.chan ch = { s.chan ch with staging := (t.chan ch).staging }) ∧ s.SameBlocks t ∧ s.SameShell t) ∧
      (∀ n, releases n = true → ∃ t, exec (.responseRelease bytes) s = .next t ∧
        (∀ ch, t.chan ch = { s.chan ch with
          staging := (t.chan ch).staging
          responses := if releases ch then (s.chan ch).responses.tail else (s.chan ch).responses }) ∧
        s.Stores bytes t ∧ s.SameBlocks t ∧ s.SameShell t) ∧
      ((∀ ch, releases ch = false) → stages = false → exec (.ignoredWrite bytes) s = .next s))

/-- R156, R157, R173, R179 (a transaction that covers several areas: log 10; a write while RESET_N is asserted: log 3):
a REQUEST_SUBMIT covers a request word 0 and stores its bytes; on each channel whose request word 0 it covers, the
message that then stands in the staging words joins the request FIFO, or, where the FIFO holds 16, is discarded with
the overrun flag, the bitmap's bit and CHANNEL_OVERRUN; while RESET_N is asserted it changes nothing. A message is the
first `count` staging words, or the header alone, marked, where the count is 0 or above 16. -/
def Obligations.SubmissionsJoinOrOverrun : Prop :=
  (∀ (s : State) (bytes : List Host.Cell),
    let submits (ch : Chan) : Bool :=
      bytes.any fun b => decide (0x040 * ch.val ≤ b.1 ∧ b.1 ≤ 0x040 * ch.val + 3)
    let releases (ch : Chan) : Bool :=
      bytes.any fun b => decide (0x200 + 0x040 * ch.val ≤ b.1 ∧ b.1 ≤ 0x200 + 0x040 * ch.val + 3)
    (s.resetHeld = true → exec (.requestSubmit bytes) s = .next s) ∧
    ∀ n, s.resetHeld = false → submits n = true →
      ∃ t, exec (.requestSubmit bytes) s = .next t ∧ s.Stores bytes t ∧
        (∀ ch, t.chan ch = { s.chan ch with
          staging := (t.chan ch).staging
          requests := (s.chan ch).requests ++
            if submits ch = true ∧ (s.chan ch).requests.length < 16 then [(t.chan ch).message] else []
          overrun := (s.chan ch).overrun || (submits ch && decide (16 ≤ (s.chan ch).requests.length))
          responses := if releases ch then (s.chan ch).responses.tail else (s.chan ch).responses }) ∧
        (∀ ch : Chan, t.al.overrunBitmap.getLsbD ch.val =
          (s.al.overrunBitmap.getLsbD ch.val ||
            (submits ch && decide (16 ≤ (s.chan ch).requests.length)))) ∧
        t.al = { s.al with
          overrunBitmap := t.al.overrunBitmap
          list := if ∃ ch, submits ch = true ∧ 16 ≤ (s.chan ch).requests.length
            then raiseIn s.al.list .device .channelOverrun else s.al.list } ∧
        t.stc = s.stc ∧ t.ftc = s.ftc ∧ s.SameTerms t ∧ s.SameShell t) ∧
  (∀ c : ChannelRecord, ∃ n : Nat, n = (c.staging[0].extractLsb' 8 5).toNat ∧
    ((1 ≤ n ∧ n ≤ 16) → c.message.unfitting = false ∧ c.message.words.length = n ∧
      ∀ k : Fin 16, k.val < n → c.message.words[k.val]? = some c.staging[k]) ∧
    ((n = 0 ∨ 16 < n) → c.message = { words := [c.staging[0]], unfitting := true }))

/-- R150 (its limits by field), R159 to R163, R180: which class a request is permitted to; which messages have a
fitting form, and the request that each of those spells, of the message's own kind (every other message is MALFORMED);
and DISPATCH of a channel's head message, by what the checks at the CI find. -/
def Obligations.DispatchMakesTheCiChecks : Prop :=
  (∀ (c : OwnerClass) (ch : Chan) (q : Request), permitted c ch q = true ↔ match q with
    | .attach .. => c = .cell
    | .detach .. | .zoneChange .. | .age => c = .cell ∨ c = .supervisor
    | .subFind .. | .subRead .. => c ≠ .backhaul
    | .subUpdate _ _ .userWord _ _ => c = .cell ∨ c = .billing ∨ c = .supervisor
    | .subUpdate _ _ .permanent _ _ => c = .cell ∨ c = .supervisor
    | .subUpdate _ _ .so _ _ => c = .billing ∨ c = .supervisor
    | .grant .. | .settle .. => c = .billing
    | .usagePost .. | .flowOpen .. | .flowFind .. | .charge .. => c = .gateway
    | .flowClose .. | .flowRead .. | .flowUpdate .. => c = .gateway ∨ c = .supervisor
    | .linkReport .. => c = .backhaul
    | .linkAdmin _ .inject | .linkAdmin _ .snapshot => c = .backhaul ∨ c = .supervisor
    | .linkAdmin _ .enable | .linkAdmin _ .disable | .linkAdmin _ .drain => c = .supervisor
    | .agreementSet .. | .agreementRemove .. | .tariffSet .. => c = .billing ∨ c = .supervisor
    | .noticeFetch .. => c = .cell ∨ c = .billing ∨ c = .supervisor
    | .linkConfig .. | .zoneDefine .. | .walkAbort .. | .deviceConfig .. | .softReset | .channelSet ..
    | .channelReset .. => c = .supervisor
    | .channelStatus n => n.toNat = ch.val ∨ c = .supervisor
    | .linkRead .. | .zoneRead .. | .agreementFind .. | .tariffRead .. | .walkStatus .. | .deviceStatus
    | .clearFault => True) ∧
  (∀ (m : Message) (q : Request),
    let header := m.words.headD 0
    let headed := m.unfitting = false ∧ header &&& 0x0000C000 = 0
    let spells (kind : BitVec 8) (P : Prop) := m.kind = kind →
      (m.request = some q ↔ headed ∧ header.getLsbD 13 = false ∧ P)
    let ws := m.words.tail
    let test (t : GuardTest) : BitVec 3 := match t with
      | .eq => 0 | .lt => 1 | .gt => 2 | .allBits => 3 | .anyBits => 4
    let subField (f : SubGuardField) : BitVec 4 := match f with
      | .state => 0 | .cls => 1 | .flowCount => 2 | .byteAllowance => 3 | .secondsAllowance => 4 | .grantState => 5
      | .closedOccupied => 6 | .permanent => 7 | .userWord => 8
    let flowField (f : FlowGuardField) : BitVec 4 := match f with
      | .state => 0 | .cls => 1 | .pin => 2 | .userWord => 3
    let subGuarded (kind : BitVec 8) (P : Option SubGuard → List Word → Prop) := m.kind = kind →
      (m.request = some q ↔ headed ∧
        ((header.getLsbD 13 = false ∧ P none ws) ∨
          (header.getLsbD 13 = true ∧ ∃ (g1 g2 : Word) (body : List Word) (f : SubGuardField)
            (t : GuardTest), ws = g1 :: g2 :: body ∧ g1 &&& 0xFFFF78F0 = 0 ∧ g1.extractLsb' 0 4 = subField f ∧
            g1.extractLsb' 8 3 = test t ∧
            P (some { field := f, test := t, negate := g1.getLsbD 15, operand := g2 }) body)))
    let flowGuarded (kind : BitVec 8) (P : Option FlowGuard → List Word → Prop) := m.kind = kind →
      (m.request = some q ↔ headed ∧
        ((header.getLsbD 13 = false ∧ P none ws) ∨
          (header.getLsbD 13 = true ∧ ∃ (g1 g2 : Word) (body : List Word) (f : FlowGuardField)
            (t : GuardTest), ws = g1 :: g2 :: body ∧ g1 &&& 0xFFFF78F0 = 0 ∧ g1.extractLsb' 0 4 = flowField f ∧
            g1.extractLsb' 8 3 = test t ∧
            P (some { field := f, test := t, negate := g1.getLsbD 15, operand := g2 }) body)))
    let handle (w : Word) : SubHandle := { index := w.extractLsb' 0 12, stamp := w.extractLsb' 16 8 }
    let flowHandle (w : Word) : FlowHandle := { index := w.extractLsb' 0 14, stamp := w.extractLsb' 16 8 }
    let readPart (p : SubSection) : BitVec 2 := match p with
      | .identity => 0 | .charging => 1 | .flows => 2
    let field (f : SubField) : BitVec 2 := match f with
      | .userWord => 0 | .permanent => 1 | .so => 2
    let fieldOfFlow (f : FlowField) : BitVec 2 := match f with
      | .userWord => 0 | .cls => 1
    let action (a : UpdateAction) : BitVec 2 := match a with
      | .set => 0 | .addSat => 1 | .setBits => 2 | .clearBits => 3
    let part (p : SettlePart) : BitVec 2 := match p with
      | .closed => 1 | .current => 2 | .both => 3
    let command (c : LinkCommand) : BitVec 3 := match c with
      | .enable => 0 | .disable => 1 | .drain => 2 | .inject => 3 | .snapshot => 4
    let walkPart (p : WalkSection) : BitVec 2 := match p with
      | .walker => 0 | .summaries => 1
    let walkKind (k : WalkKind) : BitVec 2 := match k with
      | .age => 0 | .zone => 1 | .recheck => 2 | .repin => 3
    let filter (f : NoticeFilter) : BitVec 3 := match f with
      | .subscriber => 0 | .link => 1 | .walker => 2 | .device => 3 | .any => 4
    let owner (c : OwnerClass) : BitVec 3 := match c with
      | .gateway => 0 | .cell => 1 | .backhaul => 2 | .billing => 3 | .supervisor => 4
    m.kind = header.extractLsb' 0 8 ∧ m.tag = header.extractLsb' 16 16 ∧ (m.request = some q → q.kind = m.kind) ∧
    (m.kind.toNat ∉ [1, 2, 3, 4, 5, 6, 7, 8, 0x10, 0x11, 0x12, 0x13, 0x14, 0x15, 0x20, 0x21, 0x22, 0x23, 0x30, 0x31,
      0x32, 0x33, 0x34, 0x35, 0x36, 0x37, 0x40, 0x41, 0x42, 0x50, 0x51, 0x52, 0x60, 0x61, 0x62, 0x63, 0x64] →
      m.request = none) ∧
    spells 0x01 (∃ w1 w2 w3 w4 : Word, ws = [w1, w2, w3, w4] ∧ w3 &&& 0xFFFFC0EC = 0 ∧ w4 &&& 0xFF000000 = 0 ∧
      q = .attach (w2 ++ w1) (w3.extractLsb' 0 2) (w3.getLsbD 4) (w3.extractLsb' 8 6) (w4.extractLsb' 0 24)) ∧
    subGuarded 0x02 (fun g body => ∃ w1 : Word, body = [w1] ∧ w1 &&& 0xFF00F000 = 0 ∧ q = .detach (handle w1) g) ∧
    spells 0x03 (∃ w1 w2 : Word, ws = [w1, w2] ∧ q = .subFind (w2 ++ w1)) ∧
    subGuarded 0x04 (fun g body => ∃ (w1 w2 : Word) (p : SubSection), body = [w1, w2] ∧ w1 &&& 0xFF00F000 = 0 ∧
      w2 &&& 0xFFFF00FC = 0 ∧ w2.extractLsb' 0 2 = readPart p ∧
      q = .subRead (handle w1) g p (w2.extractLsb' 8 8)) ∧
    subGuarded 0x05 (fun g body => ∃ (w1 w2 w3 : Word) (f : SubField) (a : UpdateAction), body = [w1, w2, w3] ∧
      w1 &&& 0xFF00F000 = 0 ∧ w2 &&& 0xFFFFFFCC = 0 ∧ w2.extractLsb' 0 2 = field f ∧ w2.extractLsb' 4 2 = action a ∧
      q = .subUpdate (handle w1) g f a w3) ∧
    subGuarded 0x06 (fun g body => ∃ w1 w2 w3 : Word, body = [w1, w2, w3] ∧ w1 &&& 0xFF00F000 = 0 ∧
      q = .grant (handle w1) g w2 w3) ∧
    subGuarded 0x07 (fun g body => ∃ (w1 w2 : Word) (p : SettlePart), body = [w1, w2] ∧ w1 &&& 0xFF00F000 = 0 ∧
      w2 &&& 0xFFFFFFFC = 0 ∧ w2.extractLsb' 0 2 = part p ∧ q = .settle (handle w1) g p) ∧
    spells 0x08 (∃ w1 w2 w3 w4 : Word, ws = [w1, w2, w3, w4] ∧ w1 &&& 0xFF00F000 = 0 ∧ w2 &&& 0xFFFFFFF8 = 0 ∧
      q = .usagePost (handle w1) (w2.extractLsb' 0 3) w3 w4) ∧
    spells 0x10 (∃ w1 w2 w3 w4 w5 w6 w7 : Word, ws = [w1, w2, w3, w4, w5, w6, w7] ∧ w1 &&& 0xFF00F000 = 0 ∧
      w7 &&& 0xFFFEF800 = 0 ∧
      q = .flowOpen (handle w1) (w5 ++ w4 ++ w3 ++ w2) (w6.extractLsb' 0 16) (w6.extractLsb' 16 16)
        (w7.extractLsb' 0 8) (w7.extractLsb' 8 3) (w7.getLsbD 16)) ∧
    flowGuarded 0x11 (fun g body => ∃ w1 : Word, body = [w1] ∧ w1 &&& 0xFF00C000 = 0 ∧
      q = .flowClose (flowHandle w1) g) ∧
    spells 0x12 (∃ w1 w2 w3 w4 w5 w6 w7 : Word, ws = [w1, w2, w3, w4, w5, w6, w7] ∧ w1 &&& 0xFFFFF000 = 0 ∧
      w7 &&& 0xFFFFFF00 = 0 ∧
      q = .flowFind {
        subscriber := w1.extractLsb' 0 12, address := w5 ++ w4 ++ w3 ++ w2, remotePort := w6.extractLsb' 0 16
        localPort := w6.extractLsb' 16 16, protocol := w7.extractLsb' 0 8 }) ∧
    spells 0x13 (∃ w1 w2 : Word, ws = [w1, w2] ∧ w1 &&& 0xFF00C000 = 0 ∧ w2 &&& 0xFF000000 = 0 ∧
      q = .charge (flowHandle w1) (w2.extractLsb' 0 16) (w2.extractLsb' 16 8)) ∧
    flowGuarded 0x14 (fun g body => ∃ w1 : Word, body = [w1] ∧ w1 &&& 0xFF00C000 = 0 ∧
      q = .flowRead (flowHandle w1) g) ∧
    flowGuarded 0x15 (fun g body => ∃ (w1 w2 w3 : Word) (f : FlowField) (a : UpdateAction), body = [w1, w2, w3] ∧
      w1 &&& 0xFF00C000 = 0 ∧ w2 &&& 0xFFFFFFCC = 0 ∧ w2.extractLsb' 0 2 = fieldOfFlow f ∧
      w2.extractLsb' 4 2 = action a ∧ q = .flowUpdate (flowHandle w1) g f a w3) ∧
    spells 0x20 (∃ w1 : Word, ws = [w1] ∧ w1 &&& 0xFF0000F0 = 0 ∧
      q = .linkReport (w1.extractLsb' 0 4) (w1.extractLsb' 8 8) (w1.extractLsb' 16 8)) ∧
    spells 0x21 (∃ (w1 : Word) (c : LinkCommand), ws = [w1] ∧ w1 &&& 0xFFFFF8F0 = 0 ∧
      w1.extractLsb' 8 3 = command c ∧ q = .linkAdmin (w1.extractLsb' 0 4) c) ∧
    spells 0x22 (∃ (w1 w2 w3 w4 : Word) (fallback : Option LinkId), ws = [w1, w2, w3, w4] ∧ w1 &&& 0xFFFFFFF0 = 0 ∧
      w2 &&& 0xC080E0C0 = 0 ∧ w3 &&& 0xFF080000 = 0 ∧ w4 &&& 0xFFFFF8F0 = 0 ∧
      (∀ l, fallback = some l ↔ (w4.extractLsb' 0 4).toNat = l.val) ∧
      q = .linkConfig (w1.extractLsb' 0 4) {
        threshold := w2.extractLsb' 0 6, hysteresis := w2.extractLsb' 8 4
        declareWindow := if w2.getLsbD 12 then .steady else .fast
        clearWindow := w2.extractLsb' 16 7, staleInterval := w2.extractLsb' 24 6
        highWater := w3.extractLsb' 0 8, lowWater := w3.extractLsb' 8 8, admitVoice := w3.getLsbD 16
        admitInteractive := w3.getLsbD 17, admitBulk := w3.getLsbD 18, rank := w3.extractLsb' 20 4
        fallback := fallback
        stateNotice := if w4.getLsbD 8 then .all else .downward
        congestionNotice := if w4.getLsbD 9 then .both else .onset
        snapshotMode := if w4.getLsbD 10 then .auto else .manual } (w4.extractLsb' 0 4)) ∧
    spells 0x23 (∃ w1 : Word, ws = [w1] ∧ w1 &&& 0xFFFFFFF0 = 0 ∧ q = .linkRead (w1.extractLsb' 0 4)) ∧
    spells 0x30 (∃ w1 : Word, ws = [w1] ∧ w1 &&& 0xFFFEFF00 = 0 ∧
      q = .zoneChange (w1.extractLsb' 0 8) (w1.getLsbD 16)) ∧
    spells 0x31 (∃ w1 : Word, ws = [w1] ∧ w1 &&& 0xFF00FC00 = 0 ∧
      q = .zoneDefine (w1.extractLsb' 0 8) (w1.extractLsb' 8 2) (w1.extractLsb' 16 8)) ∧
    spells 0x32 (∃ w1 : Word, ws = [w1] ∧ w1 &&& 0xFFFFFF00 = 0 ∧ q = .zoneRead (w1.extractLsb' 0 8)) ∧
    spells 0x33 (∃ w1 w2 : Word, ws = [w1, w2] ∧ w1 &&& 0xFC000000 = 0 ∧
      q = .agreementSet (w1.extractLsb' 0 24) (w1.extractLsb' 24 2) (w2.extractLsb' 0 8) (w2.extractLsb' 8 8)
        (w2.extractLsb' 16 8) (w2.extractLsb' 24 8)) ∧
    spells 0x34 (∃ w1 : Word, ws = [w1] ∧ w1 &&& 0xFF000000 = 0 ∧ q = .agreementRemove (w1.extractLsb' 0 24)) ∧
    spells 0x35 (∃ w1 : Word, ws = [w1] ∧ w1 &&& 0xFE000000 = 0 ∧
      q = .agreementFind (w1.extractLsb' 0 24) (w1.getLsbD 24)) ∧
    spells 0x36 (∃ w1 w2 w3 w4 w5 w6 w7 : Word, ws = [w1, w2, w3, w4, w5, w6, w7] ∧ w1 &&& 0x0000F800 = 0 ∧
      q = .tariffSet (w1.extractLsb' 0 8) {
        lowBytes := w2, lowSeconds := w3, exhaust := if w1.getLsbD 8 then .redirect else .block
        timeout := w1.extractLsb' 16 8, noAnswer := if w1.getLsbD 9 then .overdraft else .block
        overdraftBytes := w4, overdraftSeconds := w5, carry := w1.getLsbD 10, bridgeBytes := w6
        bridgeSeconds := w7, flowLimit := w1.extractLsb' 24 8 }) ∧
    spells 0x37 (∃ w1 : Word, ws = [w1] ∧ w1 &&& 0xFFFFFF00 = 0 ∧ q = .tariffRead (w1.extractLsb' 0 8)) ∧
    spells 0x40 (ws = [] ∧ q = .age) ∧
    spells 0x41 (∃ (w1 : Word) (p : WalkSection), ws = [w1] ∧ w1 &&& 0xFFFFFFFC = 0 ∧
      w1.extractLsb' 0 2 = walkPart p ∧ q = .walkStatus p) ∧
    spells 0x42 (∃ (w1 : Word) (k : WalkKind), ws = [w1] ∧ w1 &&& 0xFFFF00FC = 0 ∧
      w1.extractLsb' 0 2 = walkKind k ∧ q = .walkAbort k (w1.extractLsb' 8 8)) ∧
    spells 0x50 (∃ (w1 : Word) (f : NoticeFilter), ws = [w1] ∧ w1 &&& 0xFFFFFFF8 = 0 ∧
      w1.extractLsb' 0 3 = filter f ∧ q = .noticeFetch f) ∧
    spells 0x51 (ws = [] ∧ q = .deviceStatus) ∧
    spells 0x52 (∃ w1 w2 : Word, ws = [w1, w2] ∧ w2 &&& 0xFFFFFFFE = 0 ∧ q = .deviceConfig w1 (w2.getLsbD 0)) ∧
    spells 0x60 (∃ w1 : Word, ws = [w1] ∧ w1 &&& 0xFFFFFF00 = 0 ∧ q = .channelStatus (w1.extractLsb' 0 8)) ∧
    spells 0x61 (ws = [] ∧ q = .clearFault) ∧
    spells 0x62 (∃ (w1 : Word) (c : OwnerClass), ws = [w1] ∧ w1 &&& 0xFFFEF800 = 0 ∧
      w1.extractLsb' 8 3 = owner c ∧ q = .channelSet (w1.extractLsb' 0 8) c (w1.getLsbD 16)) ∧
    spells 0x63 (∃ w1 : Word, ws = [w1] ∧ w1 &&& 0xFFFFFF00 = 0 ∧ q = .channelReset (w1.extractLsb' 0 8)) ∧
    spells 0x64 (ws = [] ∧ q = .softReset)) ∧
  ∀ (s : State) (ch : Chan) (m : Message) (rest : List Message),
    s.resetHeld = false → s.al.ready = true → s.ci.softReset = .idle → (s.chan ch).outstanding = none →
    (s.chan ch).requests = m :: rest → (m.kind = 0x08 ∨ (s.chan ch).responses.length < 16) →
    ∃ t, exec (.dispatch ch) s = .next t ∧ s.SameBlocks t ∧ s.SameShell t ∧ (∀ c, c ≠ ch → t.chan c = s.chan c) ∧
        (∀ f, (s.chan ch).pendingFault = some f → m.kind ≠ 0x08 → m.kind ≠ 0x60 → m.kind ≠ 0x61 →
          t.chan ch = { s.chan ch with
            requests := rest
            responses := (s.chan ch).responses ++ [{
              kind := m.kind, tag := m.tag
              reply := {
                status := .deferredFault, nibble := .zero, flags := {}
                body := [put 0 f.status.code ||| put 8 f.kind.toNat ||| put 16 f.tag.toNat,
                  put 0 (s.chan ch).faultOverflow.toNat] } }] }) ∧
        ((s.chan ch).pendingFault = none ∨ m.kind = 0x08 ∨ m.kind = 0x60 ∨ m.kind = 0x61 →
          (∀ r, m.request = some r → permitted (s.chan ch).ownerClass ch r = true →
            t.chan ch = { s.chan ch with
              requests := rest, outstanding := some { tag := m.tag, request := r, discard := false } }) ∧
          ∀ status, (m.request = none ∧ status = Status.malformed) ∨
              (∃ r, m.request = some r ∧ permitted (s.chan ch).ownerClass ch r = false ∧
                status = Status.notPermitted) →
            (m.kind ≠ 0x08 → t.chan ch = { s.chan ch with
              requests := rest
              responses := (s.chan ch).responses ++ [{
                kind := m.kind, tag := m.tag
                reply := { status := status, nibble := .zero, flags := {}, body := [] } }] }) ∧
            (m.kind = 0x08 → t.chan ch =
              { s.chan ch with requests := rest }.recordFault { status := status, kind := m.kind, tag := m.tag }))

/-- R162, R166: where the failure of a posted request goes. -/
def Obligations.PostedFailuresAreHeldOrCounted : Prop :=
  ∀ (c : ChannelRecord) (f : HeldFault),
    (c.quiet = false → c.pendingFault = none → c.recordFault f = { c with pendingFault := some f }) ∧
      (c.quiet = true ∨ c.pendingFault ≠ none → ∃ n : BitVec 8,
        c.recordFault f = { c with faultOverflow := n } ∧ n.toNat = min (c.faultOverflow.toNat + 1) 255) ∧
      (∀ out st, c.outstanding = some out → out.discard = true →
        c.completePosted (some st) = { c with outstanding := none }) ∧
      (∀ out st, c.outstanding = some out → out.discard = false →
        c.completePosted (some st) =
          { c with outstanding := none }.recordFault { status := st, kind := out.request.kind, tag := out.tag }) ∧
      c.completePosted none = { c with outstanding := none }

/-- R164 to R166 (the words of the CHANNEL_SET answer and of the fault that CLEAR_FAULT gives are the model's
choice: logs 11 and 25; a mark that the requester's own request
already has stays: log 26): CLEAR_FAULT,
CHANNEL_SET that writes, and CHANNEL_RESET of the requester's own and of another channel; and the requests that
change nothing: a channel number above 7, channel 7 kept SUPERVISOR, values already held. -/
def Obligations.ChannelAdministration : Prop :=
  ((∀ (s : State) (ch : Chan), s.claim .ci ch = some .clearFault →
    ∃ t, exec (.clearFault ch) s = .next t ∧ s.SameBlocks t ∧
      (s.setChan ch { s.chan ch with pendingFault := none, faultOverflow := 0 }).Answers ch
        (.plain .ok [faultWord (s.chan ch).pendingFault, put 0 (s.chan ch).faultOverflow.toNat]) t) ∧
    (∀ (s : State) (ch n : Chan) (code : BitVec 8) (cls : OwnerClass) (quiet : Bool),
      s.claim .ci ch = some (.channelSet code cls quiet) → code.toNat = n.val →
      let c := s.chan n
      (n = 7 → cls = .supervisor) → ¬(c.ownerClass = cls ∧ c.quiet = quiet) →
      ∃ t, exec (.channelSet ch) s = .next t ∧ s.SameBlocks t ∧
        (s.setChan n { c with ownerClass := cls, quiet := quiet }).Answers ch
          (.plain .ok [put 0 c.ownerClass.code, putFlag 0 c.quiet, put 0 cls.code, putFlag 0 quiet]) t) ∧
    (∀ (s : State) (ch n : Chan) (code : BitVec 8), s.claim .ci ch = some (.channelReset code) → code.toNat = n.val →
      let c := s.chan n
      ∃ t, exec (.channelReset ch) s = .next t ∧ s.SameBlocks t ∧
        (s.setChan n { c with
          requests := [], responses := [], pendingFault := none, faultOverflow := 0, overrun := false
          outstanding := if n = ch then c.outstanding
            else c.outstanding.map fun o => { o with discard := true } }).Answers ch
          (.plain .ok [put 0 c.requests.length, put 0 c.responses.length]) t)) ∧
  (∀ (s : State) (ch : Chan) (code : BitVec 8),
    (∀ cls quiet, s.claim .ci ch = some (.channelSet code cls quiet) →
      (8 ≤ code.toNat → ∃ t, exec (.channelSet ch) s = .next t ∧
        s.OnlyAnswers .ci ch (.plain .outOfRange (blank 4)) t) ∧
      (code = 7 → cls ≠ .supervisor → ∃ t, exec (.channelSet ch) s = .next t ∧
        s.OnlyAnswers .ci ch (.plain .conflict (blank 4)) t) ∧
      (∀ n : Chan, code.toNat = n.val → (n = 7 → cls = .supervisor) → (s.chan n).ownerClass = cls →
        (s.chan n).quiet = quiet → ∃ t, exec (.channelSet ch) s = .next t ∧
          s.OnlyAnswers .ci ch (.plain .already (blank 4)) t)) ∧
    (s.claim .ci ch = some (.channelReset code) → 8 ≤ code.toNat → ∃ t, exec (.channelReset ch) s = .next t ∧
      s.OnlyAnswers .ci ch (.plain .outOfRange (blank 2)) t))

/-- R24, R43, R78, R84, R105, R127, R145, R155, R159, R167, R178 (the order of the clearing's events: log 8; a second
SOFT_RESET: log 9; an AUTO snapshot that is due when the clearing begins: log 7): SOFT_RESET stops dispatch until its
completion, its clearing begins once nothing else is outstanding, and not before, and its completion restarts the timers
and answers. -/
def Obligations.SoftResetClearsTheTables : Prop :=
  (∀ (s : State) (ch : Chan), s.claim .ci ch = some .softReset → s.ci.softReset = .idle →
    exec (.softReset ch) s = .next { s with ci := { s.ci with softReset := .waiting ch } }) ∧
  (∀ (s : State) (ch : Chan), s.ci.softReset ≠ .idle →
    exec (.softReset ch) s = .next s ∧ exec (.dispatch ch) s = .next s) ∧
  (∀ (s : State) (ch c : Chan) (b : Bool) (out : Outstanding), s.ci.softReset = .waiting ch →
    (s.chan c).outstanding = some out → out.request ≠ .softReset → exec (.softResetClearing b) s = .next s) ∧
  (∀ (s : State) (ch : Chan) (b : Bool), s.TablesCanonical → s.resetHeld = false → s.al.ready = true →
    s.ci.softReset = .waiting ch →
    (∀ c out, (s.chan c).outstanding = some out → out.request = .softReset) →
    ∃ t, exec (.softResetClearing b) s = .next t ∧
      (∀ i, t.sub i = if (s.sub i).state = .vacant then s.sub i
        else { SubRecord.powerOn with stamp := (s.sub i).stamp + 1 }) ∧
      t.stc.unwind = [] ∧ t.stc.deadlines = [] ∧ t.stc.closedCount = 0 ∧ t.stc.lastGranted = 7 ∧
      (∀ i, t.flow i = if (s.flow i).state = .vacant then s.flow i
        else { FlowRecord.powerOn with stamp := (s.flow i).stamp + 1 }) ∧
      (∀ k, t.plru k = .powerOn) ∧ (∀ l, t.pinnedCount l = 0) ∧ t.ftc.lastGranted = 7 ∧
      t.lm.links = s.lm.links ∧ (∀ l, t.drainedWaiting l = false) ∧
      (∀ l, t.autoSnapshotDue l = false) ∧ t.zas = s.zas ∧
      t.tw = { s.tw with queue := [], walk := none, currentMark := 0, previousMark := 2, thirdMark := 1 } ∧
      t.al = { s.al with
        list := if b then [] else s.al.list, overrunBitmap := if b then 0 else s.al.overrunBitmap } ∧
      (∀ c, t.chan c = { s.chan c with pendingFault := none, faultOverflow := 0 }) ∧
      t.ci.softReset = .clearing ch b ∧ t.resetHeld = s.resetHeld ∧ t.pending = s.pending) ∧
  (∀ (s : State) (ch : Chan) (b : Bool) (o : Outstanding), s.ci.softReset = .clearing ch b →
    (s.chan ch).outstanding = some o → o.request = .softReset →
    ∃ t, exec .softResetComplete s = .next t ∧
      { s with ci := { s.ci with softReset := .idle } }.Answers ch (.plain .ok []) t ∧
      (∀ l, t.link l = { s.link l with
        deadline := if (s.link l).state = .probing ∨ (s.link l).state = .up ∨ (s.link l).state = .lost
          then some (s.al.count + (s.link l).config.staleInterval.setWidth 32) else (s.link l).deadline }) ∧
      t.lm.drained = s.lm.drained ∧ t.lm.autoDue = s.lm.autoDue ∧
      t.al = { s.al with
        list := if b then s.al.list else [], overrunBitmap := if b then s.al.overrunBitmap else 0
        ageDeadline := if s.al.ageInterval = 0 then s.al.ageDeadline
          else some (s.al.count + s.al.ageInterval) } ∧
      t.stc = s.stc ∧ t.ftc = s.ftc ∧ t.zas = s.zas ∧ t.tw = s.tw)

/-! ## Guards -/

/-- R148: the five tests and negation. -/
def Obligations.GuardTestsCompareUnsigned : Prop :=
  ∀ v o : Word,
    (GuardTest.eq.holds v o = true ↔ v = o) ∧ (GuardTest.lt.holds v o = true ↔ v.toNat < o.toNat) ∧
      (GuardTest.gt.holds v o = true ↔ o.toNat < v.toNat) ∧
      (GuardTest.allBits.holds v o = true ↔ ∀ k, k < 32 → o.getLsbD k = true → v.getLsbD k = true) ∧
      (GuardTest.anyBits.holds v o = true ↔ ∃ k, k < 32 ∧ o.getLsbD k = true ∧ v.getLsbD k = true) ∧
      (∀ g : SubGuard, g.passes v = if g.negate then !g.test.holds v g.operand else g.test.holds v g.operand) ∧
      ∀ g : FlowGuard, g.passes v = if g.negate then !g.test.holds v g.operand else g.test.holds v g.operand

/-- R20, R38, R147, R149: the value that a guard reads of each field, with the codes of the enumerated ones, and the
condition nibble of a guarded answer and of an unguarded one. -/
def Obligations.ConditionNibbles : Prop :=
  (∀ r : SubRecord,
    SubGuardField.state.value r = (match r.state with
      | .vacant => 0 | .attached => 1 | .roamBarred => 2 | .detaching => 3 | .unsettled => 4) ∧
    SubGuardField.cls.value r = (match r.cls with
      | .passenger => 0 | .crew => 1 | .shipSystem => 2) ∧
    SubGuardField.flowCount.value r = BitVec.ofNat 32 r.flowList.length ∧
    SubGuardField.byteAllowance.value r = r.byteAllowance ∧
    SubGuardField.secondsAllowance.value r = r.secondsAllowance ∧
    SubGuardField.grantState.value r = (match r.grant with
      | .none => 0 | .requested _ => 1 | .timedOut => 2) ∧
    SubGuardField.closedOccupied.value r = (if r.closed = none then 0 else 1) ∧
    SubGuardField.permanent.value r = (if r.permanent = true then 1 else 0) ∧
    SubGuardField.userWord.value r = r.userWord) ∧
  (∀ f : FlowRecord,
    FlowGuardField.state.value f = (match f.state with
      | .vacant => 0 | .opened _ => 1 | .held => 2) ∧
    FlowGuardField.cls.value f = (match f.cls with
      | .emergency => 0 | .voice => 1 | .interactive => 2 | .bulk => 3) ∧
    (∀ l, f.state = .opened l → FlowGuardField.pin.value f = BitVec.ofNat 32 l.val) ∧
    (f.state = .held → FlowGuardField.pin.value f = 8) ∧
    FlowGuardField.userWord.value f = f.userWord) ∧
  (∀ (v o : Word) (so : Bool), guardedNibble v o so =
    { lt := decide (v.toNat < o.toNat), gt := decide (o.toNat < v.toNat), eq := decide (v = o), so := so }) ∧
    (∀ (s : State) (i : SubIx) (g : SubGuard) (before : SubRecord),
      s.nibbleAfter i (some g) before = guardedNibble (g.field.value before) g.operand (s.sub i).so) ∧
    (∀ (s : State) (i : SubIx) (before : SubRecord), s.nibbleAfter i none before = s.subNibble i) ∧
    (∀ (s : State) (i : SubIx) (g : FlowGuard) (before : FlowRecord),
      s.flowNibbleAfter i (some g) before = guardedNibble (g.field.value before) g.operand (s.sub i).so) ∧
    (∀ (s : State) (i : SubIx) (before : FlowRecord), s.flowNibbleAfter i none before = s.subNibble i) ∧
    ∀ (s : State) (i : SubIx),
      ((s.subNibble i).lt = true ↔
        ∃ k, (s.sub i).tariff = some k ∧ (s.sub i).byteAllowance.toNat < (s.tariff k).terms.lowBytes.toNat) ∧
      ((s.subNibble i).eq = true ↔ (s.sub i).byteAllowance = 0) ∧
      ((s.subNibble i).gt = true ↔ (s.sub i).closed ≠ none) ∧ (s.subNibble i).so = (s.sub i).so

/-- R4, R29, R74, R82, R146, R149, R181 (that the handle comes after FLOW_UPDATE's action and value check: log 23; the
contents under STALE_HANDLE and GUARD_FALSE: log 15): a stale handle, then a false guard, stops a guarded request with
nothing changed; the answer then has the length of its kind, and only SETTLE and GRANT give contents under GUARD_FALSE.
-/
def Obligations.HandleAndGuardStopARequest : Prop :=
  (∀ (s : State) (ch : Chan) (h : SubHandle) (g : Option SubGuard) (c : Instr) (q : Request)
      (stale refused : List Word),
    s.claim .stc ch = some q →
    let r := s.sub h.index
    let deadline := match r.grant with
      | .requested d => d
      | .none => 0
      | .timedOut => 0
    (c = .detach ch ∧ q = .detach h g ∧ stale = [] ∧ refused = [] ∨
      (∃ b n, c = .grant ch ∧ q = .grant h g b n ∧ stale = [0, 0, 0, 0, 0, 0, 0] ∧
        refused = [h.word, put 0 r.grant.code, deadline, r.byteAllowance, r.secondsAllowance, r.byteOverrun,
          r.secondsOverrun]) ∨
      (∃ p, c = .settle ch ∧ q = .settle h g p ∧ stale = [0, 0, 0, 0, 0, 0, 0, 0] ∧
        refused = [h.word, put 0 r.state.code, 0, 0, 0, 0, 0, 0]) ∨
      ∃ f a v, c = .subUpdate ch ∧ q = .subUpdate h g f a v ∧ f.accepts a v = true ∧ stale = [0, 0, 0] ∧
        refused = [0, 0, 0]) →
    (r.state = .vacant ∨ r.stamp ≠ h.stamp →
      ∃ t, exec c s = .next t ∧ s.OnlyAnswers .stc ch (.plain .staleHandle stale) t) ∧
    (r.state ≠ .vacant → r.stamp = h.stamp → ∀ x, g = some x → x.passes (x.field.value r) = false →
      ∃ t, exec c s = .next t ∧ s.OnlyAnswers .stc ch
        (.of .guardFalse (guardedNibble (x.field.value r) x.operand r.so) refused) t)) ∧
  ∀ (s : State) (ch : Chan) (h : FlowHandle) (g : Option FlowGuard) (c : Instr) (q : Request) (zeros : List Word),
    s.claim .ftc ch = some q →
    let r := s.flow h.index
    (c = .flowClose ch ∧ q = .flowClose h g ∧ zeros = [] ∨
      ∃ f a v, c = .flowUpdate ch ∧ q = .flowUpdate h g f a v ∧ f.accepts a v = true ∧ zeros = [0, 0, 0]) →
    (r.state = .vacant ∨ r.stamp ≠ h.stamp →
      ∃ t, exec c s = .next t ∧ s.OnlyAnswers .ftc ch (.plain .staleHandle zeros) t) ∧
    (r.state ≠ .vacant → r.stamp = h.stamp → ∀ x, g = some x → x.passes (x.field.value r) = false →
      ∃ t, exec c s = .next t ∧ s.OnlyAnswers .ftc ch
        (.of .guardFalse (guardedNibble (x.field.value r) x.operand (s.sub r.owner.index).so) zeros) t)

/-! ## Credit -/

/-- R63 to R65: the charging arithmetic on a record, and the raising of EXHAUSTED before the low-credit check. -/
def Obligations.ChargingArithmetic : Prop :=
  (∀ (r : SubRecord) (b n : Nat),
    let t := r.charge b n
    t.current.bytes.toNat = min (r.current.bytes.toNat + b) 1099511627775 ∧
      t.current.seconds.toNat = min (r.current.seconds.toNat + n) 4294967295 ∧
      (b ≤ r.byteAllowance.toNat →
        t.byteAllowance.toNat = r.byteAllowance.toNat - b ∧ t.byteOverrun = r.byteOverrun) ∧
      (r.byteAllowance.toNat < b → t.byteAllowance = 0 ∧
        t.byteOverrun.toNat = min (r.byteOverrun.toNat + (b - r.byteAllowance.toNat)) 4294967295) ∧
      (n ≤ r.secondsAllowance.toNat →
        t.secondsAllowance.toNat = r.secondsAllowance.toNat - n ∧ t.secondsOverrun = r.secondsOverrun) ∧
      (r.secondsAllowance.toNat < n → t.secondsAllowance = 0 ∧
        t.secondsOverrun.toNat = min (r.secondsOverrun.toNat + (n - r.secondsAllowance.toNat)) 4294967295) ∧
      (t.so = true ↔ r.so = true ∨ 1099511627775 < r.current.bytes.toNat + b ∨
        4294967295 < r.current.seconds.toNat + n ∨
        4294967295 < r.byteOverrun.toNat + (b - r.byteAllowance.toNat) ∨
        4294967295 < r.secondsOverrun.toNat + (n - r.secondsAllowance.toNat)) ∧
      (t.exhaustedNoted = true ↔ r.exhaustedNoted = true ∨ (r.byteAllowance ≠ 0 ∧ t.byteAllowance = 0) ∨
        (r.secondsAllowance ≠ 0 ∧ t.secondsAllowance = 0)) ∧
      t = { r with
        current := { t.current with mixed := r.current.mixed }, byteAllowance := t.byteAllowance
        secondsAllowance := t.secondsAllowance, byteOverrun := t.byteOverrun, secondsOverrun := t.secondsOverrun
        exhaustedNoted := t.exhaustedNoted, so := t.so }) ∧
  ∀ (s : State) (i : SubIx) (b n : Nat),
    let r := s.sub i
    let t := r.charge b n
    s.chargeSub i b n =
      (if r.exhaustedNoted = false ∧ ((r.byteAllowance ≠ 0 ∧ t.byteAllowance = 0) ∨
          (r.secondsAllowance ≠ 0 ∧ t.secondsAllowance = 0))
        then (s.setSub i t).raise (.subscriber i) .exhausted else s.setSub i t).lowCredit i

/-- R68, R70: the low-credit check. -/
def Obligations.LowCreditCheck : Prop :=
  ∀ (s : State) (i : SubIx),
    (∀ k, (s.sub i).state = .attached → (s.sub i).tariff = some k → (s.sub i).grant = .none →
      ((s.sub i).byteAllowance.toNat < (s.tariff k).terms.lowBytes.toNat ∨
        (s.sub i).secondsAllowance.toNat < (s.tariff k).terms.lowSeconds.toNat) →
      ∃ t before later, t = s.lowCredit i ∧
        t.sub i = { s.sub i with
          grant := .requested (s.al.count + (s.tariff k).terms.timeout.setWidth 32) } ∧
        s.OtherSubs i t ∧ s.stc.deadlines = before ++ later ∧ t.stc.deadlines = before ++ i :: later ∧
        (∀ j ∈ before, t.remainingOf j ≤ t.remainingOf i) ∧
        (∀ j, later.head? = some j → t.remainingOf i < t.remainingOf j) ∧
        t.stc.unwind = s.stc.unwind ∧ t.stc.closedCount = s.stc.closedCount ∧
        t.stc.lastGranted = s.stc.lastGranted ∧ t.ftc = s.ftc ∧ s.SameTerms t ∧ s.SameCi t ∧
        t.al = { s.al with list := raiseIn s.al.list (.subscriber i) .grantNeeded }) ∧
    ((s.sub i).state ≠ .attached ∨ (s.sub i).tariff = none ∨ (s.sub i).grant ≠ .none ∨
        (∃ k, (s.sub i).tariff = some k ∧
          (s.tariff k).terms.lowBytes.toNat ≤ (s.sub i).byteAllowance.toNat ∧
          (s.tariff k).terms.lowSeconds.toNat ≤ (s.sub i).secondsAllowance.toNat) →
      s.lowCredit i = s)

/-- R73: applying a grant. -/
def Obligations.ApplyingAGrantRepaysTheOverrunFirst : Prop :=
  ∀ (r : SubRecord) (b n : BitVec 32),
    let t := r.applyGrant b n
    t.byteOverrun.toNat = r.byteOverrun.toNat - min r.byteOverrun.toNat b.toNat ∧
      t.byteAllowance.toNat =
        min (r.byteAllowance.toNat + (b.toNat - min r.byteOverrun.toNat b.toNat)) 4294967295 ∧
      t.secondsOverrun.toNat = r.secondsOverrun.toNat - min r.secondsOverrun.toNat n.toNat ∧
      t.secondsAllowance.toNat =
        min (r.secondsAllowance.toNat + (n.toNat - min r.secondsOverrun.toNat n.toNat)) 4294967295 ∧
      t = { r with
        byteOverrun := t.byteOverrun, byteAllowance := t.byteAllowance, secondsOverrun := t.secondsOverrun
        secondsAllowance := t.secondsAllowance, exhaustedNoted := false }

/-- R15, R74 (the body's places: R181): GRANT of an ATTACHED or ROAM_BARRED record; a false guard, and a DETACHING or
UNSETTLED record, change nothing, and their answers carry the contents as they stand. -/
def Obligations.GrantAddsCredit : Prop :=
  ∀ (s : State) (ch : Chan) (h : SubHandle) (g : Option SubGuard) (b n : Word) (r : SubRecord),
    s.claim .stc ch = some (.grant h g b n) → s.subOf h = some r →
    let deadline := match r.grant with
      | .requested d => d
      | .none => 0
      | .timedOut => 0
    let stands : List Word := [h.word, put 0 r.grant.code, deadline, r.byteAllowance, r.secondsAllowance,
      r.byteOverrun, r.secondsOverrun]
    (subGuardPasses g r = false → ∃ t, exec (.grant ch) s = .next t ∧
      s.OnlyAnswers .stc ch (.of .guardFalse (s.nibbleAfter h.index g r) stands) t) ∧
    (subGuardPasses g r = true → r.state = .attached ∨ r.state = .roamBarred →
      let s1 : State := (s.grantTo .stc ch).setSub h.index
        ({ r with grant := .none, overdraftUsed := false }.applyGrant b n)
      let s2 :=
        { s1 with stc := { s1.stc with deadlines := s.stc.deadlines.filter fun j => decide (j ≠ h.index) } }.lowCredit
          h.index
      ∃ t, exec (.grant ch) s = .next t ∧
        s.Answers ch (.of (if r.grant = .timedOut then .late else .ok) (t.nibbleAfter h.index g r)
          [h.word, put 0 (t.sub h.index).grant.code, deadlineWord (t.sub h.index).grant.deadline,
            (t.sub h.index).byteAllowance, (t.sub h.index).secondsAllowance, (t.sub h.index).byteOverrun,
            (t.sub h.index).secondsOverrun]) t ∧
        t.stc = s2.stc ∧ t.al = s2.al ∧ t.ftc = s.ftc ∧ s.SameTerms t) ∧
    (subGuardPasses g r = true → r.state = .detaching ∨ r.state = .unsettled → ∃ t, exec (.grant ch) s = .next t ∧
      s.OnlyAnswers .stc ch
        (.of (if r.state = .detaching then .detaching else .notAttached) (s.nibbleAfter h.index g r) stands) t)

/-- R79 to R82, R179, R181: SETTLE of parts that are not all empty, with the deferred close and the
freeing of an UNSETTLED record; SETTLE of empty parts changes nothing. -/
def Obligations.SettleHandsUsageOver : Prop :=
  ∀ (s : State) (ch : Chan) (h : SubHandle) (g : Option SubGuard) (p : SettlePart) (r : SubRecord),
    s.claim .stc ch = some (.settle h g p) → s.subOf h = some r → subGuardPasses g r = true →
    let i := h.index
    let body (state : SubState) (closed current : Option ClosedSlot) : List Word :=
      let empty : ClosedSlot := { zone := 0, usage := { bytes := 0, seconds := 0, mixed := false } }
      let c := closed.getD empty
      let d := current.getD empty
      [h.word, put 0 state.code ||| putFlag 8 closed.isSome ||| putFlag 9 current.isSome ||| put 16 c.zone.toNat |||
          putFlag 21 c.usage.mixed ||| put 24 d.zone.toNat ||| putFlag 29 d.usage.mixed,
        c.usage.bytes.setWidth 32, (c.usage.bytes.extractLsb' 32 8).setWidth 32, c.usage.seconds,
        d.usage.bytes.setWidth 32, (d.usage.bytes.extractLsb' 32 8).setWidth 32, d.usage.seconds]
    let nonzero : Bool := decide (r.current.bytes ≠ 0 ∨ r.current.seconds ≠ 0)
    let closed := if p = .current then none else r.closed
    let current := if p ≠ .closed ∧ nonzero = true then some { zone := r.ratingZone, usage := r.current : ClosedSlot }
      else none
    (closed = none → current = none → ∃ t, exec (.settle ch) s = .next t ∧
      s.OnlyAnswers .stc ch (.of .nothing (s.nibbleAfter i g r) (body r.state none none)) t) ∧
    (¬(closed = none ∧ current = none) →
      let r1 := { r with
        closed := if closed = none then r.closed else none
        current := if current = none then r.current else Usage.zero }
      let count := s.stc.closedCount - if closed = none then 0 else 1
      let s0 := s.grantTo .stc ch
      let plain : State := { s0.setSub i r1 with stc := { (s0.setSub i r1).stc with closedCount := count } }
      let left : Bool := decide (r1.current.bytes ≠ 0 ∨ r1.current.seconds ≠ 0)
      let r2 := { r1 with
        closeHeld := false
        closed := if left then some { zone := r.ratingZone, usage := r1.current } else none
        current := if left then Usage.zero else r1.current
        ratingZone := s.zas.currentZone, zoneEpoch := s.zas.zoneEpoch, policyEpoch := s.zas.policyEpoch }
      let deferred : State := { s0.setSub i r2 with
        stc := { (s0.setSub i r2).stc with closedCount := count + if left then 1 else 0 } }.recheck i
      let s1 : State := if closed ≠ none ∧ r.closeHeld = true then deferred else plain
      let gone : Bool := decide ((s1.sub i).state = .unsettled ∧ (s1.sub i).closed = none ∧
        (s1.sub i).current.bytes = 0 ∧ (s1.sub i).current.seconds = 0)
      let s2 : State := if gone then (s1.setSub i { SubRecord.powerOn with stamp := r.stamp + 1 }).setList
        (s1.al.list.filter fun e => decide (e.record ≠ .subscriber i)) else s1
      ∃ t, exec (.settle ch) s = .next t ∧ t.stc = s2.stc ∧ t.al = s2.al ∧ t.ftc = s.ftc ∧ s.SameTerms t ∧
        s.Answers ch ⟨.ok, if g.isNone && gone then Nibble.zero else t.nibbleAfter i g r,
          { closeFollowed := closed.isSome && (s1.sub i).closed.isSome },
          body (t.sub i).state closed current⟩ t)

/-- R66, R162: USAGE_POST that passes its checks: the touch, the mixed flag, the charge; it takes no place in the
response FIFO. With a stale handle, and then with a class out of range, it is not executed and is recorded. -/
def Obligations.UsagePostChargesOrIsRecorded : Prop :=
  (∀ (s : State) (ch : Chan) (h : SubHandle) (code : BitVec 3) (b n : Word) (r : SubRecord) (c : FlowClass),
    s.claim .stc ch = some (.usagePost h code b n) → s.subOf h = some r → flowClass code = some c →
    let s1 : State := (s.grantTo .stc ch).touch h.index
    let s2 : State := if (s1.sub h.index).closeHeld = true then
      s1.setSub h.index { s1.sub h.index with current := { (s1.sub h.index).current with mixed := true } } else s1
    let s3 : State := if r.cls = .shipSystem ∨ c = .emergency then s1 else s2.chargeSub h.index b.toNat n.toNat
    ∃ t, exec (.usagePost ch) s = .next t ∧ t.stc = s3.stc ∧ t.al = s3.al ∧ t.ftc = s.ftc ∧ s.SameTerms t ∧
      t.chan ch = { s.chan ch with outstanding := none } ∧ (∀ k, k ≠ ch → t.chan k = s.chan k) ∧ s.SameShell t) ∧
  (∀ (s : State) (ch : Chan) (h : SubHandle) (code : BitVec 3) (b n : Word) (st : Status),
    s.claim .stc ch = some (.usagePost h code b n) →
    ((s.sub h.index).state = .vacant ∨ (s.sub h.index).stamp ≠ h.stamp) ∧ st = .staleHandle ∨
      ((s.sub h.index).state ≠ .vacant ∧ (s.sub h.index).stamp = h.stamp ∧ 4 ≤ code.toNat) ∧ st = .outOfRange →
    ∃ t, exec (.usagePost ch) s = .next t ∧ (s.grantTo .stc ch).SameBlocks t ∧ s.SameShell t ∧
      t.chan ch = (s.chan ch).completePosted (some st) ∧ ∀ k, k ≠ ch → t.chan k = s.chan k)

/-- R71, R72: the expiry of the head of the grant deadline list. -/
def Obligations.GrantDeadlineExpiryTimesOut : Prop :=
  ∀ (s : State) (i : SubIx) (rest : List SubIx),
    s.running = true → s.stc.deadlines = i :: rest → (s.sub i).grant = .requested s.al.count →
    let r := { s.sub i with grant := .timedOut }
    ∃ t, exec .grantDeadlineExpiry s = .next t ∧
      (∀ k, r.tariff = some k → (s.tariff k).terms.noAnswer = .overdraft → r.overdraftUsed = false →
        t.sub i = { r.applyGrant (s.tariff k).terms.overdraftBytes (s.tariff k).terms.overdraftSeconds with
          overdraftUsed := true }) ∧
      (r.tariff = none ∨ (∃ k, r.tariff = some k ∧ (s.tariff k).terms.noAnswer = .block) ∨ r.overdraftUsed = true →
        t.sub i = r) ∧
      s.OtherSubs i t ∧ t.stc.deadlines = (i :: rest).filter (fun j => decide (j ≠ i)) ∧
      t.stc.unwind = s.stc.unwind ∧ t.stc.closedCount = s.stc.closedCount ∧
      t.stc.lastGranted = s.stc.lastGranted ∧ t.ftc = s.ftc ∧ s.SameTerms t ∧ s.SameCi t ∧
      t.al = { s.al with list := raiseIn s.al.list (.subscriber i) .grantTimeout }

/-! ## Roaming -/

/-- R3, R27: a bucket is the exclusive OR of the groups of the tag or of the key, its ways are the records 4b to 4b
+ 3, and a lookup finds the live record of a way that holds the tag or key, or the VACANT way of lowest number. -/
def Obligations.LookupsSearchOneBucket : Prop :=
  (∀ (tag : Tag) (k : Nat), k < 10 → (subBucket tag).getLsbD k =
    (tag.getLsbD k ^^ tag.getLsbD (10 + k) ^^ tag.getLsbD (20 + k) ^^ tag.getLsbD (30 + k) ^^ tag.getLsbD (40 + k)
      ^^ tag.getLsbD (50 + k) ^^ (decide (k < 4) && tag.getLsbD (60 + k)))) ∧
    (∀ (key : FlowKey) (k : Nat), k < 12 → (flowBucket key).getLsbD k =
      ((List.range 15).map fun g => (key.subscriber ++ key.address ++ key.remotePort ++ key.localPort
        ++ key.protocol).getLsbD (12 * g + k)).foldl xor false) ∧
    (∀ (b : BitVec 10) (w : BitVec 2), (subWay b w).toNat = 4 * b.toNat + w.toNat) ∧
    (∀ (b : BitVec 12) (w : BitVec 2), (flowWay b w).toNat = 4 * b.toNat + w.toNat ∧
      bucketOf (flowWay b w) = b ∧ wayOf (flowWay b w) = w) ∧
    (∀ (s : State) (tag : Tag) (i : SubIx), s.findTag tag = some i ↔ ∃ w, i = subWay (subBucket tag) w ∧
      ((s.sub i).state ≠ .vacant ∧ (s.sub i).tag = tag) ∧
      ∀ v, v < w → ¬((s.sub (subWay (subBucket tag) v)).state ≠ .vacant ∧
        (s.sub (subWay (subBucket tag) v)).tag = tag)) ∧
    (∀ (s : State) (tag : Tag) (i : SubIx), s.vacantSub tag = some i ↔ ∃ w, i = subWay (subBucket tag) w ∧
      (s.sub i).state = .vacant ∧ ∀ v, v < w → (s.sub (subWay (subBucket tag) v)).state ≠ .vacant) ∧
    (∀ (s : State) (key : FlowKey) (i : FlowIx), s.findKey key = some i ↔ ∃ w, i = flowWay (flowBucket key) w ∧
      ((s.flow i).state ≠ .vacant ∧ (s.flow i).key = key) ∧
      ∀ v, v < w → ¬((s.flow (flowWay (flowBucket key) v)).state ≠ .vacant ∧
        (s.flow (flowWay (flowBucket key) v)).key = key)) ∧
    ∀ (s : State) (key : FlowKey) (i : FlowIx), s.vacantFlow key = some i ↔ ∃ w, i = flowWay (flowBucket key) w ∧
      (s.flow i).state = .vacant ∧ ∀ v, v < w → (s.flow (flowWay (flowBucket key) v)).state ≠ .vacant

/-- R88, R101, R102, R69: the outcome of an operator code, and the recheck: the decision by class, the carry rule,
the cause of a move of state, then the low-credit check. -/
def Obligations.RecheckDecidesRoaming : Prop :=
  (∀ (s : State) (code : Operator),
    ((∀ a ∈ s.zas.agreements, a.code ≠ code) → s.outcome code = none) ∧
      ∀ before a later, s.zas.agreements = before ++ a :: later → a.code = code → (∀ b ∈ before, b.code ≠ code) →
        (a.active = false → s.outcome code = none) ∧
          (a.active = true → (s.currentClass = 0 → s.outcome code = a.tariff0) ∧
            (s.currentClass = 1 → s.outcome code = a.tariff1) ∧ (s.currentClass = 2 → s.outcome code = a.tariff2) ∧
            (s.currentClass = 3 → s.outcome code = a.tariff3))) ∧
  ∀ (s : State) (i : SubIx),
    let r := s.sub i
    let tariff := match r.cls with
      | .shipSystem => none
      | .crew => r.tariff
      | .passenger => s.outcome r.home
    let state := if r.cls = .passenger ∧ (r.state = .attached ∨ r.state = .roamBarred) then
      (if tariff.isSome = true then .attached else .roamBarred) else r.state
    let r1 := { r with tariff := tariff, state := state }
    ∃ r2 : SubRecord,
      (∀ k, tariff = some k → r.tariff ≠ some k → (s.tariff k).terms.carry = false →
        r2 = { r1 with byteAllowance := 0, secondsAllowance := 0 }.applyGrant (s.tariff k).terms.bridgeBytes
          (s.tariff k).terms.bridgeSeconds) ∧
      (tariff = none ∨ tariff = r.tariff ∨ (∃ k, tariff = some k ∧ (s.tariff k).terms.carry = true) → r2 = r1) ∧
      s.recheck i = (if r.state = .attached ∧ state = .roamBarred then (s.setSub i r2).raise (.subscriber i) .roamBarred
        else if r.state = .roamBarred ∧ state = .attached then (s.setSub i r2).raise (.subscriber i) .roamCleared
        else s.setSub i r2).lowCredit i

/-- R21, R77, R78, R98 to R100 (the mixed flag of a zero accumulator: log 17): a touch sets the mark; lazy processing
does nothing while close is held, holds the close of a record with an occupied slot in a new zone, closes usage and
rechecks one with an empty slot in a new zone, rechecks one under a new policy, and leaves every other. -/
def Obligations.LazyProcessingByEpochs : Prop :=
  ∀ (s : State) (i : SubIx),
    let r := s.sub i
    let nonzero : Bool := decide (r.current.bytes ≠ 0 ∨ r.current.seconds ≠ 0)
    s.touch i = (s.setSub i { r with mark := s.tw.currentMark }).lazy i ∧
      (r.closeHeld = true → s.lazy i = s) ∧
      (r.closeHeld = false → r.zoneEpoch ≠ s.zas.zoneEpoch → r.closed ≠ none →
        s.lazy i = (s.setSub i { r with closeHeld := true }).raise (.subscriber i) .closeHeld) ∧
      (r.closeHeld = false → r.zoneEpoch ≠ s.zas.zoneEpoch → r.closed = none →
        let s1 : State := s.setSub i { r with
          closed := if nonzero then some { zone := r.ratingZone, usage := r.current } else none
          current := if nonzero then { bytes := 0, seconds := 0, mixed := false } else r.current
          ratingZone := s.zas.currentZone, zoneEpoch := s.zas.zoneEpoch, policyEpoch := s.zas.policyEpoch }
        s.lazy i = State.recheck { s1 with stc := { s1.stc with
          closedCount := s.stc.closedCount + if nonzero then 1 else 0 } } i) ∧
      (r.closeHeld = false → r.zoneEpoch = s.zas.zoneEpoch → r.policyEpoch ≠ s.zas.policyEpoch →
        s.lazy i = (s.setSub i { r with policyEpoch := s.zas.policyEpoch }).recheck i) ∧
      (r.zoneEpoch = s.zas.zoneEpoch → r.policyEpoch = s.zas.policyEpoch → s.lazy i = s)

/-! ## Subscribers -/

/-- R5 to R7 (the body's places: R181): ATTACH of a tag that no live record holds, with a VACANT way in its bucket:
the new record, then its recheck. -/
def Obligations.AttachCreatesARecord : Prop :=
  ∀ (s : State) (ch : Chan) (tag : Tag) (code : BitVec 2) (permanent : Bool) (tariff : TariffIx) (home : Operator)
    (cls : SubClass) (i : SubIx),
    s.claim .stc ch = some (.attach tag code permanent tariff home) → subClass code = some cls →
    (cls = .crew → (s.tariff tariff).defined = true) → s.findTag tag = none → s.vacantSub tag = some i →
    let s1 := ((s.grantTo .stc ch).setSub i {
      tag := tag, stamp := (s.sub i).stamp, state := .attached, cls := cls, home := home, permanent := permanent
      mark := s.tw.currentMark, zoneEpoch := s.zas.zoneEpoch, policyEpoch := s.zas.policyEpoch
      tariff := if cls = .crew then some tariff else none, ratingZone := s.zas.currentZone, flowList := []
      userWord := 0, current := { bytes := 0, seconds := 0, mixed := false }, closed := none, closeHeld := false
      byteAllowance := 0, secondsAllowance := 0, byteOverrun := 0, secondsOverrun := 0, grant := .none
      overdraftUsed := false, exhaustedNoted := false, so := false }).recheck i
    ∃ t, exec (.attach ch) s = .next t ∧
      s.Answers ch (.of .ok (t.subNibble i)
        [SubHandle.word { index := i, stamp := (s.sub i).stamp }, put 0 (t.sub i).state.code]) t ∧
      t.stc = s1.stc ∧ t.al = s1.al ∧ t.ftc = s.ftc ∧ s.SameTerms t

/-- R5, R8: ATTACH whose tag a live record holds: ALREADY with a touch, DETACHING, CONFLICT, or the revive; and the
ATTACH requests that change nothing: a class or a CREW tariff out of range, a full bucket. -/
def Obligations.AttachWithoutCreation : Prop :=
  (∀ (s : State) (ch : Chan) (tag : Tag) (code : BitVec 2) (permanent : Bool) (tariff : TariffIx) (home : Operator)
    (cls : SubClass) (i : SubIx),
    s.claim .stc ch = some (.attach tag code permanent tariff home) → subClass code = some cls →
    (cls = .crew → (s.tariff tariff).defined = true) → s.findTag tag = some i →
    let r := s.sub i
    let s0 := s.grantTo .stc ch
    let body (t : State) : List Word :=
      [SubHandle.word { index := i, stamp := r.stamp }, put 0 (t.sub i).state.code]
    let conflict := cls ≠ r.cls ∨ (cls = .crew ∧ r.tariff ≠ some tariff)
    (r.state = .attached ∨ r.state = .roamBarred → ∃ t, exec (.attach ch) s = .next t ∧
      s.Answers ch (.of .already (t.subNibble i) (body t)) t ∧ t.stc = (s0.touch i).stc ∧ t.al = (s0.touch i).al ∧
      t.ftc = s.ftc ∧ s.SameTerms t) ∧
    (r.state = .detaching → ∃ t, exec (.attach ch) s = .next t ∧
      s.OnlyAnswers .stc ch (.of .detaching (s.subNibble i) (body s)) t) ∧
    (r.state = .unsettled → conflict → ∃ t, exec (.attach ch) s = .next t ∧
      s.OnlyAnswers .stc ch (.of .conflict (s.subNibble i) (body s)) t) ∧
    (r.state = .unsettled → ¬conflict →
      let s1 := ((s0.setSub i { r with home := home, permanent := permanent, state := .attached }).withdraw
        (.subscriber i) .unsettled).touch i
      let byTouch := r.closeHeld = false ∧
        (if r.zoneEpoch = s.zas.zoneEpoch then r.policyEpoch ≠ s.zas.policyEpoch else r.closed = none)
      ∃ s2 : State, (byTouch → s2 = s1.lowCredit i) ∧ (¬byTouch → s2 = (s1.recheck i).lowCredit i) ∧
        ∃ t, exec (.attach ch) s = .next t ∧
          s.Answers ch
            { status := .ok, nibble := t.subNibble i, flags := { revived := true }, body := body t } t ∧
          t.stc = s2.stc ∧ t.al = s2.al ∧ t.ftc = s.ftc ∧ s.SameTerms t)) ∧
  (∀ (s : State) (ch : Chan) (tag : Tag) (code : BitVec 2) (permanent : Bool) (tariff : TariffIx) (home : Operator),
    s.claim .stc ch = some (.attach tag code permanent tariff home) →
    (code = 3 ∨ (code = 1 ∧ (s.tariff tariff).defined = false) → ∃ t, exec (.attach ch) s = .next t ∧
      s.OnlyAnswers .stc ch (.plain .outOfRange (blank 2)) t) ∧
    (code ≠ 3 → (code = 1 → (s.tariff tariff).defined = true) → s.findTag tag = none → s.vacantSub tag = none →
      ∃ t, exec (.attach ch) s = .next t ∧ s.OnlyAnswers .stc ch (.plain .bucketFull (blank 2)) t))

/-- R9, R11, R15: DETACH, by the record's state. -/
def Obligations.DetachStartsTheUnwinding : Prop :=
  ∀ (s : State) (ch : Chan) (h : SubHandle) (g : Option SubGuard) (r : SubRecord),
    s.claim .stc ch = some (.detach h g) → s.subOf h = some r → subGuardPasses g r = true →
    (r.state = .attached ∨ r.state = .roamBarred → ∃ t, exec (.detach ch) s = .next t ∧
      s.Answers ch (.of .ok (t.nibbleAfter h.index g r) []) t ∧
      t.sub h.index = { r with state := .detaching, grant := .none } ∧ s.OtherSubs h.index t ∧
      t.stc.unwind = s.stc.unwind ++ [h.index] ∧
      t.stc.deadlines = s.stc.deadlines.filter (fun j => decide (j ≠ h.index)) ∧
      t.stc.closedCount = s.stc.closedCount ∧ t.stc.lastGranted = ch ∧ t.ftc = s.ftc ∧ s.SameTerms t ∧
      t.al = s.al) ∧
    (r.state = .detaching ∨ r.state = .unsettled → ∃ t, exec (.detach ch) s = .next t ∧
      s.OnlyAnswers .stc ch
        (.of (if r.state = .detaching then .already else .notAttached) (s.nibbleAfter h.index g r) []) t)

/-- R12, R14, R17: an unwind step retires the oldest flow of the head of the unwind queue; a head without flows
leaves the queue and is freed, or becomes UNSETTLED. -/
def Obligations.UnwindingStepsAndEnd : Prop :=
  ∀ (s : State) (i : SubIx) (rest : List SubIx), s.running = true → s.stc.unwind = i :: rest →
    (∀ h later, (s.sub i).flowList = h :: later → exec .unwindStep s = .next (s.retire h.index)) ∧
    ((s.sub i).flowList = [] →
      let usage := (s.sub i).current.bytes ≠ 0 ∨ (s.sub i).current.seconds ≠ 0 ∨ (s.sub i).closed ≠ none
      ∃ t, exec .endOfUnwinding s = .next t ∧ s.OtherSubs i t ∧
        (usage → t.sub i = { s.sub i with state := .unsettled } ∧
          t.al = { s.al with list := raiseIn s.al.list (.subscriber i) .unsettled }) ∧
        (¬usage → t.sub i = { SubRecord.powerOn with stamp := (s.sub i).stamp + 1 } ∧
          t.al = { s.al with list := s.al.list.filter fun e => decide (e.record ≠ .subscriber i) }) ∧
        t.stc.unwind = rest ∧ t.stc.deadlines = s.stc.deadlines ∧ t.stc.closedCount = s.stc.closedCount ∧
        t.stc.lastGranted = s.stc.lastGranted ∧ t.ftc = s.ftc ∧ s.SameTerms t ∧ s.SameCi t)

/-- R18, R37, R45, R179, R181 (the zeros of an answer NOT_FOUND, FLOW_FIND's pin place among them: log 13): SUB_FIND and
FLOW_FIND touch what they find before they answer. -/
def Obligations.FindsTouchWhatTheyFind : Prop :=
  (∀ (s : State) (ch : Chan) (tag : Tag), s.claim .stc ch = some (.subFind tag) →
    (s.findTag tag = none → ∃ t, exec (.subFind ch) s = .next t ∧
      s.OnlyAnswers .stc ch (.plain .notFound (blank 3)) t) ∧
    ∀ i, s.findTag tag = some i → ∃ t, exec (.subFind ch) s = .next t ∧
      s.Answers ch (.of .ok (t.subNibble i) [SubHandle.word { index := i, stamp := (s.sub i).stamp },
        put 0 (t.sub i).state.code ||| put 8 (s.sub i).cls.code, put 0 (s.sub i).flowList.length]) t ∧
      t.stc = ((s.grantTo .stc ch).touch i).stc ∧ t.al = ((s.grantTo .stc ch).touch i).al ∧ t.ftc = s.ftc ∧
      s.SameTerms t) ∧
  ∀ (s : State) (ch : Chan) (k : FlowKey), s.claim .ftc ch = some (.flowFind k) →
    (s.findKey k = none → ∃ t, exec (.flowFind ch) s = .next t ∧
      s.OnlyAnswers .ftc ch (.plain .notFound (blank 3)) t) ∧
    ∀ i, s.findKey k = some i →
      let f := s.flow i
      let s1 := (((s.grantTo .ftc ch).setFlow i { f with mark := s.tw.currentMark }).useWay i).touch f.owner.index
      ∃ t, exec (.flowFind ch) s = .next t ∧
        s.Answers ch (.of .ok (t.subNibble f.owner.index) [FlowHandle.word { index := i, stamp := f.stamp },
          put 0 f.state.code ||| put 4 f.cls.code ||| put 8 (linkCode f.pin), f.owner.word]) t ∧
        t.stc = s1.stc ∧ t.ftc = s1.ftc ∧ t.al = s1.al ∧ s.SameTerms t

/-- R150, R152 (the answer's contents under other statuses: log 15; the order of FLOW_UPDATE's checks: log 23): the
actions, what a field accepts, and an update that passes its checks: the one field changes and the answer gives its
value before and after. -/
def Obligations.UpdatesWriteOneField : Prop :=
  (∀ old v : Word, UpdateAction.set.apply old v = v ∧
    (UpdateAction.addSat.apply old v).toNat = min (old.toNat + v.toNat) 4294967295 ∧
    UpdateAction.setBits.apply old v = old ||| v ∧ UpdateAction.clearBits.apply old v = old &&& ~~~v) ∧
  (∀ (a : UpdateAction) (v : Word), SubField.userWord.accepts a v = true ∧
    (SubField.permanent.accepts a v = true ↔ a = .set ∧ (v = 0 ∨ v = 1)) ∧
    (SubField.so.accepts a v = true ↔ (a = .set ∧ v = 0) ∨ (a = .clearBits ∧ v = 1)) ∧
    FlowField.userWord.accepts a v = true ∧ (FlowField.cls.accepts a v = true ↔ a = .set ∧ v.toNat ≤ 3)) ∧
  (∀ (s : State) (ch : Chan) (h : SubHandle) (g : Option SubGuard) (f : SubField) (a : UpdateAction) (v : Word),
    s.claim .stc ch = some (.subUpdate h g f a v) →
    (f.accepts a v = false → ∃ t, exec (.subUpdate ch) s = .next t ∧
      s.OnlyAnswers .stc ch (.plain .outOfRange (blank 3)) t) ∧
    ∀ r, f.accepts a v = true → s.subOf h = some r → subGuardPasses g r = true →
      let r1 := match f with
        | .userWord => { r with userWord := a.apply r.userWord v }
        | .permanent => { r with permanent := decide (v = 1) }
        | .so => { r with so := false }
      ∃ t, exec (.subUpdate ch) s = .next t ∧ s.Answers ch (.of .ok (t.nibbleAfter h.index g r)
          [h.word, f.get r, f.get r1]) t ∧
        t.stc = ((s.grantTo .stc ch).setSub h.index r1).stc ∧ t.ftc = s.ftc ∧ s.SameTerms t ∧ t.al = s.al) ∧
  ∀ (s : State) (ch : Chan) (h : FlowHandle) (g : Option FlowGuard) (f : FlowField) (a : UpdateAction) (v : Word),
    s.claim .ftc ch = some (.flowUpdate h g f a v) →
    (f.accepts a v = false → ∃ t, exec (.flowUpdate ch) s = .next t ∧
      s.OnlyAnswers .ftc ch (.plain .outOfRange (blank 3)) t) ∧
    ∀ r, f.accepts a v = true → s.flowOf h = some r → flowGuardPasses g r = true →
      ∃ r1 : FlowRecord,
        (f = .userWord → r1 = { r with userWord := a.apply r.userWord v }) ∧
        (∀ c, f = .cls → v.toNat = c.code → r1 = { r with cls := c }) ∧
        ∃ t, exec (.flowUpdate ch) s = .next t ∧ s.Answers ch (.of .ok (t.flowNibbleAfter r.owner.index g r)
            [h.word, f.get r, f.get r1]) t ∧
          t.ftc = ((s.grantTo .ftc ch).setFlow h.index r1).ftc ∧ t.stc = s.stc ∧ s.SameTerms t ∧ t.al = s.al

/-! ## Flows -/

/-- R28, R32: the pseudo-LRU bits after each use, the victim they name, and that a use reaches its own bucket alone;
the flow limit, the limit victim and the bucket victim. -/
def Obligations.PseudoLruBitsAndReclaimVictims : Prop :=
  ((∀ p : Plru, p.use 0 = ⟨true, true, p.second⟩ ∧ p.use 1 = ⟨true, false, p.second⟩ ∧
    p.use 2 = ⟨false, p.first, true⟩ ∧ p.use 3 = ⟨false, p.first, false⟩) ∧
  (∀ x y : Bool, Plru.victim ⟨false, false, x⟩ = 0 ∧ Plru.victim ⟨false, true, x⟩ = 1 ∧
    Plru.victim ⟨true, y, false⟩ = 2 ∧ Plru.victim ⟨true, y, true⟩ = 3) ∧
  (∀ (p : Plru) (w : BitVec 2), (p.use w).victim ≠ w) ∧
  ∀ (s : State) (i : FlowIx), (s.useWay i).plru (bucketOf i) = (s.plru (bucketOf i)).use (wayOf i) ∧
    (∀ b, b ≠ bucketOf i → (s.useWay i).plru b = s.plru b) ∧
    s.useWay i = { s with ftc := { s.ftc with plru := (s.useWay i).ftc.plru } }) ∧
  ((∀ (s : State) (r : SubRecord), (r.tariff = none → s.flowLimit r = 64) ∧
    ∀ k, r.tariff = some k → s.flowLimit r = (s.tariff k).terms.flowLimit.toNat) ∧
  (∀ (s : State) (r : SubRecord) (reclaim : Bool),
    (r.flowList.length < s.flowLimit r → s.limitReclaim r reclaim = .clear) ∧
    (s.flowLimit r ≤ r.flowList.length →
      (reclaim = false → s.limitReclaim r reclaim = .refuse) ∧
      ((∀ h ∈ r.flowList, (s.flow h.index).cls = .emergency) → s.limitReclaim r reclaim = .refuse) ∧
      ∀ before h later, reclaim = true → r.flowList = before ++ h :: later →
        (∀ x ∈ before, (s.flow x.index).cls = .emergency) → (s.flow h.index).cls ≠ .emergency →
        s.limitReclaim r reclaim = .victim h.index)) ∧
  ∀ (s : State) (b : BitVec 12) (limit : Option FlowIx) (reclaim : Bool),
    ((∃ w, (s.flow (flowWay b w)).state = .vacant ∨ limit = some (flowWay b w)) →
      s.bucketReclaim b limit reclaim = .clear) ∧
    ((∀ w, (s.flow (flowWay b w)).state ≠ .vacant ∧ limit ≠ some (flowWay b w)) →
      let i := flowWay b (s.plru b).victim
      (reclaim = false ∨ (s.flow i).cls = .emergency → s.bucketReclaim b limit reclaim = .refuse) ∧
      (reclaim = true → (s.flow i).cls ≠ .emergency → s.bucketReclaim b limit reclaim = .victim i)))

/-- R30, R35, R36, R40, R41: what retiring a flow changes, and nothing else; FLOW_CLOSE that passes its checks
retires the flow. -/
def Obligations.RetirementAndFlowClose : Prop :=
  (∀ (s : State) (i : FlowIx),
    let f := s.flow i
    let t := s.retire i
    t.flow i = { FlowRecord.powerOn with stamp := f.stamp + 1 } ∧ s.OtherFlows i t ∧
      t.sub f.owner.index = { s.sub f.owner.index with
        flowList := (s.sub f.owner.index).flowList.erase { index := i, stamp := f.stamp } } ∧
      s.OtherSubs f.owner.index t ∧
      (∀ l, f.state = .opened l → t.pinnedCount l = s.pinnedCount l - 1 ∧
        (t.drainedWaiting l = true ↔ s.drainedWaiting l = true ∨
          (t.pinnedCount l = 0 ∧ (s.link l).state = .draining))) ∧
      (∀ l, f.state ≠ .opened l → t.pinnedCount l = s.pinnedCount l ∧ t.drainedWaiting l = s.drainedWaiting l) ∧
      (∀ b, t.plru b = s.plru b) ∧ t.ftc.lastGranted = s.ftc.lastGranted ∧
      t.stc.lastGranted = s.stc.lastGranted ∧ s.SameLists t ∧ (∀ l, t.link l = s.link l) ∧
      (∀ l, t.autoSnapshotDue l = s.autoSnapshotDue l) ∧ t.zas = s.zas ∧ t.tw = s.tw ∧ t.al = s.al ∧ s.SameCi t) ∧
  (∀ (s : State) (ch : Chan) (h : FlowHandle) (g : Option FlowGuard) (f : FlowRecord),
    s.claim .ftc ch = some (.flowClose h g) → s.flowOf h = some f → flowGuardPasses g f = true →
    let s1 := (s.grantTo .ftc ch).retire h.index
    ∃ t, exec (.flowClose ch) s = .next t ∧
      s.Answers ch (.of .ok (t.flowNibbleAfter f.owner.index g f) []) t ∧ t.stc = s1.stc ∧ t.ftc = s1.ftc ∧
      t.lm = s1.lm ∧ t.zas = s.zas ∧ t.tw = s.tw ∧ t.al = s.al)

/-- R40, R41, R51, R140: what giving a flow the selected link, or taking its pin, changes, and nothing else. -/
def Obligations.MovingAPin : Prop :=
  ∀ (s : State) (i : FlowIx) (selected : Option LinkId),
    let f := s.flow i
    let t := s.repinFlow i selected
    t.flow i = { f with state := match selected with
      | some l => .opened l
      | none => .held } ∧ s.OtherFlows i t ∧
      (∀ l, t.pinnedCount l = (s.pinnedCount l - if f.state = .opened l then 1 else 0) +
        if selected = some l then 1 else 0) ∧
      (∀ l, t.drainedWaiting l = true ↔ s.drainedWaiting l = true ∨
        (f.state = .opened l ∧ s.pinnedCount l ≤ 1 ∧ (s.link l).state = .draining)) ∧
      (∀ b, t.plru b = s.plru b) ∧ t.ftc.lastGranted = s.ftc.lastGranted ∧ t.stc = s.stc ∧
      (∀ l, t.link l = s.link l) ∧ (∀ l, t.autoSnapshotDue l = s.autoSnapshotDue l) ∧ t.zas = s.zas ∧
      t.tw = s.tw ∧ t.al = s.al ∧ s.SameCi t

/-- R48, R50: the links eligible for a class, and the link that link selection finds. -/
def Obligations.LinkSelectionPicksTheLowestRank : Prop :=
  (∀ (s : State) (c : FlowClass) (l : LinkId), s.eligible c l = true ↔ (s.link l).state = .up ∧
    (c = .emergency ∨ (c = .voice ∧ (s.link l).config.admitVoice = true) ∨
      (c = .interactive ∧ (s.link l).config.admitInteractive = true) ∨
      (c = .bulk ∧ (s.link l).config.admitBulk = true))) ∧
  ∀ (s : State) (c : FlowClass) (old : Option LinkId),
    let free (l : LinkId) := s.eligible c l = true ∧ (s.link l).congested = false
    let ahead (l k : LinkId) := (s.link l).config.rank < (s.link k).config.rank ∨
      ((s.link l).config.rank = (s.link k).config.rank ∧ l ≤ k)
    (∀ o l, old = some o → (s.link o).config.fallback = some l → free l → s.selectLink c old = some l) ∧
      ((∀ o l, old = some o → (s.link o).config.fallback = some l → ¬free l) →
        (∀ l, free l → (∀ k, free k → ahead l k) → s.selectLink c old = some l) ∧
        ((∀ l, ¬free l) →
          (∀ l, s.eligible c l = true → (∀ k, s.eligible c k = true → ahead l k) → s.selectLink c old = some l) ∧
          ((∀ l, s.eligible c l = false) → s.selectLink c old = none)))

/-- R30, R31, R33 (the body's places: R181; that the class reads 0 in an answer of status OK: log 15): FLOW_OPEN of
a key that no live flow holds, not refused by R32: the touch, the retirements, the creation. -/
def Obligations.FlowOpenCreatesAFlow : Prop :=
  ∀ (s : State) (ch : Chan) (h : SubHandle) (address : BitVec 128) (remotePort localPort : BitVec 16)
    (protocol : BitVec 8) (code : BitVec 3) (reclaim : Bool) (c : FlowClass) (r : SubRecord),
    s.claim .ftc ch = some (.flowOpen h address remotePort localPort protocol code reclaim) →
    flowClass code = some c → s.subOf h = some r → (r.state = .attached ∨ r.state = .roamBarred) →
    let k : FlowKey := {
      subscriber := h.index, address := address, remotePort := remotePort, localPort := localPort
      protocol := protocol }
    let s1 := (s.grantTo .ftc ch).touch h.index
    let limit := s1.limitReclaim (s1.sub h.index) reclaim
    let bucket := s1.bucketReclaim (flowBucket k) limit.index reclaim
    s.findKey k = none → limit ≠ .refuse → bucket ≠ .refuse →
    let s2 := (s1.retireSome limit.index).retireSome bucket.index
    let selected := s2.selectLink c none
    let handles := limit.index.toList.map s1.flowHandle ++ bucket.index.toList.map s1.flowHandle
    ∃ i, s2.vacantFlow k = some i ∧
      let f : FlowRecord := {
        key := k, stamp := (s2.flow i).stamp
        state := match selected with
          | some l => .opened l
          | none => .held
        cls := c, owner := h, mark := s.tw.currentMark, userWord := 0 }
      ∃ t, exec (.flowOpen ch) s = .next t ∧
        s.Answers ch (.of .ok (t.subNibble h.index) [FlowHandle.word { index := i, stamp := f.stamp },
          put 0 f.state.code ||| put 8 (linkCode selected) ||| put 16 handles.length |||
            put 20 (if limit.index = none ∧ bucket.index ≠ none then 1 else 0) |||
            put 21 (if limit.index ≠ none ∧ bucket.index ≠ none then 1 else 0),
          (handles.map FlowHandle.word).getD 0 0, (handles.map FlowHandle.word).getD 1 0]) t ∧
        t.flow i = f ∧ s2.OtherFlows i t ∧
        t.sub h.index = { s2.sub h.index with
          flowList := (s2.sub h.index).flowList ++ [{ index := i, stamp := f.stamp }] } ∧
        s2.OtherSubs h.index t ∧
        (∀ l, t.pinnedCount l = s2.pinnedCount l + if selected = some l then 1 else 0) ∧
        (∀ b, t.plru b = if b = bucketOf i then (s2.plru b).use (wayOf i) else s2.plru b) ∧
        s2.SameLists t ∧ t.stc.lastGranted = s2.stc.lastGranted ∧ t.ftc.lastGranted = ch ∧ t.lm = s2.lm ∧
        t.al = s1.al ∧ t.zas = s.zas ∧ t.tw = s.tw

/-- R31 to R33 (the zeros of a refused FLOW_OPEN's body: log 15): the FLOW_OPEN requests that create nothing. From
the touch of step 4 on, the subscriber has been touched. -/
def Obligations.FlowOpenWithoutCreation : Prop :=
  ∀ (s : State) (ch : Chan) (h : SubHandle) (address : BitVec 128) (remotePort localPort : BitVec 16)
    (protocol : BitVec 8) (code : BitVec 3) (reclaim : Bool),
    s.claim .ftc ch = some (.flowOpen h address remotePort localPort protocol code reclaim) →
    let k : FlowKey := {
      subscriber := h.index, address := address, remotePort := remotePort, localPort := localPort
      protocol := protocol }
    let s1 := (s.grantTo .ftc ch).touch h.index
    let limit := s1.limitReclaim (s1.sub h.index) reclaim
    let only (status : Status) (nibble : Nibble) := ∃ t, exec (.flowOpen ch) s = .next t ∧
      s.OnlyAnswers .ftc ch (.of status nibble (blank 4)) t
    let touched (status : Status) := ∃ t, exec (.flowOpen ch) s = .next t ∧
      s.Answers ch (.of status (t.subNibble h.index) (blank 4)) t ∧ t.stc = s1.stc ∧ t.ftc = s1.ftc ∧
      t.al = s1.al ∧ s.SameTerms t
    (4 ≤ code.toNat → only .outOfRange .zero) ∧
    (code.toNat < 4 → s.subOf h = none → only .staleHandle .zero) ∧
    ∀ r, code.toNat < 4 → s.subOf h = some r →
      (r.state = .detaching → only .detaching (s.subNibble h.index)) ∧
      (r.state = .unsettled → only .notAttached (s.subNibble h.index)) ∧
      (r.state = .attached ∨ r.state = .roamBarred →
        (∀ i, s.findKey k = some i →
          let f := { s.flow i with mark := s.tw.currentMark }
          ∃ t, exec (.flowOpen ch) s = .next t ∧
            s.Answers ch (.of .already (t.subNibble h.index) [FlowHandle.word { index := i, stamp := f.stamp },
              put 0 f.state.code ||| put 4 f.cls.code ||| put 8 (linkCode f.pin), 0, 0]) t ∧
            t.stc = s1.stc ∧ t.ftc = (s1.setFlow i f).ftc ∧ t.al = s1.al ∧ s.SameTerms t) ∧
        (s.findKey k = none → limit = .refuse → touched .flowLimit) ∧
        (s.findKey k = none → limit ≠ .refuse → s1.bucketReclaim (flowBucket k) limit.index reclaim = .refuse →
          touched .bucketFull))

/-! ## Verdicts -/

/-- R44 to R54, R179, R181 (the 0 in the link's place under STALE_HANDLE and OUT_OF_RANGE: log 13): CHARGE: its checks,
the touch, the tests on the owner in their order, the link step, the verdict and the charge. -/
def Obligations.ChargeGivesTheVerdict : Prop :=
  ∀ (s : State) (ch : Chan) (h : FlowHandle) (bytes : BitVec 16) (seconds : BitVec 8),
    s.claim .ftc ch = some (.charge h bytes seconds) →
    (s.flowOf h = none → ∃ t, exec (.charge ch) s = .next t ∧
      s.OnlyAnswers .ftc ch (.plain .staleHandle (blank 1)) t) ∧
    (s.flowOf h ≠ none → bytes = 0 → ∃ t, exec (.charge ch) s = .next t ∧
      s.OnlyAnswers .ftc ch (.plain .outOfRange (blank 1)) t) ∧
    ∀ f, s.flowOf h = some f → bytes ≠ 0 →
      let i := h.index
      let o := f.owner.index
      let s1 := (((s.grantTo .ftc ch).setFlow i { f with mark := s.tw.currentMark }).useWay i).touch o
      let r := s1.sub o
      let code (v : Verdict) : Nat := match v with
        | .forward _ => 0 | .pace _ => 1 | .hold => 2 | .block => 3 | .redirect => 4
      let link (v : Verdict) : Nat := match v with
        | .forward l => l.val | .pace l => l.val
        | .hold => 8 | .block => 8 | .redirect => 8
      let ends (v : Verdict) (repinned : Bool) (s2 : State) := ∃ t, exec (.charge ch) s = .next t ∧
        s.Answers ch {
          status := .ok, nibble := t.subNibble o, flags := { repinned := repinned }
          body := [put 0 (code v) ||| put 8 (link v) ||| put 16 (t.flow i).state.code] } t ∧
        t.stc = s2.stc ∧ t.ftc = s2.ftc ∧ t.lm = s2.lm ∧ t.al = s2.al ∧ t.zas = s.zas ∧ t.tw = s.tw
      let exhausted := r.cls ≠ .shipSystem ∧ (r.byteAllowance = 0 ∨ (f.cls = .voice ∧ r.secondsAllowance = 0))
      let passes := r.state ≠ .detaching ∧
        (f.cls = .emergency ∨ (r.closeHeld = false ∧ r.state ≠ .roamBarred ∧ ¬exhausted))
      let charged (x : State) : State :=
        if r.cls ≠ .shipSystem ∧ f.cls ≠ .emergency then x.chargeSub o bytes.toNat seconds.toNat else x
      let forward (l : LinkId) : Verdict :=
        if (s.link l).congested = true ∧ f.cls = .bulk then .pace l else .forward l
      (r.state = .detaching → ends .block false s1) ∧
      (r.state ≠ .detaching → f.cls ≠ .emergency →
        (r.closeHeld = true → ends .hold false s1) ∧
        (r.closeHeld = false → r.state = .roamBarred → ends .block false s1) ∧
        (r.closeHeld = false → r.state ≠ .roamBarred → exhausted → ∀ k, r.tariff = some k →
          ((s.tariff k).terms.exhaust = .block → ends .block false s1) ∧
          ((s.tariff k).terms.exhaust = .redirect → ends .redirect false s1))) ∧
      (passes →
        (∀ l, f.state = .opened l → s.eligible f.cls l = true → ends (forward l) false (charged s1)) ∧
        ((∀ l, f.state = .opened l → s.eligible f.cls l = false) →
          (∀ l, s.selectLink f.cls f.pin = some l →
            ends (forward l) true (charged (s1.repinFlow i (some l)))) ∧
          (s.selectLink f.cls f.pin = none → ends .hold false (s1.repinFlow i none))))

/-! ## Links -/

/-- R109 to R112, R115, R125, R126: the classes of a quality, and a classification in PROBING, UP or LOST with the
window test: the runs, the degrade counter, a loss with its REPIN request, a return to UP. -/
def Obligations.ClassificationsMoveTheLink : Prop :=
  (∀ (c : LinkConfig) (q : BitVec 6),
    (c.classOf q = .good ↔ c.threshold.toNat + c.hysteresis.toNat ≤ q.toNat) ∧
      (q.toNat < c.threshold.toNat → c.classOf q = .bad) ∧
      (c.threshold.toNat ≤ q.toNat → q.toNat < c.threshold.toNat + c.hysteresis.toNat → c.classOf q = .neutral)) ∧
  (DeclareWindow.fast.reports = 3 ∧ DeclareWindow.steady.reports = 24) ∧
  (∀ (x : BitVec 8) (y : BitVec 16), (satAdd x 1).toNat = min (x.toNat + 1) 255 ∧
    (satAdd y 1).toNat = min (y.toNat + 1) 65535) ∧
  ∀ (s : State) (l : LinkId) (k : ReportClass),
    let r := s.link l
    let r1 : LinkRecord := match k with
      | .good => { r with badRun := 0, goodRun := satAdd r.goodRun 1 }
      | .neutral => { r with badRun := 0, goodRun := 0 }
      | .bad => { r with
        badRun := satAdd r.badRun 1, goodRun := 0, degrade := satAdd r.degrade 1
        saturated := r.saturated || decide (r.degrade = 65535) }
    let s1 : State := if k = .bad ∧ r.degrade = 65535 ∧ r.saturated = false then
      (s.setLink l r1).raise (.link l) .counterSaturated else s.setLink l r1
    (r.state = .up → r.config.declareWindow.reports ≤ r1.badRun.toNat →
      s.classify l k = ((s1.setLink l { r1 with state := .lost, badRun := 0, goodRun := 0, congested := false }).raise
        (.link l) .state).addWalk (.repin l)) ∧
    (r.state = .probing ∨ r.state = .lost → r.config.clearWindow.toNat ≤ r1.goodRun.toNat →
      let s2 := s1.setLink l { r1 with state := .up, badRun := 0, goodRun := 0 }
      s.classify l k = if r.config.stateNotice = .all then s2.raise (.link l) .state else s2) ∧
    ((r.state = .up → r1.badRun.toNat < r.config.declareWindow.reports) →
      (r.state = .probing ∨ r.state = .lost → r1.goodRun.toNat < r.config.clearWindow.toNat) → s.classify l k = s1)

/-- R108, R116, R118 (the answer's words: log 11; the classification's code: log 14): LINK_REPORT in range, in
OFFLINE and DRAINING and in the three other states; a report out of range. -/
def Obligations.LinkReportsAreTaken : Prop :=
  ∀ (s : State) (ch : Chan) (code : BitVec 4) (quality occupancy : BitVec 8),
    s.claim .lm ch = some (.linkReport code quality occupancy) →
    (8 ≤ code.toNat ∨ 63 < quality.toNat → ∃ t, exec (.linkReport ch) s = .next t ∧
      s.OnlyAnswers .lm ch (.plain .outOfRange (blank 6)) t) ∧
    ∀ l : LinkId, code.toNat = l.val → quality.toNat ≤ 63 →
      let r := s.link l
      let r1 := { r with
        lastQuality := quality.setWidth 6, lastOccupancy := occupancy
        peak := if r.peak.toNat < occupancy.toNat then occupancy else r.peak }
      let ends (s2 : State) (k : Nat) := ∃ t, exec (.linkReport ch) s = .next t ∧
        s.Answers ch (.plain .ok [put 0 (t.link l).state.code, (Config.reportClassCode k).setWidth 32,
          put 0 (t.link l).badRun.toNat, put 0 (t.link l).goodRun.toNat, putFlag 0 (t.link l).congested,
          put 0 (t.link l).degrade.toNat]) t ∧
        t.lm = s2.lm ∧ t.tw = s2.tw ∧ t.al = s2.al ∧ t.stc = s.stc ∧ t.ftc = s.ftc ∧ t.zas = s.zas
      (r.state = .offline ∨ r.state = .draining → ends (s.setLink l r1) 3) ∧
      (r.state = .probing ∨ r.state = .up ∨ r.state = .lost →
        let k := r.config.classOf (quality.setWidth 6)
        let s1 := (s.setLink l { r1 with
          deadline := some (s.al.count + r.config.staleInterval.setWidth 32) }).classify l k
        let x := s1.link l
        let onset := x.state = .up ∧ x.congested = false ∧ r.config.highWater.toNat ≤ occupancy.toNat
        let relief := x.state = .up ∧ x.congested = true ∧ occupancy.toNat ≤ r.config.lowWater.toNat
        ∃ s2 : State,
          (onset → s2 = (s1.setLink l { x with congested := true }).raise (.link l) .congestion) ∧
          (relief → r.config.congestionNotice = .both →
            s2 = (s1.setLink l { x with congested := false }).raise (.link l) .congestion) ∧
          (relief → r.config.congestionNotice = .onset → s2 = s1.setLink l { x with congested := false }) ∧
          (¬onset → ¬relief → s2 = s1) ∧
          ends s2 (match k with
            | .good => 0
            | .bad => 1
            | .neutral => 2))

/-- R113, R114 (INJECT's words: log 12): a stale expiry restarts the deadline and classifies BAD; INJECT classifies
BAD in the states with a deadline and changes nothing in the others. -/
def Obligations.ExpiriesAndInjectionsAreBad : Prop :=
  (∀ (s : State) (l : LinkId), s.running = true →
    ((s.link l).state = .probing ∨ (s.link l).state = .up ∨ (s.link l).state = .lost) →
    (s.link l).deadline = some s.al.count →
    exec (.staleExpiry l) s = .next ((s.setLink l { s.link l with
      deadline := some (s.al.count + (s.link l).config.staleInterval.setWidth 32) }).classify l .bad)) ∧
  ∀ (s : State) (ch : Chan) (code : BitVec 4), s.claim .lm ch = some (.linkAdmin code .inject) →
    (8 ≤ code.toNat → ∃ t, exec (.inject ch) s = .next t ∧
      s.OnlyAnswers .lm ch (.plain .outOfRange (blank 4)) t) ∧
    ∀ l : LinkId, code.toNat = l.val →
      let s1 : State := if (s.link l).state = .offline ∨ (s.link l).state = .draining then s else s.classify l .bad
      ∃ t, exec (.inject ch) s = .next t ∧
        s.Answers ch (.plain .ok [put 0 (t.link l).state.code, put 0 (t.link l).badRun.toNat,
          put 0 (t.link l).degrade.toNat, 0]) t ∧
        t.lm = s1.lm ∧ t.tw = s1.tw ∧ t.al = s1.al ∧ t.stc = s.stc ∧ t.ftc = s.ftc ∧ t.zas = s.zas

/-- R119 to R121, R125, R126 (the answers' words: log 12): ENABLE, DISABLE and DRAIN, by the link's state. -/
def Obligations.LinkAdministration : Prop :=
  ∀ (s : State) (ch : Chan) (code : BitVec 4) (c : Instr) (command : LinkCommand),
    s.claim .lm ch = some (.linkAdmin code command) →
    (c = .enable ch ∧ command = .enable) ∨ (c = .disable ch ∧ command = .disable) ∨
      (c = .drain ch ∧ command = .drain) →
    (8 ≤ code.toNat → ∃ t, exec c s = .next t ∧ s.OnlyAnswers .lm ch (.plain .outOfRange (blank 4)) t) ∧
    ∀ l : LinkId, code.toNat = l.val →
      let r := s.link l
      let n := s.pinnedCount l
      let serves := r.state = .probing ∨ r.state = .up ∨ r.state = .lost
      let ends (s1 : State) (body : List Word) := ∃ t, exec c s = .next t ∧ s.Answers ch (.plain .ok body) t ∧
        t.lm = s1.lm ∧ t.tw = s1.tw ∧ t.al = s1.al ∧ t.stc = s.stc ∧ t.ftc = s.ftc ∧ t.zas = s.zas
      let only (status : Status) := ∃ t, exec c s = .next t ∧ s.OnlyAnswers .lm ch (.plain status (blank 4)) t
      let noticed (x : State) : State := if r.config.stateNotice = .all then x.raise (.link l) .state else x
      let left (entered : LinkState) := s.setLink l { r with
        state := entered, badRun := 0, goodRun := 0, congested := false, deadline := none }
      (command = .enable → (serves → only .already) ∧
        (¬serves → ends (noticed (s.setLink l { r with
          state := .probing, badRun := 0, goodRun := 0, degrade := 0, saturated := false, peak := 0
          congested := false, deadline := some (s.al.count + r.config.staleInterval.setWidth 32) })) (blank 4))) ∧
      (command = .disable → (r.state = .offline → only .already) ∧
        (r.state ≠ .offline → n = 0 → ends ((left .offline).raise (.link l) .state) (blank 4)) ∧
        (r.state ≠ .offline → 0 < n →
          ends (((left .offline).raise (.link l) .state).addWalk (.repin l)) (put 0 n :: blank 3))) ∧
      (command = .drain → (r.state = .draining → only .already) ∧ (r.state = .offline → only .conflict) ∧
        (serves → n = 0 →
          ends ((left .offline).raise (.link l) .state) (blank 4)) ∧
        (serves → 0 < n →
          ends ((noticed (left .draining)).addWalk (.repin l)) (put 0 4 :: put 0 n :: blank 2)))

/-- R117 (the answer's words: log 12; when an AUTO snapshot is due: log 7): SNAPSHOT and the AUTO snapshots. -/
def Obligations.SnapshotsCopyAndClear : Prop :=
  (∀ (s : State) (ch : Chan) (code : BitVec 4), s.claim .lm ch = some (.linkAdmin code .snapshot) →
    (8 ≤ code.toNat → ∃ t, exec (.snapshot ch) s = .next t ∧
      s.OnlyAnswers .lm ch (.plain .outOfRange (blank 4)) t) ∧
    ∀ l : LinkId, code.toNat = l.val →
      let r := s.link l
      ∃ t, exec (.snapshot ch) s = .next t ∧
        s.Answers ch (.plain .ok [put 0 r.degrade.toNat, putFlag 0 r.saturated, put 0 r.peak.toNat, s.al.count]) t ∧
        t.lm = (s.setLink l { r with
          snapshot := { degrade := r.degrade, saturated := r.saturated, peak := r.peak, taken := s.al.count }
          degrade := 0, saturated := false, peak := 0 }).lm ∧
        t.tw = s.tw ∧ t.al = s.al ∧ t.stc = s.stc ∧ t.ftc = s.ftc ∧ t.zas = s.zas) ∧
  ∀ (s : State) (l : LinkId), s.running = true → s.autoSnapshotDue l = true →
    let r := s.link l
    ∃ t, exec (.autoSnapshot l) s = .next t ∧
      t.link l = { r with
        snapshot := { degrade := r.degrade, saturated := r.saturated, peak := r.peak, taken := s.al.count }
        degrade := 0, saturated := false, peak := 0 } ∧
      s.OtherLinks l t ∧ t.lm.drained = s.lm.drained ∧
      (∀ k, t.autoSnapshotDue k = if k = l then false else s.autoSnapshotDue k) ∧
      t = { s with lm := t.lm }

/-- R122, R123: LINK_CONFIG checks and writes a configuration; a drained notice ends a drain or is set aside. -/
def Obligations.ConfigurationAndDrainedNotices : Prop :=
  (∀ (s : State) (ch : Chan) (code : BitVec 4) (c : LinkConfig) (fallbackCode : BitVec 4),
    s.claim .lm ch = some (.linkConfig code c fallbackCode) →
    let fits (l : LinkId) := 1 ≤ c.hysteresis.toNat ∧ c.threshold.toNat + c.hysteresis.toNat ≤ 63 ∧
      1 ≤ c.clearWindow.toNat ∧ c.clearWindow.toNat ≤ 64 ∧ 1 ≤ c.staleInterval.toNat ∧
      c.staleInterval.toNat ≤ 60 ∧ c.lowWater.toNat < c.highWater.toNat ∧ fallbackCode.toNat ≤ 8 ∧
      c.fallback ≠ some l
    (8 ≤ code.toNat → ∃ t, exec (.linkConfig ch) s = .next t ∧
      s.OnlyAnswers .lm ch (.plain .outOfRange []) t) ∧
    ∀ l : LinkId, code.toNat = l.val →
      (¬fits l → ∃ t, exec (.linkConfig ch) s = .next t ∧ s.OnlyAnswers .lm ch (.plain .outOfRange []) t) ∧
      (fits l → (s.link l).config = c → ∃ t, exec (.linkConfig ch) s = .next t ∧
        s.OnlyAnswers .lm ch (.plain .already []) t) ∧
      (fits l → (s.link l).config ≠ c → ∃ t, exec (.linkConfig ch) s = .next t ∧
        s.Answers ch (.plain .ok []) t ∧ t.lm = (s.setLink l { s.link l with config := c }).lm ∧ t.tw = s.tw ∧
        t.al = s.al ∧ t.stc = s.stc ∧ t.ftc = s.ftc ∧ t.zas = s.zas)) ∧
  ∀ (s : State) (l : LinkId), s.running = true → s.drainedWaiting l = true →
    let s1 := s.setDrained l false
    ((s.link l).state = .draining → s.pinnedCount l = 0 → exec (.drainedNotice l) s =
      .next ((s1.setLink l { s.link l with state := .offline }).raise (.link l) .state)) ∧
    ((s.link l).state ≠ .draining ∨ 0 < s.pinnedCount l → exec (.drainedNotice l) s = .next s1)

/-! ## Requests that change nothing -/

/-- R19, R38, R90, R93, R95, R124, R143, R156, R158, R164, R176, R179, R181 (the order of an answer's contents where
R181 lays none out: log 11; the target of a walk other than REPIN, of an idle walker and past the queue's end: log 13;
WALK_STATUS's cursor: log 22; the empty header's kind and tag: log 24; the words of CHANNEL_STATUS's fault and
outstanding request: log 25): the words of an answer and what the windows read; and each read answers with what it
reads, or with why it reads nothing, and changes nothing but the arbiter's last grant. -/
def Obligations.ReadsOnlyAnswer : Prop :=
  ((∀ lo n : Nat, put lo n = BitVec.ofNat 32 (n * 2 ^ lo)) ∧
    (∀ lo : Nat, putFlag lo true = BitVec.ofNat 32 (2 ^ lo) ∧ putFlag lo false = 0) ∧
    (∀ h : SubHandle, h.word &&& 0xFF00F000 = 0 ∧ h.word.extractLsb' 0 12 = h.index ∧
      h.word.extractLsb' 16 8 = h.stamp) ∧
    (∀ h : FlowHandle, h.word &&& 0xFF00C000 = 0 ∧ h.word.extractLsb' 0 14 = h.index ∧
      h.word.extractLsb' 16 8 = h.stamp) ∧
    (∀ l : LinkId, linkCode (some l) = l.val) ∧ linkCode none = 8 ∧
    (∀ k : TariffIx, tariffCode (some k) = k.toNat) ∧ tariffCode none = 255 ∧
    ([.vacant, .attached, .roamBarred, .detaching, .unsettled] : List SubState).map SubState.code = [0, 1, 2, 3, 4] ∧
    ([.passenger, .crew, .shipSystem] : List SubClass).map SubClass.code = [0, 1, 2] ∧
    (∀ d, GrantState.code .none = 0 ∧ GrantState.code (.requested d) = 1 ∧ GrantState.code .timedOut = 2) ∧
    (∀ l, FlowState.code .vacant = 0 ∧ FlowState.code (.opened l) = 1 ∧ FlowState.code .held = 2) ∧
    ([.emergency, .voice, .interactive, .bulk] : List FlowClass).map FlowClass.code = [0, 1, 2, 3] ∧
    ([.offline, .probing, .up, .lost, .draining] : List LinkState).map LinkState.code = [0, 1, 2, 3, 4] ∧
    ([.gateway, .cell, .backhaul, .billing, .supervisor] : List OwnerClass).map OwnerClass.code = [0, 1, 2, 3, 4] ∧
    ([.ok, .late, .already, .notFound, .staleHandle, .bucketFull, .flowLimit, .tableFull, .detaching, .notAttached,
      .notPermitted, .malformed, .outOfRange, .settlePending, .walkPending, .guardFalse, .deferredFault, .conflict,
      .nothing] : List Status).map Status.code = List.range 19) ∧
  (∀ a : Answer,
    let n := a.reply.nibble
    let f := a.reply.flags
    a.words = (put 0 a.kind.toNat ||| put 8 (2 + a.reply.body.length) ||| put 16 a.tag.toNat) ::
      (put 0 a.reply.status.code ||| putFlag 8 n.lt ||| putFlag 9 n.gt ||| putFlag 10 n.eq ||| putFlag 11 n.so |||
        putFlag 16 f.revived ||| putFlag 17 f.closeFollowed ||| putFlag 18 f.repinned ||| putFlag 19 f.forced |||
        putFlag 20 f.policyAdvanced ||| putFlag 21 f.replaced ||| putFlag 22 f.definedNew) :: a.reply.body) ∧
  (∀ (s : State) (ch : Chan) (k : Fin 16) (b : Fin 4),
    let offset := 0x040 * ch.val + 4 * k.val + b.val
    let head : Word := match (s.chan ch).responses with
      | [] => 0
      | a :: _ => a.words.getD k 0
    s.readByte offset = (s.chan ch).staging[k].extractLsb' (8 * b.val) 8 ∧
    s.readByte (0x200 + offset) = head.extractLsb' (8 * b.val) 8 ∧
    ∀ beyond, 0x400 ≤ beyond → s.readByte beyond = 0) ∧
  (∀ (s : State) (ch : Chan) (h : SubHandle) (g : Option SubGuard) (part : SubSection) (start : BitVec 8),
    s.claim .stc ch = some (.subRead h g part start) →
    let only (a : Reply) := ∃ t, exec (.subRead ch) s = .next t ∧ s.OnlyAnswers .stc ch a t
    (part = .flows → 63 < start.toNat → only (.plain .outOfRange [])) ∧
    ((part = .flows → start.toNat ≤ 63) → s.subOf h = none → only (.plain .staleHandle [])) ∧
    ∀ r, (part = .flows → start.toNat ≤ 63) → s.subOf h = some r →
      (subGuardPasses g r = false → only (.of .guardFalse (s.nibbleAfter h.index g r) [])) ∧
      (subGuardPasses g r = true → only (.of .ok (s.nibbleAfter h.index g r)
        (match part with
        | .identity => [r.tag.setWidth 32, r.tag.extractLsb' 32 32, put 0 r.state.code, put 0 r.cls.code,
            r.home.setWidth 32, putFlag 0 r.permanent, put 0 r.mark.val, r.zoneEpoch.setWidth 32,
            r.policyEpoch.setWidth 32, put 0 (tariffCode r.tariff), put 0 r.ratingZone.toNat,
            put 0 r.flowList.length, s.causesOf (.subscriber h.index), r.userWord]
        | .charging =>
          let slot := r.closed.getD { zone := 0, usage := { bytes := 0, seconds := 0, mixed := false } }
          let deadline := match r.grant with
            | .requested d => d
            | .none => 0
            | .timedOut => 0
          [h.word, put 0 r.grant.code ||| putFlag 4 r.current.mixed ||| putFlag 5 r.closed.isSome |||
              putFlag 6 slot.usage.mixed ||| put 8 slot.zone.toNat ||| putFlag 16 r.closeHeld |||
              putFlag 17 r.overdraftUsed ||| putFlag 18 r.exhaustedNoted ||| putFlag 19 r.so,
            r.current.bytes.setWidth 32, (r.current.bytes.extractLsb' 32 8).setWidth 32, r.current.seconds,
            slot.usage.bytes.setWidth 32, (slot.usage.bytes.extractLsb' 32 8).setWidth 32, slot.usage.seconds,
            r.byteAllowance, r.secondsAllowance, r.byteOverrun, r.secondsOverrun, deadline]
        | .flows => h.word :: put 0 r.flowList.length ::
            ((r.flowList.drop start.toNat).take 12).map FlowHandle.word)))) ∧
  (∀ (s : State) (ch : Chan) (h : FlowHandle) (g : Option FlowGuard),
    s.claim .ftc ch = some (.flowRead h g) →
    let only (a : Reply) := ∃ t, exec (.flowRead ch) s = .next t ∧ s.OnlyAnswers .ftc ch a t
    (s.flowOf h = none → only (.plain .staleHandle (blank 13))) ∧
    ∀ f, s.flowOf h = some f →
      (flowGuardPasses g f = false → only (.of .guardFalse (s.flowNibbleAfter f.owner.index g f) [])) ∧
      (flowGuardPasses g f = true → only (.of .ok (s.flowNibbleAfter f.owner.index g f)
        [f.key.subscriber.setWidth 32, f.key.address.extractLsb' 0 32, f.key.address.extractLsb' 32 32,
          f.key.address.extractLsb' 64 32, f.key.address.extractLsb' 96 32, f.key.localPort ++ f.key.remotePort,
          f.key.protocol.setWidth 32, put 0 f.state.code, put 0 f.cls.code, f.owner.word,
          put 0 (match f.state with
            | .opened l => l.val
            | .held => 8
            | .vacant => 8), put 0 f.mark.val, f.userWord]))) ∧
  (∀ (s : State) (ch : Chan) (code : BitVec 4), s.claim .lm ch = some (.linkRead code) →
    ∃ t, exec (.linkRead ch) s = .next t ∧
      (8 ≤ code.toNat → s.OnlyAnswers .lm ch (.plain .outOfRange (blank 12)) t) ∧
      ∀ l : LinkId, code.toNat = l.val →
        let r := s.link l
        let c := r.config
        s.OnlyAnswers .lm ch (.plain .ok
          [put 0 c.threshold.toNat ||| put 8 c.hysteresis.toNat ||| putFlag 12 (decide (c.declareWindow = .steady)) |||
              put 16 c.clearWindow.toNat ||| put 24 c.staleInterval.toNat,
            put 0 c.highWater.toNat ||| put 8 c.lowWater.toNat ||| putFlag 16 c.admitVoice |||
              putFlag 17 c.admitInteractive ||| putFlag 18 c.admitBulk ||| put 20 c.rank.toNat,
            put 0 (linkCode c.fallback) ||| putFlag 8 (decide (c.stateNotice = .all)) |||
              putFlag 9 (decide (c.congestionNotice = .both)) ||| putFlag 10 (decide (c.snapshotMode = .auto)),
            put 0 r.state.code ||| putFlag 4 r.congested ||| putFlag 5 r.saturated ||| putFlag 6 r.snapshot.saturated |||
              putFlag 7 r.repin.aborted ||| put 8 r.badRun.toNat ||| put 16 r.goodRun.toNat |||
              put 24 r.lastQuality.toNat,
            put 0 r.lastOccupancy.toNat ||| put 8 r.peak.toNat ||| put 16 r.snapshot.peak.toNat,
            put 0 r.degrade.toNat ||| put 16 r.snapshot.degrade.toNat, r.deadline.getD 0, r.snapshot.taken,
            put 0 r.repin.moved ||| put 16 r.repin.held, r.repin.completed, s.causesOf (.link l),
            put 0 (s.pinnedCount l)]) t) ∧
  (∀ (s : State) (ch : Chan) (code : BitVec 8), s.claim .zas ch = some (.zoneRead code) →
    ∃ t, exec (.zoneRead ch) s = .next t ∧
      (32 ≤ code.toNat → s.OnlyAnswers .zas ch (.plain .outOfRange (blank 5)) t) ∧
      ∀ z : ZoneIx, code.toNat = z.toNat → s.OnlyAnswers .zas ch (.plain .ok [putFlag 0 (s.zone z).defined,
        put 0 (s.zone z).cls.toNat, put 0 s.zas.currentZone.toNat, put 0 s.zas.zoneEpoch.toNat,
        put 0 s.zas.policyEpoch.toNat]) t) ∧
  (∀ (s : State) (ch : Chan) (code : Operator) (next : Bool), s.claim .zas ch = some (.agreementFind code next) →
    ∃ t, exec (.agreementFind ch) s = .next t ∧
      ((∀ a ∈ s.zas.agreements, a.code ≠ code ∧ (next = true → a.code < code)) →
        s.OnlyAnswers .zas ch (.plain .notFound (blank 4)) t) ∧
      ∀ before a later, s.zas.agreements = before ++ a :: later → (∀ b ∈ before, b.code < a.code) →
        a.code = code ∨ (next = true ∧ code ≤ a.code ∧ ∀ b ∈ before, b.code < code) →
        s.OnlyAnswers .zas ch (.plain .ok [a.code.setWidth 32 ||| put 24 (if a.active = true then 1 else 2),
          put 0 (tariffCode a.tariff0) ||| put 8 (tariffCode a.tariff1) ||| put 16 (tariffCode a.tariff2) |||
            put 24 (tariffCode a.tariff3),
          put 0 before.length, put 0 s.zas.agreements.length]) t) ∧
  (∀ (s : State) (ch : Chan) (code : BitVec 8), s.claim .zas ch = some (.tariffRead code) →
    ∃ t, exec (.tariffRead ch) s = .next t ∧
      (64 ≤ code.toNat → s.OnlyAnswers .zas ch (.plain .outOfRange (blank 7)) t) ∧
      ∀ k : TariffIx, code.toNat = k.toNat →
        let x := (s.tariff k).terms
        s.OnlyAnswers .zas ch (.plain .ok
          [putFlag 0 (s.tariff k).defined ||| putFlag 8 (decide (x.exhaust = .redirect)) |||
              putFlag 9 (decide (x.noAnswer = .overdraft)) ||| putFlag 10 x.carry ||| put 16 x.timeout.toNat |||
              put 24 x.flowLimit.toNat,
            x.lowBytes, x.lowSeconds, x.overdraftBytes, x.overdraftSeconds, x.bridgeBytes, x.bridgeSeconds]) t) ∧
  (∀ (s : State) (ch : Chan) (part : WalkSection), s.claim .tw ch = some (.walkStatus part) →
    ∃ t, exec (.walkStatus ch) s = .next t ∧ s.OnlyAnswers .tw ch (.plain .ok (match part with
      | .walker =>
        let kind (e : WalkEntry) : Nat := match e with
          | .age => 0 | .zone => 1 | .recheck => 2 | .repin _ => 3
        let target (e : WalkEntry) : Nat := match e with
          | .repin l => l.val
          | .age => 8 | .zone => 8 | .recheck => 8
        let byteAt (n : Nat) : Nat := match s.tw.queue[n]? with
          | some e => kind e + 16 * target e
          | none => 0
        let four (n : Nat) : Word :=
          put 0 (byteAt n) ||| put 8 (byteAt (n + 1)) ||| put 16 (byteAt (n + 2)) ||| put 24 (byteAt (n + 3))
        let marks := put 16 s.tw.currentMark.val ||| put 18 s.tw.previousMark.val ||| put 20 s.tw.thirdMark.val |||
          put 24 s.tw.queue.length
        (match s.tw.walk with
        | none => [marks, 0, 0, 0, 0]
        | some w =>
          let n := w.counts
          [put 0 1 ||| putFlag 1 w.flowPass ||| put 4 (kind w.entry) ||| put 8 (target w.entry) ||| marks,
            put 0 (w.cursor % 16384), w.started,
            (match w.entry with
            | .age => put 0 n.subsRetired ||| put 16 n.flowsRetired
            | .zone => put 0 n.closed ||| put 16 n.held
            | .recheck => put 0 n.rechecked ||| put 16 n.barred
            | .repin _ => put 0 n.moved ||| put 16 n.flowsHeld),
            (match w.entry with
            | .age => 0
            | .zone => put 0 n.barred
            | .recheck => put 0 n.cleared ||| put 16 n.held
            | .repin _ => 0)]) ++ [four 0, four 4, four 8, s.al.ageInterval, s.al.ageDeadline.getD 0]
      | .summaries =>
        let a := s.tw.ageSummary
        let z := s.tw.zoneSummary
        let k := s.tw.recheckSummary
        [put 0 a.subsRetired ||| put 16 a.flowsRetired, a.started, a.completed,
          put 0 z.zone.toNat ||| put 16 z.zoneEpoch.toNat, put 0 z.closed ||| put 16 z.held, put 0 z.barred,
          z.completed, put 0 k.policyEpoch.toNat, put 0 k.rechecked ||| put 16 k.barred,
          put 0 k.cleared ||| put 16 k.held, k.completed])) t) ∧
  (∀ (s : State) (ch : Chan), s.claim .al ch = some .deviceStatus →
    let entries (k : Nat) := (s.al.list.filter fun e => e.record.kindCode == k).length
    ∃ t, exec (.deviceStatus ch) s = .next t ∧ s.OnlyAnswers .al ch (.plain .ok [s.al.count,
      putFlag 0 s.al.interruptEnable ||| putFlag 1 (!s.al.list.isEmpty && s.al.interruptEnable)
        ||| put 8 s.al.overrunBitmap.toNat,
      s.al.ageInterval, deadlineWord s.al.ageDeadline, put 0 s.al.list.length ||| put 16 (entries 0),
      put 0 (entries 1) ||| put 8 (entries 2) ||| put 9 (entries 3), s.causesOf .device, put 0 s.stc.closedCount,
      put 0 s.stc.unwind.length ||| put 16 s.stc.deadlines.length]) t) ∧
  ∀ (s : State) (ch : Chan) (code : BitVec 8), s.claim .ci ch = some (.channelStatus code) →
    ∃ t, exec (.channelStatus ch) s = .next t ∧
      (8 ≤ code.toNat → s.OnlyAnswers .ci ch (.plain .outOfRange (blank 9)) t) ∧
      ∀ n : Chan, code.toNat = n.val →
        let c := s.chan n
        let fault : Word := match c.pendingFault with
          | some f => put 0 f.status.code ||| put 8 f.kind.toNat ||| put 16 f.tag.toNat
          | none => 0
        let outstanding : List Word := match c.outstanding with
          | some o => [put 0 o.request.kind.toNat, put 0 o.tag.toNat]
          | none => [0, 0]
        s.OnlyAnswers .ci ch (.plain .ok ([put 0 c.ownerClass.code, putFlag 0 c.quiet, fault,
          put 0 c.faultOverflow.toNat, putFlag 0 c.overrun, put 0 c.requests.length, put 0 c.responses.length] ++
          outstanding)) t

/-! ## Zones, agreements and tariffs -/

/-- R96, R97: ZONE_CHANGE: its conditions in their order, and the change. -/
def Obligations.ZoneChangeEntersTheZone : Prop :=
  ∀ (s : State) (ch : Chan) (code : BitVec 8) (force : Bool), s.claim .zas ch = some (.zoneChange code force) →
    let n := s.stc.closedCount
    let body (x : State) : List Word := [put 0 x.zas.currentZone.toNat,
      put 0 x.zas.zoneEpoch.toNat ||| put 16 x.zas.policyEpoch.toNat, put 0 n]
    let only (status : Status) := ∃ t, exec (.zoneChange ch) s = .next t ∧
      s.OnlyAnswers .zas ch (.plain status (body s)) t
    let pending := WalkEntry.zone ∈ s.tw.queue ∨ WalkEntry.recheck ∈ s.tw.queue ∨
      s.tw.walk.map Walk.entry = some .zone ∨ s.tw.walk.map Walk.entry = some .recheck
    (32 ≤ code.toNat → only .outOfRange) ∧
    ∀ z : ZoneIx, code.toNat = z.toNat →
      ((s.zone z).defined = false → only .outOfRange) ∧
      ((s.zone z).defined = true → z = s.zas.currentZone → only .already) ∧
      ((s.zone z).defined = true → z ≠ s.zas.currentZone → pending → only .walkPending) ∧
      ((s.zone z).defined = true → z ≠ s.zas.currentZone → ¬pending → 0 < n → force = false →
        only .settlePending) ∧
      ((s.zone z).defined = true → z ≠ s.zas.currentZone → ¬pending → n = 0 ∨ force = true →
        ∃ t, exec (.zoneChange ch) s = .next t ∧
          s.Answers ch { status := .ok, nibble := .zero, flags := { forced := decide (0 < n) }, body := body t } t ∧
          t.zas = { s.zas with currentZone := z, zoneEpoch := s.zas.zoneEpoch + 1 } ∧
          t.tw = { s.tw with queue := s.tw.queue ++ [.zone] } ∧
          t.stc = s.stc ∧ t.ftc = s.ftc ∧ t.lm = s.lm ∧ t.al = s.al)

/-- R91, R93, R95 (the answers' words are the model's choice: log 11): ZONE_DEFINE and TARIFF_SET: their checks,
the record written, and what changes the terms in force. -/
def Obligations.ZonesAndTariffsAreDefined : Prop :=
  (∀ s : State, s.advancePolicy = { s with
    zas := { s.zas with policyEpoch := s.zas.policyEpoch + 1 }
    tw := { s.tw with
      queue := if WalkEntry.recheck ∈ s.tw.queue then s.tw.queue else s.tw.queue ++ [.recheck] } }) ∧
  (∀ (s : State) (ch : Chan) (zone : BitVec 8) (state : BitVec 2) (cls : BitVec 8),
    s.claim .zas ch = some (.zoneDefine zone state cls) →
    let only (status : Status) := ∃ t, exec (.zoneDefine ch) s = .next t ∧
      s.OnlyAnswers .zas ch (.plain status (blank 1)) t
    (32 ≤ zone.toNat ∨ 2 ≤ state.toNat ∨ 4 ≤ cls.toNat → only .outOfRange) ∧
    ∀ (z : ZoneIx) (c : ZoneClass), zone.toNat = z.toNat → state.toNat ≤ 1 → cls.toNat = c.toNat →
      let r : ZoneRecord := { defined := state == 1, cls := c }
      (z = s.zas.currentZone → state = 0 → only .conflict) ∧
      (¬(z = s.zas.currentZone ∧ state = 0) → r = s.zone z → only .already) ∧
      (¬(z = s.zas.currentZone ∧ state = 0) → r ≠ s.zone z →
        let changed := decide (z = s.zas.currentZone ∧ c ≠ (s.zone z).cls)
        let s1 : State := if changed then (s.setZone z r).advancePolicy else s.setZone z r
        ∃ t, exec (.zoneDefine ch) s = .next t ∧
          s.Answers ch ⟨.ok, .zero, { policyAdvanced := changed },
            [if changed then put 0 t.zas.policyEpoch.toNat else 0]⟩ t ∧
          t.zas = s1.zas ∧ t.tw = s1.tw ∧ t.stc = s.stc ∧ t.ftc = s.ftc ∧ t.lm = s.lm ∧ t.al = s.al)) ∧
  ∀ (s : State) (ch : Chan) (code : BitVec 8) (x : TariffTerms), s.claim .zas ch = some (.tariffSet code x) →
    let only (status : Status) := ∃ t, exec (.tariffSet ch) s = .next t ∧
      s.OnlyAnswers .zas ch (.plain status (blank 1)) t
    let fits := 1 ≤ x.timeout.toNat ∧ 1 ≤ x.flowLimit.toNat ∧ x.flowLimit.toNat ≤ 64
    (64 ≤ code.toNat ∨ ¬fits → only .outOfRange) ∧
    ∀ k : TariffIx, code.toNat = k.toNat → fits →
      let old := s.tariff k
      (old.defined = true → old.terms = x → only .already) ∧
      (¬(old.defined = true ∧ old.terms = x) →
        let named := ∃ a ∈ s.zas.agreements, a.active = true ∧ a.tariffFor (s.zone s.zas.currentZone).cls = some k
        let s1 := s.setTariff k { defined := true, terms := x }
        let ends (changed : Bool) (s2 : State) := ∃ t, exec (.tariffSet ch) s = .next t ∧
          s.Answers ch ⟨.ok, .zero, { policyAdvanced := changed, definedNew := !old.defined },
            [if changed then put 0 t.zas.policyEpoch.toNat else 0]⟩ t ∧
          t.zas = s2.zas ∧ t.tw = s2.tw ∧ t.stc = s.stc ∧ t.ftc = s.ftc ∧ t.lm = s.lm ∧ t.al = s.al
        (old.defined = true ∧ named → ends true s1.advancePolicy) ∧
        (¬(old.defined = true ∧ named) → ends false s1))

/-- R88 to R91 (the answers' words are the model's choice: log 11): AGREEMENT_SET and AGREEMENT_REMOVE: their
checks, the list written, and what changes the terms in force. -/
def Obligations.TheAgreementListIsWritten : Prop :=
  (∀ (l : List Agreement) (code : Operator) (c : ZoneClass),
    ((∀ a ∈ l, a.code ≠ code) → outcomeIn l code c = none) ∧
    ∀ before a later, l = before ++ a :: later → (∀ b ∈ before, b.code ≠ code) → a.code = code →
      outcomeIn l code c = if a.active then a.tariffFor c else none) ∧
  (∀ (s : State) (ch : Chan) (code : Operator) (state : BitVec 2) (t0 t1 t2 t3 : BitVec 8),
    s.claim .zas ch = some (.agreementSet code state t0 t1 t2 t3) →
    let l := s.zas.agreements
    let only (status : Status) := ∃ t, exec (.agreementSet ch) s = .next t ∧
      s.OnlyAnswers .zas ch (.plain status (blank 3)) t
    let fits (c : BitVec 8) := c = 255 ∨ ∃ k : TariffIx, c.toNat = k.toNat ∧ (s.tariff k).defined = true
    let names (c : BitVec 8) : Option TariffIx := if c = 255 then none else some (c.setWidth 6)
    let a : Agreement := { code := code, active := state == 1, tariff0 := names t0, tariff1 := names t1,
                           tariff2 := names t2, tariff3 := names t3 }
    let inRange := (state = 1 ∨ state = 2) ∧ fits t0 ∧ fits t1 ∧ fits t2 ∧ fits t3
    let ends (l1 : List Agreement) (place : Nat) (replaced : Bool) :=
      let cls := (s.zone s.zas.currentZone).cls
      let changed := decide (outcomeIn l code cls ≠ outcomeIn l1 code cls)
      let s1 : State := { s with zas := { s.zas with agreements := l1 } }
      let s2 : State := if changed then s1.advancePolicy else s1
      ∃ t, exec (.agreementSet ch) s = .next t ∧
        s.Answers ch ⟨.ok, .zero, { policyAdvanced := changed, replaced := replaced },
          [put 0 place, put 0 l1.length,
            if changed then put 0 t.zas.policyEpoch.toNat else 0]⟩ t ∧
        t.zas = s2.zas ∧ t.tw = s2.tw ∧ t.stc = s.stc ∧ t.ftc = s.ftc ∧ t.lm = s.lm ∧ t.al = s.al
    (¬inRange → only .outOfRange) ∧
    (inRange →
      (∀ before old later, l = before ++ old :: later → (∀ b ∈ before, b.code ≠ code) → old.code = code →
        (old = a → only .already) ∧ (old ≠ a → ends (before ++ a :: later) before.length true)) ∧
      ((∀ b ∈ l, b.code ≠ code) → 256 ≤ l.length → only .tableFull) ∧
      (∀ before later, l.length < 256 → l = before ++ later → (∀ b ∈ before, b.code < code) →
        (∀ b ∈ later, code < b.code) → ends (before ++ a :: later) before.length false))) ∧
  ∀ (s : State) (ch : Chan) (code : Operator), s.claim .zas ch = some (.agreementRemove code) →
    ((∀ a ∈ s.zas.agreements, a.code ≠ code) → ∃ t, exec (.agreementRemove ch) s = .next t ∧
      s.OnlyAnswers .zas ch (.plain .notFound (blank 2)) t) ∧
    ∀ before a later, s.zas.agreements = before ++ a :: later → a.code = code →
      (∀ b ∈ before ++ later, b.code ≠ code) →
      let changed := (outcomeIn s.zas.agreements code (s.zone s.zas.currentZone).cls).isSome
      let s1 : State := { s with zas := { s.zas with agreements := before ++ later } }
      let s2 : State := if changed then s1.advancePolicy else s1
      ∃ t, exec (.agreementRemove ch) s = .next t ∧
        s.Answers ch ⟨.ok, .zero, { policyAdvanced := changed },
          [put 0 (before ++ later).length,
            if changed then put 0 t.zas.policyEpoch.toNat else 0]⟩ t ∧
        t.zas = s2.zas ∧ t.tw = s2.tw ∧ t.stc = s.stc ∧ t.ftc = s.ftc ∧ t.lm = s.lm ∧ t.al = s.al

/-! ## The walker -/

/-- R128, R129, R142, R144 (the answers' words are the model's choice: log 11; the 8 of an absent link: log 13; an
idle walker's code in AGE's answer: log 14): AGE, the age expiry and WALK_ABORT on the walk queue and the walker. -/
def Obligations.AgeAndAbortChangeTheQueue : Prop :=
  (∀ (s : State) (ch : Chan), s.claim .tw ch = some .age →
    let walking := match s.tw.walk with
      | some w => put 0 w.entry.kindCode
      | none => Config.idleWalkCode.setWidth 32
    let ends (status : Status) (place : Nat) (queue : List WalkEntry) := ∃ t, exec (.age ch) s = .next t ∧
      s.Answers ch (.plain status [put 0 place, walking]) t ∧ t.tw = { s.tw with queue := queue } ∧
      t.stc = s.stc ∧ t.ftc = s.ftc ∧ t.lm = s.lm ∧ t.zas = s.zas ∧ t.al = s.al
    (WalkEntry.age ∉ s.tw.queue → ends .ok s.tw.queue.length (s.tw.queue ++ [.age])) ∧
    ∀ before later, s.tw.queue = before ++ .age :: later → WalkEntry.age ∉ before →
      ends .already before.length s.tw.queue) ∧
  (∀ s : State, s.running = true → s.al.ageDeadline = some s.al.count → exec .ageExpiry s = .next { s with
    al := { s.al with ageDeadline := some (s.al.count + s.al.ageInterval) }
    tw := { s.tw with
      queue := if WalkEntry.age ∈ s.tw.queue then s.tw.queue else s.tw.queue ++ [.age] } }) ∧
  ∀ (s : State) (ch : Chan) (kind : WalkKind) (selector : BitVec 8),
    s.claim .tw ch = some (.walkAbort kind selector) →
    let only (status : Status) := ∃ t, exec (.walkAbort ch) s = .next t ∧
      s.OnlyAnswers .tw ch (.plain status (blank 2)) t
    let known := selector = 255 ∨ selector.toNat ≤ 7
    let selected (e : WalkEntry) : Bool := match e with
      | .repin l => decide (selector = 255 ∨ selector.toNat = l.val)
      | .age => false
      | .zone => false
      | .recheck => false
    let kept := s.tw.queue.filter fun e => !selected e
    let removed := s.tw.queue.length - kept.length
    let spared := ∀ w, s.tw.walk = some w → selected w.entry = false
    (¬known → only .outOfRange) ∧
    (known → kind ≠ .repin → only .conflict) ∧
    (known → kind = .repin →
      (spared → removed = 0 → only .nothing) ∧
      (spared → 0 < removed → ∃ t, exec (.walkAbort ch) s = .next t ∧
        s.Answers ch (.plain .ok [put 0 8, put 0 removed]) t ∧ t.tw = { s.tw with queue := kept } ∧
        t.stc = s.stc ∧ t.ftc = s.ftc ∧ t.lm = s.lm ∧ t.zas = s.zas ∧ t.al = s.al) ∧
      ∀ w l, s.tw.walk = some w → w.entry = .repin l → selected w.entry = true →
        ∃ t, exec (.walkAbort ch) s = .next t ∧
          s.Answers ch (.plain .ok [put 0 l.val, put 0 removed]) t ∧
          t.tw = { s.tw with queue := kept, walk := none } ∧
          t.lm = (s.setLink l { s.link l with repin :=
            { moved := w.counts.moved, held := w.counts.flowsHeld, aborted := true, completed := s.al.count } }).lm ∧
          t.al = { s.al with list := raiseIn s.al.list (.link l) .repinDone } ∧
          t.stc = s.stc ∧ t.ftc = s.ftc ∧ t.zas = s.zas)

/-- R130, R132, R135, R137, R138, R141: the start of a walk from the head of the queue and the ends of the four
walks, each an event of its own (an event whose condition does not hold: log 1). -/
def Obligations.WalksStartAndEnd : Prop :=
  (∀ (s : State) (e : WalkEntry) (rest : List WalkEntry),
    s.running = true → s.tw.walk = none → s.tw.queue = e :: rest →
    let w : Walk := {
      entry := e, flowPass := false, cursor := 0, started := s.al.count, zone := s.zas.currentZone
      zoneEpoch := s.zas.zoneEpoch, policyEpoch := s.zas.policyEpoch
      counts := { subsRetired := 0, flowsRetired := 0, closed := 0, held := 0, barred := 0, rechecked := 0,
                  cleared := 0, moved := 0, flowsHeld := 0 } }
    let tw := { s.tw with queue := rest, walk := some w }
    (e = .age → exec .walkStart s = .next { s with tw := { tw with
      currentMark := s.tw.thirdMark, previousMark := s.tw.currentMark, thirdMark := s.tw.previousMark } }) ∧
    (e = .zone ∨ e = .recheck → exec .walkStart s = .next { s with tw := tw }) ∧
    ∀ l, e = .repin l →
      ((s.link l).state ≠ .up → exec .walkStart s = .next { s with tw := tw }) ∧
      ((s.link l).state = .up → exec .walkStart s = .next
        { s.setLink l { s.link l with
            repin := { moved := 0, held := 0, aborted := false, completed := s.al.count } } with
          tw := { s.tw with queue := rest }
          al := { s.al with list := raiseIn s.al.list (.link l) .repinDone } })) ∧
  (∀ s : State, s.running = false ∨ s.tw.walk ≠ none ∨ s.tw.queue = [] → exec .walkStart s = .next s) ∧
  ∀ (s : State) (w : Walk), s.running = true → s.tw.walk = some w →
    let raised (r : AttnRecord) (c : Cause) : Al := { s.al with list := raiseIn s.al.list r c }
    (w.entry = .age → w.flowPass = true → 16384 ≤ w.cursor → exec .ageWalkEnd s = .next { s with
      al := raised .walker .ageDone
      tw := { s.tw with walk := none, ageSummary :=
        { subsRetired := w.counts.subsRetired, flowsRetired := w.counts.flowsRetired, started := w.started,
          completed := s.al.count } } }) ∧
    (w.entry = .zone → 4096 ≤ w.cursor → exec .zoneWalkEnd s = .next { s with
      al := raised .walker .zoneDone
      tw := { s.tw with walk := none, zoneSummary :=
        { zone := w.zone, zoneEpoch := w.zoneEpoch, closed := w.counts.closed, held := w.counts.held,
          barred := w.counts.barred, completed := s.al.count } } }) ∧
    (w.entry = .recheck → 4096 ≤ w.cursor → exec .recheckWalkEnd s = .next { s with
      al := raised .walker .recheckDone
      tw := { s.tw with walk := none, recheckSummary :=
        { policyEpoch := w.policyEpoch, rechecked := w.counts.rechecked, barred := w.counts.barred,
          cleared := w.counts.cleared, held := w.counts.held, completed := s.al.count } } }) ∧
    (∀ l, w.entry = .repin l → 16384 ≤ w.cursor → exec .repinWalkEnd s = .next
      { s.setLink l { s.link l with repin :=
          { moved := w.counts.moved, held := w.counts.flowsHeld, aborted := false, completed := s.al.count } } with
        al := raised (.link l) .repinDone
        tw := { s.tw with walk := none } })

/-- R131, R133, R134: the visits of an AGE walk: pass 1 retires and re-marks doomed subscribers, pass 2 retires
doomed flows. -/
def Obligations.AgeVisitsRetireTheDoomed : Prop :=
  (∀ (s : State) (w : Walk) (i : SubIx), s.running = true → s.tw.walk = some w → w.entry = .age →
    w.flowPass = false → w.cursor = i.toNat →
    let r := s.sub i
    let doomed := r.state ≠ .vacant ∧ r.mark = s.tw.thirdMark
    let retires := r.permanent = false ∧ (r.state = .attached ∨ r.state = .roamBarred) ∧ r.closeHeld = false
    let next (n : Nat) : Tw :=
      let counts := { w.counts with subsRetired := w.counts.subsRetired + n }
      { s.tw with walk := some (if i = 4095 then { w with counts := counts, flowPass := true, cursor := 0 }
        else { w with counts := counts, cursor := w.cursor + 1 }) }
    (¬doomed → exec .agePass1Visit s = .next { s with tw := next 0 }) ∧
    (doomed → ¬retires → exec .agePass1Visit s = .next
      { s.setSub i { r with mark := s.tw.previousMark } with tw := next 0 }) ∧
    (doomed → retires → ∃ t, exec .agePass1Visit s = .next t ∧
      t.sub i = { r with state := .detaching, grant := .none, mark := s.tw.previousMark } ∧ s.OtherSubs i t ∧
      t.stc.unwind = s.stc.unwind ++ [i] ∧
      t.stc.deadlines = s.stc.deadlines.filter (fun j => decide (j ≠ i)) ∧
      t.stc.closedCount = s.stc.closedCount ∧ t.stc.lastGranted = s.stc.lastGranted ∧
      t = { s with stc := t.stc, tw := next 1 })) ∧
  ∀ (s : State) (w : Walk) (i : FlowIx), s.running = true → s.tw.walk = some w → w.entry = .age →
    w.flowPass = true → w.cursor = i.toNat →
    let doomed := (s.flow i).state ≠ .vacant ∧ (s.flow i).mark = s.tw.thirdMark
    (doomed → exec .agePass2Visit s = .next { s.retire i with tw := { s.tw with walk := some { w with
      counts := { w.counts with flowsRetired := w.counts.flowsRetired + 1 }, cursor := w.cursor + 1 } } }) ∧
    (¬doomed → exec .agePass2Visit s = .next { s with tw := { s.tw with walk := some { w with
      cursor := w.cursor + 1 } } })

/-- R131, R137, R138, R140 (held in a RECHECK walk: log 19): the visits of the ZONE, RECHECK and REPIN walks. -/
def Obligations.OtherVisitsProcessTheRecord : Prop :=
  (∀ (s : State) (w : Walk) (i : SubIx), s.running = true → s.tw.walk = some w → w.cursor = i.toNat →
    let r := s.sub i
    let s1 : State := if r.state = .vacant then s else s.lazy i
    let one (p : Prop) [Decidable p] : Nat := if p then 1 else 0
    let live := r.state ≠ .vacant
    let stale := r.zoneEpoch ≠ s.zas.zoneEpoch
    let closes := live ∧ r.closeHeld = false ∧ stale ∧ r.closed = none
    let held := one (live ∧ (r.closeHeld = true ∨ (stale ∧ r.closed ≠ none)))
    let barred := one (r.state = .attached ∧ (s1.sub i).state = .roamBarred)
    let advanced (counts : WalkCounts) : Tw :=
      { s.tw with walk := some { w with counts := counts, cursor := w.cursor + 1 } }
    (w.entry = .zone → exec .zoneVisit s = .next { s1 with tw := advanced { w.counts with
      closed := w.counts.closed + one (closes ∧ (r.current.bytes ≠ 0 ∨ r.current.seconds ≠ 0))
      held := w.counts.held + held
      barred := w.counts.barred + barred } }) ∧
    (w.entry = .recheck → exec .recheckVisit s = .next { s1 with tw := advanced { w.counts with
      rechecked := w.counts.rechecked + one (closes ∨
        (live ∧ r.closeHeld = false ∧ ¬stale ∧ r.policyEpoch ≠ s.zas.policyEpoch))
      barred := w.counts.barred + barred
      cleared := w.counts.cleared + one (r.state = .roamBarred ∧ (s1.sub i).state = .attached)
      held := w.counts.held + held } })) ∧
  ∀ (s : State) (w : Walk) (l : LinkId) (i : FlowIx), s.running = true → s.tw.walk = some w → w.entry = .repin l →
    w.cursor = i.toNat →
    let acts := (s.flow i).state = .opened l ∧ (s.link l).state ≠ .up
    let selected := s.selectLink (s.flow i).cls (some l)
    let advanced (counts : WalkCounts) : Tw :=
      { s.tw with walk := some { w with counts := counts, cursor := w.cursor + 1 } }
    (¬acts → exec .repinVisit s = .next { s with tw := advanced w.counts }) ∧
    (acts → selected ≠ none → exec .repinVisit s = .next { s.repinFlow i selected with
      tw := advanced { w.counts with moved := w.counts.moved + 1 } }) ∧
    (acts → selected = none → exec .repinVisit s = .next { s.repinFlow i none with
      tw := advanced { w.counts with flowsHeld := w.counts.flowsHeld + 1 } })

/-! ## The attention list and the timebase -/

/-- R168 to R170, R172, R173, R179: a cause raised joins its record's entry, which keeps its place, or starts an
entry at the tail; a cause withdrawn leaves its record's entry, and an entry left with none leaves the list; when
ATTN_N is asserted; and NOTICE_FETCH returns and removes the oldest entry that its filter admits, on a list that
holds each record once. -/
def Obligations.NoticeFetchTakesTheOldest : Prop :=
  (∀ (l : List AttnEntry) (r : AttnRecord) (c : Cause),
    let bit := BitVec.twoPow 32 (match c with
      | .grantNeeded => 0 | .grantTimeout => 1 | .exhausted => 2 | .unsettled => 3 | .roamBarred => 4
      | .roamCleared => 5 | .closeHeld => 6 | .state => 8 | .congestion => 9 | .counterSaturated => 10
      | .repinDone => 11 | .ageDone => 16 | .zoneDone => 17 | .recheckDone => 18 | .ready => 24
      | .channelOverrun => 25)
    ((∀ e ∈ l, e.record ≠ r) → raiseIn l r c = l ++ [{ record := r, causes := bit }] ∧ withdrawIn l r c = l ∧
      removeIn l r = l) ∧
    ∀ before e later, l = before ++ e :: later → (∀ x ∈ before ++ later, x.record ≠ r) → e.record = r →
      raiseIn l r c = before ++ { e with causes := e.causes ||| bit } :: later ∧
      (e.causes &&& ~~~bit = 0 → withdrawIn l r c = before ++ later) ∧
      (e.causes &&& ~~~bit ≠ 0 → withdrawIn l r c = before ++ { e with causes := e.causes &&& ~~~bit } :: later) ∧
      removeIn l r = before ++ later) ∧
  (∀ (s : State) (r : AttnRecord) (c : Cause),
    s.raise r c = { s with al := { s.al with list := raiseIn s.al.list r c } } ∧
    s.withdraw r c = { s with al := { s.al with list := withdrawIn s.al.list r c } } ∧
    s.removeEntry r = { s with al := { s.al with list := removeIn s.al.list r } } ∧
    ((∀ e ∈ s.al.list, e.record ≠ r) → s.causesOf r = 0) ∧
    (∀ before e later, s.al.list = before ++ e :: later → (∀ x ∈ before, x.record ≠ r) → e.record = r →
      s.causesOf r = e.causes) ∧
    (s.attnAsserted = true ↔ s.al.list ≠ [] ∧ s.al.interruptEnable = true)) ∧
  (∀ (f : NoticeFilter) (i : SubIx) (l : LinkId),
    (f.admits (.subscriber i) = true ↔ f = .subscriber ∨ f = .any) ∧
    (f.admits (.link l) = true ↔ f = .link ∨ f = .any) ∧
    (f.admits .walker = true ↔ f = .walker ∨ f = .any) ∧ (f.admits .device = true ↔ f = .device ∨ f = .any)) ∧
  ∀ (s : State) (ch : Chan) (f : NoticeFilter), s.claim .al ch = some (.noticeFetch f) →
    ((∀ e ∈ s.al.list, f.admits e.record = false) → ∃ t, exec (.noticeFetch ch) s = .next t ∧
      s.OnlyAnswers .al ch (.plain .nothing [0, 0, 0, put 16 s.al.list.length]) t) ∧
    ∀ before e later, s.al.list = before ++ e :: later → (∀ x ∈ before, f.admits x.record = false) →
      f.admits e.record = true → (∀ x ∈ before ++ later, x.record ≠ e.record) →
      let left := put 16 (before ++ later).length
      let ends (nibble : Nibble) (kind : Word) (index : Word) (bitmap : BitVec 8) (after : BitVec 8) :=
        ∃ t, exec (.noticeFetch ch) s = .next t ∧
          s.Answers ch (.of .ok nibble [kind, index, e.causes, put 0 bitmap.toNat ||| left]) t ∧
          t.al = { s.al with list := before ++ later, overrunBitmap := after } ∧
          t.stc = s.stc ∧ t.ftc = s.ftc ∧ t.lm = s.lm ∧ t.zas = s.zas ∧ t.tw = s.tw
      let bitmap := s.al.overrunBitmap
      (∀ i, e.record = .subscriber i → ends (s.subNibble i) (put 0 0 ||| put 4 (s.sub i).state.code)
        (SubHandle.word { index := i, stamp := (s.sub i).stamp }) 0 bitmap) ∧
      (∀ l, e.record = .link l → ends .zero (put 0 1 ||| put 4 (s.link l).state.code) (put 0 l.val) 0 bitmap) ∧
      (e.record = .walker → ends .zero (put 0 2) 0 0 bitmap) ∧
      (e.record = .device → ends .zero (put 0 3) 0 bitmap 0)

/-- R117, R144, R174, R177 (the claims that come before an advance, and the age expiry that comes before a
DEVICE_CONFIG: log 6; the AUTO snapshots that an advance calls for: log 7; the answer's words: log 11):
DEVICE_CONFIG and the advance of the ship second count. -/
def Obligations.TheTimebaseIsSetAndAdvances : Prop :=
  (∀ (s : State) (ch : Chan) (interval : Word) (enable : Bool),
    s.claim .al ch = some (.deviceConfig interval enable) →
    let fits := interval = 0 ∨ (60 ≤ interval.toNat ∧ interval.toNat ≤ 86400)
    let due := s.al.ageDeadline = some s.al.count
    (due → exec (.deviceConfig ch) s = .next s) ∧
    (¬due → ¬fits → ∃ t, exec (.deviceConfig ch) s = .next t ∧ s.OnlyAnswers .al ch (.plain .outOfRange (blank 6)) t) ∧
    (¬due → fits →
      let deadline : Option Second := if interval = 0 then none else some (s.al.count + interval)
      ∃ t, exec (.deviceConfig ch) s = .next t ∧
        s.Answers ch (.plain .ok [s.al.ageInterval, deadlineWord s.al.ageDeadline, putFlag 0 s.al.interruptEnable,
          interval, deadlineWord deadline, putFlag 0 enable]) t ∧
        t.al = { s.al with ageInterval := interval, ageDeadline := deadline, interruptEnable := enable } ∧
        t.stc = s.stc ∧ t.ftc = s.ftc ∧ t.lm = s.lm ∧ t.zas = s.zas ∧ t.tw = s.tw)) ∧
  ∀ s : State, s.resetHeld = false → s.al.ready = true →
    let clearing := ∃ ch b, s.ci.softReset = .clearing ch b
    let due := (∃ i rest, s.stc.deadlines = i :: rest ∧ (s.sub i).grant = .requested s.al.count) ∨
      (∃ l, ((s.link l).state = .probing ∨ (s.link l).state = .up ∨ (s.link l).state = .lost) ∧
        (s.link l).deadline = some s.al.count) ∨
      (∃ l, s.autoSnapshotDue l = true) ∨ s.al.ageDeadline = some s.al.count
    (clearing ∨ ¬due → ∃ t, exec .shipSecondAdvance s = .next t ∧
      t = { s with al := { s.al with count := s.al.count + 1 }, lm := t.lm } ∧
      t.lm.links = s.lm.links ∧ t.lm.drained = s.lm.drained ∧
      ∀ l, t.autoSnapshotDue l = true ↔ ¬clearing ∧ (s.link l).config.snapshotMode = .auto) ∧
    (¬clearing → due → exec .shipSecondAdvance s = .next s)

/-! ## Invariants -/

/-- R3, R27, R128, R168 (the tables are sparse lists of the model: log 16): the tables stay canonical, no two
entries of the walk queue become equal, and the attention list holds each record at most once, with a pending cause.
-/
def Obligations.TablesQueueAndListStayExact : Prop :=
  ∀ s t : State, step s = .next t → s.TablesCanonical ∧ s.WalkQueueDistinct ∧ s.AttentionExact →
    t.TablesCanonical ∧ t.WalkQueueDistinct ∧ t.AttentionExact

/-- R85, R88, R92, R106, R113, R118, R122: link configurations stay in range, a report deadline stands in PROBING,
UP and LOST alone, the congested flag in UP alone; the current zone stays DEFINED, the agreement list in order,
within its capacity and on DEFINED tariffs, the terms in range. -/
def Obligations.LinksAndTermsStaySound : Prop :=
  ∀ s t : State, step s = .next t → s.LinksSound ∧ s.TermsSound → t.LinksSound ∧ t.TermsSound

/-- R155, R157, R159, R167: no FIFO passes 16, an answer finds a free slot, channel 7 stays SUPERVISOR, and the
SOFT_RESET being served stays its channel's outstanding request. -/
def Obligations.ChannelsStaySound : Prop :=
  ∀ s t : State, step s = .next t → s.ChannelsSound → t.ChannelsSound

/-- R1, R3, R11, R12, R14, R17, R24, R25, R27, R29, R30, R40, R64, R70, R78, R96, R104: on canonical tables, VACANT
records stay clear, overruns stand at allowance 0 alone, the unwind queue holds the DETACHING and the deadline list
the REQUESTED records, the closed-slot and pinned counts count, live flows and flow lists name each other, and no
VACANT or UNSETTLED record has a flow; and with that, live tags and keys stay unique and in their buckets, the
deadline list in order, flow counts at most 64, and zone epochs at the device's or, ahead of a ZONE walk, the one
before. -/
def Obligations.RecordsStayExact : Prop :=
  ∀ s t : State, step s = .next t → s.TablesCanonical → s.RecordsExact → t.RecordsExact ∧
    (s.TagsPlaced → t.TagsPlaced) ∧ (s.KeysPlaced → t.KeysPlaced) ∧ (s.DeadlinesInOrder → t.DeadlinesInOrder) ∧
    (s.TermsSound → s.FlowCountsBounded → t.FlowCountsBounded) ∧
    (s.WalkQueueDistinct → s.ZoneEpochsBounded → t.ZoneEpochsBounded)

/-- R22, R131 to R135: the three mark roles stay different, no live record carries the empty mark while no AGE walk
is in progress, and an AGE walk leaves no doomed mark behind its cursor. -/
def Obligations.TheEmptyMarkStaysUnused : Prop :=
  ∀ s t : State, step s = .next t → s.TablesCanonical → s.RecordsExact → s.MarksSound → t.MarksSound

/-- The invariants hold at the model's reset state (RESET_N still asserted: log 3), and at the state that power-on
reset leaves. -/
def Obligations.InvariantsHoldAtReset : Prop :=
  ∀ s : State, s = State.reset ∨ (∃ u : State, exec .powerOnReset u = .next s) →
    s.TablesCanonical ∧ s.WalkQueueDistinct ∧ s.AttentionExact ∧ s.LinksSound ∧ s.TermsSound ∧ s.ChannelsSound ∧
      s.RecordsExact ∧ s.MarksSound ∧ s.TagsPlaced ∧ s.KeysPlaced ∧ s.DeadlinesInOrder ∧ s.FlowCountsBounded ∧
      s.ZoneEpochsBounded
end

