-- ==== Sys2Proof/Laws/Table.lean ====
section
/-! SUPPORT. Sparse tables: what reading finds after each operation, and that every operation keeps the canonical
form. -/

namespace Sys2Proof.Machine

variable {α : Type}

/-- No entry of the table has index `i`. -/
def Table.lacks (t : Table α) (i : Nat) : Prop := ∀ e ∈ t, e.1 ≠ i

theorem Table.read_of_lacks {d : α} {t : Table α} {i : Nat} (h : t.lacks i) : Table.read d t i = d := by
  induction t with
  | nil => rfl
  | cons e rest ih =>
    have he : e.1 ≠ i := h e (by simp)
    have hr : Table.lacks rest i := fun x hx => h x (by simp [hx])
    simp [Table.read, he, ih hr]

theorem Table.read_place_same (d : α) (t : Table α) (i : Nat) (v : α) (h : t.lacks i) :
    Table.read d (Table.place t i v) i = v := by
  induction t with
  | nil => simp [Table.place, Table.read]
  | cons e rest ih =>
    have he : e.1 ≠ i := h e (by simp)
    have hr : Table.lacks rest i := fun x hx => h x (by simp [hx])
    unfold Table.place
    split
    · simp [Table.read]
    · simp [Table.read, he, ih hr]

theorem Table.read_place_ne (d : α) (t : Table α) {i j : Nat} (v : α) (h : j ≠ i) :
    Table.read d (Table.place t i v) j = Table.read d t j := by
  induction t with
  | nil => simp [Table.place, Table.read, Ne.symm h]
  | cons e rest ih =>
    unfold Table.place
    split
    · simp [Table.read, Ne.symm h]
    · simp only [Table.read, ih]

theorem Table.lacks_filter (t : Table α) (i : Nat) : Table.lacks (t.filter fun e => e.1 != i) i := by
  intro e he
  simpa using (List.mem_filter.mp he).2

theorem Table.read_filter_ne (d : α) (t : Table α) {i j : Nat} (h : j ≠ i) :
    Table.read d (t.filter fun e => e.1 != i) j = Table.read d t j := by
  induction t with
  | nil => rfl
  | cons e rest ih =>
    by_cases he : e.1 = i
    · have hne : e.1 ≠ j := fun hj => h (hj.symm.trans he)
      rw [List.filter_cons_of_neg (by simp [he]), ih]
      exact (if_neg hne).symm
    · rw [List.filter_cons_of_pos (by simp [he])]
      simp only [Table.read, ih]

theorem Table.mem_place {t : Table α} {i : Nat} {v : α} {e : Nat × α} (h : e ∈ Table.place t i v) :
    e = (i, v) ∨ e ∈ t := by
  induction t with
  | nil => simpa [Table.place] using h
  | cons x rest ih =>
    unfold Table.place at h
    split at h
    · simpa using h
    · rcases List.mem_cons.mp h with h | h
      · exact .inr (by simp [h])
      · rcases ih h with h | h
        · exact .inl h
        · exact .inr (by simp [h])

theorem Table.pairwise_place {t : Table α} {i : Nat} {v : α} (hs : t.Pairwise fun a b => a.1 < b.1)
    (hi : t.lacks i) : (Table.place t i v).Pairwise fun a b => a.1 < b.1 := by
  induction t with
  | nil => simp [Table.place]
  | cons x rest ih =>
    have hx : x.1 ≠ i := hi x (by simp)
    have hr : Table.lacks rest i := fun e he => hi e (by simp [he])
    obtain ⟨hfirst, hrest⟩ := List.pairwise_cons.mp hs
    unfold Table.place
    split
    · rename_i hlt
      refine List.pairwise_cons.mpr ⟨fun e he => ?_, hs⟩
      rcases List.mem_cons.mp he with he | he
      · simpa [he] using hlt
      · exact Nat.lt_trans hlt (hfirst e he)
    · rename_i hge
      have hge : ¬ i < x.1 := hge
      refine List.pairwise_cons.mpr ⟨fun e he => ?_, ih hrest hr⟩
      rcases Table.mem_place he with he | he
      · subst he
        show x.1 < i
        omega
      · exact hfirst e he

variable [DecidableEq α]

/-- What a write leaves at the index written. -/
@[simp] theorem Table.read_write_same (d : α) (t : Table α) (i : Nat) (v : α) :
    Table.read d (Table.write d t i v) i = v := by
  unfold Table.write
  split
  · rename_i hv
    rw [Table.read_of_lacks (Table.lacks_filter t i), hv]
  · exact Table.read_place_same d _ i v (Table.lacks_filter t i)

/-- A write changes no other index. -/
theorem Table.read_write_ne (d : α) (t : Table α) {i j : Nat} (v : α) (h : j ≠ i) :
    Table.read d (Table.write d t i v) j = Table.read d t j := by
  unfold Table.write
  split
  · exact Table.read_filter_ne d t h
  · rw [Table.read_place_ne d _ v h, Table.read_filter_ne d t h]

theorem Table.read_write (d : α) (t : Table α) (i j : Nat) (v : α) :
    Table.read d (Table.write d t i v) j = if j = i then v else Table.read d t j := by
  split
  · rename_i h
    rw [h, Table.read_write_same]
  · rename_i h
    exact Table.read_write_ne d t v h

omit [DecidableEq α] in
theorem Table.filter_place {t : Table α} {i : Nat} (v : α) (h : t.lacks i) :
    (Table.place t i v).filter (fun e => e.1 != i) = t := by
  induction t with
  | nil => simp [Table.place]
  | cons e rest ih =>
    have he : e.1 ≠ i := h e (by simp)
    have hr : Table.lacks rest i := fun x hx => h x (by simp [hx])
    have hf : rest.filter (fun e => e.1 != i) = rest := List.filter_eq_self.mpr fun x hx => by simpa using hr x hx
    unfold Table.place
    split
    · simp [he, hf]
    · simp [he, ih hr]

/-- Of two writes at one index the second stands. -/
theorem Table.write_write (d : α) (t : Table α) (i : Nat) (a b : α) :
    Table.write d (Table.write d t i a) i b = Table.write d t i b := by
  have h : (Table.write d t i a).filter (fun e => e.1 != i) = t.filter fun e => e.1 != i := by
    unfold Table.write
    dsimp only
    split
    · simp
    · exact Table.filter_place a (Table.lacks_filter t i)
  unfold Table.write at h ⊢
  dsimp only at h ⊢
  rw [h]

/-! ## The canonical form -/

/-- The canonical form as a proposition. -/
theorem Table.wf_iff (d : α) (n : Nat) (t : Table α) :
    Table.wf d n t = true ↔ (t.Pairwise fun a b => a.1 < b.1) ∧ ∀ e ∈ t, e.1 < n ∧ e.2 ≠ d := by
  simp [Table.wf, List.all_eq_true]

/-- A write at an index of the table keeps the canonical form. -/
theorem Table.write_wf {d : α} {n : Nat} {t : Table α} {i : Nat} {v : α} (h : Table.wf d n t = true) (hi : i < n) :
    Table.wf d n (Table.write d t i v) = true := by
  rw [Table.wf_iff] at h ⊢
  obtain ⟨hs, hall⟩ := h
  have hs' : (t.filter fun e => e.1 != i).Pairwise fun a b => a.1 < b.1 := hs.filter _
  unfold Table.write
  split
  · exact ⟨hs', fun e he => hall e (List.mem_filter.mp he).1⟩
  · rename_i hv
    refine ⟨Table.pairwise_place hs' (Table.lacks_filter t i), fun e he => ?_⟩
    rcases Table.mem_place he with he | he
    · subst he
      exact ⟨hi, hv⟩
    · exact hall e (List.mem_filter.mp he).1

/-- Applying a function to every record keeps the canonical form. -/
theorem Table.mapRecords_wf {d : α} {n : Nat} {t : Table α} {f : α → α} (h : Table.wf d n t = true) :
    Table.wf d n (Table.mapRecords d f t) = true := by
  rw [Table.wf_iff] at h ⊢
  obtain ⟨hs, hall⟩ := h
  unfold Table.mapRecords
  refine ⟨List.Pairwise.filter _ (List.pairwise_map.mpr hs), fun e he => ?_⟩
  obtain ⟨hmem, hne⟩ := List.mem_filter.mp he
  obtain ⟨x, hx, rfl⟩ := List.mem_map.mp hmem
  exact ⟨(hall x hx).1, by simpa using hne⟩

/-- What applying a function that keeps the power-on value leaves at each index of a canonical table. -/
theorem Table.read_mapRecords {d : α} {t : Table α} {f : α → α} (hs : t.Pairwise fun a b => a.1 < b.1)
    (hd : f d = d) (i : Nat) : Table.read d (Table.mapRecords d f t) i = f (Table.read d t i) := by
  induction t with
  | nil => simp [Table.mapRecords, Table.read, hd]
  | cons x rest ih =>
    obtain ⟨hfirst, hrest⟩ := List.pairwise_cons.mp hs
    have ih := ih hrest
    unfold Table.mapRecords at ih ⊢
    simp only [List.map_cons]
    by_cases hx : f x.2 = d
    · rw [List.filter_cons_of_neg (by simp [hx]), ih]
      by_cases hi : x.1 = i
      · have hl : Table.lacks rest i := fun e he => by
          have := hfirst e he
          omega
        simp [Table.read, hi, Table.read_of_lacks hl, hd, hx]
      · simp [Table.read, hi]
    · rw [List.filter_cons_of_pos (by simp [hx])]
      by_cases hi : x.1 = i
      · simp [Table.read, hi]
      · simp only [Table.read, hi, if_false, ih]

end Sys2Proof.Machine
end

