-- ==== Sys2Proof/Laws/State.lean ====
section
/-! SUPPORT. One lemma per field per update of the state: what each named update leaves as it was, and what reading finds
after writing. -/

namespace Sys2Proof.Machine

/-! ### setSub -/

@[simp] theorem setSub_resetHeld (s : State) (i : SubIx) (r : SubRecord) :
    (s.setSub i r).resetHeld = s.resetHeld := by rfl
@[simp] theorem setSub_pending (s : State) (i : SubIx) (r : SubRecord) : (s.setSub i r).pending = s.pending := by rfl
@[simp] theorem setSub_ci (s : State) (i : SubIx) (r : SubRecord) : (s.setSub i r).ci = s.ci := by rfl
@[simp] theorem setSub_stcUnwind (s : State) (i : SubIx) (r : SubRecord) :
    (s.setSub i r).stc.unwind = s.stc.unwind := by rfl
@[simp] theorem setSub_stcDeadlines (s : State) (i : SubIx) (r : SubRecord) :
    (s.setSub i r).stc.deadlines = s.stc.deadlines := by rfl
@[simp] theorem setSub_stcClosedCount (s : State) (i : SubIx) (r : SubRecord) :
    (s.setSub i r).stc.closedCount = s.stc.closedCount := by rfl
@[simp] theorem setSub_stcLastGranted (s : State) (i : SubIx) (r : SubRecord) :
    (s.setSub i r).stc.lastGranted = s.stc.lastGranted := by rfl
@[simp] theorem setSub_ftc (s : State) (i : SubIx) (r : SubRecord) : (s.setSub i r).ftc = s.ftc := by rfl
@[simp] theorem setSub_lm (s : State) (i : SubIx) (r : SubRecord) : (s.setSub i r).lm = s.lm := by rfl
@[simp] theorem setSub_zas (s : State) (i : SubIx) (r : SubRecord) : (s.setSub i r).zas = s.zas := by rfl
@[simp] theorem setSub_tw (s : State) (i : SubIx) (r : SubRecord) : (s.setSub i r).tw = s.tw := by rfl
@[simp] theorem setSub_al (s : State) (i : SubIx) (r : SubRecord) : (s.setSub i r).al = s.al := by rfl
@[simp] theorem setSub_flow (s : State) (i : SubIx) (r : SubRecord) (fi : FlowIx) :
    (s.setSub i r).flow fi = s.flow fi := by rfl
@[simp] theorem setSub_plru (s : State) (i : SubIx) (r : SubRecord) (bk : BitVec 12) :
    (s.setSub i r).plru bk = s.plru bk := by rfl
@[simp] theorem setSub_pinnedCount (s : State) (i : SubIx) (r : SubRecord) (lk : LinkId) :
    (s.setSub i r).pinnedCount lk = s.pinnedCount lk := by rfl
@[simp] theorem setSub_link (s : State) (i : SubIx) (r : SubRecord) (lk : LinkId) :
    (s.setSub i r).link lk = s.link lk := by rfl
@[simp] theorem setSub_drainedWaiting (s : State) (i : SubIx) (r : SubRecord) (lk : LinkId) :
    (s.setSub i r).drainedWaiting lk = s.drainedWaiting lk := by rfl
@[simp] theorem setSub_autoSnapshotDue (s : State) (i : SubIx) (r : SubRecord) (lk : LinkId) :
    (s.setSub i r).autoSnapshotDue lk = s.autoSnapshotDue lk := by rfl
@[simp] theorem setSub_zone (s : State) (i : SubIx) (r : SubRecord) (zn : ZoneIx) :
    (s.setSub i r).zone zn = s.zone zn := by rfl
@[simp] theorem setSub_tariff (s : State) (i : SubIx) (r : SubRecord) (ta : TariffIx) :
    (s.setSub i r).tariff ta = s.tariff ta := by rfl
@[simp] theorem setSub_chan (s : State) (i : SubIx) (r : SubRecord) (cn : Chan) :
    (s.setSub i r).chan cn = s.chan cn := by rfl
@[simp] theorem setSub_causesOf (s : State) (i : SubIx) (r : SubRecord) (ar : AttnRecord) :
    (s.setSub i r).causesOf ar = s.causesOf ar := by rfl

/-! ### setFlow -/

@[simp] theorem setFlow_resetHeld (s : State) (i : FlowIx) (f : FlowRecord) :
    (s.setFlow i f).resetHeld = s.resetHeld := by rfl
@[simp] theorem setFlow_pending (s : State) (i : FlowIx) (f : FlowRecord) :
    (s.setFlow i f).pending = s.pending := by rfl
@[simp] theorem setFlow_ci (s : State) (i : FlowIx) (f : FlowRecord) : (s.setFlow i f).ci = s.ci := by rfl
@[simp] theorem setFlow_stc (s : State) (i : FlowIx) (f : FlowRecord) : (s.setFlow i f).stc = s.stc := by rfl
@[simp] theorem setFlow_ftcPlru (s : State) (i : FlowIx) (f : FlowRecord) :
    (s.setFlow i f).ftc.plru = s.ftc.plru := by rfl
@[simp] theorem setFlow_ftcPinned (s : State) (i : FlowIx) (f : FlowRecord) :
    (s.setFlow i f).ftc.pinned = s.ftc.pinned := by rfl
@[simp] theorem setFlow_ftcLastGranted (s : State) (i : FlowIx) (f : FlowRecord) :
    (s.setFlow i f).ftc.lastGranted = s.ftc.lastGranted := by rfl
@[simp] theorem setFlow_lm (s : State) (i : FlowIx) (f : FlowRecord) : (s.setFlow i f).lm = s.lm := by rfl
@[simp] theorem setFlow_zas (s : State) (i : FlowIx) (f : FlowRecord) : (s.setFlow i f).zas = s.zas := by rfl
@[simp] theorem setFlow_tw (s : State) (i : FlowIx) (f : FlowRecord) : (s.setFlow i f).tw = s.tw := by rfl
@[simp] theorem setFlow_al (s : State) (i : FlowIx) (f : FlowRecord) : (s.setFlow i f).al = s.al := by rfl
@[simp] theorem setFlow_sub (s : State) (i : FlowIx) (f : FlowRecord) (si : SubIx) :
    (s.setFlow i f).sub si = s.sub si := by rfl
@[simp] theorem setFlow_plru (s : State) (i : FlowIx) (f : FlowRecord) (bk : BitVec 12) :
    (s.setFlow i f).plru bk = s.plru bk := by rfl
@[simp] theorem setFlow_pinnedCount (s : State) (i : FlowIx) (f : FlowRecord) (lk : LinkId) :
    (s.setFlow i f).pinnedCount lk = s.pinnedCount lk := by rfl
@[simp] theorem setFlow_link (s : State) (i : FlowIx) (f : FlowRecord) (lk : LinkId) :
    (s.setFlow i f).link lk = s.link lk := by rfl
@[simp] theorem setFlow_drainedWaiting (s : State) (i : FlowIx) (f : FlowRecord) (lk : LinkId) :
    (s.setFlow i f).drainedWaiting lk = s.drainedWaiting lk := by rfl
@[simp] theorem setFlow_autoSnapshotDue (s : State) (i : FlowIx) (f : FlowRecord) (lk : LinkId) :
    (s.setFlow i f).autoSnapshotDue lk = s.autoSnapshotDue lk := by rfl
@[simp] theorem setFlow_zone (s : State) (i : FlowIx) (f : FlowRecord) (zn : ZoneIx) :
    (s.setFlow i f).zone zn = s.zone zn := by rfl
@[simp] theorem setFlow_tariff (s : State) (i : FlowIx) (f : FlowRecord) (ta : TariffIx) :
    (s.setFlow i f).tariff ta = s.tariff ta := by rfl
@[simp] theorem setFlow_chan (s : State) (i : FlowIx) (f : FlowRecord) (cn : Chan) :
    (s.setFlow i f).chan cn = s.chan cn := by rfl
@[simp] theorem setFlow_causesOf (s : State) (i : FlowIx) (f : FlowRecord) (ar : AttnRecord) :
    (s.setFlow i f).causesOf ar = s.causesOf ar := by rfl

/-! ### setPlru -/

@[simp] theorem setPlru_resetHeld (s : State) (k : BitVec 12) (p : Plru) :
    (s.setPlru k p).resetHeld = s.resetHeld := by rfl
@[simp] theorem setPlru_pending (s : State) (k : BitVec 12) (p : Plru) : (s.setPlru k p).pending = s.pending := by rfl
@[simp] theorem setPlru_ci (s : State) (k : BitVec 12) (p : Plru) : (s.setPlru k p).ci = s.ci := by rfl
@[simp] theorem setPlru_stc (s : State) (k : BitVec 12) (p : Plru) : (s.setPlru k p).stc = s.stc := by rfl
@[simp] theorem setPlru_ftcFlows (s : State) (k : BitVec 12) (p : Plru) :
    (s.setPlru k p).ftc.flows = s.ftc.flows := by rfl
@[simp] theorem setPlru_ftcPinned (s : State) (k : BitVec 12) (p : Plru) :
    (s.setPlru k p).ftc.pinned = s.ftc.pinned := by rfl
@[simp] theorem setPlru_ftcLastGranted (s : State) (k : BitVec 12) (p : Plru) :
    (s.setPlru k p).ftc.lastGranted = s.ftc.lastGranted := by rfl
@[simp] theorem setPlru_lm (s : State) (k : BitVec 12) (p : Plru) : (s.setPlru k p).lm = s.lm := by rfl
@[simp] theorem setPlru_zas (s : State) (k : BitVec 12) (p : Plru) : (s.setPlru k p).zas = s.zas := by rfl
@[simp] theorem setPlru_tw (s : State) (k : BitVec 12) (p : Plru) : (s.setPlru k p).tw = s.tw := by rfl
@[simp] theorem setPlru_al (s : State) (k : BitVec 12) (p : Plru) : (s.setPlru k p).al = s.al := by rfl
@[simp] theorem setPlru_sub (s : State) (k : BitVec 12) (p : Plru) (si : SubIx) :
    (s.setPlru k p).sub si = s.sub si := by rfl
@[simp] theorem setPlru_flow (s : State) (k : BitVec 12) (p : Plru) (fi : FlowIx) :
    (s.setPlru k p).flow fi = s.flow fi := by rfl
@[simp] theorem setPlru_pinnedCount (s : State) (k : BitVec 12) (p : Plru) (lk : LinkId) :
    (s.setPlru k p).pinnedCount lk = s.pinnedCount lk := by rfl
@[simp] theorem setPlru_link (s : State) (k : BitVec 12) (p : Plru) (lk : LinkId) :
    (s.setPlru k p).link lk = s.link lk := by rfl
@[simp] theorem setPlru_drainedWaiting (s : State) (k : BitVec 12) (p : Plru) (lk : LinkId) :
    (s.setPlru k p).drainedWaiting lk = s.drainedWaiting lk := by rfl
@[simp] theorem setPlru_autoSnapshotDue (s : State) (k : BitVec 12) (p : Plru) (lk : LinkId) :
    (s.setPlru k p).autoSnapshotDue lk = s.autoSnapshotDue lk := by rfl
@[simp] theorem setPlru_zone (s : State) (k : BitVec 12) (p : Plru) (zn : ZoneIx) :
    (s.setPlru k p).zone zn = s.zone zn := by rfl
@[simp] theorem setPlru_tariff (s : State) (k : BitVec 12) (p : Plru) (ta : TariffIx) :
    (s.setPlru k p).tariff ta = s.tariff ta := by rfl
@[simp] theorem setPlru_chan (s : State) (k : BitVec 12) (p : Plru) (cn : Chan) :
    (s.setPlru k p).chan cn = s.chan cn := by rfl
@[simp] theorem setPlru_causesOf (s : State) (k : BitVec 12) (p : Plru) (ar : AttnRecord) :
    (s.setPlru k p).causesOf ar = s.causesOf ar := by rfl

/-! ### setPinned -/

@[simp] theorem setPinned_resetHeld (s : State) (l : LinkId) (n : Nat) :
    (s.setPinned l n).resetHeld = s.resetHeld := by rfl
@[simp] theorem setPinned_pending (s : State) (l : LinkId) (n : Nat) : (s.setPinned l n).pending = s.pending := by rfl
@[simp] theorem setPinned_ci (s : State) (l : LinkId) (n : Nat) : (s.setPinned l n).ci = s.ci := by rfl
@[simp] theorem setPinned_stc (s : State) (l : LinkId) (n : Nat) : (s.setPinned l n).stc = s.stc := by rfl
@[simp] theorem setPinned_ftcFlows (s : State) (l : LinkId) (n : Nat) :
    (s.setPinned l n).ftc.flows = s.ftc.flows := by rfl
@[simp] theorem setPinned_ftcPlru (s : State) (l : LinkId) (n : Nat) :
    (s.setPinned l n).ftc.plru = s.ftc.plru := by rfl
@[simp] theorem setPinned_ftcLastGranted (s : State) (l : LinkId) (n : Nat) :
    (s.setPinned l n).ftc.lastGranted = s.ftc.lastGranted := by rfl
@[simp] theorem setPinned_lm (s : State) (l : LinkId) (n : Nat) : (s.setPinned l n).lm = s.lm := by rfl
@[simp] theorem setPinned_zas (s : State) (l : LinkId) (n : Nat) : (s.setPinned l n).zas = s.zas := by rfl
@[simp] theorem setPinned_tw (s : State) (l : LinkId) (n : Nat) : (s.setPinned l n).tw = s.tw := by rfl
@[simp] theorem setPinned_al (s : State) (l : LinkId) (n : Nat) : (s.setPinned l n).al = s.al := by rfl
@[simp] theorem setPinned_sub (s : State) (l : LinkId) (n : Nat) (si : SubIx) :
    (s.setPinned l n).sub si = s.sub si := by rfl
@[simp] theorem setPinned_flow (s : State) (l : LinkId) (n : Nat) (fi : FlowIx) :
    (s.setPinned l n).flow fi = s.flow fi := by rfl
@[simp] theorem setPinned_plru (s : State) (l : LinkId) (n : Nat) (bk : BitVec 12) :
    (s.setPinned l n).plru bk = s.plru bk := by rfl
@[simp] theorem setPinned_link (s : State) (l : LinkId) (n : Nat) (lk : LinkId) :
    (s.setPinned l n).link lk = s.link lk := by rfl
@[simp] theorem setPinned_drainedWaiting (s : State) (l : LinkId) (n : Nat) (lk : LinkId) :
    (s.setPinned l n).drainedWaiting lk = s.drainedWaiting lk := by rfl
@[simp] theorem setPinned_autoSnapshotDue (s : State) (l : LinkId) (n : Nat) (lk : LinkId) :
    (s.setPinned l n).autoSnapshotDue lk = s.autoSnapshotDue lk := by rfl
@[simp] theorem setPinned_zone (s : State) (l : LinkId) (n : Nat) (zn : ZoneIx) :
    (s.setPinned l n).zone zn = s.zone zn := by rfl
@[simp] theorem setPinned_tariff (s : State) (l : LinkId) (n : Nat) (ta : TariffIx) :
    (s.setPinned l n).tariff ta = s.tariff ta := by rfl
@[simp] theorem setPinned_chan (s : State) (l : LinkId) (n : Nat) (cn : Chan) :
    (s.setPinned l n).chan cn = s.chan cn := by rfl
@[simp] theorem setPinned_causesOf (s : State) (l : LinkId) (n : Nat) (ar : AttnRecord) :
    (s.setPinned l n).causesOf ar = s.causesOf ar := by rfl

/-! ### setLink -/

@[simp] theorem setLink_resetHeld (s : State) (l : LinkId) (r : LinkRecord) :
    (s.setLink l r).resetHeld = s.resetHeld := by rfl
@[simp] theorem setLink_pending (s : State) (l : LinkId) (r : LinkRecord) :
    (s.setLink l r).pending = s.pending := by rfl
@[simp] theorem setLink_ci (s : State) (l : LinkId) (r : LinkRecord) : (s.setLink l r).ci = s.ci := by rfl
@[simp] theorem setLink_stc (s : State) (l : LinkId) (r : LinkRecord) : (s.setLink l r).stc = s.stc := by rfl
@[simp] theorem setLink_ftc (s : State) (l : LinkId) (r : LinkRecord) : (s.setLink l r).ftc = s.ftc := by rfl
@[simp] theorem setLink_lmDrained (s : State) (l : LinkId) (r : LinkRecord) :
    (s.setLink l r).lm.drained = s.lm.drained := by rfl
@[simp] theorem setLink_lmAutoDue (s : State) (l : LinkId) (r : LinkRecord) :
    (s.setLink l r).lm.autoDue = s.lm.autoDue := by rfl
@[simp] theorem setLink_zas (s : State) (l : LinkId) (r : LinkRecord) : (s.setLink l r).zas = s.zas := by rfl
@[simp] theorem setLink_tw (s : State) (l : LinkId) (r : LinkRecord) : (s.setLink l r).tw = s.tw := by rfl
@[simp] theorem setLink_al (s : State) (l : LinkId) (r : LinkRecord) : (s.setLink l r).al = s.al := by rfl
@[simp] theorem setLink_sub (s : State) (l : LinkId) (r : LinkRecord) (si : SubIx) :
    (s.setLink l r).sub si = s.sub si := by rfl
@[simp] theorem setLink_flow (s : State) (l : LinkId) (r : LinkRecord) (fi : FlowIx) :
    (s.setLink l r).flow fi = s.flow fi := by rfl
@[simp] theorem setLink_plru (s : State) (l : LinkId) (r : LinkRecord) (bk : BitVec 12) :
    (s.setLink l r).plru bk = s.plru bk := by rfl
@[simp] theorem setLink_pinnedCount (s : State) (l : LinkId) (r : LinkRecord) (lk : LinkId) :
    (s.setLink l r).pinnedCount lk = s.pinnedCount lk := by rfl
@[simp] theorem setLink_drainedWaiting (s : State) (l : LinkId) (r : LinkRecord) (lk : LinkId) :
    (s.setLink l r).drainedWaiting lk = s.drainedWaiting lk := by rfl
@[simp] theorem setLink_autoSnapshotDue (s : State) (l : LinkId) (r : LinkRecord) (lk : LinkId) :
    (s.setLink l r).autoSnapshotDue lk = s.autoSnapshotDue lk := by rfl
@[simp] theorem setLink_zone (s : State) (l : LinkId) (r : LinkRecord) (zn : ZoneIx) :
    (s.setLink l r).zone zn = s.zone zn := by rfl
@[simp] theorem setLink_tariff (s : State) (l : LinkId) (r : LinkRecord) (ta : TariffIx) :
    (s.setLink l r).tariff ta = s.tariff ta := by rfl
@[simp] theorem setLink_chan (s : State) (l : LinkId) (r : LinkRecord) (cn : Chan) :
    (s.setLink l r).chan cn = s.chan cn := by rfl
@[simp] theorem setLink_causesOf (s : State) (l : LinkId) (r : LinkRecord) (ar : AttnRecord) :
    (s.setLink l r).causesOf ar = s.causesOf ar := by rfl

/-! ### setDrained -/

@[simp] theorem setDrained_resetHeld (s : State) (l : LinkId) (v : Bool) :
    (s.setDrained l v).resetHeld = s.resetHeld := by rfl
@[simp] theorem setDrained_pending (s : State) (l : LinkId) (v : Bool) :
    (s.setDrained l v).pending = s.pending := by rfl
@[simp] theorem setDrained_ci (s : State) (l : LinkId) (v : Bool) : (s.setDrained l v).ci = s.ci := by rfl
@[simp] theorem setDrained_stc (s : State) (l : LinkId) (v : Bool) : (s.setDrained l v).stc = s.stc := by rfl
@[simp] theorem setDrained_ftc (s : State) (l : LinkId) (v : Bool) : (s.setDrained l v).ftc = s.ftc := by rfl
@[simp] theorem setDrained_lmLinks (s : State) (l : LinkId) (v : Bool) :
    (s.setDrained l v).lm.links = s.lm.links := by rfl
@[simp] theorem setDrained_lmAutoDue (s : State) (l : LinkId) (v : Bool) :
    (s.setDrained l v).lm.autoDue = s.lm.autoDue := by rfl
@[simp] theorem setDrained_zas (s : State) (l : LinkId) (v : Bool) : (s.setDrained l v).zas = s.zas := by rfl
@[simp] theorem setDrained_tw (s : State) (l : LinkId) (v : Bool) : (s.setDrained l v).tw = s.tw := by rfl
@[simp] theorem setDrained_al (s : State) (l : LinkId) (v : Bool) : (s.setDrained l v).al = s.al := by rfl
@[simp] theorem setDrained_sub (s : State) (l : LinkId) (v : Bool) (si : SubIx) :
    (s.setDrained l v).sub si = s.sub si := by rfl
@[simp] theorem setDrained_flow (s : State) (l : LinkId) (v : Bool) (fi : FlowIx) :
    (s.setDrained l v).flow fi = s.flow fi := by rfl
@[simp] theorem setDrained_plru (s : State) (l : LinkId) (v : Bool) (bk : BitVec 12) :
    (s.setDrained l v).plru bk = s.plru bk := by rfl
@[simp] theorem setDrained_pinnedCount (s : State) (l : LinkId) (v : Bool) (lk : LinkId) :
    (s.setDrained l v).pinnedCount lk = s.pinnedCount lk := by rfl
@[simp] theorem setDrained_link (s : State) (l : LinkId) (v : Bool) (lk : LinkId) :
    (s.setDrained l v).link lk = s.link lk := by rfl
@[simp] theorem setDrained_autoSnapshotDue (s : State) (l : LinkId) (v : Bool) (lk : LinkId) :
    (s.setDrained l v).autoSnapshotDue lk = s.autoSnapshotDue lk := by rfl
@[simp] theorem setDrained_zone (s : State) (l : LinkId) (v : Bool) (zn : ZoneIx) :
    (s.setDrained l v).zone zn = s.zone zn := by rfl
@[simp] theorem setDrained_tariff (s : State) (l : LinkId) (v : Bool) (ta : TariffIx) :
    (s.setDrained l v).tariff ta = s.tariff ta := by rfl
@[simp] theorem setDrained_chan (s : State) (l : LinkId) (v : Bool) (cn : Chan) :
    (s.setDrained l v).chan cn = s.chan cn := by rfl
@[simp] theorem setDrained_causesOf (s : State) (l : LinkId) (v : Bool) (ar : AttnRecord) :
    (s.setDrained l v).causesOf ar = s.causesOf ar := by rfl

/-! ### setAutoDue -/

@[simp] theorem setAutoDue_resetHeld (s : State) (l : LinkId) (v : Bool) :
    (s.setAutoDue l v).resetHeld = s.resetHeld := by rfl
@[simp] theorem setAutoDue_pending (s : State) (l : LinkId) (v : Bool) :
    (s.setAutoDue l v).pending = s.pending := by rfl
@[simp] theorem setAutoDue_ci (s : State) (l : LinkId) (v : Bool) : (s.setAutoDue l v).ci = s.ci := by rfl
@[simp] theorem setAutoDue_stc (s : State) (l : LinkId) (v : Bool) : (s.setAutoDue l v).stc = s.stc := by rfl
@[simp] theorem setAutoDue_ftc (s : State) (l : LinkId) (v : Bool) : (s.setAutoDue l v).ftc = s.ftc := by rfl
@[simp] theorem setAutoDue_lmLinks (s : State) (l : LinkId) (v : Bool) :
    (s.setAutoDue l v).lm.links = s.lm.links := by rfl
@[simp] theorem setAutoDue_lmDrained (s : State) (l : LinkId) (v : Bool) :
    (s.setAutoDue l v).lm.drained = s.lm.drained := by rfl
@[simp] theorem setAutoDue_zas (s : State) (l : LinkId) (v : Bool) : (s.setAutoDue l v).zas = s.zas := by rfl
@[simp] theorem setAutoDue_tw (s : State) (l : LinkId) (v : Bool) : (s.setAutoDue l v).tw = s.tw := by rfl
@[simp] theorem setAutoDue_al (s : State) (l : LinkId) (v : Bool) : (s.setAutoDue l v).al = s.al := by rfl
@[simp] theorem setAutoDue_sub (s : State) (l : LinkId) (v : Bool) (si : SubIx) :
    (s.setAutoDue l v).sub si = s.sub si := by rfl
@[simp] theorem setAutoDue_flow (s : State) (l : LinkId) (v : Bool) (fi : FlowIx) :
    (s.setAutoDue l v).flow fi = s.flow fi := by rfl
@[simp] theorem setAutoDue_plru (s : State) (l : LinkId) (v : Bool) (bk : BitVec 12) :
    (s.setAutoDue l v).plru bk = s.plru bk := by rfl
@[simp] theorem setAutoDue_pinnedCount (s : State) (l : LinkId) (v : Bool) (lk : LinkId) :
    (s.setAutoDue l v).pinnedCount lk = s.pinnedCount lk := by rfl
@[simp] theorem setAutoDue_link (s : State) (l : LinkId) (v : Bool) (lk : LinkId) :
    (s.setAutoDue l v).link lk = s.link lk := by rfl
@[simp] theorem setAutoDue_drainedWaiting (s : State) (l : LinkId) (v : Bool) (lk : LinkId) :
    (s.setAutoDue l v).drainedWaiting lk = s.drainedWaiting lk := by rfl
@[simp] theorem setAutoDue_zone (s : State) (l : LinkId) (v : Bool) (zn : ZoneIx) :
    (s.setAutoDue l v).zone zn = s.zone zn := by rfl
@[simp] theorem setAutoDue_tariff (s : State) (l : LinkId) (v : Bool) (ta : TariffIx) :
    (s.setAutoDue l v).tariff ta = s.tariff ta := by rfl
@[simp] theorem setAutoDue_chan (s : State) (l : LinkId) (v : Bool) (cn : Chan) :
    (s.setAutoDue l v).chan cn = s.chan cn := by rfl
@[simp] theorem setAutoDue_causesOf (s : State) (l : LinkId) (v : Bool) (ar : AttnRecord) :
    (s.setAutoDue l v).causesOf ar = s.causesOf ar := by rfl

/-! ### setZone -/

@[simp] theorem setZone_resetHeld (s : State) (k : ZoneIx) (r : ZoneRecord) :
    (s.setZone k r).resetHeld = s.resetHeld := by rfl
@[simp] theorem setZone_pending (s : State) (k : ZoneIx) (r : ZoneRecord) :
    (s.setZone k r).pending = s.pending := by rfl
@[simp] theorem setZone_ci (s : State) (k : ZoneIx) (r : ZoneRecord) : (s.setZone k r).ci = s.ci := by rfl
@[simp] theorem setZone_stc (s : State) (k : ZoneIx) (r : ZoneRecord) : (s.setZone k r).stc = s.stc := by rfl
@[simp] theorem setZone_ftc (s : State) (k : ZoneIx) (r : ZoneRecord) : (s.setZone k r).ftc = s.ftc := by rfl
@[simp] theorem setZone_lm (s : State) (k : ZoneIx) (r : ZoneRecord) : (s.setZone k r).lm = s.lm := by rfl
@[simp] theorem setZone_zasAgreements (s : State) (k : ZoneIx) (r : ZoneRecord) :
    (s.setZone k r).zas.agreements = s.zas.agreements := by rfl
@[simp] theorem setZone_zasTariffs (s : State) (k : ZoneIx) (r : ZoneRecord) :
    (s.setZone k r).zas.tariffs = s.zas.tariffs := by rfl
@[simp] theorem setZone_zasCurrentZone (s : State) (k : ZoneIx) (r : ZoneRecord) :
    (s.setZone k r).zas.currentZone = s.zas.currentZone := by rfl
@[simp] theorem setZone_zasZoneEpoch (s : State) (k : ZoneIx) (r : ZoneRecord) :
    (s.setZone k r).zas.zoneEpoch = s.zas.zoneEpoch := by rfl
@[simp] theorem setZone_zasPolicyEpoch (s : State) (k : ZoneIx) (r : ZoneRecord) :
    (s.setZone k r).zas.policyEpoch = s.zas.policyEpoch := by rfl
@[simp] theorem setZone_tw (s : State) (k : ZoneIx) (r : ZoneRecord) : (s.setZone k r).tw = s.tw := by rfl
@[simp] theorem setZone_al (s : State) (k : ZoneIx) (r : ZoneRecord) : (s.setZone k r).al = s.al := by rfl
@[simp] theorem setZone_sub (s : State) (k : ZoneIx) (r : ZoneRecord) (si : SubIx) :
    (s.setZone k r).sub si = s.sub si := by rfl
@[simp] theorem setZone_flow (s : State) (k : ZoneIx) (r : ZoneRecord) (fi : FlowIx) :
    (s.setZone k r).flow fi = s.flow fi := by rfl
@[simp] theorem setZone_plru (s : State) (k : ZoneIx) (r : ZoneRecord) (bk : BitVec 12) :
    (s.setZone k r).plru bk = s.plru bk := by rfl
@[simp] theorem setZone_pinnedCount (s : State) (k : ZoneIx) (r : ZoneRecord) (lk : LinkId) :
    (s.setZone k r).pinnedCount lk = s.pinnedCount lk := by rfl
@[simp] theorem setZone_link (s : State) (k : ZoneIx) (r : ZoneRecord) (lk : LinkId) :
    (s.setZone k r).link lk = s.link lk := by rfl
@[simp] theorem setZone_drainedWaiting (s : State) (k : ZoneIx) (r : ZoneRecord) (lk : LinkId) :
    (s.setZone k r).drainedWaiting lk = s.drainedWaiting lk := by rfl
@[simp] theorem setZone_autoSnapshotDue (s : State) (k : ZoneIx) (r : ZoneRecord) (lk : LinkId) :
    (s.setZone k r).autoSnapshotDue lk = s.autoSnapshotDue lk := by rfl
@[simp] theorem setZone_tariff (s : State) (k : ZoneIx) (r : ZoneRecord) (ta : TariffIx) :
    (s.setZone k r).tariff ta = s.tariff ta := by rfl
@[simp] theorem setZone_chan (s : State) (k : ZoneIx) (r : ZoneRecord) (cn : Chan) :
    (s.setZone k r).chan cn = s.chan cn := by rfl
@[simp] theorem setZone_causesOf (s : State) (k : ZoneIx) (r : ZoneRecord) (ar : AttnRecord) :
    (s.setZone k r).causesOf ar = s.causesOf ar := by rfl

/-! ### setTariff -/

@[simp] theorem setTariff_resetHeld (s : State) (k : TariffIx) (r : TariffRecord) :
    (s.setTariff k r).resetHeld = s.resetHeld := by rfl
@[simp] theorem setTariff_pending (s : State) (k : TariffIx) (r : TariffRecord) :
    (s.setTariff k r).pending = s.pending := by rfl
@[simp] theorem setTariff_ci (s : State) (k : TariffIx) (r : TariffRecord) : (s.setTariff k r).ci = s.ci := by rfl
@[simp] theorem setTariff_stc (s : State) (k : TariffIx) (r : TariffRecord) : (s.setTariff k r).stc = s.stc := by rfl
@[simp] theorem setTariff_ftc (s : State) (k : TariffIx) (r : TariffRecord) : (s.setTariff k r).ftc = s.ftc := by rfl
@[simp] theorem setTariff_lm (s : State) (k : TariffIx) (r : TariffRecord) : (s.setTariff k r).lm = s.lm := by rfl
@[simp] theorem setTariff_zasZones (s : State) (k : TariffIx) (r : TariffRecord) :
    (s.setTariff k r).zas.zones = s.zas.zones := by rfl
@[simp] theorem setTariff_zasAgreements (s : State) (k : TariffIx) (r : TariffRecord) :
    (s.setTariff k r).zas.agreements = s.zas.agreements := by rfl
@[simp] theorem setTariff_zasCurrentZone (s : State) (k : TariffIx) (r : TariffRecord) :
    (s.setTariff k r).zas.currentZone = s.zas.currentZone := by rfl
@[simp] theorem setTariff_zasZoneEpoch (s : State) (k : TariffIx) (r : TariffRecord) :
    (s.setTariff k r).zas.zoneEpoch = s.zas.zoneEpoch := by rfl
@[simp] theorem setTariff_zasPolicyEpoch (s : State) (k : TariffIx) (r : TariffRecord) :
    (s.setTariff k r).zas.policyEpoch = s.zas.policyEpoch := by rfl
@[simp] theorem setTariff_tw (s : State) (k : TariffIx) (r : TariffRecord) : (s.setTariff k r).tw = s.tw := by rfl
@[simp] theorem setTariff_al (s : State) (k : TariffIx) (r : TariffRecord) : (s.setTariff k r).al = s.al := by rfl
@[simp] theorem setTariff_sub (s : State) (k : TariffIx) (r : TariffRecord) (si : SubIx) :
    (s.setTariff k r).sub si = s.sub si := by rfl
@[simp] theorem setTariff_flow (s : State) (k : TariffIx) (r : TariffRecord) (fi : FlowIx) :
    (s.setTariff k r).flow fi = s.flow fi := by rfl
@[simp] theorem setTariff_plru (s : State) (k : TariffIx) (r : TariffRecord) (bk : BitVec 12) :
    (s.setTariff k r).plru bk = s.plru bk := by rfl
@[simp] theorem setTariff_pinnedCount (s : State) (k : TariffIx) (r : TariffRecord) (lk : LinkId) :
    (s.setTariff k r).pinnedCount lk = s.pinnedCount lk := by rfl
@[simp] theorem setTariff_link (s : State) (k : TariffIx) (r : TariffRecord) (lk : LinkId) :
    (s.setTariff k r).link lk = s.link lk := by rfl
@[simp] theorem setTariff_drainedWaiting (s : State) (k : TariffIx) (r : TariffRecord) (lk : LinkId) :
    (s.setTariff k r).drainedWaiting lk = s.drainedWaiting lk := by rfl
@[simp] theorem setTariff_autoSnapshotDue (s : State) (k : TariffIx) (r : TariffRecord) (lk : LinkId) :
    (s.setTariff k r).autoSnapshotDue lk = s.autoSnapshotDue lk := by rfl
@[simp] theorem setTariff_zone (s : State) (k : TariffIx) (r : TariffRecord) (zn : ZoneIx) :
    (s.setTariff k r).zone zn = s.zone zn := by rfl
@[simp] theorem setTariff_chan (s : State) (k : TariffIx) (r : TariffRecord) (cn : Chan) :
    (s.setTariff k r).chan cn = s.chan cn := by rfl
@[simp] theorem setTariff_causesOf (s : State) (k : TariffIx) (r : TariffRecord) (ar : AttnRecord) :
    (s.setTariff k r).causesOf ar = s.causesOf ar := by rfl

/-! ### setAgreements -/

@[simp] theorem setAgreements_resetHeld (s : State) (l : List Agreement) :
    (s.setAgreements l).resetHeld = s.resetHeld := by rfl
@[simp] theorem setAgreements_pending (s : State) (l : List Agreement) :
    (s.setAgreements l).pending = s.pending := by rfl
@[simp] theorem setAgreements_ci (s : State) (l : List Agreement) : (s.setAgreements l).ci = s.ci := by rfl
@[simp] theorem setAgreements_stc (s : State) (l : List Agreement) : (s.setAgreements l).stc = s.stc := by rfl
@[simp] theorem setAgreements_ftc (s : State) (l : List Agreement) : (s.setAgreements l).ftc = s.ftc := by rfl
@[simp] theorem setAgreements_lm (s : State) (l : List Agreement) : (s.setAgreements l).lm = s.lm := by rfl
@[simp] theorem setAgreements_zasZones (s : State) (l : List Agreement) :
    (s.setAgreements l).zas.zones = s.zas.zones := by rfl
@[simp] theorem setAgreements_zasTariffs (s : State) (l : List Agreement) :
    (s.setAgreements l).zas.tariffs = s.zas.tariffs := by rfl
@[simp] theorem setAgreements_zasCurrentZone (s : State) (l : List Agreement) :
    (s.setAgreements l).zas.currentZone = s.zas.currentZone := by rfl
@[simp] theorem setAgreements_zasZoneEpoch (s : State) (l : List Agreement) :
    (s.setAgreements l).zas.zoneEpoch = s.zas.zoneEpoch := by rfl
@[simp] theorem setAgreements_zasPolicyEpoch (s : State) (l : List Agreement) :
    (s.setAgreements l).zas.policyEpoch = s.zas.policyEpoch := by rfl
@[simp] theorem setAgreements_tw (s : State) (l : List Agreement) : (s.setAgreements l).tw = s.tw := by rfl
@[simp] theorem setAgreements_al (s : State) (l : List Agreement) : (s.setAgreements l).al = s.al := by rfl
@[simp] theorem setAgreements_sub (s : State) (l : List Agreement) (si : SubIx) :
    (s.setAgreements l).sub si = s.sub si := by rfl
@[simp] theorem setAgreements_flow (s : State) (l : List Agreement) (fi : FlowIx) :
    (s.setAgreements l).flow fi = s.flow fi := by rfl
@[simp] theorem setAgreements_plru (s : State) (l : List Agreement) (bk : BitVec 12) :
    (s.setAgreements l).plru bk = s.plru bk := by rfl
@[simp] theorem setAgreements_pinnedCount (s : State) (l : List Agreement) (lk : LinkId) :
    (s.setAgreements l).pinnedCount lk = s.pinnedCount lk := by rfl
@[simp] theorem setAgreements_link (s : State) (l : List Agreement) (lk : LinkId) :
    (s.setAgreements l).link lk = s.link lk := by rfl
@[simp] theorem setAgreements_drainedWaiting (s : State) (l : List Agreement) (lk : LinkId) :
    (s.setAgreements l).drainedWaiting lk = s.drainedWaiting lk := by rfl
@[simp] theorem setAgreements_autoSnapshotDue (s : State) (l : List Agreement) (lk : LinkId) :
    (s.setAgreements l).autoSnapshotDue lk = s.autoSnapshotDue lk := by rfl
@[simp] theorem setAgreements_zone (s : State) (l : List Agreement) (zn : ZoneIx) :
    (s.setAgreements l).zone zn = s.zone zn := by rfl
@[simp] theorem setAgreements_tariff (s : State) (l : List Agreement) (ta : TariffIx) :
    (s.setAgreements l).tariff ta = s.tariff ta := by rfl
@[simp] theorem setAgreements_chan (s : State) (l : List Agreement) (cn : Chan) :
    (s.setAgreements l).chan cn = s.chan cn := by rfl
@[simp] theorem setAgreements_causesOf (s : State) (l : List Agreement) (ar : AttnRecord) :
    (s.setAgreements l).causesOf ar = s.causesOf ar := by rfl

/-! ### setChan -/

@[simp] theorem setChan_resetHeld (s : State) (ch : Chan) (r : ChannelRecord) :
    (s.setChan ch r).resetHeld = s.resetHeld := by rfl
@[simp] theorem setChan_pending (s : State) (ch : Chan) (r : ChannelRecord) :
    (s.setChan ch r).pending = s.pending := by rfl
@[simp] theorem setChan_ciSoftReset (s : State) (ch : Chan) (r : ChannelRecord) :
    (s.setChan ch r).ci.softReset = s.ci.softReset := by rfl
@[simp] theorem setChan_stc (s : State) (ch : Chan) (r : ChannelRecord) : (s.setChan ch r).stc = s.stc := by rfl
@[simp] theorem setChan_ftc (s : State) (ch : Chan) (r : ChannelRecord) : (s.setChan ch r).ftc = s.ftc := by rfl
@[simp] theorem setChan_lm (s : State) (ch : Chan) (r : ChannelRecord) : (s.setChan ch r).lm = s.lm := by rfl
@[simp] theorem setChan_zas (s : State) (ch : Chan) (r : ChannelRecord) : (s.setChan ch r).zas = s.zas := by rfl
@[simp] theorem setChan_tw (s : State) (ch : Chan) (r : ChannelRecord) : (s.setChan ch r).tw = s.tw := by rfl
@[simp] theorem setChan_al (s : State) (ch : Chan) (r : ChannelRecord) : (s.setChan ch r).al = s.al := by rfl
@[simp] theorem setChan_sub (s : State) (ch : Chan) (r : ChannelRecord) (si : SubIx) :
    (s.setChan ch r).sub si = s.sub si := by rfl
@[simp] theorem setChan_flow (s : State) (ch : Chan) (r : ChannelRecord) (fi : FlowIx) :
    (s.setChan ch r).flow fi = s.flow fi := by rfl
@[simp] theorem setChan_plru (s : State) (ch : Chan) (r : ChannelRecord) (bk : BitVec 12) :
    (s.setChan ch r).plru bk = s.plru bk := by rfl
@[simp] theorem setChan_pinnedCount (s : State) (ch : Chan) (r : ChannelRecord) (lk : LinkId) :
    (s.setChan ch r).pinnedCount lk = s.pinnedCount lk := by rfl
@[simp] theorem setChan_link (s : State) (ch : Chan) (r : ChannelRecord) (lk : LinkId) :
    (s.setChan ch r).link lk = s.link lk := by rfl
@[simp] theorem setChan_drainedWaiting (s : State) (ch : Chan) (r : ChannelRecord) (lk : LinkId) :
    (s.setChan ch r).drainedWaiting lk = s.drainedWaiting lk := by rfl
@[simp] theorem setChan_autoSnapshotDue (s : State) (ch : Chan) (r : ChannelRecord) (lk : LinkId) :
    (s.setChan ch r).autoSnapshotDue lk = s.autoSnapshotDue lk := by rfl
@[simp] theorem setChan_zone (s : State) (ch : Chan) (r : ChannelRecord) (zn : ZoneIx) :
    (s.setChan ch r).zone zn = s.zone zn := by rfl
@[simp] theorem setChan_tariff (s : State) (ch : Chan) (r : ChannelRecord) (ta : TariffIx) :
    (s.setChan ch r).tariff ta = s.tariff ta := by rfl
@[simp] theorem setChan_causesOf (s : State) (ch : Chan) (r : ChannelRecord) (ar : AttnRecord) :
    (s.setChan ch r).causesOf ar = s.causesOf ar := by rfl

/-! ### setPhase -/

@[simp] theorem setPhase_resetHeld (s : State) (p : SoftResetPhase) : (s.setPhase p).resetHeld = s.resetHeld := by rfl
@[simp] theorem setPhase_pending (s : State) (p : SoftResetPhase) : (s.setPhase p).pending = s.pending := by rfl
@[simp] theorem setPhase_ciChannels (s : State) (p : SoftResetPhase) :
    (s.setPhase p).ci.channels = s.ci.channels := by rfl
@[simp] theorem setPhase_stc (s : State) (p : SoftResetPhase) : (s.setPhase p).stc = s.stc := by rfl
@[simp] theorem setPhase_ftc (s : State) (p : SoftResetPhase) : (s.setPhase p).ftc = s.ftc := by rfl
@[simp] theorem setPhase_lm (s : State) (p : SoftResetPhase) : (s.setPhase p).lm = s.lm := by rfl
@[simp] theorem setPhase_zas (s : State) (p : SoftResetPhase) : (s.setPhase p).zas = s.zas := by rfl
@[simp] theorem setPhase_tw (s : State) (p : SoftResetPhase) : (s.setPhase p).tw = s.tw := by rfl
@[simp] theorem setPhase_al (s : State) (p : SoftResetPhase) : (s.setPhase p).al = s.al := by rfl
@[simp] theorem setPhase_sub (s : State) (p : SoftResetPhase) (si : SubIx) :
    (s.setPhase p).sub si = s.sub si := by rfl
@[simp] theorem setPhase_flow (s : State) (p : SoftResetPhase) (fi : FlowIx) :
    (s.setPhase p).flow fi = s.flow fi := by rfl
@[simp] theorem setPhase_plru (s : State) (p : SoftResetPhase) (bk : BitVec 12) :
    (s.setPhase p).plru bk = s.plru bk := by rfl
@[simp] theorem setPhase_pinnedCount (s : State) (p : SoftResetPhase) (lk : LinkId) :
    (s.setPhase p).pinnedCount lk = s.pinnedCount lk := by rfl
@[simp] theorem setPhase_link (s : State) (p : SoftResetPhase) (lk : LinkId) :
    (s.setPhase p).link lk = s.link lk := by rfl
@[simp] theorem setPhase_drainedWaiting (s : State) (p : SoftResetPhase) (lk : LinkId) :
    (s.setPhase p).drainedWaiting lk = s.drainedWaiting lk := by rfl
@[simp] theorem setPhase_autoSnapshotDue (s : State) (p : SoftResetPhase) (lk : LinkId) :
    (s.setPhase p).autoSnapshotDue lk = s.autoSnapshotDue lk := by rfl
@[simp] theorem setPhase_zone (s : State) (p : SoftResetPhase) (zn : ZoneIx) :
    (s.setPhase p).zone zn = s.zone zn := by rfl
@[simp] theorem setPhase_tariff (s : State) (p : SoftResetPhase) (ta : TariffIx) :
    (s.setPhase p).tariff ta = s.tariff ta := by rfl
@[simp] theorem setPhase_chan (s : State) (p : SoftResetPhase) (cn : Chan) :
    (s.setPhase p).chan cn = s.chan cn := by rfl
@[simp] theorem setPhase_causesOf (s : State) (p : SoftResetPhase) (ar : AttnRecord) :
    (s.setPhase p).causesOf ar = s.causesOf ar := by rfl

/-! ### setList -/

@[simp] theorem setList_resetHeld (s : State) (l : List AttnEntry) : (s.setList l).resetHeld = s.resetHeld := by rfl
@[simp] theorem setList_pending (s : State) (l : List AttnEntry) : (s.setList l).pending = s.pending := by rfl
@[simp] theorem setList_ci (s : State) (l : List AttnEntry) : (s.setList l).ci = s.ci := by rfl
@[simp] theorem setList_stc (s : State) (l : List AttnEntry) : (s.setList l).stc = s.stc := by rfl
@[simp] theorem setList_ftc (s : State) (l : List AttnEntry) : (s.setList l).ftc = s.ftc := by rfl
@[simp] theorem setList_lm (s : State) (l : List AttnEntry) : (s.setList l).lm = s.lm := by rfl
@[simp] theorem setList_zas (s : State) (l : List AttnEntry) : (s.setList l).zas = s.zas := by rfl
@[simp] theorem setList_tw (s : State) (l : List AttnEntry) : (s.setList l).tw = s.tw := by rfl
@[simp] theorem setList_alOverrunBitmap (s : State) (l : List AttnEntry) :
    (s.setList l).al.overrunBitmap = s.al.overrunBitmap := by rfl
@[simp] theorem setList_alReady (s : State) (l : List AttnEntry) : (s.setList l).al.ready = s.al.ready := by rfl
@[simp] theorem setList_alCount (s : State) (l : List AttnEntry) : (s.setList l).al.count = s.al.count := by rfl
@[simp] theorem setList_alAgeInterval (s : State) (l : List AttnEntry) :
    (s.setList l).al.ageInterval = s.al.ageInterval := by rfl
@[simp] theorem setList_alAgeDeadline (s : State) (l : List AttnEntry) :
    (s.setList l).al.ageDeadline = s.al.ageDeadline := by rfl
@[simp] theorem setList_alInterruptEnable (s : State) (l : List AttnEntry) :
    (s.setList l).al.interruptEnable = s.al.interruptEnable := by rfl
@[simp] theorem setList_sub (s : State) (l : List AttnEntry) (si : SubIx) : (s.setList l).sub si = s.sub si := by rfl
@[simp] theorem setList_flow (s : State) (l : List AttnEntry) (fi : FlowIx) :
    (s.setList l).flow fi = s.flow fi := by rfl
@[simp] theorem setList_plru (s : State) (l : List AttnEntry) (bk : BitVec 12) :
    (s.setList l).plru bk = s.plru bk := by rfl
@[simp] theorem setList_pinnedCount (s : State) (l : List AttnEntry) (lk : LinkId) :
    (s.setList l).pinnedCount lk = s.pinnedCount lk := by rfl
@[simp] theorem setList_link (s : State) (l : List AttnEntry) (lk : LinkId) :
    (s.setList l).link lk = s.link lk := by rfl
@[simp] theorem setList_drainedWaiting (s : State) (l : List AttnEntry) (lk : LinkId) :
    (s.setList l).drainedWaiting lk = s.drainedWaiting lk := by rfl
@[simp] theorem setList_autoSnapshotDue (s : State) (l : List AttnEntry) (lk : LinkId) :
    (s.setList l).autoSnapshotDue lk = s.autoSnapshotDue lk := by rfl
@[simp] theorem setList_zone (s : State) (l : List AttnEntry) (zn : ZoneIx) :
    (s.setList l).zone zn = s.zone zn := by rfl
@[simp] theorem setList_tariff (s : State) (l : List AttnEntry) (ta : TariffIx) :
    (s.setList l).tariff ta = s.tariff ta := by rfl
@[simp] theorem setList_chan (s : State) (l : List AttnEntry) (cn : Chan) :
    (s.setList l).chan cn = s.chan cn := by rfl

/-! ### setWalk -/

@[simp] theorem setWalk_resetHeld (s : State) (w : Option Walk) : (s.setWalk w).resetHeld = s.resetHeld := by rfl
@[simp] theorem setWalk_pending (s : State) (w : Option Walk) : (s.setWalk w).pending = s.pending := by rfl
@[simp] theorem setWalk_ci (s : State) (w : Option Walk) : (s.setWalk w).ci = s.ci := by rfl
@[simp] theorem setWalk_stc (s : State) (w : Option Walk) : (s.setWalk w).stc = s.stc := by rfl
@[simp] theorem setWalk_ftc (s : State) (w : Option Walk) : (s.setWalk w).ftc = s.ftc := by rfl
@[simp] theorem setWalk_lm (s : State) (w : Option Walk) : (s.setWalk w).lm = s.lm := by rfl
@[simp] theorem setWalk_zas (s : State) (w : Option Walk) : (s.setWalk w).zas = s.zas := by rfl
@[simp] theorem setWalk_twQueue (s : State) (w : Option Walk) : (s.setWalk w).tw.queue = s.tw.queue := by rfl
@[simp] theorem setWalk_twCurrentMark (s : State) (w : Option Walk) :
    (s.setWalk w).tw.currentMark = s.tw.currentMark := by rfl
@[simp] theorem setWalk_twPreviousMark (s : State) (w : Option Walk) :
    (s.setWalk w).tw.previousMark = s.tw.previousMark := by rfl
@[simp] theorem setWalk_twThirdMark (s : State) (w : Option Walk) :
    (s.setWalk w).tw.thirdMark = s.tw.thirdMark := by rfl
@[simp] theorem setWalk_twAgeSummary (s : State) (w : Option Walk) :
    (s.setWalk w).tw.ageSummary = s.tw.ageSummary := by rfl
@[simp] theorem setWalk_twZoneSummary (s : State) (w : Option Walk) :
    (s.setWalk w).tw.zoneSummary = s.tw.zoneSummary := by rfl
@[simp] theorem setWalk_twRecheckSummary (s : State) (w : Option Walk) :
    (s.setWalk w).tw.recheckSummary = s.tw.recheckSummary := by rfl
@[simp] theorem setWalk_al (s : State) (w : Option Walk) : (s.setWalk w).al = s.al := by rfl
@[simp] theorem setWalk_sub (s : State) (w : Option Walk) (si : SubIx) : (s.setWalk w).sub si = s.sub si := by rfl
@[simp] theorem setWalk_flow (s : State) (w : Option Walk) (fi : FlowIx) : (s.setWalk w).flow fi = s.flow fi := by rfl
@[simp] theorem setWalk_plru (s : State) (w : Option Walk) (bk : BitVec 12) :
    (s.setWalk w).plru bk = s.plru bk := by rfl
@[simp] theorem setWalk_pinnedCount (s : State) (w : Option Walk) (lk : LinkId) :
    (s.setWalk w).pinnedCount lk = s.pinnedCount lk := by rfl
@[simp] theorem setWalk_link (s : State) (w : Option Walk) (lk : LinkId) : (s.setWalk w).link lk = s.link lk := by rfl
@[simp] theorem setWalk_drainedWaiting (s : State) (w : Option Walk) (lk : LinkId) :
    (s.setWalk w).drainedWaiting lk = s.drainedWaiting lk := by rfl
@[simp] theorem setWalk_autoSnapshotDue (s : State) (w : Option Walk) (lk : LinkId) :
    (s.setWalk w).autoSnapshotDue lk = s.autoSnapshotDue lk := by rfl
@[simp] theorem setWalk_zone (s : State) (w : Option Walk) (zn : ZoneIx) : (s.setWalk w).zone zn = s.zone zn := by rfl
@[simp] theorem setWalk_tariff (s : State) (w : Option Walk) (ta : TariffIx) :
    (s.setWalk w).tariff ta = s.tariff ta := by rfl
@[simp] theorem setWalk_chan (s : State) (w : Option Walk) (cn : Chan) : (s.setWalk w).chan cn = s.chan cn := by rfl
@[simp] theorem setWalk_causesOf (s : State) (w : Option Walk) (ar : AttnRecord) :
    (s.setWalk w).causesOf ar = s.causesOf ar := by rfl

/-! ### setQueue -/

@[simp] theorem setQueue_resetHeld (s : State) (q : List WalkEntry) : (s.setQueue q).resetHeld = s.resetHeld := by rfl
@[simp] theorem setQueue_pending (s : State) (q : List WalkEntry) : (s.setQueue q).pending = s.pending := by rfl
@[simp] theorem setQueue_ci (s : State) (q : List WalkEntry) : (s.setQueue q).ci = s.ci := by rfl
@[simp] theorem setQueue_stc (s : State) (q : List WalkEntry) : (s.setQueue q).stc = s.stc := by rfl
@[simp] theorem setQueue_ftc (s : State) (q : List WalkEntry) : (s.setQueue q).ftc = s.ftc := by rfl
@[simp] theorem setQueue_lm (s : State) (q : List WalkEntry) : (s.setQueue q).lm = s.lm := by rfl
@[simp] theorem setQueue_zas (s : State) (q : List WalkEntry) : (s.setQueue q).zas = s.zas := by rfl
@[simp] theorem setQueue_twWalk (s : State) (q : List WalkEntry) : (s.setQueue q).tw.walk = s.tw.walk := by rfl
@[simp] theorem setQueue_twCurrentMark (s : State) (q : List WalkEntry) :
    (s.setQueue q).tw.currentMark = s.tw.currentMark := by rfl
@[simp] theorem setQueue_twPreviousMark (s : State) (q : List WalkEntry) :
    (s.setQueue q).tw.previousMark = s.tw.previousMark := by rfl
@[simp] theorem setQueue_twThirdMark (s : State) (q : List WalkEntry) :
    (s.setQueue q).tw.thirdMark = s.tw.thirdMark := by rfl
@[simp] theorem setQueue_twAgeSummary (s : State) (q : List WalkEntry) :
    (s.setQueue q).tw.ageSummary = s.tw.ageSummary := by rfl
@[simp] theorem setQueue_twZoneSummary (s : State) (q : List WalkEntry) :
    (s.setQueue q).tw.zoneSummary = s.tw.zoneSummary := by rfl
@[simp] theorem setQueue_twRecheckSummary (s : State) (q : List WalkEntry) :
    (s.setQueue q).tw.recheckSummary = s.tw.recheckSummary := by rfl
@[simp] theorem setQueue_al (s : State) (q : List WalkEntry) : (s.setQueue q).al = s.al := by rfl
@[simp] theorem setQueue_sub (s : State) (q : List WalkEntry) (si : SubIx) :
    (s.setQueue q).sub si = s.sub si := by rfl
@[simp] theorem setQueue_flow (s : State) (q : List WalkEntry) (fi : FlowIx) :
    (s.setQueue q).flow fi = s.flow fi := by rfl
@[simp] theorem setQueue_plru (s : State) (q : List WalkEntry) (bk : BitVec 12) :
    (s.setQueue q).plru bk = s.plru bk := by rfl
@[simp] theorem setQueue_pinnedCount (s : State) (q : List WalkEntry) (lk : LinkId) :
    (s.setQueue q).pinnedCount lk = s.pinnedCount lk := by rfl
@[simp] theorem setQueue_link (s : State) (q : List WalkEntry) (lk : LinkId) :
    (s.setQueue q).link lk = s.link lk := by rfl
@[simp] theorem setQueue_drainedWaiting (s : State) (q : List WalkEntry) (lk : LinkId) :
    (s.setQueue q).drainedWaiting lk = s.drainedWaiting lk := by rfl
@[simp] theorem setQueue_autoSnapshotDue (s : State) (q : List WalkEntry) (lk : LinkId) :
    (s.setQueue q).autoSnapshotDue lk = s.autoSnapshotDue lk := by rfl
@[simp] theorem setQueue_zone (s : State) (q : List WalkEntry) (zn : ZoneIx) :
    (s.setQueue q).zone zn = s.zone zn := by rfl
@[simp] theorem setQueue_tariff (s : State) (q : List WalkEntry) (ta : TariffIx) :
    (s.setQueue q).tariff ta = s.tariff ta := by rfl
@[simp] theorem setQueue_chan (s : State) (q : List WalkEntry) (cn : Chan) :
    (s.setQueue q).chan cn = s.chan cn := by rfl
@[simp] theorem setQueue_causesOf (s : State) (q : List WalkEntry) (ar : AttnRecord) :
    (s.setQueue q).causesOf ar = s.causesOf ar := by rfl

/-! ### leaveDeadlines -/

@[simp] theorem leaveDeadlines_resetHeld (s : State) (i : SubIx) :
    (s.leaveDeadlines i).resetHeld = s.resetHeld := by rfl
@[simp] theorem leaveDeadlines_pending (s : State) (i : SubIx) : (s.leaveDeadlines i).pending = s.pending := by rfl
@[simp] theorem leaveDeadlines_ci (s : State) (i : SubIx) : (s.leaveDeadlines i).ci = s.ci := by rfl
@[simp] theorem leaveDeadlines_stcSubs (s : State) (i : SubIx) : (s.leaveDeadlines i).stc.subs = s.stc.subs := by rfl
@[simp] theorem leaveDeadlines_stcUnwind (s : State) (i : SubIx) :
    (s.leaveDeadlines i).stc.unwind = s.stc.unwind := by rfl
@[simp] theorem leaveDeadlines_stcClosedCount (s : State) (i : SubIx) :
    (s.leaveDeadlines i).stc.closedCount = s.stc.closedCount := by rfl
@[simp] theorem leaveDeadlines_stcLastGranted (s : State) (i : SubIx) :
    (s.leaveDeadlines i).stc.lastGranted = s.stc.lastGranted := by rfl
@[simp] theorem leaveDeadlines_ftc (s : State) (i : SubIx) : (s.leaveDeadlines i).ftc = s.ftc := by rfl
@[simp] theorem leaveDeadlines_lm (s : State) (i : SubIx) : (s.leaveDeadlines i).lm = s.lm := by rfl
@[simp] theorem leaveDeadlines_zas (s : State) (i : SubIx) : (s.leaveDeadlines i).zas = s.zas := by rfl
@[simp] theorem leaveDeadlines_tw (s : State) (i : SubIx) : (s.leaveDeadlines i).tw = s.tw := by rfl
@[simp] theorem leaveDeadlines_al (s : State) (i : SubIx) : (s.leaveDeadlines i).al = s.al := by rfl
@[simp] theorem leaveDeadlines_sub (s : State) (i : SubIx) (si : SubIx) :
    (s.leaveDeadlines i).sub si = s.sub si := by rfl
@[simp] theorem leaveDeadlines_flow (s : State) (i : SubIx) (fi : FlowIx) :
    (s.leaveDeadlines i).flow fi = s.flow fi := by rfl
@[simp] theorem leaveDeadlines_plru (s : State) (i : SubIx) (bk : BitVec 12) :
    (s.leaveDeadlines i).plru bk = s.plru bk := by rfl
@[simp] theorem leaveDeadlines_pinnedCount (s : State) (i : SubIx) (lk : LinkId) :
    (s.leaveDeadlines i).pinnedCount lk = s.pinnedCount lk := by rfl
@[simp] theorem leaveDeadlines_link (s : State) (i : SubIx) (lk : LinkId) :
    (s.leaveDeadlines i).link lk = s.link lk := by rfl
@[simp] theorem leaveDeadlines_drainedWaiting (s : State) (i : SubIx) (lk : LinkId) :
    (s.leaveDeadlines i).drainedWaiting lk = s.drainedWaiting lk := by rfl
@[simp] theorem leaveDeadlines_autoSnapshotDue (s : State) (i : SubIx) (lk : LinkId) :
    (s.leaveDeadlines i).autoSnapshotDue lk = s.autoSnapshotDue lk := by rfl
@[simp] theorem leaveDeadlines_zone (s : State) (i : SubIx) (zn : ZoneIx) :
    (s.leaveDeadlines i).zone zn = s.zone zn := by rfl
@[simp] theorem leaveDeadlines_tariff (s : State) (i : SubIx) (ta : TariffIx) :
    (s.leaveDeadlines i).tariff ta = s.tariff ta := by rfl
@[simp] theorem leaveDeadlines_chan (s : State) (i : SubIx) (cn : Chan) :
    (s.leaveDeadlines i).chan cn = s.chan cn := by rfl
@[simp] theorem leaveDeadlines_causesOf (s : State) (i : SubIx) (ar : AttnRecord) :
    (s.leaveDeadlines i).causesOf ar = s.causesOf ar := by rfl

/-! ### addClosed -/

@[simp] theorem addClosed_resetHeld (s : State) (n : Nat) : (s.addClosed n).resetHeld = s.resetHeld := by rfl
@[simp] theorem addClosed_pending (s : State) (n : Nat) : (s.addClosed n).pending = s.pending := by rfl
@[simp] theorem addClosed_ci (s : State) (n : Nat) : (s.addClosed n).ci = s.ci := by rfl
@[simp] theorem addClosed_stcSubs (s : State) (n : Nat) : (s.addClosed n).stc.subs = s.stc.subs := by rfl
@[simp] theorem addClosed_stcUnwind (s : State) (n : Nat) : (s.addClosed n).stc.unwind = s.stc.unwind := by rfl
@[simp] theorem addClosed_stcDeadlines (s : State) (n : Nat) :
    (s.addClosed n).stc.deadlines = s.stc.deadlines := by rfl
@[simp] theorem addClosed_stcLastGranted (s : State) (n : Nat) :
    (s.addClosed n).stc.lastGranted = s.stc.lastGranted := by rfl
@[simp] theorem addClosed_ftc (s : State) (n : Nat) : (s.addClosed n).ftc = s.ftc := by rfl
@[simp] theorem addClosed_lm (s : State) (n : Nat) : (s.addClosed n).lm = s.lm := by rfl
@[simp] theorem addClosed_zas (s : State) (n : Nat) : (s.addClosed n).zas = s.zas := by rfl
@[simp] theorem addClosed_tw (s : State) (n : Nat) : (s.addClosed n).tw = s.tw := by rfl
@[simp] theorem addClosed_al (s : State) (n : Nat) : (s.addClosed n).al = s.al := by rfl
@[simp] theorem addClosed_sub (s : State) (n : Nat) (si : SubIx) : (s.addClosed n).sub si = s.sub si := by rfl
@[simp] theorem addClosed_flow (s : State) (n : Nat) (fi : FlowIx) : (s.addClosed n).flow fi = s.flow fi := by rfl
@[simp] theorem addClosed_plru (s : State) (n : Nat) (bk : BitVec 12) : (s.addClosed n).plru bk = s.plru bk := by rfl
@[simp] theorem addClosed_pinnedCount (s : State) (n : Nat) (lk : LinkId) :
    (s.addClosed n).pinnedCount lk = s.pinnedCount lk := by rfl
@[simp] theorem addClosed_link (s : State) (n : Nat) (lk : LinkId) : (s.addClosed n).link lk = s.link lk := by rfl
@[simp] theorem addClosed_drainedWaiting (s : State) (n : Nat) (lk : LinkId) :
    (s.addClosed n).drainedWaiting lk = s.drainedWaiting lk := by rfl
@[simp] theorem addClosed_autoSnapshotDue (s : State) (n : Nat) (lk : LinkId) :
    (s.addClosed n).autoSnapshotDue lk = s.autoSnapshotDue lk := by rfl
@[simp] theorem addClosed_zone (s : State) (n : Nat) (zn : ZoneIx) : (s.addClosed n).zone zn = s.zone zn := by rfl
@[simp] theorem addClosed_tariff (s : State) (n : Nat) (ta : TariffIx) :
    (s.addClosed n).tariff ta = s.tariff ta := by rfl
@[simp] theorem addClosed_chan (s : State) (n : Nat) (cn : Chan) : (s.addClosed n).chan cn = s.chan cn := by rfl
@[simp] theorem addClosed_causesOf (s : State) (n : Nat) (ar : AttnRecord) :
    (s.addClosed n).causesOf ar = s.causesOf ar := by rfl

/-! ### dropClosed -/

@[simp] theorem dropClosed_resetHeld (s : State) (n : Nat) : (s.dropClosed n).resetHeld = s.resetHeld := by rfl
@[simp] theorem dropClosed_pending (s : State) (n : Nat) : (s.dropClosed n).pending = s.pending := by rfl
@[simp] theorem dropClosed_ci (s : State) (n : Nat) : (s.dropClosed n).ci = s.ci := by rfl
@[simp] theorem dropClosed_stcSubs (s : State) (n : Nat) : (s.dropClosed n).stc.subs = s.stc.subs := by rfl
@[simp] theorem dropClosed_stcUnwind (s : State) (n : Nat) : (s.dropClosed n).stc.unwind = s.stc.unwind := by rfl
@[simp] theorem dropClosed_stcDeadlines (s : State) (n : Nat) :
    (s.dropClosed n).stc.deadlines = s.stc.deadlines := by rfl
@[simp] theorem dropClosed_stcLastGranted (s : State) (n : Nat) :
    (s.dropClosed n).stc.lastGranted = s.stc.lastGranted := by rfl
@[simp] theorem dropClosed_ftc (s : State) (n : Nat) : (s.dropClosed n).ftc = s.ftc := by rfl
@[simp] theorem dropClosed_lm (s : State) (n : Nat) : (s.dropClosed n).lm = s.lm := by rfl
@[simp] theorem dropClosed_zas (s : State) (n : Nat) : (s.dropClosed n).zas = s.zas := by rfl
@[simp] theorem dropClosed_tw (s : State) (n : Nat) : (s.dropClosed n).tw = s.tw := by rfl
@[simp] theorem dropClosed_al (s : State) (n : Nat) : (s.dropClosed n).al = s.al := by rfl
@[simp] theorem dropClosed_sub (s : State) (n : Nat) (si : SubIx) : (s.dropClosed n).sub si = s.sub si := by rfl
@[simp] theorem dropClosed_flow (s : State) (n : Nat) (fi : FlowIx) : (s.dropClosed n).flow fi = s.flow fi := by rfl
@[simp] theorem dropClosed_plru (s : State) (n : Nat) (bk : BitVec 12) :
    (s.dropClosed n).plru bk = s.plru bk := by rfl
@[simp] theorem dropClosed_pinnedCount (s : State) (n : Nat) (lk : LinkId) :
    (s.dropClosed n).pinnedCount lk = s.pinnedCount lk := by rfl
@[simp] theorem dropClosed_link (s : State) (n : Nat) (lk : LinkId) : (s.dropClosed n).link lk = s.link lk := by rfl
@[simp] theorem dropClosed_drainedWaiting (s : State) (n : Nat) (lk : LinkId) :
    (s.dropClosed n).drainedWaiting lk = s.drainedWaiting lk := by rfl
@[simp] theorem dropClosed_autoSnapshotDue (s : State) (n : Nat) (lk : LinkId) :
    (s.dropClosed n).autoSnapshotDue lk = s.autoSnapshotDue lk := by rfl
@[simp] theorem dropClosed_zone (s : State) (n : Nat) (zn : ZoneIx) : (s.dropClosed n).zone zn = s.zone zn := by rfl
@[simp] theorem dropClosed_tariff (s : State) (n : Nat) (ta : TariffIx) :
    (s.dropClosed n).tariff ta = s.tariff ta := by rfl
@[simp] theorem dropClosed_chan (s : State) (n : Nat) (cn : Chan) : (s.dropClosed n).chan cn = s.chan cn := by rfl
@[simp] theorem dropClosed_causesOf (s : State) (n : Nat) (ar : AttnRecord) :
    (s.dropClosed n).causesOf ar = s.causesOf ar := by rfl

/-! ## Reading after writing -/

theorem setSub_sub (s : State) (i : SubIx) (r : SubRecord) (j : SubIx) :
    (s.setSub i r).sub j = if j = i then r else s.sub j := by
  unfold State.sub State.setSub
  simp only [Table.read_write]
  by_cases h : j = i
  · simp [h]
  · have : j.toNat ≠ i.toNat := fun e => h (BitVec.eq_of_toNat_eq e)
    simp [h, this]

@[simp] theorem setSub_sub_same (s : State) (i : SubIx) (r : SubRecord) : (s.setSub i r).sub i = r := by
  simp [setSub_sub]

theorem setSub_sub_ne (s : State) {i j : SubIx} (r : SubRecord) (h : j ≠ i) : (s.setSub i r).sub j = s.sub j := by
  simp [setSub_sub, h]

theorem setFlow_flow (s : State) (i : FlowIx) (f : FlowRecord) (j : FlowIx) :
    (s.setFlow i f).flow j = if j = i then f else s.flow j := by
  unfold State.flow State.setFlow
  simp only [Table.read_write]
  by_cases h : j = i
  · simp [h]
  · have : j.toNat ≠ i.toNat := fun e => h (BitVec.eq_of_toNat_eq e)
    simp [h, this]

@[simp] theorem setFlow_flow_same (s : State) (i : FlowIx) (f : FlowRecord) : (s.setFlow i f).flow i = f := by
  simp [setFlow_flow]

theorem setFlow_flow_ne (s : State) {i j : FlowIx} (f : FlowRecord) (h : j ≠ i) :
    (s.setFlow i f).flow j = s.flow j := by
  simp [setFlow_flow, h]

theorem setPlru_plru (s : State) (k : BitVec 12) (p : Plru) (b : BitVec 12) :
    (s.setPlru k p).plru b = if b = k then p else s.plru b := by
  unfold State.plru State.setPlru
  simp only [Table.read_write]
  by_cases h : b = k
  · simp [h]
  · have : b.toNat ≠ k.toNat := fun e => h (BitVec.eq_of_toNat_eq e)
    simp [h, this]

@[simp] theorem setPlru_plru_same (s : State) (k : BitVec 12) (p : Plru) : (s.setPlru k p).plru k = p := by
  simp [setPlru_plru]

theorem setPinned_pinnedCount (s : State) (l : LinkId) (n : Nat) (m : LinkId) :
    (s.setPinned l n).pinnedCount m = if m = l then n else s.pinnedCount m := by
  unfold State.pinnedCount State.setPinned
  by_cases h : m = l
  · simp [h]
  · have : l.val ≠ m.val := fun e => h (Fin.ext e.symm)
    simp [h, this]

@[simp] theorem setPinned_pinnedCount_same (s : State) (l : LinkId) (n : Nat) :
    (s.setPinned l n).pinnedCount l = n := by
  simp [setPinned_pinnedCount]

theorem setLink_link (s : State) (l : LinkId) (r : LinkRecord) (m : LinkId) :
    (s.setLink l r).link m = if m = l then r else s.link m := by
  unfold State.link State.setLink
  by_cases h : m = l
  · simp [h]
  · have : l.val ≠ m.val := fun e => h (Fin.ext e.symm)
    simp [h, this]

@[simp] theorem setLink_link_same (s : State) (l : LinkId) (r : LinkRecord) : (s.setLink l r).link l = r := by
  simp [setLink_link]

theorem setLink_link_ne (s : State) {l m : LinkId} (r : LinkRecord) (h : m ≠ l) :
    (s.setLink l r).link m = s.link m := by
  simp [setLink_link, h]

theorem setDrained_drainedWaiting (s : State) (l : LinkId) (v : Bool) (m : LinkId) :
    (s.setDrained l v).drainedWaiting m = if m = l then v else s.drainedWaiting m := by
  unfold State.drainedWaiting State.setDrained
  by_cases h : m = l
  · simp [h]
  · have : l.val ≠ m.val := fun e => h (Fin.ext e.symm)
    simp [h, this]

theorem setAutoDue_autoSnapshotDue (s : State) (l : LinkId) (v : Bool) (m : LinkId) :
    (s.setAutoDue l v).autoSnapshotDue m = if m = l then v else s.autoSnapshotDue m := by
  unfold State.autoSnapshotDue State.setAutoDue
  by_cases h : m = l
  · simp [h]
  · have : l.val ≠ m.val := fun e => h (Fin.ext e.symm)
    simp [h, this]

theorem setZone_zone (s : State) (k : ZoneIx) (r : ZoneRecord) (z : ZoneIx) :
    (s.setZone k r).zone z = if z = k then r else s.zone z := by
  unfold State.zone State.setZone
  by_cases h : z = k
  · simp [h]
  · have : k.toNat ≠ z.toNat := fun e => h (BitVec.eq_of_toNat_eq e.symm)
    simp [h, this]

@[simp] theorem setZone_zone_same (s : State) (k : ZoneIx) (r : ZoneRecord) : (s.setZone k r).zone k = r := by
  simp [setZone_zone]

theorem setTariff_tariff (s : State) (k : TariffIx) (r : TariffRecord) (t : TariffIx) :
    (s.setTariff k r).tariff t = if t = k then r else s.tariff t := by
  unfold State.tariff State.setTariff
  by_cases h : t = k
  · simp [h]
  · have : k.toNat ≠ t.toNat := fun e => h (BitVec.eq_of_toNat_eq e.symm)
    simp [h, this]

@[simp] theorem setTariff_tariff_same (s : State) (k : TariffIx) (r : TariffRecord) :
    (s.setTariff k r).tariff k = r := by
  simp [setTariff_tariff]

theorem setChan_chan (s : State) (ch : Chan) (r : ChannelRecord) (c : Chan) :
    (s.setChan ch r).chan c = if c = ch then r else s.chan c := by
  unfold State.chan State.setChan
  by_cases h : c = ch
  · simp [h]
  · have : ch.val ≠ c.val := fun e => h (Fin.ext e.symm)
    simp [h, this]

@[simp] theorem setChan_chan_same (s : State) (ch : Chan) (r : ChannelRecord) : (s.setChan ch r).chan ch = r := by
  simp [setChan_chan]

theorem setChan_chan_ne (s : State) {ch c : Chan} (r : ChannelRecord) (h : c ≠ ch) :
    (s.setChan ch r).chan c = s.chan c := by
  simp [setChan_chan, h]

@[simp] theorem setList_list (s : State) (l : List AttnEntry) : (s.setList l).al.list = l := by rfl
@[simp] theorem setWalk_twWalk (s : State) (w : Option Walk) : (s.setWalk w).tw.walk = w := by rfl
@[simp] theorem setQueue_twQueue (s : State) (q : List WalkEntry) : (s.setQueue q).tw.queue = q := by rfl
@[simp] theorem setPhase_ciSoftReset (s : State) (p : SoftResetPhase) : (s.setPhase p).ci.softReset = p := by rfl
@[simp] theorem setAgreements_agreements (s : State) (l : List Agreement) :
    (s.setAgreements l).zas.agreements = l := by rfl
@[simp] theorem addClosed_closedCount (s : State) (n : Nat) :
    (s.addClosed n).stc.closedCount = s.stc.closedCount + n := by rfl
@[simp] theorem dropClosed_closedCount (s : State) (n : Nat) :
    (s.dropClosed n).stc.closedCount = s.stc.closedCount - n := by rfl
@[simp] theorem leaveDeadlines_deadlines (s : State) (i : SubIx) :
    (s.leaveDeadlines i).stc.deadlines = s.stc.deadlines.filter fun j => decide (j ≠ i) := by
  rfl

@[simp] theorem setSub_setSub (s : State) (i : SubIx) (a b : SubRecord) :
    (s.setSub i a).setSub i b = s.setSub i b := by
  simp [State.setSub, Table.write_write]

@[simp] theorem setFlow_setFlow (s : State) (i : FlowIx) (a b : FlowRecord) :
    (s.setFlow i a).setFlow i b = s.setFlow i b := by
  simp [State.setFlow, Table.write_write]

@[simp] theorem setLink_setLink (s : State) (l : LinkId) (a b : LinkRecord) :
    (s.setLink l a).setLink l b = s.setLink l b := by
  simp [State.setLink]

end Sys2Proof.Machine
end

