-- ==== Sys2Proof/Laws/Frames.lean ====
section
/-! SUPPORT. The frame of every shared operation: the parts of the state that it leaves as they were. -/

namespace Sys2Proof.Machine

/-! ### Shared operations -/

@[simp] theorem raise_frame (s : State) (r : AttnRecord) (c : Cause) :
    (s.raise r c).resetHeld = s.resetHeld ∧ (s.raise r c).pending = s.pending ∧ (s.raise r c).ci = s.ci ∧
    (s.raise r c).stc = s.stc ∧ (s.raise r c).ftc = s.ftc ∧ (s.raise r c).lm = s.lm ∧ (s.raise r c).zas = s.zas ∧
    (s.raise r c).tw = s.tw ∧ (s.raise r c).al.overrunBitmap = s.al.overrunBitmap ∧
    (s.raise r c).al.ready = s.al.ready ∧ (s.raise r c).al.count = s.al.count ∧
    (s.raise r c).al.ageInterval = s.al.ageInterval ∧ (s.raise r c).al.ageDeadline = s.al.ageDeadline ∧
    (s.raise r c).al.interruptEnable = s.al.interruptEnable ∧ (∀ si : SubIx, (s.raise r c).sub si = s.sub si) ∧
    (∀ fi : FlowIx, (s.raise r c).flow fi = s.flow fi) ∧ (∀ bk : BitVec 12, (s.raise r c).plru bk = s.plru bk) ∧
    (∀ lk : LinkId, (s.raise r c).pinnedCount lk = s.pinnedCount lk) ∧
    (∀ lk : LinkId, (s.raise r c).link lk = s.link lk) ∧
    (∀ lk : LinkId, (s.raise r c).drainedWaiting lk = s.drainedWaiting lk) ∧
    (∀ lk : LinkId, (s.raise r c).autoSnapshotDue lk = s.autoSnapshotDue lk) ∧
    (∀ zn : ZoneIx, (s.raise r c).zone zn = s.zone zn) ∧ (∀ ta : TariffIx, (s.raise r c).tariff ta = s.tariff ta) ∧
    (∀ cn : Chan, (s.raise r c).chan cn = s.chan cn) := by
  simp [State.raise]

@[simp] theorem withdraw_frame (s : State) (r : AttnRecord) (c : Cause) :
    (s.withdraw r c).resetHeld = s.resetHeld ∧ (s.withdraw r c).pending = s.pending ∧ (s.withdraw r c).ci = s.ci ∧
    (s.withdraw r c).stc = s.stc ∧ (s.withdraw r c).ftc = s.ftc ∧ (s.withdraw r c).lm = s.lm ∧
    (s.withdraw r c).zas = s.zas ∧ (s.withdraw r c).tw = s.tw ∧
    (s.withdraw r c).al.overrunBitmap = s.al.overrunBitmap ∧ (s.withdraw r c).al.ready = s.al.ready ∧
    (s.withdraw r c).al.count = s.al.count ∧ (s.withdraw r c).al.ageInterval = s.al.ageInterval ∧
    (s.withdraw r c).al.ageDeadline = s.al.ageDeadline ∧
    (s.withdraw r c).al.interruptEnable = s.al.interruptEnable ∧
    (∀ si : SubIx, (s.withdraw r c).sub si = s.sub si) ∧ (∀ fi : FlowIx, (s.withdraw r c).flow fi = s.flow fi) ∧
    (∀ bk : BitVec 12, (s.withdraw r c).plru bk = s.plru bk) ∧
    (∀ lk : LinkId, (s.withdraw r c).pinnedCount lk = s.pinnedCount lk) ∧
    (∀ lk : LinkId, (s.withdraw r c).link lk = s.link lk) ∧
    (∀ lk : LinkId, (s.withdraw r c).drainedWaiting lk = s.drainedWaiting lk) ∧
    (∀ lk : LinkId, (s.withdraw r c).autoSnapshotDue lk = s.autoSnapshotDue lk) ∧
    (∀ zn : ZoneIx, (s.withdraw r c).zone zn = s.zone zn) ∧
    (∀ ta : TariffIx, (s.withdraw r c).tariff ta = s.tariff ta) ∧
    (∀ cn : Chan, (s.withdraw r c).chan cn = s.chan cn) := by
  simp [State.withdraw]

@[simp] theorem removeEntry_frame (s : State) (r : AttnRecord) :
    (s.removeEntry r).resetHeld = s.resetHeld ∧ (s.removeEntry r).pending = s.pending ∧
    (s.removeEntry r).ci = s.ci ∧ (s.removeEntry r).stc = s.stc ∧ (s.removeEntry r).ftc = s.ftc ∧
    (s.removeEntry r).lm = s.lm ∧ (s.removeEntry r).zas = s.zas ∧ (s.removeEntry r).tw = s.tw ∧
    (s.removeEntry r).al.overrunBitmap = s.al.overrunBitmap ∧ (s.removeEntry r).al.ready = s.al.ready ∧
    (s.removeEntry r).al.count = s.al.count ∧ (s.removeEntry r).al.ageInterval = s.al.ageInterval ∧
    (s.removeEntry r).al.ageDeadline = s.al.ageDeadline ∧
    (s.removeEntry r).al.interruptEnable = s.al.interruptEnable ∧
    (∀ si : SubIx, (s.removeEntry r).sub si = s.sub si) ∧ (∀ fi : FlowIx, (s.removeEntry r).flow fi = s.flow fi) ∧
    (∀ bk : BitVec 12, (s.removeEntry r).plru bk = s.plru bk) ∧
    (∀ lk : LinkId, (s.removeEntry r).pinnedCount lk = s.pinnedCount lk) ∧
    (∀ lk : LinkId, (s.removeEntry r).link lk = s.link lk) ∧
    (∀ lk : LinkId, (s.removeEntry r).drainedWaiting lk = s.drainedWaiting lk) ∧
    (∀ lk : LinkId, (s.removeEntry r).autoSnapshotDue lk = s.autoSnapshotDue lk) ∧
    (∀ zn : ZoneIx, (s.removeEntry r).zone zn = s.zone zn) ∧
    (∀ ta : TariffIx, (s.removeEntry r).tariff ta = s.tariff ta) ∧
    (∀ cn : Chan, (s.removeEntry r).chan cn = s.chan cn) := by
  simp [State.removeEntry]

@[simp] theorem addWalk_frame (s : State) (e : WalkEntry) :
    (s.addWalk e).resetHeld = s.resetHeld ∧ (s.addWalk e).pending = s.pending ∧ (s.addWalk e).ci = s.ci ∧
    (s.addWalk e).stc = s.stc ∧ (s.addWalk e).ftc = s.ftc ∧ (s.addWalk e).lm = s.lm ∧ (s.addWalk e).zas = s.zas ∧
    (s.addWalk e).tw.walk = s.tw.walk ∧ (s.addWalk e).tw.currentMark = s.tw.currentMark ∧
    (s.addWalk e).tw.previousMark = s.tw.previousMark ∧ (s.addWalk e).tw.thirdMark = s.tw.thirdMark ∧
    (s.addWalk e).tw.ageSummary = s.tw.ageSummary ∧ (s.addWalk e).tw.zoneSummary = s.tw.zoneSummary ∧
    (s.addWalk e).tw.recheckSummary = s.tw.recheckSummary ∧ (s.addWalk e).al = s.al ∧
    (∀ si : SubIx, (s.addWalk e).sub si = s.sub si) ∧ (∀ fi : FlowIx, (s.addWalk e).flow fi = s.flow fi) ∧
    (∀ bk : BitVec 12, (s.addWalk e).plru bk = s.plru bk) ∧
    (∀ lk : LinkId, (s.addWalk e).pinnedCount lk = s.pinnedCount lk) ∧
    (∀ lk : LinkId, (s.addWalk e).link lk = s.link lk) ∧
    (∀ lk : LinkId, (s.addWalk e).drainedWaiting lk = s.drainedWaiting lk) ∧
    (∀ lk : LinkId, (s.addWalk e).autoSnapshotDue lk = s.autoSnapshotDue lk) ∧
    (∀ zn : ZoneIx, (s.addWalk e).zone zn = s.zone zn) ∧ (∀ ta : TariffIx, (s.addWalk e).tariff ta = s.tariff ta) ∧
    (∀ cn : Chan, (s.addWalk e).chan cn = s.chan cn) ∧
    (∀ ar : AttnRecord, (s.addWalk e).causesOf ar = s.causesOf ar) := by
  unfold State.addWalk
  split <;> simp [State.sub, State.flow, State.plru, State.pinnedCount, State.link, State.drainedWaiting,
    State.autoSnapshotDue, State.zone, State.tariff, State.chan, State.causesOf]

@[simp] theorem grantTo_frame (s : State) (o : Owner) (ch : Chan) :
    (s.grantTo o ch).resetHeld = s.resetHeld ∧ (s.grantTo o ch).pending = s.pending ∧ (s.grantTo o ch).ci = s.ci ∧
    (s.grantTo o ch).stc.subs = s.stc.subs ∧ (s.grantTo o ch).stc.unwind = s.stc.unwind ∧
    (s.grantTo o ch).stc.deadlines = s.stc.deadlines ∧ (s.grantTo o ch).stc.closedCount = s.stc.closedCount ∧
    (s.grantTo o ch).ftc.flows = s.ftc.flows ∧ (s.grantTo o ch).ftc.plru = s.ftc.plru ∧
    (s.grantTo o ch).ftc.pinned = s.ftc.pinned ∧ (s.grantTo o ch).lm = s.lm ∧ (s.grantTo o ch).zas = s.zas ∧
    (s.grantTo o ch).tw = s.tw ∧ (s.grantTo o ch).al = s.al ∧ (∀ si : SubIx, (s.grantTo o ch).sub si = s.sub si) ∧
    (∀ fi : FlowIx, (s.grantTo o ch).flow fi = s.flow fi) ∧
    (∀ bk : BitVec 12, (s.grantTo o ch).plru bk = s.plru bk) ∧
    (∀ lk : LinkId, (s.grantTo o ch).pinnedCount lk = s.pinnedCount lk) ∧
    (∀ lk : LinkId, (s.grantTo o ch).link lk = s.link lk) ∧
    (∀ lk : LinkId, (s.grantTo o ch).drainedWaiting lk = s.drainedWaiting lk) ∧
    (∀ lk : LinkId, (s.grantTo o ch).autoSnapshotDue lk = s.autoSnapshotDue lk) ∧
    (∀ zn : ZoneIx, (s.grantTo o ch).zone zn = s.zone zn) ∧
    (∀ ta : TariffIx, (s.grantTo o ch).tariff ta = s.tariff ta) ∧
    (∀ cn : Chan, (s.grantTo o ch).chan cn = s.chan cn) ∧
    (∀ ar : AttnRecord, (s.grantTo o ch).causesOf ar = s.causesOf ar) := by
  unfold State.grantTo
  split <;> simp [State.sub, State.flow, State.plru, State.pinnedCount, State.link, State.drainedWaiting,
    State.autoSnapshotDue, State.zone, State.tariff, State.chan, State.causesOf]

@[simp] theorem complete_frame (s : State) (ch : Chan) (r : Reply) :
    (s.complete ch r).resetHeld = s.resetHeld ∧ (s.complete ch r).pending = s.pending ∧
    (s.complete ch r).ci.softReset = s.ci.softReset ∧ (s.complete ch r).stc = s.stc ∧
    (s.complete ch r).ftc = s.ftc ∧ (s.complete ch r).lm = s.lm ∧ (s.complete ch r).zas = s.zas ∧
    (s.complete ch r).tw = s.tw ∧ (s.complete ch r).al = s.al ∧
    (∀ si : SubIx, (s.complete ch r).sub si = s.sub si) ∧ (∀ fi : FlowIx, (s.complete ch r).flow fi = s.flow fi) ∧
    (∀ bk : BitVec 12, (s.complete ch r).plru bk = s.plru bk) ∧
    (∀ lk : LinkId, (s.complete ch r).pinnedCount lk = s.pinnedCount lk) ∧
    (∀ lk : LinkId, (s.complete ch r).link lk = s.link lk) ∧
    (∀ lk : LinkId, (s.complete ch r).drainedWaiting lk = s.drainedWaiting lk) ∧
    (∀ lk : LinkId, (s.complete ch r).autoSnapshotDue lk = s.autoSnapshotDue lk) ∧
    (∀ zn : ZoneIx, (s.complete ch r).zone zn = s.zone zn) ∧
    (∀ ta : TariffIx, (s.complete ch r).tariff ta = s.tariff ta) ∧
    (∀ ar : AttnRecord, (s.complete ch r).causesOf ar = s.causesOf ar) := by
  simp [State.complete]

@[simp] theorem completePosted_frame (s : State) (ch : Chan) (f : Option Status) :
    (s.completePosted ch f).resetHeld = s.resetHeld ∧ (s.completePosted ch f).pending = s.pending ∧
    (s.completePosted ch f).ci.softReset = s.ci.softReset ∧ (s.completePosted ch f).stc = s.stc ∧
    (s.completePosted ch f).ftc = s.ftc ∧ (s.completePosted ch f).lm = s.lm ∧ (s.completePosted ch f).zas = s.zas ∧
    (s.completePosted ch f).tw = s.tw ∧ (s.completePosted ch f).al = s.al ∧
    (∀ si : SubIx, (s.completePosted ch f).sub si = s.sub si) ∧
    (∀ fi : FlowIx, (s.completePosted ch f).flow fi = s.flow fi) ∧
    (∀ bk : BitVec 12, (s.completePosted ch f).plru bk = s.plru bk) ∧
    (∀ lk : LinkId, (s.completePosted ch f).pinnedCount lk = s.pinnedCount lk) ∧
    (∀ lk : LinkId, (s.completePosted ch f).link lk = s.link lk) ∧
    (∀ lk : LinkId, (s.completePosted ch f).drainedWaiting lk = s.drainedWaiting lk) ∧
    (∀ lk : LinkId, (s.completePosted ch f).autoSnapshotDue lk = s.autoSnapshotDue lk) ∧
    (∀ zn : ZoneIx, (s.completePosted ch f).zone zn = s.zone zn) ∧
    (∀ ta : TariffIx, (s.completePosted ch f).tariff ta = s.tariff ta) ∧
    (∀ ar : AttnRecord, (s.completePosted ch f).causesOf ar = s.causesOf ar) := by
  simp [State.completePosted]

/-! ### Credit -/

@[simp] theorem enterRequested_frame (s : State) (i : SubIx) (n : Nat) :
    (s.enterRequested i n).resetHeld = s.resetHeld ∧ (s.enterRequested i n).pending = s.pending ∧
    (s.enterRequested i n).ci = s.ci ∧ (s.enterRequested i n).stc.unwind = s.stc.unwind ∧
    (s.enterRequested i n).stc.closedCount = s.stc.closedCount ∧
    (s.enterRequested i n).stc.lastGranted = s.stc.lastGranted ∧ (s.enterRequested i n).ftc = s.ftc ∧
    (s.enterRequested i n).lm = s.lm ∧ (s.enterRequested i n).zas = s.zas ∧ (s.enterRequested i n).tw = s.tw ∧
    (s.enterRequested i n).al.overrunBitmap = s.al.overrunBitmap ∧ (s.enterRequested i n).al.ready = s.al.ready ∧
    (s.enterRequested i n).al.count = s.al.count ∧ (s.enterRequested i n).al.ageInterval = s.al.ageInterval ∧
    (s.enterRequested i n).al.ageDeadline = s.al.ageDeadline ∧
    (s.enterRequested i n).al.interruptEnable = s.al.interruptEnable ∧
    (∀ fi : FlowIx, (s.enterRequested i n).flow fi = s.flow fi) ∧
    (∀ bk : BitVec 12, (s.enterRequested i n).plru bk = s.plru bk) ∧
    (∀ lk : LinkId, (s.enterRequested i n).pinnedCount lk = s.pinnedCount lk) ∧
    (∀ lk : LinkId, (s.enterRequested i n).link lk = s.link lk) ∧
    (∀ lk : LinkId, (s.enterRequested i n).drainedWaiting lk = s.drainedWaiting lk) ∧
    (∀ lk : LinkId, (s.enterRequested i n).autoSnapshotDue lk = s.autoSnapshotDue lk) ∧
    (∀ zn : ZoneIx, (s.enterRequested i n).zone zn = s.zone zn) ∧
    (∀ ta : TariffIx, (s.enterRequested i n).tariff ta = s.tariff ta) ∧
    (∀ cn : Chan, (s.enterRequested i n).chan cn = s.chan cn) := by
  simp [State.enterRequested, State.sub, State.flow, State.plru, State.pinnedCount, State.link, State.drainedWaiting,
    State.autoSnapshotDue, State.zone, State.tariff, State.chan]

@[simp] theorem lowCredit_frame (s : State) (i : SubIx) :
    (s.lowCredit i).resetHeld = s.resetHeld ∧ (s.lowCredit i).pending = s.pending ∧ (s.lowCredit i).ci = s.ci ∧
    (s.lowCredit i).stc.unwind = s.stc.unwind ∧ (s.lowCredit i).stc.closedCount = s.stc.closedCount ∧
    (s.lowCredit i).stc.lastGranted = s.stc.lastGranted ∧ (s.lowCredit i).ftc = s.ftc ∧ (s.lowCredit i).lm = s.lm ∧
    (s.lowCredit i).zas = s.zas ∧ (s.lowCredit i).tw = s.tw ∧
    (s.lowCredit i).al.overrunBitmap = s.al.overrunBitmap ∧ (s.lowCredit i).al.ready = s.al.ready ∧
    (s.lowCredit i).al.count = s.al.count ∧ (s.lowCredit i).al.ageInterval = s.al.ageInterval ∧
    (s.lowCredit i).al.ageDeadline = s.al.ageDeadline ∧ (s.lowCredit i).al.interruptEnable = s.al.interruptEnable ∧
    (∀ fi : FlowIx, (s.lowCredit i).flow fi = s.flow fi) ∧
    (∀ bk : BitVec 12, (s.lowCredit i).plru bk = s.plru bk) ∧
    (∀ lk : LinkId, (s.lowCredit i).pinnedCount lk = s.pinnedCount lk) ∧
    (∀ lk : LinkId, (s.lowCredit i).link lk = s.link lk) ∧
    (∀ lk : LinkId, (s.lowCredit i).drainedWaiting lk = s.drainedWaiting lk) ∧
    (∀ lk : LinkId, (s.lowCredit i).autoSnapshotDue lk = s.autoSnapshotDue lk) ∧
    (∀ zn : ZoneIx, (s.lowCredit i).zone zn = s.zone zn) ∧
    (∀ ta : TariffIx, (s.lowCredit i).tariff ta = s.tariff ta) ∧ (∀ cn : Chan, (s.lowCredit i).chan cn = s.chan cn) := by
  simp only [State.lowCredit]
  repeat' split
  all_goals simp

@[simp] theorem chargeSub_frame (s : State) (i : SubIx) (m n : Nat) :
    (s.chargeSub i m n).resetHeld = s.resetHeld ∧ (s.chargeSub i m n).pending = s.pending ∧
    (s.chargeSub i m n).ci = s.ci ∧ (s.chargeSub i m n).stc.unwind = s.stc.unwind ∧
    (s.chargeSub i m n).stc.closedCount = s.stc.closedCount ∧
    (s.chargeSub i m n).stc.lastGranted = s.stc.lastGranted ∧ (s.chargeSub i m n).ftc = s.ftc ∧
    (s.chargeSub i m n).lm = s.lm ∧ (s.chargeSub i m n).zas = s.zas ∧ (s.chargeSub i m n).tw = s.tw ∧
    (s.chargeSub i m n).al.overrunBitmap = s.al.overrunBitmap ∧ (s.chargeSub i m n).al.ready = s.al.ready ∧
    (s.chargeSub i m n).al.count = s.al.count ∧ (s.chargeSub i m n).al.ageInterval = s.al.ageInterval ∧
    (s.chargeSub i m n).al.ageDeadline = s.al.ageDeadline ∧
    (s.chargeSub i m n).al.interruptEnable = s.al.interruptEnable ∧
    (∀ fi : FlowIx, (s.chargeSub i m n).flow fi = s.flow fi) ∧
    (∀ bk : BitVec 12, (s.chargeSub i m n).plru bk = s.plru bk) ∧
    (∀ lk : LinkId, (s.chargeSub i m n).pinnedCount lk = s.pinnedCount lk) ∧
    (∀ lk : LinkId, (s.chargeSub i m n).link lk = s.link lk) ∧
    (∀ lk : LinkId, (s.chargeSub i m n).drainedWaiting lk = s.drainedWaiting lk) ∧
    (∀ lk : LinkId, (s.chargeSub i m n).autoSnapshotDue lk = s.autoSnapshotDue lk) ∧
    (∀ zn : ZoneIx, (s.chargeSub i m n).zone zn = s.zone zn) ∧
    (∀ ta : TariffIx, (s.chargeSub i m n).tariff ta = s.tariff ta) ∧
    (∀ cn : Chan, (s.chargeSub i m n).chan cn = s.chan cn) := by
  simp only [State.chargeSub]
  split <;> simp

@[simp] theorem closeUsage_frame (s : State) (i : SubIx) :
    (s.closeUsage i).resetHeld = s.resetHeld ∧ (s.closeUsage i).pending = s.pending ∧ (s.closeUsage i).ci = s.ci ∧
    (s.closeUsage i).stc.unwind = s.stc.unwind ∧ (s.closeUsage i).stc.deadlines = s.stc.deadlines ∧
    (s.closeUsage i).stc.lastGranted = s.stc.lastGranted ∧ (s.closeUsage i).ftc = s.ftc ∧
    (s.closeUsage i).lm = s.lm ∧ (s.closeUsage i).zas = s.zas ∧ (s.closeUsage i).tw = s.tw ∧
    (s.closeUsage i).al = s.al ∧ (∀ fi : FlowIx, (s.closeUsage i).flow fi = s.flow fi) ∧
    (∀ bk : BitVec 12, (s.closeUsage i).plru bk = s.plru bk) ∧
    (∀ lk : LinkId, (s.closeUsage i).pinnedCount lk = s.pinnedCount lk) ∧
    (∀ lk : LinkId, (s.closeUsage i).link lk = s.link lk) ∧
    (∀ lk : LinkId, (s.closeUsage i).drainedWaiting lk = s.drainedWaiting lk) ∧
    (∀ lk : LinkId, (s.closeUsage i).autoSnapshotDue lk = s.autoSnapshotDue lk) ∧
    (∀ zn : ZoneIx, (s.closeUsage i).zone zn = s.zone zn) ∧
    (∀ ta : TariffIx, (s.closeUsage i).tariff ta = s.tariff ta) ∧
    (∀ cn : Chan, (s.closeUsage i).chan cn = s.chan cn) ∧
    (∀ ar : AttnRecord, (s.closeUsage i).causesOf ar = s.causesOf ar) := by
  simp only [State.closeUsage]
  split <;> simp

@[simp] theorem applyGrantTo_frame (s : State) (i : SubIx) (m n : Word) :
    (s.applyGrantTo i m n).resetHeld = s.resetHeld ∧ (s.applyGrantTo i m n).pending = s.pending ∧
    (s.applyGrantTo i m n).ci = s.ci ∧ (s.applyGrantTo i m n).stc.unwind = s.stc.unwind ∧
    (s.applyGrantTo i m n).stc.closedCount = s.stc.closedCount ∧
    (s.applyGrantTo i m n).stc.lastGranted = s.stc.lastGranted ∧ (s.applyGrantTo i m n).ftc = s.ftc ∧
    (s.applyGrantTo i m n).lm = s.lm ∧ (s.applyGrantTo i m n).zas = s.zas ∧ (s.applyGrantTo i m n).tw = s.tw ∧
    (s.applyGrantTo i m n).al.overrunBitmap = s.al.overrunBitmap ∧ (s.applyGrantTo i m n).al.ready = s.al.ready ∧
    (s.applyGrantTo i m n).al.count = s.al.count ∧ (s.applyGrantTo i m n).al.ageInterval = s.al.ageInterval ∧
    (s.applyGrantTo i m n).al.ageDeadline = s.al.ageDeadline ∧
    (s.applyGrantTo i m n).al.interruptEnable = s.al.interruptEnable ∧
    (∀ fi : FlowIx, (s.applyGrantTo i m n).flow fi = s.flow fi) ∧
    (∀ bk : BitVec 12, (s.applyGrantTo i m n).plru bk = s.plru bk) ∧
    (∀ lk : LinkId, (s.applyGrantTo i m n).pinnedCount lk = s.pinnedCount lk) ∧
    (∀ lk : LinkId, (s.applyGrantTo i m n).link lk = s.link lk) ∧
    (∀ lk : LinkId, (s.applyGrantTo i m n).drainedWaiting lk = s.drainedWaiting lk) ∧
    (∀ lk : LinkId, (s.applyGrantTo i m n).autoSnapshotDue lk = s.autoSnapshotDue lk) ∧
    (∀ zn : ZoneIx, (s.applyGrantTo i m n).zone zn = s.zone zn) ∧
    (∀ ta : TariffIx, (s.applyGrantTo i m n).tariff ta = s.tariff ta) ∧
    (∀ cn : Chan, (s.applyGrantTo i m n).chan cn = s.chan cn) := by
  simp [State.applyGrantTo]

@[simp] theorem expireGrant_frame (s : State) (i : SubIx) :
    (s.expireGrant i).resetHeld = s.resetHeld ∧ (s.expireGrant i).pending = s.pending ∧
    (s.expireGrant i).ci = s.ci ∧ (s.expireGrant i).stc.unwind = s.stc.unwind ∧
    (s.expireGrant i).stc.closedCount = s.stc.closedCount ∧ (s.expireGrant i).stc.lastGranted = s.stc.lastGranted ∧
    (s.expireGrant i).ftc = s.ftc ∧ (s.expireGrant i).lm = s.lm ∧ (s.expireGrant i).zas = s.zas ∧
    (s.expireGrant i).tw = s.tw ∧ (s.expireGrant i).al.overrunBitmap = s.al.overrunBitmap ∧
    (s.expireGrant i).al.ready = s.al.ready ∧ (s.expireGrant i).al.count = s.al.count ∧
    (s.expireGrant i).al.ageInterval = s.al.ageInterval ∧ (s.expireGrant i).al.ageDeadline = s.al.ageDeadline ∧
    (s.expireGrant i).al.interruptEnable = s.al.interruptEnable ∧
    (∀ fi : FlowIx, (s.expireGrant i).flow fi = s.flow fi) ∧
    (∀ bk : BitVec 12, (s.expireGrant i).plru bk = s.plru bk) ∧
    (∀ lk : LinkId, (s.expireGrant i).pinnedCount lk = s.pinnedCount lk) ∧
    (∀ lk : LinkId, (s.expireGrant i).link lk = s.link lk) ∧
    (∀ lk : LinkId, (s.expireGrant i).drainedWaiting lk = s.drainedWaiting lk) ∧
    (∀ lk : LinkId, (s.expireGrant i).autoSnapshotDue lk = s.autoSnapshotDue lk) ∧
    (∀ zn : ZoneIx, (s.expireGrant i).zone zn = s.zone zn) ∧
    (∀ ta : TariffIx, (s.expireGrant i).tariff ta = s.tariff ta) ∧
    (∀ cn : Chan, (s.expireGrant i).chan cn = s.chan cn) := by
  simp [State.expireGrant]

/-! ### Roaming and lazy processing -/

@[simp] theorem raiseRoaming_frame (s : State) (i : SubIx) (x y : SubRecord) :
    (s.raiseRoaming i x y).resetHeld = s.resetHeld ∧ (s.raiseRoaming i x y).pending = s.pending ∧
    (s.raiseRoaming i x y).ci = s.ci ∧ (s.raiseRoaming i x y).stc = s.stc ∧ (s.raiseRoaming i x y).ftc = s.ftc ∧
    (s.raiseRoaming i x y).lm = s.lm ∧ (s.raiseRoaming i x y).zas = s.zas ∧ (s.raiseRoaming i x y).tw = s.tw ∧
    (s.raiseRoaming i x y).al.overrunBitmap = s.al.overrunBitmap ∧ (s.raiseRoaming i x y).al.ready = s.al.ready ∧
    (s.raiseRoaming i x y).al.count = s.al.count ∧ (s.raiseRoaming i x y).al.ageInterval = s.al.ageInterval ∧
    (s.raiseRoaming i x y).al.ageDeadline = s.al.ageDeadline ∧
    (s.raiseRoaming i x y).al.interruptEnable = s.al.interruptEnable ∧
    (∀ si : SubIx, (s.raiseRoaming i x y).sub si = s.sub si) ∧
    (∀ fi : FlowIx, (s.raiseRoaming i x y).flow fi = s.flow fi) ∧
    (∀ bk : BitVec 12, (s.raiseRoaming i x y).plru bk = s.plru bk) ∧
    (∀ lk : LinkId, (s.raiseRoaming i x y).pinnedCount lk = s.pinnedCount lk) ∧
    (∀ lk : LinkId, (s.raiseRoaming i x y).link lk = s.link lk) ∧
    (∀ lk : LinkId, (s.raiseRoaming i x y).drainedWaiting lk = s.drainedWaiting lk) ∧
    (∀ lk : LinkId, (s.raiseRoaming i x y).autoSnapshotDue lk = s.autoSnapshotDue lk) ∧
    (∀ zn : ZoneIx, (s.raiseRoaming i x y).zone zn = s.zone zn) ∧
    (∀ ta : TariffIx, (s.raiseRoaming i x y).tariff ta = s.tariff ta) ∧
    (∀ cn : Chan, (s.raiseRoaming i x y).chan cn = s.chan cn) := by
  unfold State.raiseRoaming
  repeat' split
  all_goals simp

@[simp] theorem recheck_frame (s : State) (i : SubIx) :
    (s.recheck i).resetHeld = s.resetHeld ∧ (s.recheck i).pending = s.pending ∧ (s.recheck i).ci = s.ci ∧
    (s.recheck i).stc.unwind = s.stc.unwind ∧ (s.recheck i).stc.closedCount = s.stc.closedCount ∧
    (s.recheck i).stc.lastGranted = s.stc.lastGranted ∧ (s.recheck i).ftc = s.ftc ∧ (s.recheck i).lm = s.lm ∧
    (s.recheck i).zas = s.zas ∧ (s.recheck i).tw = s.tw ∧ (s.recheck i).al.overrunBitmap = s.al.overrunBitmap ∧
    (s.recheck i).al.ready = s.al.ready ∧ (s.recheck i).al.count = s.al.count ∧
    (s.recheck i).al.ageInterval = s.al.ageInterval ∧ (s.recheck i).al.ageDeadline = s.al.ageDeadline ∧
    (s.recheck i).al.interruptEnable = s.al.interruptEnable ∧ (∀ fi : FlowIx, (s.recheck i).flow fi = s.flow fi) ∧
    (∀ bk : BitVec 12, (s.recheck i).plru bk = s.plru bk) ∧
    (∀ lk : LinkId, (s.recheck i).pinnedCount lk = s.pinnedCount lk) ∧
    (∀ lk : LinkId, (s.recheck i).link lk = s.link lk) ∧
    (∀ lk : LinkId, (s.recheck i).drainedWaiting lk = s.drainedWaiting lk) ∧
    (∀ lk : LinkId, (s.recheck i).autoSnapshotDue lk = s.autoSnapshotDue lk) ∧
    (∀ zn : ZoneIx, (s.recheck i).zone zn = s.zone zn) ∧ (∀ ta : TariffIx, (s.recheck i).tariff ta = s.tariff ta) ∧
    (∀ cn : Chan, (s.recheck i).chan cn = s.chan cn) := by
  simp [State.recheck]

@[simp] theorem bringUpToDate_frame (s : State) (i : SubIx) :
    (s.bringUpToDate i).resetHeld = s.resetHeld ∧ (s.bringUpToDate i).pending = s.pending ∧
    (s.bringUpToDate i).ci = s.ci ∧ (s.bringUpToDate i).stc.unwind = s.stc.unwind ∧
    (s.bringUpToDate i).stc.closedCount = s.stc.closedCount ∧
    (s.bringUpToDate i).stc.lastGranted = s.stc.lastGranted ∧ (s.bringUpToDate i).ftc = s.ftc ∧
    (s.bringUpToDate i).lm = s.lm ∧ (s.bringUpToDate i).zas = s.zas ∧ (s.bringUpToDate i).tw = s.tw ∧
    (s.bringUpToDate i).al.overrunBitmap = s.al.overrunBitmap ∧ (s.bringUpToDate i).al.ready = s.al.ready ∧
    (s.bringUpToDate i).al.count = s.al.count ∧ (s.bringUpToDate i).al.ageInterval = s.al.ageInterval ∧
    (s.bringUpToDate i).al.ageDeadline = s.al.ageDeadline ∧
    (s.bringUpToDate i).al.interruptEnable = s.al.interruptEnable ∧
    (∀ fi : FlowIx, (s.bringUpToDate i).flow fi = s.flow fi) ∧
    (∀ bk : BitVec 12, (s.bringUpToDate i).plru bk = s.plru bk) ∧
    (∀ lk : LinkId, (s.bringUpToDate i).pinnedCount lk = s.pinnedCount lk) ∧
    (∀ lk : LinkId, (s.bringUpToDate i).link lk = s.link lk) ∧
    (∀ lk : LinkId, (s.bringUpToDate i).drainedWaiting lk = s.drainedWaiting lk) ∧
    (∀ lk : LinkId, (s.bringUpToDate i).autoSnapshotDue lk = s.autoSnapshotDue lk) ∧
    (∀ zn : ZoneIx, (s.bringUpToDate i).zone zn = s.zone zn) ∧
    (∀ ta : TariffIx, (s.bringUpToDate i).tariff ta = s.tariff ta) ∧
    (∀ cn : Chan, (s.bringUpToDate i).chan cn = s.chan cn) := by
  simp [State.bringUpToDate]

@[simp] theorem holdClose_frame (s : State) (i : SubIx) :
    (s.holdClose i).resetHeld = s.resetHeld ∧ (s.holdClose i).pending = s.pending ∧ (s.holdClose i).ci = s.ci ∧
    (s.holdClose i).stc.unwind = s.stc.unwind ∧ (s.holdClose i).stc.deadlines = s.stc.deadlines ∧
    (s.holdClose i).stc.closedCount = s.stc.closedCount ∧ (s.holdClose i).stc.lastGranted = s.stc.lastGranted ∧
    (s.holdClose i).ftc = s.ftc ∧ (s.holdClose i).lm = s.lm ∧ (s.holdClose i).zas = s.zas ∧
    (s.holdClose i).tw = s.tw ∧ (s.holdClose i).al.overrunBitmap = s.al.overrunBitmap ∧
    (s.holdClose i).al.ready = s.al.ready ∧ (s.holdClose i).al.count = s.al.count ∧
    (s.holdClose i).al.ageInterval = s.al.ageInterval ∧ (s.holdClose i).al.ageDeadline = s.al.ageDeadline ∧
    (s.holdClose i).al.interruptEnable = s.al.interruptEnable ∧
    (∀ fi : FlowIx, (s.holdClose i).flow fi = s.flow fi) ∧
    (∀ bk : BitVec 12, (s.holdClose i).plru bk = s.plru bk) ∧
    (∀ lk : LinkId, (s.holdClose i).pinnedCount lk = s.pinnedCount lk) ∧
    (∀ lk : LinkId, (s.holdClose i).link lk = s.link lk) ∧
    (∀ lk : LinkId, (s.holdClose i).drainedWaiting lk = s.drainedWaiting lk) ∧
    (∀ lk : LinkId, (s.holdClose i).autoSnapshotDue lk = s.autoSnapshotDue lk) ∧
    (∀ zn : ZoneIx, (s.holdClose i).zone zn = s.zone zn) ∧
    (∀ ta : TariffIx, (s.holdClose i).tariff ta = s.tariff ta) ∧ (∀ cn : Chan, (s.holdClose i).chan cn = s.chan cn) := by
  simp [State.holdClose]

@[simp] theorem lazy_frame (s : State) (i : SubIx) :
    (s.lazy i).resetHeld = s.resetHeld ∧ (s.lazy i).pending = s.pending ∧ (s.lazy i).ci = s.ci ∧
    (s.lazy i).stc.unwind = s.stc.unwind ∧ (s.lazy i).stc.lastGranted = s.stc.lastGranted ∧
    (s.lazy i).ftc = s.ftc ∧ (s.lazy i).lm = s.lm ∧ (s.lazy i).zas = s.zas ∧ (s.lazy i).tw = s.tw ∧
    (s.lazy i).al.overrunBitmap = s.al.overrunBitmap ∧ (s.lazy i).al.ready = s.al.ready ∧
    (s.lazy i).al.count = s.al.count ∧ (s.lazy i).al.ageInterval = s.al.ageInterval ∧
    (s.lazy i).al.ageDeadline = s.al.ageDeadline ∧ (s.lazy i).al.interruptEnable = s.al.interruptEnable ∧
    (∀ fi : FlowIx, (s.lazy i).flow fi = s.flow fi) ∧ (∀ bk : BitVec 12, (s.lazy i).plru bk = s.plru bk) ∧
    (∀ lk : LinkId, (s.lazy i).pinnedCount lk = s.pinnedCount lk) ∧
    (∀ lk : LinkId, (s.lazy i).link lk = s.link lk) ∧
    (∀ lk : LinkId, (s.lazy i).drainedWaiting lk = s.drainedWaiting lk) ∧
    (∀ lk : LinkId, (s.lazy i).autoSnapshotDue lk = s.autoSnapshotDue lk) ∧
    (∀ zn : ZoneIx, (s.lazy i).zone zn = s.zone zn) ∧ (∀ ta : TariffIx, (s.lazy i).tariff ta = s.tariff ta) ∧
    (∀ cn : Chan, (s.lazy i).chan cn = s.chan cn) := by
  unfold State.lazy
  split <;> simp

@[simp] theorem touch_frame (s : State) (i : SubIx) :
    (s.touch i).resetHeld = s.resetHeld ∧ (s.touch i).pending = s.pending ∧ (s.touch i).ci = s.ci ∧
    (s.touch i).stc.unwind = s.stc.unwind ∧ (s.touch i).stc.lastGranted = s.stc.lastGranted ∧
    (s.touch i).ftc = s.ftc ∧ (s.touch i).lm = s.lm ∧ (s.touch i).zas = s.zas ∧ (s.touch i).tw = s.tw ∧
    (s.touch i).al.overrunBitmap = s.al.overrunBitmap ∧ (s.touch i).al.ready = s.al.ready ∧
    (s.touch i).al.count = s.al.count ∧ (s.touch i).al.ageInterval = s.al.ageInterval ∧
    (s.touch i).al.ageDeadline = s.al.ageDeadline ∧ (s.touch i).al.interruptEnable = s.al.interruptEnable ∧
    (∀ fi : FlowIx, (s.touch i).flow fi = s.flow fi) ∧ (∀ bk : BitVec 12, (s.touch i).plru bk = s.plru bk) ∧
    (∀ lk : LinkId, (s.touch i).pinnedCount lk = s.pinnedCount lk) ∧
    (∀ lk : LinkId, (s.touch i).link lk = s.link lk) ∧
    (∀ lk : LinkId, (s.touch i).drainedWaiting lk = s.drainedWaiting lk) ∧
    (∀ lk : LinkId, (s.touch i).autoSnapshotDue lk = s.autoSnapshotDue lk) ∧
    (∀ zn : ZoneIx, (s.touch i).zone zn = s.zone zn) ∧ (∀ ta : TariffIx, (s.touch i).tariff ta = s.tariff ta) ∧
    (∀ cn : Chan, (s.touch i).chan cn = s.chan cn) := by
  simp [State.touch]

@[simp] theorem enterDetaching_frame (s : State) (i : SubIx) :
    (s.enterDetaching i).resetHeld = s.resetHeld ∧ (s.enterDetaching i).pending = s.pending ∧
    (s.enterDetaching i).ci = s.ci ∧ (s.enterDetaching i).stc.closedCount = s.stc.closedCount ∧
    (s.enterDetaching i).stc.lastGranted = s.stc.lastGranted ∧ (s.enterDetaching i).ftc = s.ftc ∧
    (s.enterDetaching i).lm = s.lm ∧ (s.enterDetaching i).zas = s.zas ∧ (s.enterDetaching i).tw = s.tw ∧
    (s.enterDetaching i).al = s.al ∧ (∀ fi : FlowIx, (s.enterDetaching i).flow fi = s.flow fi) ∧
    (∀ bk : BitVec 12, (s.enterDetaching i).plru bk = s.plru bk) ∧
    (∀ lk : LinkId, (s.enterDetaching i).pinnedCount lk = s.pinnedCount lk) ∧
    (∀ lk : LinkId, (s.enterDetaching i).link lk = s.link lk) ∧
    (∀ lk : LinkId, (s.enterDetaching i).drainedWaiting lk = s.drainedWaiting lk) ∧
    (∀ lk : LinkId, (s.enterDetaching i).autoSnapshotDue lk = s.autoSnapshotDue lk) ∧
    (∀ zn : ZoneIx, (s.enterDetaching i).zone zn = s.zone zn) ∧
    (∀ ta : TariffIx, (s.enterDetaching i).tariff ta = s.tariff ta) ∧
    (∀ cn : Chan, (s.enterDetaching i).chan cn = s.chan cn) ∧
    (∀ ar : AttnRecord, (s.enterDetaching i).causesOf ar = s.causesOf ar) := by
  simp [State.enterDetaching, State.sub, State.flow, State.plru, State.pinnedCount, State.link, State.drainedWaiting,
    State.autoSnapshotDue, State.zone, State.tariff, State.chan, State.causesOf]

@[simp] theorem free_frame (s : State) (i : SubIx) :
    (s.free i).resetHeld = s.resetHeld ∧ (s.free i).pending = s.pending ∧ (s.free i).ci = s.ci ∧
    (s.free i).stc.unwind = s.stc.unwind ∧ (s.free i).stc.deadlines = s.stc.deadlines ∧
    (s.free i).stc.closedCount = s.stc.closedCount ∧ (s.free i).stc.lastGranted = s.stc.lastGranted ∧
    (s.free i).ftc = s.ftc ∧ (s.free i).lm = s.lm ∧ (s.free i).zas = s.zas ∧ (s.free i).tw = s.tw ∧
    (s.free i).al.overrunBitmap = s.al.overrunBitmap ∧ (s.free i).al.ready = s.al.ready ∧
    (s.free i).al.count = s.al.count ∧ (s.free i).al.ageInterval = s.al.ageInterval ∧
    (s.free i).al.ageDeadline = s.al.ageDeadline ∧ (s.free i).al.interruptEnable = s.al.interruptEnable ∧
    (∀ fi : FlowIx, (s.free i).flow fi = s.flow fi) ∧ (∀ bk : BitVec 12, (s.free i).plru bk = s.plru bk) ∧
    (∀ lk : LinkId, (s.free i).pinnedCount lk = s.pinnedCount lk) ∧
    (∀ lk : LinkId, (s.free i).link lk = s.link lk) ∧
    (∀ lk : LinkId, (s.free i).drainedWaiting lk = s.drainedWaiting lk) ∧
    (∀ lk : LinkId, (s.free i).autoSnapshotDue lk = s.autoSnapshotDue lk) ∧
    (∀ zn : ZoneIx, (s.free i).zone zn = s.zone zn) ∧ (∀ ta : TariffIx, (s.free i).tariff ta = s.tariff ta) ∧
    (∀ cn : Chan, (s.free i).chan cn = s.chan cn) := by
  simp [State.free]

/-! ### Pins and flows -/

@[simp] theorem useWay_frame (s : State) (i : FlowIx) :
    (s.useWay i).resetHeld = s.resetHeld ∧ (s.useWay i).pending = s.pending ∧ (s.useWay i).ci = s.ci ∧
    (s.useWay i).stc = s.stc ∧ (s.useWay i).ftc.flows = s.ftc.flows ∧ (s.useWay i).ftc.pinned = s.ftc.pinned ∧
    (s.useWay i).ftc.lastGranted = s.ftc.lastGranted ∧ (s.useWay i).lm = s.lm ∧ (s.useWay i).zas = s.zas ∧
    (s.useWay i).tw = s.tw ∧ (s.useWay i).al = s.al ∧ (∀ si : SubIx, (s.useWay i).sub si = s.sub si) ∧
    (∀ fi : FlowIx, (s.useWay i).flow fi = s.flow fi) ∧
    (∀ lk : LinkId, (s.useWay i).pinnedCount lk = s.pinnedCount lk) ∧
    (∀ lk : LinkId, (s.useWay i).link lk = s.link lk) ∧
    (∀ lk : LinkId, (s.useWay i).drainedWaiting lk = s.drainedWaiting lk) ∧
    (∀ lk : LinkId, (s.useWay i).autoSnapshotDue lk = s.autoSnapshotDue lk) ∧
    (∀ zn : ZoneIx, (s.useWay i).zone zn = s.zone zn) ∧ (∀ ta : TariffIx, (s.useWay i).tariff ta = s.tariff ta) ∧
    (∀ cn : Chan, (s.useWay i).chan cn = s.chan cn) ∧ (∀ ar : AttnRecord, (s.useWay i).causesOf ar = s.causesOf ar) := by
  simp [State.useWay]

@[simp] theorem addPin_frame (s : State) (l : LinkId) :
    (s.addPin l).resetHeld = s.resetHeld ∧ (s.addPin l).pending = s.pending ∧ (s.addPin l).ci = s.ci ∧
    (s.addPin l).stc = s.stc ∧ (s.addPin l).ftc.flows = s.ftc.flows ∧ (s.addPin l).ftc.plru = s.ftc.plru ∧
    (s.addPin l).ftc.lastGranted = s.ftc.lastGranted ∧ (s.addPin l).lm = s.lm ∧ (s.addPin l).zas = s.zas ∧
    (s.addPin l).tw = s.tw ∧ (s.addPin l).al = s.al ∧ (∀ si : SubIx, (s.addPin l).sub si = s.sub si) ∧
    (∀ fi : FlowIx, (s.addPin l).flow fi = s.flow fi) ∧ (∀ bk : BitVec 12, (s.addPin l).plru bk = s.plru bk) ∧
    (∀ lk : LinkId, (s.addPin l).link lk = s.link lk) ∧
    (∀ lk : LinkId, (s.addPin l).drainedWaiting lk = s.drainedWaiting lk) ∧
    (∀ lk : LinkId, (s.addPin l).autoSnapshotDue lk = s.autoSnapshotDue lk) ∧
    (∀ zn : ZoneIx, (s.addPin l).zone zn = s.zone zn) ∧ (∀ ta : TariffIx, (s.addPin l).tariff ta = s.tariff ta) ∧
    (∀ cn : Chan, (s.addPin l).chan cn = s.chan cn) ∧ (∀ ar : AttnRecord, (s.addPin l).causesOf ar = s.causesOf ar) := by
  simp [State.addPin]

@[simp] theorem addPinOf_frame (s : State) (p : Option LinkId) :
    (s.addPinOf p).resetHeld = s.resetHeld ∧ (s.addPinOf p).pending = s.pending ∧ (s.addPinOf p).ci = s.ci ∧
    (s.addPinOf p).stc = s.stc ∧ (s.addPinOf p).ftc.flows = s.ftc.flows ∧ (s.addPinOf p).ftc.plru = s.ftc.plru ∧
    (s.addPinOf p).ftc.lastGranted = s.ftc.lastGranted ∧ (s.addPinOf p).lm = s.lm ∧ (s.addPinOf p).zas = s.zas ∧
    (s.addPinOf p).tw = s.tw ∧ (s.addPinOf p).al = s.al ∧ (∀ si : SubIx, (s.addPinOf p).sub si = s.sub si) ∧
    (∀ fi : FlowIx, (s.addPinOf p).flow fi = s.flow fi) ∧ (∀ bk : BitVec 12, (s.addPinOf p).plru bk = s.plru bk) ∧
    (∀ lk : LinkId, (s.addPinOf p).link lk = s.link lk) ∧
    (∀ lk : LinkId, (s.addPinOf p).drainedWaiting lk = s.drainedWaiting lk) ∧
    (∀ lk : LinkId, (s.addPinOf p).autoSnapshotDue lk = s.autoSnapshotDue lk) ∧
    (∀ zn : ZoneIx, (s.addPinOf p).zone zn = s.zone zn) ∧
    (∀ ta : TariffIx, (s.addPinOf p).tariff ta = s.tariff ta) ∧ (∀ cn : Chan, (s.addPinOf p).chan cn = s.chan cn) ∧
    (∀ ar : AttnRecord, (s.addPinOf p).causesOf ar = s.causesOf ar) := by
  unfold State.addPinOf
  split <;> simp

@[simp] theorem dropPin_frame (s : State) (l : LinkId) :
    (s.dropPin l).resetHeld = s.resetHeld ∧ (s.dropPin l).pending = s.pending ∧ (s.dropPin l).ci = s.ci ∧
    (s.dropPin l).stc = s.stc ∧ (s.dropPin l).ftc.flows = s.ftc.flows ∧ (s.dropPin l).ftc.plru = s.ftc.plru ∧
    (s.dropPin l).ftc.lastGranted = s.ftc.lastGranted ∧ (s.dropPin l).lm.links = s.lm.links ∧
    (s.dropPin l).lm.autoDue = s.lm.autoDue ∧ (s.dropPin l).zas = s.zas ∧ (s.dropPin l).tw = s.tw ∧
    (s.dropPin l).al = s.al ∧ (∀ si : SubIx, (s.dropPin l).sub si = s.sub si) ∧
    (∀ fi : FlowIx, (s.dropPin l).flow fi = s.flow fi) ∧ (∀ bk : BitVec 12, (s.dropPin l).plru bk = s.plru bk) ∧
    (∀ lk : LinkId, (s.dropPin l).link lk = s.link lk) ∧
    (∀ lk : LinkId, (s.dropPin l).autoSnapshotDue lk = s.autoSnapshotDue lk) ∧
    (∀ zn : ZoneIx, (s.dropPin l).zone zn = s.zone zn) ∧ (∀ ta : TariffIx, (s.dropPin l).tariff ta = s.tariff ta) ∧
    (∀ cn : Chan, (s.dropPin l).chan cn = s.chan cn) ∧
    (∀ ar : AttnRecord, (s.dropPin l).causesOf ar = s.causesOf ar) := by
  simp only [State.dropPin]
  split <;> simp

@[simp] theorem dropPinOf_frame (s : State) (p : Option LinkId) :
    (s.dropPinOf p).resetHeld = s.resetHeld ∧ (s.dropPinOf p).pending = s.pending ∧ (s.dropPinOf p).ci = s.ci ∧
    (s.dropPinOf p).stc = s.stc ∧ (s.dropPinOf p).ftc.flows = s.ftc.flows ∧ (s.dropPinOf p).ftc.plru = s.ftc.plru ∧
    (s.dropPinOf p).ftc.lastGranted = s.ftc.lastGranted ∧ (s.dropPinOf p).lm.links = s.lm.links ∧
    (s.dropPinOf p).lm.autoDue = s.lm.autoDue ∧ (s.dropPinOf p).zas = s.zas ∧ (s.dropPinOf p).tw = s.tw ∧
    (s.dropPinOf p).al = s.al ∧ (∀ si : SubIx, (s.dropPinOf p).sub si = s.sub si) ∧
    (∀ fi : FlowIx, (s.dropPinOf p).flow fi = s.flow fi) ∧
    (∀ bk : BitVec 12, (s.dropPinOf p).plru bk = s.plru bk) ∧
    (∀ lk : LinkId, (s.dropPinOf p).link lk = s.link lk) ∧
    (∀ lk : LinkId, (s.dropPinOf p).autoSnapshotDue lk = s.autoSnapshotDue lk) ∧
    (∀ zn : ZoneIx, (s.dropPinOf p).zone zn = s.zone zn) ∧
    (∀ ta : TariffIx, (s.dropPinOf p).tariff ta = s.tariff ta) ∧
    (∀ cn : Chan, (s.dropPinOf p).chan cn = s.chan cn) ∧
    (∀ ar : AttnRecord, (s.dropPinOf p).causesOf ar = s.causesOf ar) := by
  unfold State.dropPinOf
  split <;> simp

@[simp] theorem unlistFlow_frame (s : State) (i : SubIx) (h : FlowHandle) :
    (s.unlistFlow i h).resetHeld = s.resetHeld ∧ (s.unlistFlow i h).pending = s.pending ∧
    (s.unlistFlow i h).ci = s.ci ∧ (s.unlistFlow i h).stc.unwind = s.stc.unwind ∧
    (s.unlistFlow i h).stc.deadlines = s.stc.deadlines ∧ (s.unlistFlow i h).stc.closedCount = s.stc.closedCount ∧
    (s.unlistFlow i h).stc.lastGranted = s.stc.lastGranted ∧ (s.unlistFlow i h).ftc = s.ftc ∧
    (s.unlistFlow i h).lm = s.lm ∧ (s.unlistFlow i h).zas = s.zas ∧ (s.unlistFlow i h).tw = s.tw ∧
    (s.unlistFlow i h).al = s.al ∧ (∀ fi : FlowIx, (s.unlistFlow i h).flow fi = s.flow fi) ∧
    (∀ bk : BitVec 12, (s.unlistFlow i h).plru bk = s.plru bk) ∧
    (∀ lk : LinkId, (s.unlistFlow i h).pinnedCount lk = s.pinnedCount lk) ∧
    (∀ lk : LinkId, (s.unlistFlow i h).link lk = s.link lk) ∧
    (∀ lk : LinkId, (s.unlistFlow i h).drainedWaiting lk = s.drainedWaiting lk) ∧
    (∀ lk : LinkId, (s.unlistFlow i h).autoSnapshotDue lk = s.autoSnapshotDue lk) ∧
    (∀ zn : ZoneIx, (s.unlistFlow i h).zone zn = s.zone zn) ∧
    (∀ ta : TariffIx, (s.unlistFlow i h).tariff ta = s.tariff ta) ∧
    (∀ cn : Chan, (s.unlistFlow i h).chan cn = s.chan cn) ∧
    (∀ ar : AttnRecord, (s.unlistFlow i h).causesOf ar = s.causesOf ar) := by
  simp [State.unlistFlow]

@[simp] theorem listFlow_frame (s : State) (i : SubIx) (h : FlowHandle) :
    (s.listFlow i h).resetHeld = s.resetHeld ∧ (s.listFlow i h).pending = s.pending ∧ (s.listFlow i h).ci = s.ci ∧
    (s.listFlow i h).stc.unwind = s.stc.unwind ∧ (s.listFlow i h).stc.deadlines = s.stc.deadlines ∧
    (s.listFlow i h).stc.closedCount = s.stc.closedCount ∧ (s.listFlow i h).stc.lastGranted = s.stc.lastGranted ∧
    (s.listFlow i h).ftc = s.ftc ∧ (s.listFlow i h).lm = s.lm ∧ (s.listFlow i h).zas = s.zas ∧
    (s.listFlow i h).tw = s.tw ∧ (s.listFlow i h).al = s.al ∧
    (∀ fi : FlowIx, (s.listFlow i h).flow fi = s.flow fi) ∧
    (∀ bk : BitVec 12, (s.listFlow i h).plru bk = s.plru bk) ∧
    (∀ lk : LinkId, (s.listFlow i h).pinnedCount lk = s.pinnedCount lk) ∧
    (∀ lk : LinkId, (s.listFlow i h).link lk = s.link lk) ∧
    (∀ lk : LinkId, (s.listFlow i h).drainedWaiting lk = s.drainedWaiting lk) ∧
    (∀ lk : LinkId, (s.listFlow i h).autoSnapshotDue lk = s.autoSnapshotDue lk) ∧
    (∀ zn : ZoneIx, (s.listFlow i h).zone zn = s.zone zn) ∧
    (∀ ta : TariffIx, (s.listFlow i h).tariff ta = s.tariff ta) ∧
    (∀ cn : Chan, (s.listFlow i h).chan cn = s.chan cn) ∧
    (∀ ar : AttnRecord, (s.listFlow i h).causesOf ar = s.causesOf ar) := by
  simp [State.listFlow]

@[simp] theorem retire_frame (s : State) (i : FlowIx) :
    (s.retire i).resetHeld = s.resetHeld ∧ (s.retire i).pending = s.pending ∧ (s.retire i).ci = s.ci ∧
    (s.retire i).stc.unwind = s.stc.unwind ∧ (s.retire i).stc.deadlines = s.stc.deadlines ∧
    (s.retire i).stc.closedCount = s.stc.closedCount ∧ (s.retire i).stc.lastGranted = s.stc.lastGranted ∧
    (s.retire i).ftc.plru = s.ftc.plru ∧ (s.retire i).ftc.lastGranted = s.ftc.lastGranted ∧
    (s.retire i).lm.links = s.lm.links ∧ (s.retire i).lm.autoDue = s.lm.autoDue ∧ (s.retire i).zas = s.zas ∧
    (s.retire i).tw = s.tw ∧ (s.retire i).al = s.al ∧ (∀ bk : BitVec 12, (s.retire i).plru bk = s.plru bk) ∧
    (∀ lk : LinkId, (s.retire i).link lk = s.link lk) ∧
    (∀ lk : LinkId, (s.retire i).autoSnapshotDue lk = s.autoSnapshotDue lk) ∧
    (∀ zn : ZoneIx, (s.retire i).zone zn = s.zone zn) ∧ (∀ ta : TariffIx, (s.retire i).tariff ta = s.tariff ta) ∧
    (∀ cn : Chan, (s.retire i).chan cn = s.chan cn) ∧ (∀ ar : AttnRecord, (s.retire i).causesOf ar = s.causesOf ar) := by
  simp [State.retire]

@[simp] theorem retireSome_frame (s : State) (v : Option FlowIx) :
    (s.retireSome v).resetHeld = s.resetHeld ∧ (s.retireSome v).pending = s.pending ∧ (s.retireSome v).ci = s.ci ∧
    (s.retireSome v).stc.unwind = s.stc.unwind ∧ (s.retireSome v).stc.deadlines = s.stc.deadlines ∧
    (s.retireSome v).stc.closedCount = s.stc.closedCount ∧ (s.retireSome v).stc.lastGranted = s.stc.lastGranted ∧
    (s.retireSome v).ftc.plru = s.ftc.plru ∧ (s.retireSome v).ftc.lastGranted = s.ftc.lastGranted ∧
    (s.retireSome v).lm.links = s.lm.links ∧ (s.retireSome v).lm.autoDue = s.lm.autoDue ∧
    (s.retireSome v).zas = s.zas ∧ (s.retireSome v).tw = s.tw ∧ (s.retireSome v).al = s.al ∧
    (∀ bk : BitVec 12, (s.retireSome v).plru bk = s.plru bk) ∧
    (∀ lk : LinkId, (s.retireSome v).link lk = s.link lk) ∧
    (∀ lk : LinkId, (s.retireSome v).autoSnapshotDue lk = s.autoSnapshotDue lk) ∧
    (∀ zn : ZoneIx, (s.retireSome v).zone zn = s.zone zn) ∧
    (∀ ta : TariffIx, (s.retireSome v).tariff ta = s.tariff ta) ∧
    (∀ cn : Chan, (s.retireSome v).chan cn = s.chan cn) ∧
    (∀ ar : AttnRecord, (s.retireSome v).causesOf ar = s.causesOf ar) := by
  unfold State.retireSome
  split <;> simp

@[simp] theorem repinFlow_frame (s : State) (i : FlowIx) (p : Option LinkId) :
    (s.repinFlow i p).resetHeld = s.resetHeld ∧ (s.repinFlow i p).pending = s.pending ∧
    (s.repinFlow i p).ci = s.ci ∧ (s.repinFlow i p).stc = s.stc ∧ (s.repinFlow i p).ftc.plru = s.ftc.plru ∧
    (s.repinFlow i p).ftc.lastGranted = s.ftc.lastGranted ∧ (s.repinFlow i p).lm.links = s.lm.links ∧
    (s.repinFlow i p).lm.autoDue = s.lm.autoDue ∧ (s.repinFlow i p).zas = s.zas ∧ (s.repinFlow i p).tw = s.tw ∧
    (s.repinFlow i p).al = s.al ∧ (∀ si : SubIx, (s.repinFlow i p).sub si = s.sub si) ∧
    (∀ bk : BitVec 12, (s.repinFlow i p).plru bk = s.plru bk) ∧
    (∀ lk : LinkId, (s.repinFlow i p).link lk = s.link lk) ∧
    (∀ lk : LinkId, (s.repinFlow i p).autoSnapshotDue lk = s.autoSnapshotDue lk) ∧
    (∀ zn : ZoneIx, (s.repinFlow i p).zone zn = s.zone zn) ∧
    (∀ ta : TariffIx, (s.repinFlow i p).tariff ta = s.tariff ta) ∧
    (∀ cn : Chan, (s.repinFlow i p).chan cn = s.chan cn) ∧
    (∀ ar : AttnRecord, (s.repinFlow i p).causesOf ar = s.causesOf ar) := by
  unfold State.repinFlow
  split <;> simp

@[simp] theorem touchFlow_frame (s : State) (i : FlowIx) :
    (s.touchFlow i).resetHeld = s.resetHeld ∧ (s.touchFlow i).pending = s.pending ∧ (s.touchFlow i).ci = s.ci ∧
    (s.touchFlow i).stc = s.stc ∧ (s.touchFlow i).ftc.plru = s.ftc.plru ∧
    (s.touchFlow i).ftc.pinned = s.ftc.pinned ∧ (s.touchFlow i).ftc.lastGranted = s.ftc.lastGranted ∧
    (s.touchFlow i).lm = s.lm ∧ (s.touchFlow i).zas = s.zas ∧ (s.touchFlow i).tw = s.tw ∧
    (s.touchFlow i).al = s.al ∧ (∀ si : SubIx, (s.touchFlow i).sub si = s.sub si) ∧
    (∀ bk : BitVec 12, (s.touchFlow i).plru bk = s.plru bk) ∧
    (∀ lk : LinkId, (s.touchFlow i).pinnedCount lk = s.pinnedCount lk) ∧
    (∀ lk : LinkId, (s.touchFlow i).link lk = s.link lk) ∧
    (∀ lk : LinkId, (s.touchFlow i).drainedWaiting lk = s.drainedWaiting lk) ∧
    (∀ lk : LinkId, (s.touchFlow i).autoSnapshotDue lk = s.autoSnapshotDue lk) ∧
    (∀ zn : ZoneIx, (s.touchFlow i).zone zn = s.zone zn) ∧
    (∀ ta : TariffIx, (s.touchFlow i).tariff ta = s.tariff ta) ∧
    (∀ cn : Chan, (s.touchFlow i).chan cn = s.chan cn) ∧
    (∀ ar : AttnRecord, (s.touchFlow i).causesOf ar = s.causesOf ar) := by
  simp [State.touchFlow]

@[simp] theorem useFlow_frame (s : State) (i : FlowIx) :
    (s.useFlow i).resetHeld = s.resetHeld ∧ (s.useFlow i).pending = s.pending ∧ (s.useFlow i).ci = s.ci ∧
    (s.useFlow i).stc.unwind = s.stc.unwind ∧ (s.useFlow i).stc.lastGranted = s.stc.lastGranted ∧
    (s.useFlow i).ftc.pinned = s.ftc.pinned ∧ (s.useFlow i).ftc.lastGranted = s.ftc.lastGranted ∧
    (s.useFlow i).lm = s.lm ∧ (s.useFlow i).zas = s.zas ∧ (s.useFlow i).tw = s.tw ∧
    (s.useFlow i).al.overrunBitmap = s.al.overrunBitmap ∧ (s.useFlow i).al.ready = s.al.ready ∧
    (s.useFlow i).al.count = s.al.count ∧ (s.useFlow i).al.ageInterval = s.al.ageInterval ∧
    (s.useFlow i).al.ageDeadline = s.al.ageDeadline ∧ (s.useFlow i).al.interruptEnable = s.al.interruptEnable ∧
    (∀ lk : LinkId, (s.useFlow i).pinnedCount lk = s.pinnedCount lk) ∧
    (∀ lk : LinkId, (s.useFlow i).link lk = s.link lk) ∧
    (∀ lk : LinkId, (s.useFlow i).drainedWaiting lk = s.drainedWaiting lk) ∧
    (∀ lk : LinkId, (s.useFlow i).autoSnapshotDue lk = s.autoSnapshotDue lk) ∧
    (∀ zn : ZoneIx, (s.useFlow i).zone zn = s.zone zn) ∧ (∀ ta : TariffIx, (s.useFlow i).tariff ta = s.tariff ta) ∧
    (∀ cn : Chan, (s.useFlow i).chan cn = s.chan cn) := by
  simp [State.useFlow]

@[simp] theorem createFlow_frame (s : State) (i : FlowIx) (k : FlowKey) (c : FlowClass) (h : SubHandle) :
    (s.createFlow i k c h).resetHeld = s.resetHeld ∧ (s.createFlow i k c h).pending = s.pending ∧
    (s.createFlow i k c h).ci = s.ci ∧ (s.createFlow i k c h).stc.unwind = s.stc.unwind ∧
    (s.createFlow i k c h).stc.deadlines = s.stc.deadlines ∧
    (s.createFlow i k c h).stc.closedCount = s.stc.closedCount ∧
    (s.createFlow i k c h).stc.lastGranted = s.stc.lastGranted ∧
    (s.createFlow i k c h).ftc.lastGranted = s.ftc.lastGranted ∧ (s.createFlow i k c h).lm = s.lm ∧
    (s.createFlow i k c h).zas = s.zas ∧ (s.createFlow i k c h).tw = s.tw ∧ (s.createFlow i k c h).al = s.al ∧
    (∀ lk : LinkId, (s.createFlow i k c h).link lk = s.link lk) ∧
    (∀ lk : LinkId, (s.createFlow i k c h).drainedWaiting lk = s.drainedWaiting lk) ∧
    (∀ lk : LinkId, (s.createFlow i k c h).autoSnapshotDue lk = s.autoSnapshotDue lk) ∧
    (∀ zn : ZoneIx, (s.createFlow i k c h).zone zn = s.zone zn) ∧
    (∀ ta : TariffIx, (s.createFlow i k c h).tariff ta = s.tariff ta) ∧
    (∀ cn : Chan, (s.createFlow i k c h).chan cn = s.chan cn) ∧
    (∀ ar : AttnRecord, (s.createFlow i k c h).causesOf ar = s.causesOf ar) := by
  simp [State.createFlow]

/-! ### Subscribers and billing -/

@[simp] theorem createSub_frame (s : State) (i : SubIx) (r : SubRecord) :
    (s.createSub i r).resetHeld = s.resetHeld ∧ (s.createSub i r).pending = s.pending ∧
    (s.createSub i r).ci = s.ci ∧ (s.createSub i r).stc.unwind = s.stc.unwind ∧
    (s.createSub i r).stc.closedCount = s.stc.closedCount ∧ (s.createSub i r).stc.lastGranted = s.stc.lastGranted ∧
    (s.createSub i r).ftc = s.ftc ∧ (s.createSub i r).lm = s.lm ∧ (s.createSub i r).zas = s.zas ∧
    (s.createSub i r).tw = s.tw ∧ (s.createSub i r).al.overrunBitmap = s.al.overrunBitmap ∧
    (s.createSub i r).al.ready = s.al.ready ∧ (s.createSub i r).al.count = s.al.count ∧
    (s.createSub i r).al.ageInterval = s.al.ageInterval ∧ (s.createSub i r).al.ageDeadline = s.al.ageDeadline ∧
    (s.createSub i r).al.interruptEnable = s.al.interruptEnable ∧
    (∀ fi : FlowIx, (s.createSub i r).flow fi = s.flow fi) ∧
    (∀ bk : BitVec 12, (s.createSub i r).plru bk = s.plru bk) ∧
    (∀ lk : LinkId, (s.createSub i r).pinnedCount lk = s.pinnedCount lk) ∧
    (∀ lk : LinkId, (s.createSub i r).link lk = s.link lk) ∧
    (∀ lk : LinkId, (s.createSub i r).drainedWaiting lk = s.drainedWaiting lk) ∧
    (∀ lk : LinkId, (s.createSub i r).autoSnapshotDue lk = s.autoSnapshotDue lk) ∧
    (∀ zn : ZoneIx, (s.createSub i r).zone zn = s.zone zn) ∧
    (∀ ta : TariffIx, (s.createSub i r).tariff ta = s.tariff ta) ∧
    (∀ cn : Chan, (s.createSub i r).chan cn = s.chan cn) := by
  simp [State.createSub]

@[simp] theorem reviveStart_frame (s : State) (i : SubIx) (p : Bool) (h : Operator) :
    (s.reviveStart i p h).resetHeld = s.resetHeld ∧ (s.reviveStart i p h).pending = s.pending ∧
    (s.reviveStart i p h).ci = s.ci ∧ (s.reviveStart i p h).stc.unwind = s.stc.unwind ∧
    (s.reviveStart i p h).stc.deadlines = s.stc.deadlines ∧
    (s.reviveStart i p h).stc.closedCount = s.stc.closedCount ∧
    (s.reviveStart i p h).stc.lastGranted = s.stc.lastGranted ∧ (s.reviveStart i p h).ftc = s.ftc ∧
    (s.reviveStart i p h).lm = s.lm ∧ (s.reviveStart i p h).zas = s.zas ∧ (s.reviveStart i p h).tw = s.tw ∧
    (s.reviveStart i p h).al.overrunBitmap = s.al.overrunBitmap ∧ (s.reviveStart i p h).al.ready = s.al.ready ∧
    (s.reviveStart i p h).al.count = s.al.count ∧ (s.reviveStart i p h).al.ageInterval = s.al.ageInterval ∧
    (s.reviveStart i p h).al.ageDeadline = s.al.ageDeadline ∧
    (s.reviveStart i p h).al.interruptEnable = s.al.interruptEnable ∧
    (∀ fi : FlowIx, (s.reviveStart i p h).flow fi = s.flow fi) ∧
    (∀ bk : BitVec 12, (s.reviveStart i p h).plru bk = s.plru bk) ∧
    (∀ lk : LinkId, (s.reviveStart i p h).pinnedCount lk = s.pinnedCount lk) ∧
    (∀ lk : LinkId, (s.reviveStart i p h).link lk = s.link lk) ∧
    (∀ lk : LinkId, (s.reviveStart i p h).drainedWaiting lk = s.drainedWaiting lk) ∧
    (∀ lk : LinkId, (s.reviveStart i p h).autoSnapshotDue lk = s.autoSnapshotDue lk) ∧
    (∀ zn : ZoneIx, (s.reviveStart i p h).zone zn = s.zone zn) ∧
    (∀ ta : TariffIx, (s.reviveStart i p h).tariff ta = s.tariff ta) ∧
    (∀ cn : Chan, (s.reviveStart i p h).chan cn = s.chan cn) := by
  simp [State.reviveStart]

@[simp] theorem revive_frame (s : State) (i : SubIx) (p : Bool) (h : Operator) :
    (s.revive i p h).resetHeld = s.resetHeld ∧ (s.revive i p h).pending = s.pending ∧ (s.revive i p h).ci = s.ci ∧
    (s.revive i p h).stc.unwind = s.stc.unwind ∧ (s.revive i p h).stc.lastGranted = s.stc.lastGranted ∧
    (s.revive i p h).ftc = s.ftc ∧ (s.revive i p h).lm = s.lm ∧ (s.revive i p h).zas = s.zas ∧
    (s.revive i p h).tw = s.tw ∧ (s.revive i p h).al.overrunBitmap = s.al.overrunBitmap ∧
    (s.revive i p h).al.ready = s.al.ready ∧ (s.revive i p h).al.count = s.al.count ∧
    (s.revive i p h).al.ageInterval = s.al.ageInterval ∧ (s.revive i p h).al.ageDeadline = s.al.ageDeadline ∧
    (s.revive i p h).al.interruptEnable = s.al.interruptEnable ∧
    (∀ fi : FlowIx, (s.revive i p h).flow fi = s.flow fi) ∧
    (∀ bk : BitVec 12, (s.revive i p h).plru bk = s.plru bk) ∧
    (∀ lk : LinkId, (s.revive i p h).pinnedCount lk = s.pinnedCount lk) ∧
    (∀ lk : LinkId, (s.revive i p h).link lk = s.link lk) ∧
    (∀ lk : LinkId, (s.revive i p h).drainedWaiting lk = s.drainedWaiting lk) ∧
    (∀ lk : LinkId, (s.revive i p h).autoSnapshotDue lk = s.autoSnapshotDue lk) ∧
    (∀ zn : ZoneIx, (s.revive i p h).zone zn = s.zone zn) ∧
    (∀ ta : TariffIx, (s.revive i p h).tariff ta = s.tariff ta) ∧
    (∀ cn : Chan, (s.revive i p h).chan cn = s.chan cn) := by
  simp only [State.revive]
  split <;> simp

@[simp] theorem endUnwinding_frame (s : State) (i : SubIx) :
    (s.endUnwinding i).resetHeld = s.resetHeld ∧ (s.endUnwinding i).pending = s.pending ∧
    (s.endUnwinding i).ci = s.ci ∧ (s.endUnwinding i).stc.deadlines = s.stc.deadlines ∧
    (s.endUnwinding i).stc.closedCount = s.stc.closedCount ∧
    (s.endUnwinding i).stc.lastGranted = s.stc.lastGranted ∧ (s.endUnwinding i).ftc = s.ftc ∧
    (s.endUnwinding i).lm = s.lm ∧ (s.endUnwinding i).zas = s.zas ∧ (s.endUnwinding i).tw = s.tw ∧
    (s.endUnwinding i).al.overrunBitmap = s.al.overrunBitmap ∧ (s.endUnwinding i).al.ready = s.al.ready ∧
    (s.endUnwinding i).al.count = s.al.count ∧ (s.endUnwinding i).al.ageInterval = s.al.ageInterval ∧
    (s.endUnwinding i).al.ageDeadline = s.al.ageDeadline ∧
    (s.endUnwinding i).al.interruptEnable = s.al.interruptEnable ∧
    (∀ fi : FlowIx, (s.endUnwinding i).flow fi = s.flow fi) ∧
    (∀ bk : BitVec 12, (s.endUnwinding i).plru bk = s.plru bk) ∧
    (∀ lk : LinkId, (s.endUnwinding i).pinnedCount lk = s.pinnedCount lk) ∧
    (∀ lk : LinkId, (s.endUnwinding i).link lk = s.link lk) ∧
    (∀ lk : LinkId, (s.endUnwinding i).drainedWaiting lk = s.drainedWaiting lk) ∧
    (∀ lk : LinkId, (s.endUnwinding i).autoSnapshotDue lk = s.autoSnapshotDue lk) ∧
    (∀ zn : ZoneIx, (s.endUnwinding i).zone zn = s.zone zn) ∧
    (∀ ta : TariffIx, (s.endUnwinding i).tariff ta = s.tariff ta) ∧
    (∀ cn : Chan, (s.endUnwinding i).chan cn = s.chan cn) := by
  simp only [State.endUnwinding]
  repeat' split
  all_goals simp [State.sub, State.flow, State.plru, State.pinnedCount, State.link, State.drainedWaiting,
    State.autoSnapshotDue, State.zone, State.tariff, State.chan]

@[simp] theorem deferredClose_frame (s : State) (i : SubIx) :
    (s.deferredClose i).resetHeld = s.resetHeld ∧ (s.deferredClose i).pending = s.pending ∧
    (s.deferredClose i).ci = s.ci ∧ (s.deferredClose i).stc.unwind = s.stc.unwind ∧
    (s.deferredClose i).stc.lastGranted = s.stc.lastGranted ∧ (s.deferredClose i).ftc = s.ftc ∧
    (s.deferredClose i).lm = s.lm ∧ (s.deferredClose i).zas = s.zas ∧ (s.deferredClose i).tw = s.tw ∧
    (s.deferredClose i).al.overrunBitmap = s.al.overrunBitmap ∧ (s.deferredClose i).al.ready = s.al.ready ∧
    (s.deferredClose i).al.count = s.al.count ∧ (s.deferredClose i).al.ageInterval = s.al.ageInterval ∧
    (s.deferredClose i).al.ageDeadline = s.al.ageDeadline ∧
    (s.deferredClose i).al.interruptEnable = s.al.interruptEnable ∧
    (∀ fi : FlowIx, (s.deferredClose i).flow fi = s.flow fi) ∧
    (∀ bk : BitVec 12, (s.deferredClose i).plru bk = s.plru bk) ∧
    (∀ lk : LinkId, (s.deferredClose i).pinnedCount lk = s.pinnedCount lk) ∧
    (∀ lk : LinkId, (s.deferredClose i).link lk = s.link lk) ∧
    (∀ lk : LinkId, (s.deferredClose i).drainedWaiting lk = s.drainedWaiting lk) ∧
    (∀ lk : LinkId, (s.deferredClose i).autoSnapshotDue lk = s.autoSnapshotDue lk) ∧
    (∀ zn : ZoneIx, (s.deferredClose i).zone zn = s.zone zn) ∧
    (∀ ta : TariffIx, (s.deferredClose i).tariff ta = s.tariff ta) ∧
    (∀ cn : Chan, (s.deferredClose i).chan cn = s.chan cn) := by
  simp [State.deferredClose]

@[simp] theorem settleParts_frame (s : State) (i : SubIx) (x y : Option ClosedSlot) :
    (s.settleParts i x y).resetHeld = s.resetHeld ∧ (s.settleParts i x y).pending = s.pending ∧
    (s.settleParts i x y).ci = s.ci ∧ (s.settleParts i x y).stc.unwind = s.stc.unwind ∧
    (s.settleParts i x y).stc.lastGranted = s.stc.lastGranted ∧ (s.settleParts i x y).ftc = s.ftc ∧
    (s.settleParts i x y).lm = s.lm ∧ (s.settleParts i x y).zas = s.zas ∧ (s.settleParts i x y).tw = s.tw ∧
    (s.settleParts i x y).al.overrunBitmap = s.al.overrunBitmap ∧ (s.settleParts i x y).al.ready = s.al.ready ∧
    (s.settleParts i x y).al.count = s.al.count ∧ (s.settleParts i x y).al.ageInterval = s.al.ageInterval ∧
    (s.settleParts i x y).al.ageDeadline = s.al.ageDeadline ∧
    (s.settleParts i x y).al.interruptEnable = s.al.interruptEnable ∧
    (∀ fi : FlowIx, (s.settleParts i x y).flow fi = s.flow fi) ∧
    (∀ bk : BitVec 12, (s.settleParts i x y).plru bk = s.plru bk) ∧
    (∀ lk : LinkId, (s.settleParts i x y).pinnedCount lk = s.pinnedCount lk) ∧
    (∀ lk : LinkId, (s.settleParts i x y).link lk = s.link lk) ∧
    (∀ lk : LinkId, (s.settleParts i x y).drainedWaiting lk = s.drainedWaiting lk) ∧
    (∀ lk : LinkId, (s.settleParts i x y).autoSnapshotDue lk = s.autoSnapshotDue lk) ∧
    (∀ zn : ZoneIx, (s.settleParts i x y).zone zn = s.zone zn) ∧
    (∀ ta : TariffIx, (s.settleParts i x y).tariff ta = s.tariff ta) ∧
    (∀ cn : Chan, (s.settleParts i x y).chan cn = s.chan cn) := by
  simp only [State.settleParts]
  repeat' split
  all_goals simp

@[simp] theorem freeIfSettled_frame (s : State) (i : SubIx) :
    (s.freeIfSettled i).resetHeld = s.resetHeld ∧ (s.freeIfSettled i).pending = s.pending ∧
    (s.freeIfSettled i).ci = s.ci ∧ (s.freeIfSettled i).stc.unwind = s.stc.unwind ∧
    (s.freeIfSettled i).stc.deadlines = s.stc.deadlines ∧ (s.freeIfSettled i).stc.closedCount = s.stc.closedCount ∧
    (s.freeIfSettled i).stc.lastGranted = s.stc.lastGranted ∧ (s.freeIfSettled i).ftc = s.ftc ∧
    (s.freeIfSettled i).lm = s.lm ∧ (s.freeIfSettled i).zas = s.zas ∧ (s.freeIfSettled i).tw = s.tw ∧
    (s.freeIfSettled i).al.overrunBitmap = s.al.overrunBitmap ∧ (s.freeIfSettled i).al.ready = s.al.ready ∧
    (s.freeIfSettled i).al.count = s.al.count ∧ (s.freeIfSettled i).al.ageInterval = s.al.ageInterval ∧
    (s.freeIfSettled i).al.ageDeadline = s.al.ageDeadline ∧
    (s.freeIfSettled i).al.interruptEnable = s.al.interruptEnable ∧
    (∀ fi : FlowIx, (s.freeIfSettled i).flow fi = s.flow fi) ∧
    (∀ bk : BitVec 12, (s.freeIfSettled i).plru bk = s.plru bk) ∧
    (∀ lk : LinkId, (s.freeIfSettled i).pinnedCount lk = s.pinnedCount lk) ∧
    (∀ lk : LinkId, (s.freeIfSettled i).link lk = s.link lk) ∧
    (∀ lk : LinkId, (s.freeIfSettled i).drainedWaiting lk = s.drainedWaiting lk) ∧
    (∀ lk : LinkId, (s.freeIfSettled i).autoSnapshotDue lk = s.autoSnapshotDue lk) ∧
    (∀ zn : ZoneIx, (s.freeIfSettled i).zone zn = s.zone zn) ∧
    (∀ ta : TariffIx, (s.freeIfSettled i).tariff ta = s.tariff ta) ∧
    (∀ cn : Chan, (s.freeIfSettled i).chan cn = s.chan cn) := by
  unfold State.freeIfSettled
  split <;> simp

@[simp] theorem markMixed_frame (s : State) (i : SubIx) :
    (s.markMixed i).resetHeld = s.resetHeld ∧ (s.markMixed i).pending = s.pending ∧ (s.markMixed i).ci = s.ci ∧
    (s.markMixed i).stc.unwind = s.stc.unwind ∧ (s.markMixed i).stc.deadlines = s.stc.deadlines ∧
    (s.markMixed i).stc.closedCount = s.stc.closedCount ∧ (s.markMixed i).stc.lastGranted = s.stc.lastGranted ∧
    (s.markMixed i).ftc = s.ftc ∧ (s.markMixed i).lm = s.lm ∧ (s.markMixed i).zas = s.zas ∧
    (s.markMixed i).tw = s.tw ∧ (s.markMixed i).al = s.al ∧ (∀ fi : FlowIx, (s.markMixed i).flow fi = s.flow fi) ∧
    (∀ bk : BitVec 12, (s.markMixed i).plru bk = s.plru bk) ∧
    (∀ lk : LinkId, (s.markMixed i).pinnedCount lk = s.pinnedCount lk) ∧
    (∀ lk : LinkId, (s.markMixed i).link lk = s.link lk) ∧
    (∀ lk : LinkId, (s.markMixed i).drainedWaiting lk = s.drainedWaiting lk) ∧
    (∀ lk : LinkId, (s.markMixed i).autoSnapshotDue lk = s.autoSnapshotDue lk) ∧
    (∀ zn : ZoneIx, (s.markMixed i).zone zn = s.zone zn) ∧
    (∀ ta : TariffIx, (s.markMixed i).tariff ta = s.tariff ta) ∧
    (∀ cn : Chan, (s.markMixed i).chan cn = s.chan cn) ∧
    (∀ ar : AttnRecord, (s.markMixed i).causesOf ar = s.causesOf ar) := by
  unfold State.markMixed
  split <;> simp

@[simp] theorem postUsage_frame (s : State) (i : SubIx) (c : FlowClass) (m n : Word) :
    (s.postUsage i c m n).resetHeld = s.resetHeld ∧ (s.postUsage i c m n).pending = s.pending ∧
    (s.postUsage i c m n).ci = s.ci ∧ (s.postUsage i c m n).stc.unwind = s.stc.unwind ∧
    (s.postUsage i c m n).stc.lastGranted = s.stc.lastGranted ∧ (s.postUsage i c m n).ftc = s.ftc ∧
    (s.postUsage i c m n).lm = s.lm ∧ (s.postUsage i c m n).zas = s.zas ∧ (s.postUsage i c m n).tw = s.tw ∧
    (s.postUsage i c m n).al.overrunBitmap = s.al.overrunBitmap ∧ (s.postUsage i c m n).al.ready = s.al.ready ∧
    (s.postUsage i c m n).al.count = s.al.count ∧ (s.postUsage i c m n).al.ageInterval = s.al.ageInterval ∧
    (s.postUsage i c m n).al.ageDeadline = s.al.ageDeadline ∧
    (s.postUsage i c m n).al.interruptEnable = s.al.interruptEnable ∧
    (∀ fi : FlowIx, (s.postUsage i c m n).flow fi = s.flow fi) ∧
    (∀ bk : BitVec 12, (s.postUsage i c m n).plru bk = s.plru bk) ∧
    (∀ lk : LinkId, (s.postUsage i c m n).pinnedCount lk = s.pinnedCount lk) ∧
    (∀ lk : LinkId, (s.postUsage i c m n).link lk = s.link lk) ∧
    (∀ lk : LinkId, (s.postUsage i c m n).drainedWaiting lk = s.drainedWaiting lk) ∧
    (∀ lk : LinkId, (s.postUsage i c m n).autoSnapshotDue lk = s.autoSnapshotDue lk) ∧
    (∀ zn : ZoneIx, (s.postUsage i c m n).zone zn = s.zone zn) ∧
    (∀ ta : TariffIx, (s.postUsage i c m n).tariff ta = s.tariff ta) ∧
    (∀ cn : Chan, (s.postUsage i c m n).chan cn = s.chan cn) := by
  simp only [State.postUsage]
  split <;> simp

@[simp] theorem chargeBurst_frame (s : State) (i : SubIx) (c : FlowClass) (m n : Nat) :
    (s.chargeBurst i c m n).resetHeld = s.resetHeld ∧ (s.chargeBurst i c m n).pending = s.pending ∧
    (s.chargeBurst i c m n).ci = s.ci ∧ (s.chargeBurst i c m n).stc.unwind = s.stc.unwind ∧
    (s.chargeBurst i c m n).stc.closedCount = s.stc.closedCount ∧
    (s.chargeBurst i c m n).stc.lastGranted = s.stc.lastGranted ∧ (s.chargeBurst i c m n).ftc = s.ftc ∧
    (s.chargeBurst i c m n).lm = s.lm ∧ (s.chargeBurst i c m n).zas = s.zas ∧ (s.chargeBurst i c m n).tw = s.tw ∧
    (s.chargeBurst i c m n).al.overrunBitmap = s.al.overrunBitmap ∧ (s.chargeBurst i c m n).al.ready = s.al.ready ∧
    (s.chargeBurst i c m n).al.count = s.al.count ∧ (s.chargeBurst i c m n).al.ageInterval = s.al.ageInterval ∧
    (s.chargeBurst i c m n).al.ageDeadline = s.al.ageDeadline ∧
    (s.chargeBurst i c m n).al.interruptEnable = s.al.interruptEnable ∧
    (∀ fi : FlowIx, (s.chargeBurst i c m n).flow fi = s.flow fi) ∧
    (∀ bk : BitVec 12, (s.chargeBurst i c m n).plru bk = s.plru bk) ∧
    (∀ lk : LinkId, (s.chargeBurst i c m n).pinnedCount lk = s.pinnedCount lk) ∧
    (∀ lk : LinkId, (s.chargeBurst i c m n).link lk = s.link lk) ∧
    (∀ lk : LinkId, (s.chargeBurst i c m n).drainedWaiting lk = s.drainedWaiting lk) ∧
    (∀ lk : LinkId, (s.chargeBurst i c m n).autoSnapshotDue lk = s.autoSnapshotDue lk) ∧
    (∀ zn : ZoneIx, (s.chargeBurst i c m n).zone zn = s.zone zn) ∧
    (∀ ta : TariffIx, (s.chargeBurst i c m n).tariff ta = s.tariff ta) ∧
    (∀ cn : Chan, (s.chargeBurst i c m n).chan cn = s.chan cn) := by
  unfold State.chargeBurst
  split <;> simp

/-! ### Links -/

@[simp] theorem raiseEntry_frame (s : State) (l : LinkId) (e : LinkState) :
    (s.raiseEntry l e).resetHeld = s.resetHeld ∧ (s.raiseEntry l e).pending = s.pending ∧
    (s.raiseEntry l e).ci = s.ci ∧ (s.raiseEntry l e).stc = s.stc ∧ (s.raiseEntry l e).ftc = s.ftc ∧
    (s.raiseEntry l e).lm = s.lm ∧ (s.raiseEntry l e).zas = s.zas ∧ (s.raiseEntry l e).tw = s.tw ∧
    (s.raiseEntry l e).al.overrunBitmap = s.al.overrunBitmap ∧ (s.raiseEntry l e).al.ready = s.al.ready ∧
    (s.raiseEntry l e).al.count = s.al.count ∧ (s.raiseEntry l e).al.ageInterval = s.al.ageInterval ∧
    (s.raiseEntry l e).al.ageDeadline = s.al.ageDeadline ∧
    (s.raiseEntry l e).al.interruptEnable = s.al.interruptEnable ∧
    (∀ si : SubIx, (s.raiseEntry l e).sub si = s.sub si) ∧
    (∀ fi : FlowIx, (s.raiseEntry l e).flow fi = s.flow fi) ∧
    (∀ bk : BitVec 12, (s.raiseEntry l e).plru bk = s.plru bk) ∧
    (∀ lk : LinkId, (s.raiseEntry l e).pinnedCount lk = s.pinnedCount lk) ∧
    (∀ lk : LinkId, (s.raiseEntry l e).link lk = s.link lk) ∧
    (∀ lk : LinkId, (s.raiseEntry l e).drainedWaiting lk = s.drainedWaiting lk) ∧
    (∀ lk : LinkId, (s.raiseEntry l e).autoSnapshotDue lk = s.autoSnapshotDue lk) ∧
    (∀ zn : ZoneIx, (s.raiseEntry l e).zone zn = s.zone zn) ∧
    (∀ ta : TariffIx, (s.raiseEntry l e).tariff ta = s.tariff ta) ∧
    (∀ cn : Chan, (s.raiseEntry l e).chan cn = s.chan cn) := by
  unfold State.raiseEntry
  split <;> simp

@[simp] theorem restartDeadline_frame (s : State) (l : LinkId) :
    (s.restartDeadline l).resetHeld = s.resetHeld ∧ (s.restartDeadline l).pending = s.pending ∧
    (s.restartDeadline l).ci = s.ci ∧ (s.restartDeadline l).stc = s.stc ∧ (s.restartDeadline l).ftc = s.ftc ∧
    (s.restartDeadline l).lm.drained = s.lm.drained ∧ (s.restartDeadline l).lm.autoDue = s.lm.autoDue ∧
    (s.restartDeadline l).zas = s.zas ∧ (s.restartDeadline l).tw = s.tw ∧ (s.restartDeadline l).al = s.al ∧
    (∀ si : SubIx, (s.restartDeadline l).sub si = s.sub si) ∧
    (∀ fi : FlowIx, (s.restartDeadline l).flow fi = s.flow fi) ∧
    (∀ bk : BitVec 12, (s.restartDeadline l).plru bk = s.plru bk) ∧
    (∀ lk : LinkId, (s.restartDeadline l).pinnedCount lk = s.pinnedCount lk) ∧
    (∀ lk : LinkId, (s.restartDeadline l).drainedWaiting lk = s.drainedWaiting lk) ∧
    (∀ lk : LinkId, (s.restartDeadline l).autoSnapshotDue lk = s.autoSnapshotDue lk) ∧
    (∀ zn : ZoneIx, (s.restartDeadline l).zone zn = s.zone zn) ∧
    (∀ ta : TariffIx, (s.restartDeadline l).tariff ta = s.tariff ta) ∧
    (∀ cn : Chan, (s.restartDeadline l).chan cn = s.chan cn) ∧
    (∀ ar : AttnRecord, (s.restartDeadline l).causesOf ar = s.causesOf ar) := by
  simp [State.restartDeadline]

@[simp] theorem becomeLost_frame (s : State) (l : LinkId) :
    (s.becomeLost l).resetHeld = s.resetHeld ∧ (s.becomeLost l).pending = s.pending ∧ (s.becomeLost l).ci = s.ci ∧
    (s.becomeLost l).stc = s.stc ∧ (s.becomeLost l).ftc = s.ftc ∧ (s.becomeLost l).lm.drained = s.lm.drained ∧
    (s.becomeLost l).lm.autoDue = s.lm.autoDue ∧ (s.becomeLost l).zas = s.zas ∧
    (s.becomeLost l).tw.walk = s.tw.walk ∧ (s.becomeLost l).tw.currentMark = s.tw.currentMark ∧
    (s.becomeLost l).tw.previousMark = s.tw.previousMark ∧ (s.becomeLost l).tw.thirdMark = s.tw.thirdMark ∧
    (s.becomeLost l).tw.ageSummary = s.tw.ageSummary ∧ (s.becomeLost l).tw.zoneSummary = s.tw.zoneSummary ∧
    (s.becomeLost l).tw.recheckSummary = s.tw.recheckSummary ∧
    (s.becomeLost l).al.overrunBitmap = s.al.overrunBitmap ∧ (s.becomeLost l).al.ready = s.al.ready ∧
    (s.becomeLost l).al.count = s.al.count ∧ (s.becomeLost l).al.ageInterval = s.al.ageInterval ∧
    (s.becomeLost l).al.ageDeadline = s.al.ageDeadline ∧
    (s.becomeLost l).al.interruptEnable = s.al.interruptEnable ∧
    (∀ si : SubIx, (s.becomeLost l).sub si = s.sub si) ∧ (∀ fi : FlowIx, (s.becomeLost l).flow fi = s.flow fi) ∧
    (∀ bk : BitVec 12, (s.becomeLost l).plru bk = s.plru bk) ∧
    (∀ lk : LinkId, (s.becomeLost l).pinnedCount lk = s.pinnedCount lk) ∧
    (∀ lk : LinkId, (s.becomeLost l).drainedWaiting lk = s.drainedWaiting lk) ∧
    (∀ lk : LinkId, (s.becomeLost l).autoSnapshotDue lk = s.autoSnapshotDue lk) ∧
    (∀ zn : ZoneIx, (s.becomeLost l).zone zn = s.zone zn) ∧
    (∀ ta : TariffIx, (s.becomeLost l).tariff ta = s.tariff ta) ∧
    (∀ cn : Chan, (s.becomeLost l).chan cn = s.chan cn) := by
  simp [State.becomeLost]

@[simp] theorem becomeUp_frame (s : State) (l : LinkId) :
    (s.becomeUp l).resetHeld = s.resetHeld ∧ (s.becomeUp l).pending = s.pending ∧ (s.becomeUp l).ci = s.ci ∧
    (s.becomeUp l).stc = s.stc ∧ (s.becomeUp l).ftc = s.ftc ∧ (s.becomeUp l).lm.drained = s.lm.drained ∧
    (s.becomeUp l).lm.autoDue = s.lm.autoDue ∧ (s.becomeUp l).zas = s.zas ∧ (s.becomeUp l).tw = s.tw ∧
    (s.becomeUp l).al.overrunBitmap = s.al.overrunBitmap ∧ (s.becomeUp l).al.ready = s.al.ready ∧
    (s.becomeUp l).al.count = s.al.count ∧ (s.becomeUp l).al.ageInterval = s.al.ageInterval ∧
    (s.becomeUp l).al.ageDeadline = s.al.ageDeadline ∧ (s.becomeUp l).al.interruptEnable = s.al.interruptEnable ∧
    (∀ si : SubIx, (s.becomeUp l).sub si = s.sub si) ∧ (∀ fi : FlowIx, (s.becomeUp l).flow fi = s.flow fi) ∧
    (∀ bk : BitVec 12, (s.becomeUp l).plru bk = s.plru bk) ∧
    (∀ lk : LinkId, (s.becomeUp l).pinnedCount lk = s.pinnedCount lk) ∧
    (∀ lk : LinkId, (s.becomeUp l).drainedWaiting lk = s.drainedWaiting lk) ∧
    (∀ lk : LinkId, (s.becomeUp l).autoSnapshotDue lk = s.autoSnapshotDue lk) ∧
    (∀ zn : ZoneIx, (s.becomeUp l).zone zn = s.zone zn) ∧
    (∀ ta : TariffIx, (s.becomeUp l).tariff ta = s.tariff ta) ∧ (∀ cn : Chan, (s.becomeUp l).chan cn = s.chan cn) := by
  simp [State.becomeUp]

@[simp] theorem testWindows_frame (s : State) (l : LinkId) :
    (s.testWindows l).resetHeld = s.resetHeld ∧ (s.testWindows l).pending = s.pending ∧
    (s.testWindows l).ci = s.ci ∧ (s.testWindows l).stc = s.stc ∧ (s.testWindows l).ftc = s.ftc ∧
    (s.testWindows l).lm.drained = s.lm.drained ∧ (s.testWindows l).lm.autoDue = s.lm.autoDue ∧
    (s.testWindows l).zas = s.zas ∧ (s.testWindows l).tw.walk = s.tw.walk ∧
    (s.testWindows l).tw.currentMark = s.tw.currentMark ∧ (s.testWindows l).tw.previousMark = s.tw.previousMark ∧
    (s.testWindows l).tw.thirdMark = s.tw.thirdMark ∧ (s.testWindows l).tw.ageSummary = s.tw.ageSummary ∧
    (s.testWindows l).tw.zoneSummary = s.tw.zoneSummary ∧
    (s.testWindows l).tw.recheckSummary = s.tw.recheckSummary ∧
    (s.testWindows l).al.overrunBitmap = s.al.overrunBitmap ∧ (s.testWindows l).al.ready = s.al.ready ∧
    (s.testWindows l).al.count = s.al.count ∧ (s.testWindows l).al.ageInterval = s.al.ageInterval ∧
    (s.testWindows l).al.ageDeadline = s.al.ageDeadline ∧
    (s.testWindows l).al.interruptEnable = s.al.interruptEnable ∧
    (∀ si : SubIx, (s.testWindows l).sub si = s.sub si) ∧ (∀ fi : FlowIx, (s.testWindows l).flow fi = s.flow fi) ∧
    (∀ bk : BitVec 12, (s.testWindows l).plru bk = s.plru bk) ∧
    (∀ lk : LinkId, (s.testWindows l).pinnedCount lk = s.pinnedCount lk) ∧
    (∀ lk : LinkId, (s.testWindows l).drainedWaiting lk = s.drainedWaiting lk) ∧
    (∀ lk : LinkId, (s.testWindows l).autoSnapshotDue lk = s.autoSnapshotDue lk) ∧
    (∀ zn : ZoneIx, (s.testWindows l).zone zn = s.zone zn) ∧
    (∀ ta : TariffIx, (s.testWindows l).tariff ta = s.tariff ta) ∧
    (∀ cn : Chan, (s.testWindows l).chan cn = s.chan cn) := by
  unfold State.testWindows
  split <;> simp

@[simp] theorem classify_frame (s : State) (l : LinkId) (k : ReportClass) :
    (s.classify l k).resetHeld = s.resetHeld ∧ (s.classify l k).pending = s.pending ∧ (s.classify l k).ci = s.ci ∧
    (s.classify l k).stc = s.stc ∧ (s.classify l k).ftc = s.ftc ∧ (s.classify l k).lm.drained = s.lm.drained ∧
    (s.classify l k).lm.autoDue = s.lm.autoDue ∧ (s.classify l k).zas = s.zas ∧
    (s.classify l k).tw.walk = s.tw.walk ∧ (s.classify l k).tw.currentMark = s.tw.currentMark ∧
    (s.classify l k).tw.previousMark = s.tw.previousMark ∧ (s.classify l k).tw.thirdMark = s.tw.thirdMark ∧
    (s.classify l k).tw.ageSummary = s.tw.ageSummary ∧ (s.classify l k).tw.zoneSummary = s.tw.zoneSummary ∧
    (s.classify l k).tw.recheckSummary = s.tw.recheckSummary ∧
    (s.classify l k).al.overrunBitmap = s.al.overrunBitmap ∧ (s.classify l k).al.ready = s.al.ready ∧
    (s.classify l k).al.count = s.al.count ∧ (s.classify l k).al.ageInterval = s.al.ageInterval ∧
    (s.classify l k).al.ageDeadline = s.al.ageDeadline ∧
    (s.classify l k).al.interruptEnable = s.al.interruptEnable ∧
    (∀ si : SubIx, (s.classify l k).sub si = s.sub si) ∧ (∀ fi : FlowIx, (s.classify l k).flow fi = s.flow fi) ∧
    (∀ bk : BitVec 12, (s.classify l k).plru bk = s.plru bk) ∧
    (∀ lk : LinkId, (s.classify l k).pinnedCount lk = s.pinnedCount lk) ∧
    (∀ lk : LinkId, (s.classify l k).drainedWaiting lk = s.drainedWaiting lk) ∧
    (∀ lk : LinkId, (s.classify l k).autoSnapshotDue lk = s.autoSnapshotDue lk) ∧
    (∀ zn : ZoneIx, (s.classify l k).zone zn = s.zone zn) ∧
    (∀ ta : TariffIx, (s.classify l k).tariff ta = s.tariff ta) ∧
    (∀ cn : Chan, (s.classify l k).chan cn = s.chan cn) := by
  simp only [State.classify]
  split <;> simp

@[simp] theorem evaluateCongestion_frame (s : State) (l : LinkId) (o : BitVec 8) :
    (s.evaluateCongestion l o).resetHeld = s.resetHeld ∧ (s.evaluateCongestion l o).pending = s.pending ∧
    (s.evaluateCongestion l o).ci = s.ci ∧ (s.evaluateCongestion l o).stc = s.stc ∧
    (s.evaluateCongestion l o).ftc = s.ftc ∧ (s.evaluateCongestion l o).lm.drained = s.lm.drained ∧
    (s.evaluateCongestion l o).lm.autoDue = s.lm.autoDue ∧ (s.evaluateCongestion l o).zas = s.zas ∧
    (s.evaluateCongestion l o).tw = s.tw ∧ (s.evaluateCongestion l o).al.overrunBitmap = s.al.overrunBitmap ∧
    (s.evaluateCongestion l o).al.ready = s.al.ready ∧ (s.evaluateCongestion l o).al.count = s.al.count ∧
    (s.evaluateCongestion l o).al.ageInterval = s.al.ageInterval ∧
    (s.evaluateCongestion l o).al.ageDeadline = s.al.ageDeadline ∧
    (s.evaluateCongestion l o).al.interruptEnable = s.al.interruptEnable ∧
    (∀ si : SubIx, (s.evaluateCongestion l o).sub si = s.sub si) ∧
    (∀ fi : FlowIx, (s.evaluateCongestion l o).flow fi = s.flow fi) ∧
    (∀ bk : BitVec 12, (s.evaluateCongestion l o).plru bk = s.plru bk) ∧
    (∀ lk : LinkId, (s.evaluateCongestion l o).pinnedCount lk = s.pinnedCount lk) ∧
    (∀ lk : LinkId, (s.evaluateCongestion l o).drainedWaiting lk = s.drainedWaiting lk) ∧
    (∀ lk : LinkId, (s.evaluateCongestion l o).autoSnapshotDue lk = s.autoSnapshotDue lk) ∧
    (∀ zn : ZoneIx, (s.evaluateCongestion l o).zone zn = s.zone zn) ∧
    (∀ ta : TariffIx, (s.evaluateCongestion l o).tariff ta = s.tariff ta) ∧
    (∀ cn : Chan, (s.evaluateCongestion l o).chan cn = s.chan cn) := by
  simp only [State.evaluateCongestion]
  repeat' split
  all_goals simp

@[simp] theorem leaveService_frame (s : State) (l : LinkId) (e : LinkState) :
    (s.leaveService l e).resetHeld = s.resetHeld ∧ (s.leaveService l e).pending = s.pending ∧
    (s.leaveService l e).ci = s.ci ∧ (s.leaveService l e).stc = s.stc ∧ (s.leaveService l e).ftc = s.ftc ∧
    (s.leaveService l e).lm.drained = s.lm.drained ∧ (s.leaveService l e).lm.autoDue = s.lm.autoDue ∧
    (s.leaveService l e).zas = s.zas ∧ (s.leaveService l e).tw = s.tw ∧
    (s.leaveService l e).al.overrunBitmap = s.al.overrunBitmap ∧ (s.leaveService l e).al.ready = s.al.ready ∧
    (s.leaveService l e).al.count = s.al.count ∧ (s.leaveService l e).al.ageInterval = s.al.ageInterval ∧
    (s.leaveService l e).al.ageDeadline = s.al.ageDeadline ∧
    (s.leaveService l e).al.interruptEnable = s.al.interruptEnable ∧
    (∀ si : SubIx, (s.leaveService l e).sub si = s.sub si) ∧
    (∀ fi : FlowIx, (s.leaveService l e).flow fi = s.flow fi) ∧
    (∀ bk : BitVec 12, (s.leaveService l e).plru bk = s.plru bk) ∧
    (∀ lk : LinkId, (s.leaveService l e).pinnedCount lk = s.pinnedCount lk) ∧
    (∀ lk : LinkId, (s.leaveService l e).drainedWaiting lk = s.drainedWaiting lk) ∧
    (∀ lk : LinkId, (s.leaveService l e).autoSnapshotDue lk = s.autoSnapshotDue lk) ∧
    (∀ zn : ZoneIx, (s.leaveService l e).zone zn = s.zone zn) ∧
    (∀ ta : TariffIx, (s.leaveService l e).tariff ta = s.tariff ta) ∧
    (∀ cn : Chan, (s.leaveService l e).chan cn = s.chan cn) := by
  simp [State.leaveService]

@[simp] theorem requestRepin_frame (s : State) (l : LinkId) :
    (s.requestRepin l).resetHeld = s.resetHeld ∧ (s.requestRepin l).pending = s.pending ∧
    (s.requestRepin l).ci = s.ci ∧ (s.requestRepin l).stc = s.stc ∧ (s.requestRepin l).ftc = s.ftc ∧
    (s.requestRepin l).lm = s.lm ∧ (s.requestRepin l).zas = s.zas ∧ (s.requestRepin l).tw.walk = s.tw.walk ∧
    (s.requestRepin l).tw.currentMark = s.tw.currentMark ∧ (s.requestRepin l).tw.previousMark = s.tw.previousMark ∧
    (s.requestRepin l).tw.thirdMark = s.tw.thirdMark ∧ (s.requestRepin l).tw.ageSummary = s.tw.ageSummary ∧
    (s.requestRepin l).tw.zoneSummary = s.tw.zoneSummary ∧
    (s.requestRepin l).tw.recheckSummary = s.tw.recheckSummary ∧ (s.requestRepin l).al = s.al ∧
    (∀ si : SubIx, (s.requestRepin l).sub si = s.sub si) ∧
    (∀ fi : FlowIx, (s.requestRepin l).flow fi = s.flow fi) ∧
    (∀ bk : BitVec 12, (s.requestRepin l).plru bk = s.plru bk) ∧
    (∀ lk : LinkId, (s.requestRepin l).pinnedCount lk = s.pinnedCount lk) ∧
    (∀ lk : LinkId, (s.requestRepin l).link lk = s.link lk) ∧
    (∀ lk : LinkId, (s.requestRepin l).drainedWaiting lk = s.drainedWaiting lk) ∧
    (∀ lk : LinkId, (s.requestRepin l).autoSnapshotDue lk = s.autoSnapshotDue lk) ∧
    (∀ zn : ZoneIx, (s.requestRepin l).zone zn = s.zone zn) ∧
    (∀ ta : TariffIx, (s.requestRepin l).tariff ta = s.tariff ta) ∧
    (∀ cn : Chan, (s.requestRepin l).chan cn = s.chan cn) ∧
    (∀ ar : AttnRecord, (s.requestRepin l).causesOf ar = s.causesOf ar) := by
  unfold State.requestRepin
  split <;> simp

@[simp] theorem takeSnapshot_frame (s : State) (l : LinkId) :
    (s.takeSnapshot l).resetHeld = s.resetHeld ∧ (s.takeSnapshot l).pending = s.pending ∧
    (s.takeSnapshot l).ci = s.ci ∧ (s.takeSnapshot l).stc = s.stc ∧ (s.takeSnapshot l).ftc = s.ftc ∧
    (s.takeSnapshot l).lm.drained = s.lm.drained ∧ (s.takeSnapshot l).lm.autoDue = s.lm.autoDue ∧
    (s.takeSnapshot l).zas = s.zas ∧ (s.takeSnapshot l).tw = s.tw ∧ (s.takeSnapshot l).al = s.al ∧
    (∀ si : SubIx, (s.takeSnapshot l).sub si = s.sub si) ∧
    (∀ fi : FlowIx, (s.takeSnapshot l).flow fi = s.flow fi) ∧
    (∀ bk : BitVec 12, (s.takeSnapshot l).plru bk = s.plru bk) ∧
    (∀ lk : LinkId, (s.takeSnapshot l).pinnedCount lk = s.pinnedCount lk) ∧
    (∀ lk : LinkId, (s.takeSnapshot l).drainedWaiting lk = s.drainedWaiting lk) ∧
    (∀ lk : LinkId, (s.takeSnapshot l).autoSnapshotDue lk = s.autoSnapshotDue lk) ∧
    (∀ zn : ZoneIx, (s.takeSnapshot l).zone zn = s.zone zn) ∧
    (∀ ta : TariffIx, (s.takeSnapshot l).tariff ta = s.tariff ta) ∧
    (∀ cn : Chan, (s.takeSnapshot l).chan cn = s.chan cn) ∧
    (∀ ar : AttnRecord, (s.takeSnapshot l).causesOf ar = s.causesOf ar) := by
  simp [State.takeSnapshot]

@[simp] theorem takeDrained_frame (s : State) (l : LinkId) :
    (s.takeDrained l).resetHeld = s.resetHeld ∧ (s.takeDrained l).pending = s.pending ∧
    (s.takeDrained l).ci = s.ci ∧ (s.takeDrained l).stc = s.stc ∧ (s.takeDrained l).ftc = s.ftc ∧
    (s.takeDrained l).lm.autoDue = s.lm.autoDue ∧ (s.takeDrained l).zas = s.zas ∧ (s.takeDrained l).tw = s.tw ∧
    (s.takeDrained l).al.overrunBitmap = s.al.overrunBitmap ∧ (s.takeDrained l).al.ready = s.al.ready ∧
    (s.takeDrained l).al.count = s.al.count ∧ (s.takeDrained l).al.ageInterval = s.al.ageInterval ∧
    (s.takeDrained l).al.ageDeadline = s.al.ageDeadline ∧
    (s.takeDrained l).al.interruptEnable = s.al.interruptEnable ∧
    (∀ si : SubIx, (s.takeDrained l).sub si = s.sub si) ∧ (∀ fi : FlowIx, (s.takeDrained l).flow fi = s.flow fi) ∧
    (∀ bk : BitVec 12, (s.takeDrained l).plru bk = s.plru bk) ∧
    (∀ lk : LinkId, (s.takeDrained l).pinnedCount lk = s.pinnedCount lk) ∧
    (∀ lk : LinkId, (s.takeDrained l).autoSnapshotDue lk = s.autoSnapshotDue lk) ∧
    (∀ zn : ZoneIx, (s.takeDrained l).zone zn = s.zone zn) ∧
    (∀ ta : TariffIx, (s.takeDrained l).tariff ta = s.tariff ta) ∧
    (∀ cn : Chan, (s.takeDrained l).chan cn = s.chan cn) := by
  simp only [State.takeDrained]
  split <;> simp

@[simp] theorem expireStale_frame (s : State) (l : LinkId) :
    (s.expireStale l).resetHeld = s.resetHeld ∧ (s.expireStale l).pending = s.pending ∧
    (s.expireStale l).ci = s.ci ∧ (s.expireStale l).stc = s.stc ∧ (s.expireStale l).ftc = s.ftc ∧
    (s.expireStale l).lm.drained = s.lm.drained ∧ (s.expireStale l).lm.autoDue = s.lm.autoDue ∧
    (s.expireStale l).zas = s.zas ∧ (s.expireStale l).tw.walk = s.tw.walk ∧
    (s.expireStale l).tw.currentMark = s.tw.currentMark ∧ (s.expireStale l).tw.previousMark = s.tw.previousMark ∧
    (s.expireStale l).tw.thirdMark = s.tw.thirdMark ∧ (s.expireStale l).tw.ageSummary = s.tw.ageSummary ∧
    (s.expireStale l).tw.zoneSummary = s.tw.zoneSummary ∧
    (s.expireStale l).tw.recheckSummary = s.tw.recheckSummary ∧
    (s.expireStale l).al.overrunBitmap = s.al.overrunBitmap ∧ (s.expireStale l).al.ready = s.al.ready ∧
    (s.expireStale l).al.count = s.al.count ∧ (s.expireStale l).al.ageInterval = s.al.ageInterval ∧
    (s.expireStale l).al.ageDeadline = s.al.ageDeadline ∧
    (s.expireStale l).al.interruptEnable = s.al.interruptEnable ∧
    (∀ si : SubIx, (s.expireStale l).sub si = s.sub si) ∧ (∀ fi : FlowIx, (s.expireStale l).flow fi = s.flow fi) ∧
    (∀ bk : BitVec 12, (s.expireStale l).plru bk = s.plru bk) ∧
    (∀ lk : LinkId, (s.expireStale l).pinnedCount lk = s.pinnedCount lk) ∧
    (∀ lk : LinkId, (s.expireStale l).drainedWaiting lk = s.drainedWaiting lk) ∧
    (∀ lk : LinkId, (s.expireStale l).autoSnapshotDue lk = s.autoSnapshotDue lk) ∧
    (∀ zn : ZoneIx, (s.expireStale l).zone zn = s.zone zn) ∧
    (∀ ta : TariffIx, (s.expireStale l).tariff ta = s.tariff ta) ∧
    (∀ cn : Chan, (s.expireStale l).chan cn = s.chan cn) := by
  simp [State.expireStale]

/-! ### Zones and walks -/

@[simp] theorem advancePolicy_frame (s : State) :
    s.advancePolicy.resetHeld = s.resetHeld ∧ s.advancePolicy.pending = s.pending ∧ s.advancePolicy.ci = s.ci ∧
    s.advancePolicy.stc = s.stc ∧ s.advancePolicy.ftc = s.ftc ∧ s.advancePolicy.lm = s.lm ∧
    s.advancePolicy.zas.zones = s.zas.zones ∧ s.advancePolicy.zas.agreements = s.zas.agreements ∧
    s.advancePolicy.zas.tariffs = s.zas.tariffs ∧ s.advancePolicy.zas.currentZone = s.zas.currentZone ∧
    s.advancePolicy.zas.zoneEpoch = s.zas.zoneEpoch ∧ s.advancePolicy.tw.walk = s.tw.walk ∧
    s.advancePolicy.tw.currentMark = s.tw.currentMark ∧ s.advancePolicy.tw.previousMark = s.tw.previousMark ∧
    s.advancePolicy.tw.thirdMark = s.tw.thirdMark ∧ s.advancePolicy.tw.ageSummary = s.tw.ageSummary ∧
    s.advancePolicy.tw.zoneSummary = s.tw.zoneSummary ∧ s.advancePolicy.tw.recheckSummary = s.tw.recheckSummary ∧
    s.advancePolicy.al = s.al ∧ (∀ si : SubIx, s.advancePolicy.sub si = s.sub si) ∧
    (∀ fi : FlowIx, s.advancePolicy.flow fi = s.flow fi) ∧
    (∀ bk : BitVec 12, s.advancePolicy.plru bk = s.plru bk) ∧
    (∀ lk : LinkId, s.advancePolicy.pinnedCount lk = s.pinnedCount lk) ∧
    (∀ lk : LinkId, s.advancePolicy.link lk = s.link lk) ∧
    (∀ lk : LinkId, s.advancePolicy.drainedWaiting lk = s.drainedWaiting lk) ∧
    (∀ lk : LinkId, s.advancePolicy.autoSnapshotDue lk = s.autoSnapshotDue lk) ∧
    (∀ zn : ZoneIx, s.advancePolicy.zone zn = s.zone zn) ∧
    (∀ ta : TariffIx, s.advancePolicy.tariff ta = s.tariff ta) ∧
    (∀ cn : Chan, s.advancePolicy.chan cn = s.chan cn) ∧
    (∀ ar : AttnRecord, s.advancePolicy.causesOf ar = s.causesOf ar) := by
  simp [State.advancePolicy, State.sub, State.flow, State.plru, State.pinnedCount, State.link, State.drainedWaiting,
    State.autoSnapshotDue, State.zone, State.tariff, State.chan, State.causesOf]

@[simp] theorem advancePolicyIf_frame (s : State) (b : Bool) :
    (s.advancePolicyIf b).resetHeld = s.resetHeld ∧ (s.advancePolicyIf b).pending = s.pending ∧
    (s.advancePolicyIf b).ci = s.ci ∧ (s.advancePolicyIf b).stc = s.stc ∧ (s.advancePolicyIf b).ftc = s.ftc ∧
    (s.advancePolicyIf b).lm = s.lm ∧ (s.advancePolicyIf b).zas.zones = s.zas.zones ∧
    (s.advancePolicyIf b).zas.agreements = s.zas.agreements ∧ (s.advancePolicyIf b).zas.tariffs = s.zas.tariffs ∧
    (s.advancePolicyIf b).zas.currentZone = s.zas.currentZone ∧
    (s.advancePolicyIf b).zas.zoneEpoch = s.zas.zoneEpoch ∧ (s.advancePolicyIf b).tw.walk = s.tw.walk ∧
    (s.advancePolicyIf b).tw.currentMark = s.tw.currentMark ∧
    (s.advancePolicyIf b).tw.previousMark = s.tw.previousMark ∧
    (s.advancePolicyIf b).tw.thirdMark = s.tw.thirdMark ∧ (s.advancePolicyIf b).tw.ageSummary = s.tw.ageSummary ∧
    (s.advancePolicyIf b).tw.zoneSummary = s.tw.zoneSummary ∧
    (s.advancePolicyIf b).tw.recheckSummary = s.tw.recheckSummary ∧ (s.advancePolicyIf b).al = s.al ∧
    (∀ si : SubIx, (s.advancePolicyIf b).sub si = s.sub si) ∧
    (∀ fi : FlowIx, (s.advancePolicyIf b).flow fi = s.flow fi) ∧
    (∀ bk : BitVec 12, (s.advancePolicyIf b).plru bk = s.plru bk) ∧
    (∀ lk : LinkId, (s.advancePolicyIf b).pinnedCount lk = s.pinnedCount lk) ∧
    (∀ lk : LinkId, (s.advancePolicyIf b).link lk = s.link lk) ∧
    (∀ lk : LinkId, (s.advancePolicyIf b).drainedWaiting lk = s.drainedWaiting lk) ∧
    (∀ lk : LinkId, (s.advancePolicyIf b).autoSnapshotDue lk = s.autoSnapshotDue lk) ∧
    (∀ zn : ZoneIx, (s.advancePolicyIf b).zone zn = s.zone zn) ∧
    (∀ ta : TariffIx, (s.advancePolicyIf b).tariff ta = s.tariff ta) ∧
    (∀ cn : Chan, (s.advancePolicyIf b).chan cn = s.chan cn) ∧
    (∀ ar : AttnRecord, (s.advancePolicyIf b).causesOf ar = s.causesOf ar) := by
  unfold State.advancePolicyIf
  split <;> simp

@[simp] theorem enterZone_frame (s : State) (k : ZoneIx) :
    (s.enterZone k).resetHeld = s.resetHeld ∧ (s.enterZone k).pending = s.pending ∧ (s.enterZone k).ci = s.ci ∧
    (s.enterZone k).stc = s.stc ∧ (s.enterZone k).ftc = s.ftc ∧ (s.enterZone k).lm = s.lm ∧
    (s.enterZone k).zas.zones = s.zas.zones ∧ (s.enterZone k).zas.agreements = s.zas.agreements ∧
    (s.enterZone k).zas.tariffs = s.zas.tariffs ∧ (s.enterZone k).zas.policyEpoch = s.zas.policyEpoch ∧
    (s.enterZone k).tw.walk = s.tw.walk ∧ (s.enterZone k).tw.currentMark = s.tw.currentMark ∧
    (s.enterZone k).tw.previousMark = s.tw.previousMark ∧ (s.enterZone k).tw.thirdMark = s.tw.thirdMark ∧
    (s.enterZone k).tw.ageSummary = s.tw.ageSummary ∧ (s.enterZone k).tw.zoneSummary = s.tw.zoneSummary ∧
    (s.enterZone k).tw.recheckSummary = s.tw.recheckSummary ∧ (s.enterZone k).al = s.al ∧
    (∀ si : SubIx, (s.enterZone k).sub si = s.sub si) ∧ (∀ fi : FlowIx, (s.enterZone k).flow fi = s.flow fi) ∧
    (∀ bk : BitVec 12, (s.enterZone k).plru bk = s.plru bk) ∧
    (∀ lk : LinkId, (s.enterZone k).pinnedCount lk = s.pinnedCount lk) ∧
    (∀ lk : LinkId, (s.enterZone k).link lk = s.link lk) ∧
    (∀ lk : LinkId, (s.enterZone k).drainedWaiting lk = s.drainedWaiting lk) ∧
    (∀ lk : LinkId, (s.enterZone k).autoSnapshotDue lk = s.autoSnapshotDue lk) ∧
    (∀ zn : ZoneIx, (s.enterZone k).zone zn = s.zone zn) ∧
    (∀ ta : TariffIx, (s.enterZone k).tariff ta = s.tariff ta) ∧
    (∀ cn : Chan, (s.enterZone k).chan cn = s.chan cn) ∧
    (∀ ar : AttnRecord, (s.enterZone k).causesOf ar = s.causesOf ar) := by
  simp [State.enterZone, State.sub, State.flow, State.plru, State.pinnedCount, State.link, State.drainedWaiting,
    State.autoSnapshotDue, State.zone, State.tariff, State.chan, State.causesOf]

@[simp] theorem endRepin_frame (s : State) (l : LinkId) (m n : Nat) (b : Bool) :
    (s.endRepin l m n b).resetHeld = s.resetHeld ∧ (s.endRepin l m n b).pending = s.pending ∧
    (s.endRepin l m n b).ci = s.ci ∧ (s.endRepin l m n b).stc = s.stc ∧ (s.endRepin l m n b).ftc = s.ftc ∧
    (s.endRepin l m n b).lm.drained = s.lm.drained ∧ (s.endRepin l m n b).lm.autoDue = s.lm.autoDue ∧
    (s.endRepin l m n b).zas = s.zas ∧ (s.endRepin l m n b).tw.queue = s.tw.queue ∧
    (s.endRepin l m n b).tw.currentMark = s.tw.currentMark ∧
    (s.endRepin l m n b).tw.previousMark = s.tw.previousMark ∧ (s.endRepin l m n b).tw.thirdMark = s.tw.thirdMark ∧
    (s.endRepin l m n b).tw.ageSummary = s.tw.ageSummary ∧ (s.endRepin l m n b).tw.zoneSummary = s.tw.zoneSummary ∧
    (s.endRepin l m n b).tw.recheckSummary = s.tw.recheckSummary ∧
    (s.endRepin l m n b).al.overrunBitmap = s.al.overrunBitmap ∧ (s.endRepin l m n b).al.ready = s.al.ready ∧
    (s.endRepin l m n b).al.count = s.al.count ∧ (s.endRepin l m n b).al.ageInterval = s.al.ageInterval ∧
    (s.endRepin l m n b).al.ageDeadline = s.al.ageDeadline ∧
    (s.endRepin l m n b).al.interruptEnable = s.al.interruptEnable ∧
    (∀ si : SubIx, (s.endRepin l m n b).sub si = s.sub si) ∧
    (∀ fi : FlowIx, (s.endRepin l m n b).flow fi = s.flow fi) ∧
    (∀ bk : BitVec 12, (s.endRepin l m n b).plru bk = s.plru bk) ∧
    (∀ lk : LinkId, (s.endRepin l m n b).pinnedCount lk = s.pinnedCount lk) ∧
    (∀ lk : LinkId, (s.endRepin l m n b).drainedWaiting lk = s.drainedWaiting lk) ∧
    (∀ lk : LinkId, (s.endRepin l m n b).autoSnapshotDue lk = s.autoSnapshotDue lk) ∧
    (∀ zn : ZoneIx, (s.endRepin l m n b).zone zn = s.zone zn) ∧
    (∀ ta : TariffIx, (s.endRepin l m n b).tariff ta = s.tariff ta) ∧
    (∀ cn : Chan, (s.endRepin l m n b).chan cn = s.chan cn) := by
  simp [State.endRepin]

@[simp] theorem rotateMarks_frame (s : State) :
    s.rotateMarks.resetHeld = s.resetHeld ∧ s.rotateMarks.pending = s.pending ∧ s.rotateMarks.ci = s.ci ∧
    s.rotateMarks.stc = s.stc ∧ s.rotateMarks.ftc = s.ftc ∧ s.rotateMarks.lm = s.lm ∧ s.rotateMarks.zas = s.zas ∧
    s.rotateMarks.tw.queue = s.tw.queue ∧ s.rotateMarks.tw.walk = s.tw.walk ∧
    s.rotateMarks.tw.ageSummary = s.tw.ageSummary ∧ s.rotateMarks.tw.zoneSummary = s.tw.zoneSummary ∧
    s.rotateMarks.tw.recheckSummary = s.tw.recheckSummary ∧ s.rotateMarks.al = s.al ∧
    (∀ si : SubIx, s.rotateMarks.sub si = s.sub si) ∧ (∀ fi : FlowIx, s.rotateMarks.flow fi = s.flow fi) ∧
    (∀ bk : BitVec 12, s.rotateMarks.plru bk = s.plru bk) ∧
    (∀ lk : LinkId, s.rotateMarks.pinnedCount lk = s.pinnedCount lk) ∧
    (∀ lk : LinkId, s.rotateMarks.link lk = s.link lk) ∧
    (∀ lk : LinkId, s.rotateMarks.drainedWaiting lk = s.drainedWaiting lk) ∧
    (∀ lk : LinkId, s.rotateMarks.autoSnapshotDue lk = s.autoSnapshotDue lk) ∧
    (∀ zn : ZoneIx, s.rotateMarks.zone zn = s.zone zn) ∧ (∀ ta : TariffIx, s.rotateMarks.tariff ta = s.tariff ta) ∧
    (∀ cn : Chan, s.rotateMarks.chan cn = s.chan cn) ∧
    (∀ ar : AttnRecord, s.rotateMarks.causesOf ar = s.causesOf ar) := by
  simp [State.rotateMarks, State.sub, State.flow, State.plru, State.pinnedCount, State.link, State.drainedWaiting,
    State.autoSnapshotDue, State.zone, State.tariff, State.chan, State.causesOf]

@[simp] theorem startWalk_frame (s : State) (e : WalkEntry) :
    (s.startWalk e).resetHeld = s.resetHeld ∧ (s.startWalk e).pending = s.pending ∧ (s.startWalk e).ci = s.ci ∧
    (s.startWalk e).stc = s.stc ∧ (s.startWalk e).ftc = s.ftc ∧ (s.startWalk e).lm.drained = s.lm.drained ∧
    (s.startWalk e).lm.autoDue = s.lm.autoDue ∧ (s.startWalk e).zas = s.zas ∧
    (s.startWalk e).tw.queue = s.tw.queue ∧ (s.startWalk e).tw.ageSummary = s.tw.ageSummary ∧
    (s.startWalk e).tw.zoneSummary = s.tw.zoneSummary ∧ (s.startWalk e).tw.recheckSummary = s.tw.recheckSummary ∧
    (s.startWalk e).al.overrunBitmap = s.al.overrunBitmap ∧ (s.startWalk e).al.ready = s.al.ready ∧
    (s.startWalk e).al.count = s.al.count ∧ (s.startWalk e).al.ageInterval = s.al.ageInterval ∧
    (s.startWalk e).al.ageDeadline = s.al.ageDeadline ∧ (s.startWalk e).al.interruptEnable = s.al.interruptEnable ∧
    (∀ si : SubIx, (s.startWalk e).sub si = s.sub si) ∧ (∀ fi : FlowIx, (s.startWalk e).flow fi = s.flow fi) ∧
    (∀ bk : BitVec 12, (s.startWalk e).plru bk = s.plru bk) ∧
    (∀ lk : LinkId, (s.startWalk e).pinnedCount lk = s.pinnedCount lk) ∧
    (∀ lk : LinkId, (s.startWalk e).drainedWaiting lk = s.drainedWaiting lk) ∧
    (∀ lk : LinkId, (s.startWalk e).autoSnapshotDue lk = s.autoSnapshotDue lk) ∧
    (∀ zn : ZoneIx, (s.startWalk e).zone zn = s.zone zn) ∧
    (∀ ta : TariffIx, (s.startWalk e).tariff ta = s.tariff ta) ∧ (∀ cn : Chan, (s.startWalk e).chan cn = s.chan cn) := by
  unfold State.startWalk
  repeat' split
  all_goals simp

@[simp] theorem remark_frame (s : State) (i : SubIx) :
    (s.remark i).resetHeld = s.resetHeld ∧ (s.remark i).pending = s.pending ∧ (s.remark i).ci = s.ci ∧
    (s.remark i).stc.unwind = s.stc.unwind ∧ (s.remark i).stc.deadlines = s.stc.deadlines ∧
    (s.remark i).stc.closedCount = s.stc.closedCount ∧ (s.remark i).stc.lastGranted = s.stc.lastGranted ∧
    (s.remark i).ftc = s.ftc ∧ (s.remark i).lm = s.lm ∧ (s.remark i).zas = s.zas ∧ (s.remark i).tw = s.tw ∧
    (s.remark i).al = s.al ∧ (∀ fi : FlowIx, (s.remark i).flow fi = s.flow fi) ∧
    (∀ bk : BitVec 12, (s.remark i).plru bk = s.plru bk) ∧
    (∀ lk : LinkId, (s.remark i).pinnedCount lk = s.pinnedCount lk) ∧
    (∀ lk : LinkId, (s.remark i).link lk = s.link lk) ∧
    (∀ lk : LinkId, (s.remark i).drainedWaiting lk = s.drainedWaiting lk) ∧
    (∀ lk : LinkId, (s.remark i).autoSnapshotDue lk = s.autoSnapshotDue lk) ∧
    (∀ zn : ZoneIx, (s.remark i).zone zn = s.zone zn) ∧ (∀ ta : TariffIx, (s.remark i).tariff ta = s.tariff ta) ∧
    (∀ cn : Chan, (s.remark i).chan cn = s.chan cn) ∧ (∀ ar : AttnRecord, (s.remark i).causesOf ar = s.causesOf ar) := by
  simp [State.remark]

@[simp] theorem ageSub_frame (s : State) (i : SubIx) :
    (s.ageSub i).resetHeld = s.resetHeld ∧ (s.ageSub i).pending = s.pending ∧ (s.ageSub i).ci = s.ci ∧
    (s.ageSub i).stc.closedCount = s.stc.closedCount ∧ (s.ageSub i).stc.lastGranted = s.stc.lastGranted ∧
    (s.ageSub i).ftc = s.ftc ∧ (s.ageSub i).lm = s.lm ∧ (s.ageSub i).zas = s.zas ∧ (s.ageSub i).tw = s.tw ∧
    (s.ageSub i).al = s.al ∧ (∀ fi : FlowIx, (s.ageSub i).flow fi = s.flow fi) ∧
    (∀ bk : BitVec 12, (s.ageSub i).plru bk = s.plru bk) ∧
    (∀ lk : LinkId, (s.ageSub i).pinnedCount lk = s.pinnedCount lk) ∧
    (∀ lk : LinkId, (s.ageSub i).link lk = s.link lk) ∧
    (∀ lk : LinkId, (s.ageSub i).drainedWaiting lk = s.drainedWaiting lk) ∧
    (∀ lk : LinkId, (s.ageSub i).autoSnapshotDue lk = s.autoSnapshotDue lk) ∧
    (∀ zn : ZoneIx, (s.ageSub i).zone zn = s.zone zn) ∧ (∀ ta : TariffIx, (s.ageSub i).tariff ta = s.tariff ta) ∧
    (∀ cn : Chan, (s.ageSub i).chan cn = s.chan cn) ∧ (∀ ar : AttnRecord, (s.ageSub i).causesOf ar = s.causesOf ar) := by
  unfold State.ageSub
  repeat' split
  all_goals simp

@[simp] theorem lazyVisit_frame (s : State) (i : SubIx) :
    (s.lazyVisit i).resetHeld = s.resetHeld ∧ (s.lazyVisit i).pending = s.pending ∧ (s.lazyVisit i).ci = s.ci ∧
    (s.lazyVisit i).stc.unwind = s.stc.unwind ∧ (s.lazyVisit i).stc.lastGranted = s.stc.lastGranted ∧
    (s.lazyVisit i).ftc = s.ftc ∧ (s.lazyVisit i).lm = s.lm ∧ (s.lazyVisit i).zas = s.zas ∧
    (s.lazyVisit i).tw = s.tw ∧ (s.lazyVisit i).al.overrunBitmap = s.al.overrunBitmap ∧
    (s.lazyVisit i).al.ready = s.al.ready ∧ (s.lazyVisit i).al.count = s.al.count ∧
    (s.lazyVisit i).al.ageInterval = s.al.ageInterval ∧ (s.lazyVisit i).al.ageDeadline = s.al.ageDeadline ∧
    (s.lazyVisit i).al.interruptEnable = s.al.interruptEnable ∧
    (∀ fi : FlowIx, (s.lazyVisit i).flow fi = s.flow fi) ∧
    (∀ bk : BitVec 12, (s.lazyVisit i).plru bk = s.plru bk) ∧
    (∀ lk : LinkId, (s.lazyVisit i).pinnedCount lk = s.pinnedCount lk) ∧
    (∀ lk : LinkId, (s.lazyVisit i).link lk = s.link lk) ∧
    (∀ lk : LinkId, (s.lazyVisit i).drainedWaiting lk = s.drainedWaiting lk) ∧
    (∀ lk : LinkId, (s.lazyVisit i).autoSnapshotDue lk = s.autoSnapshotDue lk) ∧
    (∀ zn : ZoneIx, (s.lazyVisit i).zone zn = s.zone zn) ∧
    (∀ ta : TariffIx, (s.lazyVisit i).tariff ta = s.tariff ta) ∧ (∀ cn : Chan, (s.lazyVisit i).chan cn = s.chan cn) := by
  unfold State.lazyVisit
  split <;> simp

@[simp] theorem expireAge_frame (s : State) :
    s.expireAge.resetHeld = s.resetHeld ∧ s.expireAge.pending = s.pending ∧ s.expireAge.ci = s.ci ∧
    s.expireAge.stc = s.stc ∧ s.expireAge.ftc = s.ftc ∧ s.expireAge.lm = s.lm ∧ s.expireAge.zas = s.zas ∧
    s.expireAge.tw.walk = s.tw.walk ∧ s.expireAge.tw.currentMark = s.tw.currentMark ∧
    s.expireAge.tw.previousMark = s.tw.previousMark ∧ s.expireAge.tw.thirdMark = s.tw.thirdMark ∧
    s.expireAge.tw.ageSummary = s.tw.ageSummary ∧ s.expireAge.tw.zoneSummary = s.tw.zoneSummary ∧
    s.expireAge.tw.recheckSummary = s.tw.recheckSummary ∧ s.expireAge.al.list = s.al.list ∧
    s.expireAge.al.overrunBitmap = s.al.overrunBitmap ∧ s.expireAge.al.ready = s.al.ready ∧
    s.expireAge.al.count = s.al.count ∧ s.expireAge.al.ageInterval = s.al.ageInterval ∧
    s.expireAge.al.interruptEnable = s.al.interruptEnable ∧ (∀ si : SubIx, s.expireAge.sub si = s.sub si) ∧
    (∀ fi : FlowIx, s.expireAge.flow fi = s.flow fi) ∧ (∀ bk : BitVec 12, s.expireAge.plru bk = s.plru bk) ∧
    (∀ lk : LinkId, s.expireAge.pinnedCount lk = s.pinnedCount lk) ∧
    (∀ lk : LinkId, s.expireAge.link lk = s.link lk) ∧
    (∀ lk : LinkId, s.expireAge.drainedWaiting lk = s.drainedWaiting lk) ∧
    (∀ lk : LinkId, s.expireAge.autoSnapshotDue lk = s.autoSnapshotDue lk) ∧
    (∀ zn : ZoneIx, s.expireAge.zone zn = s.zone zn) ∧ (∀ ta : TariffIx, s.expireAge.tariff ta = s.tariff ta) ∧
    (∀ cn : Chan, s.expireAge.chan cn = s.chan cn) ∧ (∀ ar : AttnRecord, s.expireAge.causesOf ar = s.causesOf ar) := by
  simp [State.expireAge, State.sub, State.flow, State.plru, State.pinnedCount, State.link, State.drainedWaiting,
    State.autoSnapshotDue, State.zone, State.tariff, State.chan, State.causesOf]

@[simp] theorem pass1Visit_frame (s : State) (w : Walk) :
    (s.pass1Visit w).resetHeld = s.resetHeld ∧ (s.pass1Visit w).pending = s.pending ∧ (s.pass1Visit w).ci = s.ci ∧
    (s.pass1Visit w).stc.closedCount = s.stc.closedCount ∧ (s.pass1Visit w).stc.lastGranted = s.stc.lastGranted ∧
    (s.pass1Visit w).ftc = s.ftc ∧ (s.pass1Visit w).lm = s.lm ∧ (s.pass1Visit w).zas = s.zas ∧
    (s.pass1Visit w).tw.queue = s.tw.queue ∧ (s.pass1Visit w).tw.currentMark = s.tw.currentMark ∧
    (s.pass1Visit w).tw.previousMark = s.tw.previousMark ∧ (s.pass1Visit w).tw.thirdMark = s.tw.thirdMark ∧
    (s.pass1Visit w).tw.ageSummary = s.tw.ageSummary ∧ (s.pass1Visit w).tw.zoneSummary = s.tw.zoneSummary ∧
    (s.pass1Visit w).tw.recheckSummary = s.tw.recheckSummary ∧ (s.pass1Visit w).al = s.al ∧
    (∀ fi : FlowIx, (s.pass1Visit w).flow fi = s.flow fi) ∧
    (∀ bk : BitVec 12, (s.pass1Visit w).plru bk = s.plru bk) ∧
    (∀ lk : LinkId, (s.pass1Visit w).pinnedCount lk = s.pinnedCount lk) ∧
    (∀ lk : LinkId, (s.pass1Visit w).link lk = s.link lk) ∧
    (∀ lk : LinkId, (s.pass1Visit w).drainedWaiting lk = s.drainedWaiting lk) ∧
    (∀ lk : LinkId, (s.pass1Visit w).autoSnapshotDue lk = s.autoSnapshotDue lk) ∧
    (∀ zn : ZoneIx, (s.pass1Visit w).zone zn = s.zone zn) ∧
    (∀ ta : TariffIx, (s.pass1Visit w).tariff ta = s.tariff ta) ∧
    (∀ cn : Chan, (s.pass1Visit w).chan cn = s.chan cn) ∧
    (∀ ar : AttnRecord, (s.pass1Visit w).causesOf ar = s.causesOf ar) := by
  simp [State.pass1Visit]

@[simp] theorem pass2Visit_frame (s : State) (w : Walk) :
    (s.pass2Visit w).resetHeld = s.resetHeld ∧ (s.pass2Visit w).pending = s.pending ∧ (s.pass2Visit w).ci = s.ci ∧
    (s.pass2Visit w).stc.unwind = s.stc.unwind ∧ (s.pass2Visit w).stc.deadlines = s.stc.deadlines ∧
    (s.pass2Visit w).stc.closedCount = s.stc.closedCount ∧ (s.pass2Visit w).stc.lastGranted = s.stc.lastGranted ∧
    (s.pass2Visit w).ftc.plru = s.ftc.plru ∧ (s.pass2Visit w).ftc.lastGranted = s.ftc.lastGranted ∧
    (s.pass2Visit w).lm.links = s.lm.links ∧ (s.pass2Visit w).lm.autoDue = s.lm.autoDue ∧
    (s.pass2Visit w).zas = s.zas ∧ (s.pass2Visit w).tw.queue = s.tw.queue ∧
    (s.pass2Visit w).tw.currentMark = s.tw.currentMark ∧ (s.pass2Visit w).tw.previousMark = s.tw.previousMark ∧
    (s.pass2Visit w).tw.thirdMark = s.tw.thirdMark ∧ (s.pass2Visit w).tw.ageSummary = s.tw.ageSummary ∧
    (s.pass2Visit w).tw.zoneSummary = s.tw.zoneSummary ∧ (s.pass2Visit w).tw.recheckSummary = s.tw.recheckSummary ∧
    (s.pass2Visit w).al = s.al ∧ (∀ bk : BitVec 12, (s.pass2Visit w).plru bk = s.plru bk) ∧
    (∀ lk : LinkId, (s.pass2Visit w).link lk = s.link lk) ∧
    (∀ lk : LinkId, (s.pass2Visit w).autoSnapshotDue lk = s.autoSnapshotDue lk) ∧
    (∀ zn : ZoneIx, (s.pass2Visit w).zone zn = s.zone zn) ∧
    (∀ ta : TariffIx, (s.pass2Visit w).tariff ta = s.tariff ta) ∧
    (∀ cn : Chan, (s.pass2Visit w).chan cn = s.chan cn) ∧
    (∀ ar : AttnRecord, (s.pass2Visit w).causesOf ar = s.causesOf ar) := by
  simp only [State.pass2Visit]
  split <;> simp

@[simp] theorem zoneVisit_frame (s : State) (w : Walk) :
    (s.zoneVisit w).resetHeld = s.resetHeld ∧ (s.zoneVisit w).pending = s.pending ∧ (s.zoneVisit w).ci = s.ci ∧
    (s.zoneVisit w).stc.unwind = s.stc.unwind ∧ (s.zoneVisit w).stc.lastGranted = s.stc.lastGranted ∧
    (s.zoneVisit w).ftc = s.ftc ∧ (s.zoneVisit w).lm = s.lm ∧ (s.zoneVisit w).zas = s.zas ∧
    (s.zoneVisit w).tw.queue = s.tw.queue ∧ (s.zoneVisit w).tw.currentMark = s.tw.currentMark ∧
    (s.zoneVisit w).tw.previousMark = s.tw.previousMark ∧ (s.zoneVisit w).tw.thirdMark = s.tw.thirdMark ∧
    (s.zoneVisit w).tw.ageSummary = s.tw.ageSummary ∧ (s.zoneVisit w).tw.zoneSummary = s.tw.zoneSummary ∧
    (s.zoneVisit w).tw.recheckSummary = s.tw.recheckSummary ∧
    (s.zoneVisit w).al.overrunBitmap = s.al.overrunBitmap ∧ (s.zoneVisit w).al.ready = s.al.ready ∧
    (s.zoneVisit w).al.count = s.al.count ∧ (s.zoneVisit w).al.ageInterval = s.al.ageInterval ∧
    (s.zoneVisit w).al.ageDeadline = s.al.ageDeadline ∧ (s.zoneVisit w).al.interruptEnable = s.al.interruptEnable ∧
    (∀ fi : FlowIx, (s.zoneVisit w).flow fi = s.flow fi) ∧
    (∀ bk : BitVec 12, (s.zoneVisit w).plru bk = s.plru bk) ∧
    (∀ lk : LinkId, (s.zoneVisit w).pinnedCount lk = s.pinnedCount lk) ∧
    (∀ lk : LinkId, (s.zoneVisit w).link lk = s.link lk) ∧
    (∀ lk : LinkId, (s.zoneVisit w).drainedWaiting lk = s.drainedWaiting lk) ∧
    (∀ lk : LinkId, (s.zoneVisit w).autoSnapshotDue lk = s.autoSnapshotDue lk) ∧
    (∀ zn : ZoneIx, (s.zoneVisit w).zone zn = s.zone zn) ∧
    (∀ ta : TariffIx, (s.zoneVisit w).tariff ta = s.tariff ta) ∧ (∀ cn : Chan, (s.zoneVisit w).chan cn = s.chan cn) := by
  simp [State.zoneVisit]

@[simp] theorem recheckVisit_frame (s : State) (w : Walk) :
    (s.recheckVisit w).resetHeld = s.resetHeld ∧ (s.recheckVisit w).pending = s.pending ∧
    (s.recheckVisit w).ci = s.ci ∧ (s.recheckVisit w).stc.unwind = s.stc.unwind ∧
    (s.recheckVisit w).stc.lastGranted = s.stc.lastGranted ∧ (s.recheckVisit w).ftc = s.ftc ∧
    (s.recheckVisit w).lm = s.lm ∧ (s.recheckVisit w).zas = s.zas ∧ (s.recheckVisit w).tw.queue = s.tw.queue ∧
    (s.recheckVisit w).tw.currentMark = s.tw.currentMark ∧ (s.recheckVisit w).tw.previousMark = s.tw.previousMark ∧
    (s.recheckVisit w).tw.thirdMark = s.tw.thirdMark ∧ (s.recheckVisit w).tw.ageSummary = s.tw.ageSummary ∧
    (s.recheckVisit w).tw.zoneSummary = s.tw.zoneSummary ∧
    (s.recheckVisit w).tw.recheckSummary = s.tw.recheckSummary ∧
    (s.recheckVisit w).al.overrunBitmap = s.al.overrunBitmap ∧ (s.recheckVisit w).al.ready = s.al.ready ∧
    (s.recheckVisit w).al.count = s.al.count ∧ (s.recheckVisit w).al.ageInterval = s.al.ageInterval ∧
    (s.recheckVisit w).al.ageDeadline = s.al.ageDeadline ∧
    (s.recheckVisit w).al.interruptEnable = s.al.interruptEnable ∧
    (∀ fi : FlowIx, (s.recheckVisit w).flow fi = s.flow fi) ∧
    (∀ bk : BitVec 12, (s.recheckVisit w).plru bk = s.plru bk) ∧
    (∀ lk : LinkId, (s.recheckVisit w).pinnedCount lk = s.pinnedCount lk) ∧
    (∀ lk : LinkId, (s.recheckVisit w).link lk = s.link lk) ∧
    (∀ lk : LinkId, (s.recheckVisit w).drainedWaiting lk = s.drainedWaiting lk) ∧
    (∀ lk : LinkId, (s.recheckVisit w).autoSnapshotDue lk = s.autoSnapshotDue lk) ∧
    (∀ zn : ZoneIx, (s.recheckVisit w).zone zn = s.zone zn) ∧
    (∀ ta : TariffIx, (s.recheckVisit w).tariff ta = s.tariff ta) ∧
    (∀ cn : Chan, (s.recheckVisit w).chan cn = s.chan cn) := by
  simp [State.recheckVisit]

@[simp] theorem repinVisit_frame (s : State) (l : LinkId) (w : Walk) :
    (s.repinVisit l w).resetHeld = s.resetHeld ∧ (s.repinVisit l w).pending = s.pending ∧
    (s.repinVisit l w).ci = s.ci ∧ (s.repinVisit l w).stc = s.stc ∧ (s.repinVisit l w).ftc.plru = s.ftc.plru ∧
    (s.repinVisit l w).ftc.lastGranted = s.ftc.lastGranted ∧ (s.repinVisit l w).lm.links = s.lm.links ∧
    (s.repinVisit l w).lm.autoDue = s.lm.autoDue ∧ (s.repinVisit l w).zas = s.zas ∧
    (s.repinVisit l w).tw.queue = s.tw.queue ∧ (s.repinVisit l w).tw.currentMark = s.tw.currentMark ∧
    (s.repinVisit l w).tw.previousMark = s.tw.previousMark ∧ (s.repinVisit l w).tw.thirdMark = s.tw.thirdMark ∧
    (s.repinVisit l w).tw.ageSummary = s.tw.ageSummary ∧ (s.repinVisit l w).tw.zoneSummary = s.tw.zoneSummary ∧
    (s.repinVisit l w).tw.recheckSummary = s.tw.recheckSummary ∧ (s.repinVisit l w).al = s.al ∧
    (∀ si : SubIx, (s.repinVisit l w).sub si = s.sub si) ∧
    (∀ bk : BitVec 12, (s.repinVisit l w).plru bk = s.plru bk) ∧
    (∀ lk : LinkId, (s.repinVisit l w).link lk = s.link lk) ∧
    (∀ lk : LinkId, (s.repinVisit l w).autoSnapshotDue lk = s.autoSnapshotDue lk) ∧
    (∀ zn : ZoneIx, (s.repinVisit l w).zone zn = s.zone zn) ∧
    (∀ ta : TariffIx, (s.repinVisit l w).tariff ta = s.tariff ta) ∧
    (∀ cn : Chan, (s.repinVisit l w).chan cn = s.chan cn) ∧
    (∀ ar : AttnRecord, (s.repinVisit l w).causesOf ar = s.causesOf ar) := by
  simp only [State.repinVisit]
  split <;> simp

@[simp] theorem ageEnd_frame (s : State) (w : Walk) :
    (s.ageEnd w).resetHeld = s.resetHeld ∧ (s.ageEnd w).pending = s.pending ∧ (s.ageEnd w).ci = s.ci ∧
    (s.ageEnd w).stc = s.stc ∧ (s.ageEnd w).ftc = s.ftc ∧ (s.ageEnd w).lm = s.lm ∧ (s.ageEnd w).zas = s.zas ∧
    (s.ageEnd w).tw.queue = s.tw.queue ∧ (s.ageEnd w).tw.currentMark = s.tw.currentMark ∧
    (s.ageEnd w).tw.previousMark = s.tw.previousMark ∧ (s.ageEnd w).tw.thirdMark = s.tw.thirdMark ∧
    (s.ageEnd w).tw.zoneSummary = s.tw.zoneSummary ∧ (s.ageEnd w).tw.recheckSummary = s.tw.recheckSummary ∧
    (s.ageEnd w).al.overrunBitmap = s.al.overrunBitmap ∧ (s.ageEnd w).al.ready = s.al.ready ∧
    (s.ageEnd w).al.count = s.al.count ∧ (s.ageEnd w).al.ageInterval = s.al.ageInterval ∧
    (s.ageEnd w).al.ageDeadline = s.al.ageDeadline ∧ (s.ageEnd w).al.interruptEnable = s.al.interruptEnable ∧
    (∀ si : SubIx, (s.ageEnd w).sub si = s.sub si) ∧ (∀ fi : FlowIx, (s.ageEnd w).flow fi = s.flow fi) ∧
    (∀ bk : BitVec 12, (s.ageEnd w).plru bk = s.plru bk) ∧
    (∀ lk : LinkId, (s.ageEnd w).pinnedCount lk = s.pinnedCount lk) ∧
    (∀ lk : LinkId, (s.ageEnd w).link lk = s.link lk) ∧
    (∀ lk : LinkId, (s.ageEnd w).drainedWaiting lk = s.drainedWaiting lk) ∧
    (∀ lk : LinkId, (s.ageEnd w).autoSnapshotDue lk = s.autoSnapshotDue lk) ∧
    (∀ zn : ZoneIx, (s.ageEnd w).zone zn = s.zone zn) ∧ (∀ ta : TariffIx, (s.ageEnd w).tariff ta = s.tariff ta) ∧
    (∀ cn : Chan, (s.ageEnd w).chan cn = s.chan cn) := by
  simp [State.ageEnd, State.sub, State.flow, State.plru, State.pinnedCount, State.link, State.drainedWaiting,
    State.autoSnapshotDue, State.zone, State.tariff, State.chan]

@[simp] theorem zoneEnd_frame (s : State) (w : Walk) :
    (s.zoneEnd w).resetHeld = s.resetHeld ∧ (s.zoneEnd w).pending = s.pending ∧ (s.zoneEnd w).ci = s.ci ∧
    (s.zoneEnd w).stc = s.stc ∧ (s.zoneEnd w).ftc = s.ftc ∧ (s.zoneEnd w).lm = s.lm ∧ (s.zoneEnd w).zas = s.zas ∧
    (s.zoneEnd w).tw.queue = s.tw.queue ∧ (s.zoneEnd w).tw.currentMark = s.tw.currentMark ∧
    (s.zoneEnd w).tw.previousMark = s.tw.previousMark ∧ (s.zoneEnd w).tw.thirdMark = s.tw.thirdMark ∧
    (s.zoneEnd w).tw.ageSummary = s.tw.ageSummary ∧ (s.zoneEnd w).tw.recheckSummary = s.tw.recheckSummary ∧
    (s.zoneEnd w).al.overrunBitmap = s.al.overrunBitmap ∧ (s.zoneEnd w).al.ready = s.al.ready ∧
    (s.zoneEnd w).al.count = s.al.count ∧ (s.zoneEnd w).al.ageInterval = s.al.ageInterval ∧
    (s.zoneEnd w).al.ageDeadline = s.al.ageDeadline ∧ (s.zoneEnd w).al.interruptEnable = s.al.interruptEnable ∧
    (∀ si : SubIx, (s.zoneEnd w).sub si = s.sub si) ∧ (∀ fi : FlowIx, (s.zoneEnd w).flow fi = s.flow fi) ∧
    (∀ bk : BitVec 12, (s.zoneEnd w).plru bk = s.plru bk) ∧
    (∀ lk : LinkId, (s.zoneEnd w).pinnedCount lk = s.pinnedCount lk) ∧
    (∀ lk : LinkId, (s.zoneEnd w).link lk = s.link lk) ∧
    (∀ lk : LinkId, (s.zoneEnd w).drainedWaiting lk = s.drainedWaiting lk) ∧
    (∀ lk : LinkId, (s.zoneEnd w).autoSnapshotDue lk = s.autoSnapshotDue lk) ∧
    (∀ zn : ZoneIx, (s.zoneEnd w).zone zn = s.zone zn) ∧ (∀ ta : TariffIx, (s.zoneEnd w).tariff ta = s.tariff ta) ∧
    (∀ cn : Chan, (s.zoneEnd w).chan cn = s.chan cn) := by
  simp [State.zoneEnd, State.sub, State.flow, State.plru, State.pinnedCount, State.link, State.drainedWaiting,
    State.autoSnapshotDue, State.zone, State.tariff, State.chan]

@[simp] theorem recheckEnd_frame (s : State) (w : Walk) :
    (s.recheckEnd w).resetHeld = s.resetHeld ∧ (s.recheckEnd w).pending = s.pending ∧ (s.recheckEnd w).ci = s.ci ∧
    (s.recheckEnd w).stc = s.stc ∧ (s.recheckEnd w).ftc = s.ftc ∧ (s.recheckEnd w).lm = s.lm ∧
    (s.recheckEnd w).zas = s.zas ∧ (s.recheckEnd w).tw.queue = s.tw.queue ∧
    (s.recheckEnd w).tw.currentMark = s.tw.currentMark ∧ (s.recheckEnd w).tw.previousMark = s.tw.previousMark ∧
    (s.recheckEnd w).tw.thirdMark = s.tw.thirdMark ∧ (s.recheckEnd w).tw.ageSummary = s.tw.ageSummary ∧
    (s.recheckEnd w).tw.zoneSummary = s.tw.zoneSummary ∧ (s.recheckEnd w).al.overrunBitmap = s.al.overrunBitmap ∧
    (s.recheckEnd w).al.ready = s.al.ready ∧ (s.recheckEnd w).al.count = s.al.count ∧
    (s.recheckEnd w).al.ageInterval = s.al.ageInterval ∧ (s.recheckEnd w).al.ageDeadline = s.al.ageDeadline ∧
    (s.recheckEnd w).al.interruptEnable = s.al.interruptEnable ∧
    (∀ si : SubIx, (s.recheckEnd w).sub si = s.sub si) ∧ (∀ fi : FlowIx, (s.recheckEnd w).flow fi = s.flow fi) ∧
    (∀ bk : BitVec 12, (s.recheckEnd w).plru bk = s.plru bk) ∧
    (∀ lk : LinkId, (s.recheckEnd w).pinnedCount lk = s.pinnedCount lk) ∧
    (∀ lk : LinkId, (s.recheckEnd w).link lk = s.link lk) ∧
    (∀ lk : LinkId, (s.recheckEnd w).drainedWaiting lk = s.drainedWaiting lk) ∧
    (∀ lk : LinkId, (s.recheckEnd w).autoSnapshotDue lk = s.autoSnapshotDue lk) ∧
    (∀ zn : ZoneIx, (s.recheckEnd w).zone zn = s.zone zn) ∧
    (∀ ta : TariffIx, (s.recheckEnd w).tariff ta = s.tariff ta) ∧
    (∀ cn : Chan, (s.recheckEnd w).chan cn = s.chan cn) := by
  simp [State.recheckEnd, State.sub, State.flow, State.plru, State.pinnedCount, State.link, State.drainedWaiting,
    State.autoSnapshotDue, State.zone, State.tariff, State.chan]

/-! ### Channels and the device -/

@[simp] theorem storeByte_frame (s : State) (x : Host.Cell) :
    (State.storeByte s x).resetHeld = s.resetHeld ∧ (State.storeByte s x).pending = s.pending ∧
    (State.storeByte s x).ci.softReset = s.ci.softReset ∧ (State.storeByte s x).stc = s.stc ∧
    (State.storeByte s x).ftc = s.ftc ∧ (State.storeByte s x).lm = s.lm ∧ (State.storeByte s x).zas = s.zas ∧
    (State.storeByte s x).tw = s.tw ∧ (State.storeByte s x).al = s.al ∧
    (∀ si : SubIx, (State.storeByte s x).sub si = s.sub si) ∧
    (∀ fi : FlowIx, (State.storeByte s x).flow fi = s.flow fi) ∧
    (∀ bk : BitVec 12, (State.storeByte s x).plru bk = s.plru bk) ∧
    (∀ lk : LinkId, (State.storeByte s x).pinnedCount lk = s.pinnedCount lk) ∧
    (∀ lk : LinkId, (State.storeByte s x).link lk = s.link lk) ∧
    (∀ lk : LinkId, (State.storeByte s x).drainedWaiting lk = s.drainedWaiting lk) ∧
    (∀ lk : LinkId, (State.storeByte s x).autoSnapshotDue lk = s.autoSnapshotDue lk) ∧
    (∀ zn : ZoneIx, (State.storeByte s x).zone zn = s.zone zn) ∧
    (∀ ta : TariffIx, (State.storeByte s x).tariff ta = s.tariff ta) ∧
    (∀ ar : AttnRecord, (State.storeByte s x).causesOf ar = s.causesOf ar) := by
  unfold State.storeByte
  split <;> simp

@[simp] theorem discardMessage_frame (s : State) (ch : Chan) :
    (s.discardMessage ch).resetHeld = s.resetHeld ∧ (s.discardMessage ch).pending = s.pending ∧
    (s.discardMessage ch).ci.softReset = s.ci.softReset ∧ (s.discardMessage ch).stc = s.stc ∧
    (s.discardMessage ch).ftc = s.ftc ∧ (s.discardMessage ch).lm = s.lm ∧ (s.discardMessage ch).zas = s.zas ∧
    (s.discardMessage ch).tw = s.tw ∧ (s.discardMessage ch).al.ready = s.al.ready ∧
    (s.discardMessage ch).al.count = s.al.count ∧ (s.discardMessage ch).al.ageInterval = s.al.ageInterval ∧
    (s.discardMessage ch).al.ageDeadline = s.al.ageDeadline ∧
    (s.discardMessage ch).al.interruptEnable = s.al.interruptEnable ∧
    (∀ si : SubIx, (s.discardMessage ch).sub si = s.sub si) ∧
    (∀ fi : FlowIx, (s.discardMessage ch).flow fi = s.flow fi) ∧
    (∀ bk : BitVec 12, (s.discardMessage ch).plru bk = s.plru bk) ∧
    (∀ lk : LinkId, (s.discardMessage ch).pinnedCount lk = s.pinnedCount lk) ∧
    (∀ lk : LinkId, (s.discardMessage ch).link lk = s.link lk) ∧
    (∀ lk : LinkId, (s.discardMessage ch).drainedWaiting lk = s.drainedWaiting lk) ∧
    (∀ lk : LinkId, (s.discardMessage ch).autoSnapshotDue lk = s.autoSnapshotDue lk) ∧
    (∀ zn : ZoneIx, (s.discardMessage ch).zone zn = s.zone zn) ∧
    (∀ ta : TariffIx, (s.discardMessage ch).tariff ta = s.tariff ta) := by
  simp [State.discardMessage, State.sub, State.flow, State.plru, State.pinnedCount, State.link, State.drainedWaiting,
    State.autoSnapshotDue, State.zone, State.tariff, State.chan]

@[simp] theorem submit_frame (s : State) (ch : Chan) :
    (s.submit ch).resetHeld = s.resetHeld ∧ (s.submit ch).pending = s.pending ∧
    (s.submit ch).ci.softReset = s.ci.softReset ∧ (s.submit ch).stc = s.stc ∧ (s.submit ch).ftc = s.ftc ∧
    (s.submit ch).lm = s.lm ∧ (s.submit ch).zas = s.zas ∧ (s.submit ch).tw = s.tw ∧
    (s.submit ch).al.ready = s.al.ready ∧ (s.submit ch).al.count = s.al.count ∧
    (s.submit ch).al.ageInterval = s.al.ageInterval ∧ (s.submit ch).al.ageDeadline = s.al.ageDeadline ∧
    (s.submit ch).al.interruptEnable = s.al.interruptEnable ∧ (∀ si : SubIx, (s.submit ch).sub si = s.sub si) ∧
    (∀ fi : FlowIx, (s.submit ch).flow fi = s.flow fi) ∧ (∀ bk : BitVec 12, (s.submit ch).plru bk = s.plru bk) ∧
    (∀ lk : LinkId, (s.submit ch).pinnedCount lk = s.pinnedCount lk) ∧
    (∀ lk : LinkId, (s.submit ch).link lk = s.link lk) ∧
    (∀ lk : LinkId, (s.submit ch).drainedWaiting lk = s.drainedWaiting lk) ∧
    (∀ lk : LinkId, (s.submit ch).autoSnapshotDue lk = s.autoSnapshotDue lk) ∧
    (∀ zn : ZoneIx, (s.submit ch).zone zn = s.zone zn) ∧ (∀ ta : TariffIx, (s.submit ch).tariff ta = s.tariff ta) := by
  unfold State.submit
  split <;> simp

@[simp] theorem release_frame (s : State) (ch : Chan) :
    (s.release ch).resetHeld = s.resetHeld ∧ (s.release ch).pending = s.pending ∧
    (s.release ch).ci.softReset = s.ci.softReset ∧ (s.release ch).stc = s.stc ∧ (s.release ch).ftc = s.ftc ∧
    (s.release ch).lm = s.lm ∧ (s.release ch).zas = s.zas ∧ (s.release ch).tw = s.tw ∧ (s.release ch).al = s.al ∧
    (∀ si : SubIx, (s.release ch).sub si = s.sub si) ∧ (∀ fi : FlowIx, (s.release ch).flow fi = s.flow fi) ∧
    (∀ bk : BitVec 12, (s.release ch).plru bk = s.plru bk) ∧
    (∀ lk : LinkId, (s.release ch).pinnedCount lk = s.pinnedCount lk) ∧
    (∀ lk : LinkId, (s.release ch).link lk = s.link lk) ∧
    (∀ lk : LinkId, (s.release ch).drainedWaiting lk = s.drainedWaiting lk) ∧
    (∀ lk : LinkId, (s.release ch).autoSnapshotDue lk = s.autoSnapshotDue lk) ∧
    (∀ zn : ZoneIx, (s.release ch).zone zn = s.zone zn) ∧
    (∀ ta : TariffIx, (s.release ch).tariff ta = s.tariff ta) ∧
    (∀ ar : AttnRecord, (s.release ch).causesOf ar = s.causesOf ar) := by
  simp [State.release]

@[simp] theorem dispatch_frame (s : State) (ch : Chan) (m : Message) :
    (s.dispatch ch m).resetHeld = s.resetHeld ∧ (s.dispatch ch m).pending = s.pending ∧
    (s.dispatch ch m).ci.softReset = s.ci.softReset ∧ (s.dispatch ch m).stc = s.stc ∧
    (s.dispatch ch m).ftc = s.ftc ∧ (s.dispatch ch m).lm = s.lm ∧ (s.dispatch ch m).zas = s.zas ∧
    (s.dispatch ch m).tw = s.tw ∧ (s.dispatch ch m).al = s.al ∧
    (∀ si : SubIx, (s.dispatch ch m).sub si = s.sub si) ∧ (∀ fi : FlowIx, (s.dispatch ch m).flow fi = s.flow fi) ∧
    (∀ bk : BitVec 12, (s.dispatch ch m).plru bk = s.plru bk) ∧
    (∀ lk : LinkId, (s.dispatch ch m).pinnedCount lk = s.pinnedCount lk) ∧
    (∀ lk : LinkId, (s.dispatch ch m).link lk = s.link lk) ∧
    (∀ lk : LinkId, (s.dispatch ch m).drainedWaiting lk = s.drainedWaiting lk) ∧
    (∀ lk : LinkId, (s.dispatch ch m).autoSnapshotDue lk = s.autoSnapshotDue lk) ∧
    (∀ zn : ZoneIx, (s.dispatch ch m).zone zn = s.zone zn) ∧
    (∀ ta : TariffIx, (s.dispatch ch m).tariff ta = s.tariff ta) ∧
    (∀ ar : AttnRecord, (s.dispatch ch m).causesOf ar = s.causesOf ar) := by
  simp [State.dispatch]

@[simp] theorem takeSoftReset_frame (s : State) (ch : Chan) :
    (s.takeSoftReset ch).resetHeld = s.resetHeld ∧ (s.takeSoftReset ch).pending = s.pending ∧
    (s.takeSoftReset ch).ci.channels = s.ci.channels ∧ (s.takeSoftReset ch).stc = s.stc ∧
    (s.takeSoftReset ch).ftc = s.ftc ∧ (s.takeSoftReset ch).lm = s.lm ∧ (s.takeSoftReset ch).zas = s.zas ∧
    (s.takeSoftReset ch).tw = s.tw ∧ (s.takeSoftReset ch).al = s.al ∧
    (∀ si : SubIx, (s.takeSoftReset ch).sub si = s.sub si) ∧
    (∀ fi : FlowIx, (s.takeSoftReset ch).flow fi = s.flow fi) ∧
    (∀ bk : BitVec 12, (s.takeSoftReset ch).plru bk = s.plru bk) ∧
    (∀ lk : LinkId, (s.takeSoftReset ch).pinnedCount lk = s.pinnedCount lk) ∧
    (∀ lk : LinkId, (s.takeSoftReset ch).link lk = s.link lk) ∧
    (∀ lk : LinkId, (s.takeSoftReset ch).drainedWaiting lk = s.drainedWaiting lk) ∧
    (∀ lk : LinkId, (s.takeSoftReset ch).autoSnapshotDue lk = s.autoSnapshotDue lk) ∧
    (∀ zn : ZoneIx, (s.takeSoftReset ch).zone zn = s.zone zn) ∧
    (∀ ta : TariffIx, (s.takeSoftReset ch).tariff ta = s.tariff ta) ∧
    (∀ cn : Chan, (s.takeSoftReset ch).chan cn = s.chan cn) ∧
    (∀ ar : AttnRecord, (s.takeSoftReset ch).causesOf ar = s.causesOf ar) := by
  unfold State.takeSoftReset
  split <;> simp

@[simp] theorem becomeReady_frame (s : State) :
    s.becomeReady.resetHeld = s.resetHeld ∧ s.becomeReady.pending = s.pending ∧ s.becomeReady.ci = s.ci ∧
    s.becomeReady.stc = s.stc ∧ s.becomeReady.ftc = s.ftc ∧ s.becomeReady.lm = s.lm ∧ s.becomeReady.zas = s.zas ∧
    s.becomeReady.tw = s.tw ∧ s.becomeReady.al.overrunBitmap = s.al.overrunBitmap ∧
    s.becomeReady.al.count = s.al.count ∧ s.becomeReady.al.ageInterval = s.al.ageInterval ∧
    s.becomeReady.al.ageDeadline = s.al.ageDeadline ∧ s.becomeReady.al.interruptEnable = s.al.interruptEnable ∧
    (∀ si : SubIx, s.becomeReady.sub si = s.sub si) ∧ (∀ fi : FlowIx, s.becomeReady.flow fi = s.flow fi) ∧
    (∀ bk : BitVec 12, s.becomeReady.plru bk = s.plru bk) ∧
    (∀ lk : LinkId, s.becomeReady.pinnedCount lk = s.pinnedCount lk) ∧
    (∀ lk : LinkId, s.becomeReady.link lk = s.link lk) ∧
    (∀ lk : LinkId, s.becomeReady.drainedWaiting lk = s.drainedWaiting lk) ∧
    (∀ lk : LinkId, s.becomeReady.autoSnapshotDue lk = s.autoSnapshotDue lk) ∧
    (∀ zn : ZoneIx, s.becomeReady.zone zn = s.zone zn) ∧ (∀ ta : TariffIx, s.becomeReady.tariff ta = s.tariff ta) ∧
    (∀ cn : Chan, s.becomeReady.chan cn = s.chan cn) := by
  simp [State.becomeReady, State.sub, State.flow, State.plru, State.pinnedCount, State.link, State.drainedWaiting,
    State.autoSnapshotDue, State.zone, State.tariff, State.chan]

@[simp] theorem callAutoSnapshots_frame (s : State) :
    s.callAutoSnapshots.resetHeld = s.resetHeld ∧ s.callAutoSnapshots.pending = s.pending ∧
    s.callAutoSnapshots.ci = s.ci ∧ s.callAutoSnapshots.stc = s.stc ∧ s.callAutoSnapshots.ftc = s.ftc ∧
    s.callAutoSnapshots.lm.links = s.lm.links ∧ s.callAutoSnapshots.lm.drained = s.lm.drained ∧
    s.callAutoSnapshots.zas = s.zas ∧ s.callAutoSnapshots.tw = s.tw ∧ s.callAutoSnapshots.al = s.al ∧
    (∀ si : SubIx, s.callAutoSnapshots.sub si = s.sub si) ∧
    (∀ fi : FlowIx, s.callAutoSnapshots.flow fi = s.flow fi) ∧
    (∀ bk : BitVec 12, s.callAutoSnapshots.plru bk = s.plru bk) ∧
    (∀ lk : LinkId, s.callAutoSnapshots.pinnedCount lk = s.pinnedCount lk) ∧
    (∀ lk : LinkId, s.callAutoSnapshots.link lk = s.link lk) ∧
    (∀ lk : LinkId, s.callAutoSnapshots.drainedWaiting lk = s.drainedWaiting lk) ∧
    (∀ zn : ZoneIx, s.callAutoSnapshots.zone zn = s.zone zn) ∧
    (∀ ta : TariffIx, s.callAutoSnapshots.tariff ta = s.tariff ta) ∧
    (∀ cn : Chan, s.callAutoSnapshots.chan cn = s.chan cn) ∧
    (∀ ar : AttnRecord, s.callAutoSnapshots.causesOf ar = s.causesOf ar) := by
  simp [State.callAutoSnapshots, State.sub, State.flow, State.plru, State.pinnedCount, State.link, State.drainedWaiting,
    State.zone, State.tariff, State.chan, State.causesOf]

@[simp] theorem advanceCount_frame (s : State) :
    s.advanceCount.resetHeld = s.resetHeld ∧ s.advanceCount.pending = s.pending ∧ s.advanceCount.ci = s.ci ∧
    s.advanceCount.stc = s.stc ∧ s.advanceCount.ftc = s.ftc ∧ s.advanceCount.lm.links = s.lm.links ∧
    s.advanceCount.lm.drained = s.lm.drained ∧ s.advanceCount.zas = s.zas ∧ s.advanceCount.tw = s.tw ∧
    s.advanceCount.al.list = s.al.list ∧ s.advanceCount.al.overrunBitmap = s.al.overrunBitmap ∧
    s.advanceCount.al.ready = s.al.ready ∧ s.advanceCount.al.ageInterval = s.al.ageInterval ∧
    s.advanceCount.al.ageDeadline = s.al.ageDeadline ∧ s.advanceCount.al.interruptEnable = s.al.interruptEnable ∧
    (∀ si : SubIx, s.advanceCount.sub si = s.sub si) ∧ (∀ fi : FlowIx, s.advanceCount.flow fi = s.flow fi) ∧
    (∀ bk : BitVec 12, s.advanceCount.plru bk = s.plru bk) ∧
    (∀ lk : LinkId, s.advanceCount.pinnedCount lk = s.pinnedCount lk) ∧
    (∀ lk : LinkId, s.advanceCount.link lk = s.link lk) ∧
    (∀ lk : LinkId, s.advanceCount.drainedWaiting lk = s.drainedWaiting lk) ∧
    (∀ zn : ZoneIx, s.advanceCount.zone zn = s.zone zn) ∧
    (∀ ta : TariffIx, s.advanceCount.tariff ta = s.tariff ta) ∧ (∀ cn : Chan, s.advanceCount.chan cn = s.chan cn) ∧
    (∀ ar : AttnRecord, s.advanceCount.causesOf ar = s.causesOf ar) := by
  simp [State.advanceCount, State.sub, State.flow, State.plru, State.pinnedCount, State.link, State.drainedWaiting,
    State.zone, State.tariff, State.chan, State.causesOf]

@[simp] theorem clearBitmapFor_frame (s : State) (r : AttnRecord) :
    (s.clearBitmapFor r).resetHeld = s.resetHeld ∧ (s.clearBitmapFor r).pending = s.pending ∧
    (s.clearBitmapFor r).ci = s.ci ∧ (s.clearBitmapFor r).stc = s.stc ∧ (s.clearBitmapFor r).ftc = s.ftc ∧
    (s.clearBitmapFor r).lm = s.lm ∧ (s.clearBitmapFor r).zas = s.zas ∧ (s.clearBitmapFor r).tw = s.tw ∧
    (s.clearBitmapFor r).al.list = s.al.list ∧ (s.clearBitmapFor r).al.ready = s.al.ready ∧
    (s.clearBitmapFor r).al.count = s.al.count ∧ (s.clearBitmapFor r).al.ageInterval = s.al.ageInterval ∧
    (s.clearBitmapFor r).al.ageDeadline = s.al.ageDeadline ∧
    (s.clearBitmapFor r).al.interruptEnable = s.al.interruptEnable ∧
    (∀ si : SubIx, (s.clearBitmapFor r).sub si = s.sub si) ∧
    (∀ fi : FlowIx, (s.clearBitmapFor r).flow fi = s.flow fi) ∧
    (∀ bk : BitVec 12, (s.clearBitmapFor r).plru bk = s.plru bk) ∧
    (∀ lk : LinkId, (s.clearBitmapFor r).pinnedCount lk = s.pinnedCount lk) ∧
    (∀ lk : LinkId, (s.clearBitmapFor r).link lk = s.link lk) ∧
    (∀ lk : LinkId, (s.clearBitmapFor r).drainedWaiting lk = s.drainedWaiting lk) ∧
    (∀ lk : LinkId, (s.clearBitmapFor r).autoSnapshotDue lk = s.autoSnapshotDue lk) ∧
    (∀ zn : ZoneIx, (s.clearBitmapFor r).zone zn = s.zone zn) ∧
    (∀ ta : TariffIx, (s.clearBitmapFor r).tariff ta = s.tariff ta) ∧
    (∀ cn : Chan, (s.clearBitmapFor r).chan cn = s.chan cn) ∧
    (∀ ar : AttnRecord, (s.clearBitmapFor r).causesOf ar = s.causesOf ar) := by
  unfold State.clearBitmapFor
  split <;> simp [State.sub, State.flow, State.plru, State.pinnedCount, State.link, State.drainedWaiting,
    State.autoSnapshotDue, State.zone, State.tariff, State.chan, State.causesOf]

@[simp] theorem fetch_frame (s : State) (e : AttnEntry) :
    (s.fetch e).resetHeld = s.resetHeld ∧ (s.fetch e).pending = s.pending ∧ (s.fetch e).ci = s.ci ∧
    (s.fetch e).stc = s.stc ∧ (s.fetch e).ftc = s.ftc ∧ (s.fetch e).lm = s.lm ∧ (s.fetch e).zas = s.zas ∧
    (s.fetch e).tw = s.tw ∧ (s.fetch e).al.ready = s.al.ready ∧ (s.fetch e).al.count = s.al.count ∧
    (s.fetch e).al.ageInterval = s.al.ageInterval ∧ (s.fetch e).al.ageDeadline = s.al.ageDeadline ∧
    (s.fetch e).al.interruptEnable = s.al.interruptEnable ∧ (∀ si : SubIx, (s.fetch e).sub si = s.sub si) ∧
    (∀ fi : FlowIx, (s.fetch e).flow fi = s.flow fi) ∧ (∀ bk : BitVec 12, (s.fetch e).plru bk = s.plru bk) ∧
    (∀ lk : LinkId, (s.fetch e).pinnedCount lk = s.pinnedCount lk) ∧
    (∀ lk : LinkId, (s.fetch e).link lk = s.link lk) ∧
    (∀ lk : LinkId, (s.fetch e).drainedWaiting lk = s.drainedWaiting lk) ∧
    (∀ lk : LinkId, (s.fetch e).autoSnapshotDue lk = s.autoSnapshotDue lk) ∧
    (∀ zn : ZoneIx, (s.fetch e).zone zn = s.zone zn) ∧ (∀ ta : TariffIx, (s.fetch e).tariff ta = s.tariff ta) ∧
    (∀ cn : Chan, (s.fetch e).chan cn = s.chan cn) := by
  simp [State.fetch]

@[simp] theorem configure_frame (s : State) (x : Word) (b : Bool) :
    (s.configure x b).resetHeld = s.resetHeld ∧ (s.configure x b).pending = s.pending ∧
    (s.configure x b).ci = s.ci ∧ (s.configure x b).stc = s.stc ∧ (s.configure x b).ftc = s.ftc ∧
    (s.configure x b).lm = s.lm ∧ (s.configure x b).zas = s.zas ∧ (s.configure x b).tw = s.tw ∧
    (s.configure x b).al.list = s.al.list ∧ (s.configure x b).al.overrunBitmap = s.al.overrunBitmap ∧
    (s.configure x b).al.ready = s.al.ready ∧ (s.configure x b).al.count = s.al.count ∧
    (∀ si : SubIx, (s.configure x b).sub si = s.sub si) ∧ (∀ fi : FlowIx, (s.configure x b).flow fi = s.flow fi) ∧
    (∀ bk : BitVec 12, (s.configure x b).plru bk = s.plru bk) ∧
    (∀ lk : LinkId, (s.configure x b).pinnedCount lk = s.pinnedCount lk) ∧
    (∀ lk : LinkId, (s.configure x b).link lk = s.link lk) ∧
    (∀ lk : LinkId, (s.configure x b).drainedWaiting lk = s.drainedWaiting lk) ∧
    (∀ lk : LinkId, (s.configure x b).autoSnapshotDue lk = s.autoSnapshotDue lk) ∧
    (∀ zn : ZoneIx, (s.configure x b).zone zn = s.zone zn) ∧
    (∀ ta : TariffIx, (s.configure x b).tariff ta = s.tariff ta) ∧
    (∀ cn : Chan, (s.configure x b).chan cn = s.chan cn) ∧
    (∀ ar : AttnRecord, (s.configure x b).causesOf ar = s.causesOf ar) := by
  simp [State.configure, State.sub, State.flow, State.plru, State.pinnedCount, State.link, State.drainedWaiting,
    State.autoSnapshotDue, State.zone, State.tariff, State.chan, State.causesOf]

@[simp] theorem emptyList_frame (s : State) :
    s.emptyList.resetHeld = s.resetHeld ∧ s.emptyList.pending = s.pending ∧ s.emptyList.ci = s.ci ∧
    s.emptyList.stc = s.stc ∧ s.emptyList.ftc = s.ftc ∧ s.emptyList.lm = s.lm ∧ s.emptyList.zas = s.zas ∧
    s.emptyList.tw = s.tw ∧ s.emptyList.al.ready = s.al.ready ∧ s.emptyList.al.count = s.al.count ∧
    s.emptyList.al.ageInterval = s.al.ageInterval ∧ s.emptyList.al.ageDeadline = s.al.ageDeadline ∧
    s.emptyList.al.interruptEnable = s.al.interruptEnable ∧ (∀ si : SubIx, s.emptyList.sub si = s.sub si) ∧
    (∀ fi : FlowIx, s.emptyList.flow fi = s.flow fi) ∧ (∀ bk : BitVec 12, s.emptyList.plru bk = s.plru bk) ∧
    (∀ lk : LinkId, s.emptyList.pinnedCount lk = s.pinnedCount lk) ∧
    (∀ lk : LinkId, s.emptyList.link lk = s.link lk) ∧
    (∀ lk : LinkId, s.emptyList.drainedWaiting lk = s.drainedWaiting lk) ∧
    (∀ lk : LinkId, s.emptyList.autoSnapshotDue lk = s.autoSnapshotDue lk) ∧
    (∀ zn : ZoneIx, s.emptyList.zone zn = s.zone zn) ∧ (∀ ta : TariffIx, s.emptyList.tariff ta = s.tariff ta) ∧
    (∀ cn : Chan, s.emptyList.chan cn = s.chan cn) := by
  simp [State.emptyList, State.sub, State.flow, State.plru, State.pinnedCount, State.link, State.drainedWaiting,
    State.autoSnapshotDue, State.zone, State.tariff, State.chan]

end Sys2Proof.Machine
end

