-- ==== Sys2Proof/Laws/Claims.lean ====
section
/-! SUPPORT. The frame of every claim: the parts of the state that a request leaves as they were, its answer apart. -/

namespace Sys2Proof.Machine

@[simp] theorem attachFound_frame (s : State) (i : SubIx) (c : SubClass) (p : Bool) (t : TariffIx) (h : Operator) :
    (s.attachFound i c p t h).1.resetHeld = s.resetHeld ∧ (s.attachFound i c p t h).1.pending = s.pending ∧
    (s.attachFound i c p t h).1.ci = s.ci ∧ (s.attachFound i c p t h).1.stc.unwind = s.stc.unwind ∧
    (s.attachFound i c p t h).1.stc.lastGranted = s.stc.lastGranted ∧ (s.attachFound i c p t h).1.ftc = s.ftc ∧
    (s.attachFound i c p t h).1.lm = s.lm ∧ (s.attachFound i c p t h).1.zas = s.zas ∧
    (s.attachFound i c p t h).1.tw = s.tw ∧ (s.attachFound i c p t h).1.al.overrunBitmap = s.al.overrunBitmap ∧
    (s.attachFound i c p t h).1.al.ready = s.al.ready ∧ (s.attachFound i c p t h).1.al.count = s.al.count ∧
    (s.attachFound i c p t h).1.al.ageInterval = s.al.ageInterval ∧
    (s.attachFound i c p t h).1.al.ageDeadline = s.al.ageDeadline ∧
    (s.attachFound i c p t h).1.al.interruptEnable = s.al.interruptEnable := by
  unfold State.attachFound
  repeat' split
  all_goals simp

@[simp] theorem attachChecked_frame (s : State) (g : Tag) (c : SubClass) (p : Bool) (t : TariffIx) (h : Operator) :
    (s.attachChecked g c p t h).1.resetHeld = s.resetHeld ∧ (s.attachChecked g c p t h).1.pending = s.pending ∧
    (s.attachChecked g c p t h).1.ci = s.ci ∧ (s.attachChecked g c p t h).1.stc.unwind = s.stc.unwind ∧
    (s.attachChecked g c p t h).1.stc.lastGranted = s.stc.lastGranted ∧ (s.attachChecked g c p t h).1.ftc = s.ftc ∧
    (s.attachChecked g c p t h).1.lm = s.lm ∧ (s.attachChecked g c p t h).1.zas = s.zas ∧
    (s.attachChecked g c p t h).1.tw = s.tw ∧ (s.attachChecked g c p t h).1.al.overrunBitmap = s.al.overrunBitmap ∧
    (s.attachChecked g c p t h).1.al.ready = s.al.ready ∧ (s.attachChecked g c p t h).1.al.count = s.al.count ∧
    (s.attachChecked g c p t h).1.al.ageInterval = s.al.ageInterval ∧
    (s.attachChecked g c p t h).1.al.ageDeadline = s.al.ageDeadline ∧
    (s.attachChecked g c p t h).1.al.interruptEnable = s.al.interruptEnable := by
  unfold State.attachChecked
  repeat' split
  all_goals simp

@[simp] theorem attach_frame (s : State) (g : Tag) (c : BitVec 2) (p : Bool) (t : TariffIx) (h : Operator) :
    (s.attach g c p t h).1.resetHeld = s.resetHeld ∧ (s.attach g c p t h).1.pending = s.pending ∧
    (s.attach g c p t h).1.ci = s.ci ∧ (s.attach g c p t h).1.stc.unwind = s.stc.unwind ∧
    (s.attach g c p t h).1.stc.lastGranted = s.stc.lastGranted ∧ (s.attach g c p t h).1.ftc = s.ftc ∧
    (s.attach g c p t h).1.lm = s.lm ∧ (s.attach g c p t h).1.zas = s.zas ∧ (s.attach g c p t h).1.tw = s.tw ∧
    (s.attach g c p t h).1.al.overrunBitmap = s.al.overrunBitmap ∧ (s.attach g c p t h).1.al.ready = s.al.ready ∧
    (s.attach g c p t h).1.al.count = s.al.count ∧ (s.attach g c p t h).1.al.ageInterval = s.al.ageInterval ∧
    (s.attach g c p t h).1.al.ageDeadline = s.al.ageDeadline ∧
    (s.attach g c p t h).1.al.interruptEnable = s.al.interruptEnable := by
  unfold State.attach
  repeat' split
  all_goals simp

@[simp] theorem detach_frame (s : State) (h : SubHandle) (g : Option SubGuard) :
    (s.detach h g).1.resetHeld = s.resetHeld ∧ (s.detach h g).1.pending = s.pending ∧ (s.detach h g).1.ci = s.ci ∧
    (s.detach h g).1.stc.closedCount = s.stc.closedCount ∧ (s.detach h g).1.stc.lastGranted = s.stc.lastGranted ∧
    (s.detach h g).1.ftc = s.ftc ∧ (s.detach h g).1.lm = s.lm ∧ (s.detach h g).1.zas = s.zas ∧
    (s.detach h g).1.tw = s.tw ∧ (s.detach h g).1.al = s.al := by
  unfold State.detach
  repeat' split
  all_goals simp

@[simp] theorem subFind_frame (s : State) (g : Tag) :
    (s.subFind g).1.resetHeld = s.resetHeld ∧ (s.subFind g).1.pending = s.pending ∧ (s.subFind g).1.ci = s.ci ∧
    (s.subFind g).1.stc.unwind = s.stc.unwind ∧ (s.subFind g).1.stc.lastGranted = s.stc.lastGranted ∧
    (s.subFind g).1.ftc = s.ftc ∧ (s.subFind g).1.lm = s.lm ∧ (s.subFind g).1.zas = s.zas ∧
    (s.subFind g).1.tw = s.tw ∧ (s.subFind g).1.al.overrunBitmap = s.al.overrunBitmap ∧
    (s.subFind g).1.al.ready = s.al.ready ∧ (s.subFind g).1.al.count = s.al.count ∧
    (s.subFind g).1.al.ageInterval = s.al.ageInterval ∧ (s.subFind g).1.al.ageDeadline = s.al.ageDeadline ∧
    (s.subFind g).1.al.interruptEnable = s.al.interruptEnable := by
  unfold State.subFind
  split <;> simp

@[simp] theorem subUpdate_frame (s : State) (h : SubHandle) (g : Option SubGuard) (f : SubField) (a : UpdateAction) (v : Word) :
    (s.subUpdate h g f a v).1.resetHeld = s.resetHeld ∧ (s.subUpdate h g f a v).1.pending = s.pending ∧
    (s.subUpdate h g f a v).1.ci = s.ci ∧ (s.subUpdate h g f a v).1.stc.unwind = s.stc.unwind ∧
    (s.subUpdate h g f a v).1.stc.deadlines = s.stc.deadlines ∧
    (s.subUpdate h g f a v).1.stc.closedCount = s.stc.closedCount ∧
    (s.subUpdate h g f a v).1.stc.lastGranted = s.stc.lastGranted ∧ (s.subUpdate h g f a v).1.ftc = s.ftc ∧
    (s.subUpdate h g f a v).1.lm = s.lm ∧ (s.subUpdate h g f a v).1.zas = s.zas ∧
    (s.subUpdate h g f a v).1.tw = s.tw ∧ (s.subUpdate h g f a v).1.al = s.al := by
  unfold State.subUpdate
  repeat' split
  all_goals simp

@[simp] theorem grantCredit_frame (s : State) (h : SubHandle) (g : Option SubGuard) (m n : Word) :
    (s.grantCredit h g m n).1.resetHeld = s.resetHeld ∧ (s.grantCredit h g m n).1.pending = s.pending ∧
    (s.grantCredit h g m n).1.ci = s.ci ∧ (s.grantCredit h g m n).1.stc.unwind = s.stc.unwind ∧
    (s.grantCredit h g m n).1.stc.closedCount = s.stc.closedCount ∧
    (s.grantCredit h g m n).1.stc.lastGranted = s.stc.lastGranted ∧ (s.grantCredit h g m n).1.ftc = s.ftc ∧
    (s.grantCredit h g m n).1.lm = s.lm ∧ (s.grantCredit h g m n).1.zas = s.zas ∧
    (s.grantCredit h g m n).1.tw = s.tw ∧ (s.grantCredit h g m n).1.al.overrunBitmap = s.al.overrunBitmap ∧
    (s.grantCredit h g m n).1.al.ready = s.al.ready ∧ (s.grantCredit h g m n).1.al.count = s.al.count ∧
    (s.grantCredit h g m n).1.al.ageInterval = s.al.ageInterval ∧
    (s.grantCredit h g m n).1.al.ageDeadline = s.al.ageDeadline ∧
    (s.grantCredit h g m n).1.al.interruptEnable = s.al.interruptEnable := by
  unfold State.grantCredit
  repeat' split
  all_goals simp

@[simp] theorem settle_frame (s : State) (h : SubHandle) (g : Option SubGuard) (p : SettlePart) :
    (s.settle h g p).1.resetHeld = s.resetHeld ∧ (s.settle h g p).1.pending = s.pending ∧
    (s.settle h g p).1.ci = s.ci ∧ (s.settle h g p).1.stc.unwind = s.stc.unwind ∧
    (s.settle h g p).1.stc.lastGranted = s.stc.lastGranted ∧ (s.settle h g p).1.ftc = s.ftc ∧
    (s.settle h g p).1.lm = s.lm ∧ (s.settle h g p).1.zas = s.zas ∧ (s.settle h g p).1.tw = s.tw ∧
    (s.settle h g p).1.al.overrunBitmap = s.al.overrunBitmap ∧ (s.settle h g p).1.al.ready = s.al.ready ∧
    (s.settle h g p).1.al.count = s.al.count ∧ (s.settle h g p).1.al.ageInterval = s.al.ageInterval ∧
    (s.settle h g p).1.al.ageDeadline = s.al.ageDeadline ∧
    (s.settle h g p).1.al.interruptEnable = s.al.interruptEnable := by
  unfold State.settle
  repeat' split
  all_goals simp

@[simp] theorem usagePost_frame (s : State) (h : SubHandle) (c : BitVec 3) (m n : Word) :
    (s.usagePost h c m n).1.resetHeld = s.resetHeld ∧ (s.usagePost h c m n).1.pending = s.pending ∧
    (s.usagePost h c m n).1.ci = s.ci ∧ (s.usagePost h c m n).1.stc.unwind = s.stc.unwind ∧
    (s.usagePost h c m n).1.stc.lastGranted = s.stc.lastGranted ∧ (s.usagePost h c m n).1.ftc = s.ftc ∧
    (s.usagePost h c m n).1.lm = s.lm ∧ (s.usagePost h c m n).1.zas = s.zas ∧ (s.usagePost h c m n).1.tw = s.tw ∧
    (s.usagePost h c m n).1.al.overrunBitmap = s.al.overrunBitmap ∧ (s.usagePost h c m n).1.al.ready = s.al.ready ∧
    (s.usagePost h c m n).1.al.count = s.al.count ∧ (s.usagePost h c m n).1.al.ageInterval = s.al.ageInterval ∧
    (s.usagePost h c m n).1.al.ageDeadline = s.al.ageDeadline ∧
    (s.usagePost h c m n).1.al.interruptEnable = s.al.interruptEnable := by
  unfold State.usagePost
  repeat' split
  all_goals simp

@[simp] theorem openAfterReclaim_frame (s : State) (k : FlowKey) (c : FlowClass) (h : SubHandle) (x y : Option FlowIx) :
    (s.openAfterReclaim k c h x y).1.resetHeld = s.resetHeld ∧
    (s.openAfterReclaim k c h x y).1.pending = s.pending ∧ (s.openAfterReclaim k c h x y).1.ci = s.ci ∧
    (s.openAfterReclaim k c h x y).1.stc.unwind = s.stc.unwind ∧
    (s.openAfterReclaim k c h x y).1.stc.deadlines = s.stc.deadlines ∧
    (s.openAfterReclaim k c h x y).1.stc.closedCount = s.stc.closedCount ∧
    (s.openAfterReclaim k c h x y).1.stc.lastGranted = s.stc.lastGranted ∧
    (s.openAfterReclaim k c h x y).1.ftc.lastGranted = s.ftc.lastGranted ∧
    (s.openAfterReclaim k c h x y).1.lm.links = s.lm.links ∧
    (s.openAfterReclaim k c h x y).1.lm.autoDue = s.lm.autoDue ∧ (s.openAfterReclaim k c h x y).1.zas = s.zas ∧
    (s.openAfterReclaim k c h x y).1.tw = s.tw ∧ (s.openAfterReclaim k c h x y).1.al = s.al := by
  simp only [State.openAfterReclaim]
  split <;> simp

@[simp] theorem openNew_frame (s : State) (k : FlowKey) (c : FlowClass) (h : SubHandle) (b : Bool) :
    (s.openNew k c h b).1.resetHeld = s.resetHeld ∧ (s.openNew k c h b).1.pending = s.pending ∧
    (s.openNew k c h b).1.ci = s.ci ∧ (s.openNew k c h b).1.stc.unwind = s.stc.unwind ∧
    (s.openNew k c h b).1.stc.deadlines = s.stc.deadlines ∧
    (s.openNew k c h b).1.stc.closedCount = s.stc.closedCount ∧
    (s.openNew k c h b).1.stc.lastGranted = s.stc.lastGranted ∧
    (s.openNew k c h b).1.ftc.lastGranted = s.ftc.lastGranted ∧ (s.openNew k c h b).1.lm.links = s.lm.links ∧
    (s.openNew k c h b).1.lm.autoDue = s.lm.autoDue ∧ (s.openNew k c h b).1.zas = s.zas ∧
    (s.openNew k c h b).1.tw = s.tw ∧ (s.openNew k c h b).1.al = s.al := by
  simp only [State.openNew]
  repeat' split
  all_goals simp

@[simp] theorem openTouched_frame (s : State) (k : FlowKey) (c : FlowClass) (h : SubHandle) (b : Bool) :
    (s.openTouched k c h b).1.resetHeld = s.resetHeld ∧ (s.openTouched k c h b).1.pending = s.pending ∧
    (s.openTouched k c h b).1.ci = s.ci ∧ (s.openTouched k c h b).1.stc.unwind = s.stc.unwind ∧
    (s.openTouched k c h b).1.stc.deadlines = s.stc.deadlines ∧
    (s.openTouched k c h b).1.stc.closedCount = s.stc.closedCount ∧
    (s.openTouched k c h b).1.stc.lastGranted = s.stc.lastGranted ∧
    (s.openTouched k c h b).1.ftc.lastGranted = s.ftc.lastGranted ∧
    (s.openTouched k c h b).1.lm.links = s.lm.links ∧ (s.openTouched k c h b).1.lm.autoDue = s.lm.autoDue ∧
    (s.openTouched k c h b).1.zas = s.zas ∧ (s.openTouched k c h b).1.tw = s.tw ∧
    (s.openTouched k c h b).1.al = s.al := by
  unfold State.openTouched
  split <;> simp

@[simp] theorem flowOpen_frame (s : State) (h : SubHandle) (k : FlowKey) (c : BitVec 3) (b : Bool) :
    (s.flowOpen h k c b).1.resetHeld = s.resetHeld ∧ (s.flowOpen h k c b).1.pending = s.pending ∧
    (s.flowOpen h k c b).1.ci = s.ci ∧ (s.flowOpen h k c b).1.stc.unwind = s.stc.unwind ∧
    (s.flowOpen h k c b).1.stc.lastGranted = s.stc.lastGranted ∧
    (s.flowOpen h k c b).1.ftc.lastGranted = s.ftc.lastGranted ∧ (s.flowOpen h k c b).1.lm.links = s.lm.links ∧
    (s.flowOpen h k c b).1.lm.autoDue = s.lm.autoDue ∧ (s.flowOpen h k c b).1.zas = s.zas ∧
    (s.flowOpen h k c b).1.tw = s.tw ∧ (s.flowOpen h k c b).1.al.overrunBitmap = s.al.overrunBitmap ∧
    (s.flowOpen h k c b).1.al.ready = s.al.ready ∧ (s.flowOpen h k c b).1.al.count = s.al.count ∧
    (s.flowOpen h k c b).1.al.ageInterval = s.al.ageInterval ∧
    (s.flowOpen h k c b).1.al.ageDeadline = s.al.ageDeadline ∧
    (s.flowOpen h k c b).1.al.interruptEnable = s.al.interruptEnable := by
  unfold State.flowOpen
  repeat' split
  all_goals simp

@[simp] theorem flowClose_frame (s : State) (h : FlowHandle) (g : Option FlowGuard) :
    (s.flowClose h g).1.resetHeld = s.resetHeld ∧ (s.flowClose h g).1.pending = s.pending ∧
    (s.flowClose h g).1.ci = s.ci ∧ (s.flowClose h g).1.stc.unwind = s.stc.unwind ∧
    (s.flowClose h g).1.stc.deadlines = s.stc.deadlines ∧ (s.flowClose h g).1.stc.closedCount = s.stc.closedCount ∧
    (s.flowClose h g).1.stc.lastGranted = s.stc.lastGranted ∧ (s.flowClose h g).1.ftc.plru = s.ftc.plru ∧
    (s.flowClose h g).1.ftc.lastGranted = s.ftc.lastGranted ∧ (s.flowClose h g).1.lm.links = s.lm.links ∧
    (s.flowClose h g).1.lm.autoDue = s.lm.autoDue ∧ (s.flowClose h g).1.zas = s.zas ∧
    (s.flowClose h g).1.tw = s.tw ∧ (s.flowClose h g).1.al = s.al := by
  unfold State.flowClose
  repeat' split
  all_goals simp

@[simp] theorem flowFind_frame (s : State) (k : FlowKey) :
    (s.flowFind k).1.resetHeld = s.resetHeld ∧ (s.flowFind k).1.pending = s.pending ∧ (s.flowFind k).1.ci = s.ci ∧
    (s.flowFind k).1.stc.unwind = s.stc.unwind ∧ (s.flowFind k).1.stc.lastGranted = s.stc.lastGranted ∧
    (s.flowFind k).1.ftc.pinned = s.ftc.pinned ∧ (s.flowFind k).1.ftc.lastGranted = s.ftc.lastGranted ∧
    (s.flowFind k).1.lm = s.lm ∧ (s.flowFind k).1.zas = s.zas ∧ (s.flowFind k).1.tw = s.tw ∧
    (s.flowFind k).1.al.overrunBitmap = s.al.overrunBitmap ∧ (s.flowFind k).1.al.ready = s.al.ready ∧
    (s.flowFind k).1.al.count = s.al.count ∧ (s.flowFind k).1.al.ageInterval = s.al.ageInterval ∧
    (s.flowFind k).1.al.ageDeadline = s.al.ageDeadline ∧ (s.flowFind k).1.al.interruptEnable = s.al.interruptEnable := by
  unfold State.flowFind
  split <;> simp

@[simp] theorem flowUpdate_frame (s : State) (h : FlowHandle) (g : Option FlowGuard) (f : FlowField) (a : UpdateAction) (v : Word) :
    (s.flowUpdate h g f a v).1.resetHeld = s.resetHeld ∧ (s.flowUpdate h g f a v).1.pending = s.pending ∧
    (s.flowUpdate h g f a v).1.ci = s.ci ∧ (s.flowUpdate h g f a v).1.stc = s.stc ∧
    (s.flowUpdate h g f a v).1.ftc.plru = s.ftc.plru ∧ (s.flowUpdate h g f a v).1.ftc.pinned = s.ftc.pinned ∧
    (s.flowUpdate h g f a v).1.ftc.lastGranted = s.ftc.lastGranted ∧ (s.flowUpdate h g f a v).1.lm = s.lm ∧
    (s.flowUpdate h g f a v).1.zas = s.zas ∧ (s.flowUpdate h g f a v).1.tw = s.tw ∧
    (s.flowUpdate h g f a v).1.al = s.al := by
  unfold State.flowUpdate
  repeat' split
  all_goals simp

@[simp] theorem forwardOn_frame (s : State) (i : FlowIx) (l : LinkId) (m n : Nat) (b : Bool) :
    (s.forwardOn i l m n b).1.resetHeld = s.resetHeld ∧ (s.forwardOn i l m n b).1.pending = s.pending ∧
    (s.forwardOn i l m n b).1.ci = s.ci ∧ (s.forwardOn i l m n b).1.stc.unwind = s.stc.unwind ∧
    (s.forwardOn i l m n b).1.stc.closedCount = s.stc.closedCount ∧
    (s.forwardOn i l m n b).1.stc.lastGranted = s.stc.lastGranted ∧ (s.forwardOn i l m n b).1.ftc = s.ftc ∧
    (s.forwardOn i l m n b).1.lm = s.lm ∧ (s.forwardOn i l m n b).1.zas = s.zas ∧
    (s.forwardOn i l m n b).1.tw = s.tw ∧ (s.forwardOn i l m n b).1.al.overrunBitmap = s.al.overrunBitmap ∧
    (s.forwardOn i l m n b).1.al.ready = s.al.ready ∧ (s.forwardOn i l m n b).1.al.count = s.al.count ∧
    (s.forwardOn i l m n b).1.al.ageInterval = s.al.ageInterval ∧
    (s.forwardOn i l m n b).1.al.ageDeadline = s.al.ageDeadline ∧
    (s.forwardOn i l m n b).1.al.interruptEnable = s.al.interruptEnable := by
  simp [State.forwardOn]

@[simp] theorem linkStep_frame (s : State) (i : FlowIx) (m n : Nat) :
    (s.linkStep i m n).1.resetHeld = s.resetHeld ∧ (s.linkStep i m n).1.pending = s.pending ∧
    (s.linkStep i m n).1.ci = s.ci ∧ (s.linkStep i m n).1.stc.unwind = s.stc.unwind ∧
    (s.linkStep i m n).1.stc.closedCount = s.stc.closedCount ∧
    (s.linkStep i m n).1.stc.lastGranted = s.stc.lastGranted ∧ (s.linkStep i m n).1.ftc.plru = s.ftc.plru ∧
    (s.linkStep i m n).1.ftc.lastGranted = s.ftc.lastGranted ∧ (s.linkStep i m n).1.lm.links = s.lm.links ∧
    (s.linkStep i m n).1.lm.autoDue = s.lm.autoDue ∧ (s.linkStep i m n).1.zas = s.zas ∧
    (s.linkStep i m n).1.tw = s.tw ∧ (s.linkStep i m n).1.al.overrunBitmap = s.al.overrunBitmap ∧
    (s.linkStep i m n).1.al.ready = s.al.ready ∧ (s.linkStep i m n).1.al.count = s.al.count ∧
    (s.linkStep i m n).1.al.ageInterval = s.al.ageInterval ∧
    (s.linkStep i m n).1.al.ageDeadline = s.al.ageDeadline ∧
    (s.linkStep i m n).1.al.interruptEnable = s.al.interruptEnable := by
  simp only [State.linkStep]
  repeat' split
  all_goals simp

@[simp] theorem judge_frame (s : State) (i : FlowIx) (m n : Nat) :
    (s.judge i m n).1.resetHeld = s.resetHeld ∧ (s.judge i m n).1.pending = s.pending ∧
    (s.judge i m n).1.ci = s.ci ∧ (s.judge i m n).1.stc.unwind = s.stc.unwind ∧
    (s.judge i m n).1.stc.closedCount = s.stc.closedCount ∧ (s.judge i m n).1.stc.lastGranted = s.stc.lastGranted ∧
    (s.judge i m n).1.ftc.plru = s.ftc.plru ∧ (s.judge i m n).1.ftc.lastGranted = s.ftc.lastGranted ∧
    (s.judge i m n).1.lm.links = s.lm.links ∧ (s.judge i m n).1.lm.autoDue = s.lm.autoDue ∧
    (s.judge i m n).1.zas = s.zas ∧ (s.judge i m n).1.tw = s.tw ∧
    (s.judge i m n).1.al.overrunBitmap = s.al.overrunBitmap ∧ (s.judge i m n).1.al.ready = s.al.ready ∧
    (s.judge i m n).1.al.count = s.al.count ∧ (s.judge i m n).1.al.ageInterval = s.al.ageInterval ∧
    (s.judge i m n).1.al.ageDeadline = s.al.ageDeadline ∧
    (s.judge i m n).1.al.interruptEnable = s.al.interruptEnable := by
  simp only [State.judge]
  split <;> simp

@[simp] theorem chargeFlow_frame (s : State) (h : FlowHandle) (m : BitVec 16) (n : BitVec 8) :
    (s.chargeFlow h m n).1.resetHeld = s.resetHeld ∧ (s.chargeFlow h m n).1.pending = s.pending ∧
    (s.chargeFlow h m n).1.ci = s.ci ∧ (s.chargeFlow h m n).1.stc.unwind = s.stc.unwind ∧
    (s.chargeFlow h m n).1.stc.lastGranted = s.stc.lastGranted ∧
    (s.chargeFlow h m n).1.ftc.lastGranted = s.ftc.lastGranted ∧ (s.chargeFlow h m n).1.lm.links = s.lm.links ∧
    (s.chargeFlow h m n).1.lm.autoDue = s.lm.autoDue ∧ (s.chargeFlow h m n).1.zas = s.zas ∧
    (s.chargeFlow h m n).1.tw = s.tw ∧ (s.chargeFlow h m n).1.al.overrunBitmap = s.al.overrunBitmap ∧
    (s.chargeFlow h m n).1.al.ready = s.al.ready ∧ (s.chargeFlow h m n).1.al.count = s.al.count ∧
    (s.chargeFlow h m n).1.al.ageInterval = s.al.ageInterval ∧
    (s.chargeFlow h m n).1.al.ageDeadline = s.al.ageDeadline ∧
    (s.chargeFlow h m n).1.al.interruptEnable = s.al.interruptEnable := by
  unfold State.chargeFlow
  repeat' split
  all_goals simp

@[simp] theorem report_frame (s : State) (l : LinkId) (q : BitVec 6) (o : BitVec 8) :
    (s.report l q o).1.resetHeld = s.resetHeld ∧ (s.report l q o).1.pending = s.pending ∧
    (s.report l q o).1.ci = s.ci ∧ (s.report l q o).1.stc = s.stc ∧ (s.report l q o).1.ftc = s.ftc ∧
    (s.report l q o).1.lm.drained = s.lm.drained ∧ (s.report l q o).1.lm.autoDue = s.lm.autoDue ∧
    (s.report l q o).1.zas = s.zas ∧ (s.report l q o).1.tw.walk = s.tw.walk ∧
    (s.report l q o).1.tw.currentMark = s.tw.currentMark ∧ (s.report l q o).1.tw.previousMark = s.tw.previousMark ∧
    (s.report l q o).1.tw.thirdMark = s.tw.thirdMark ∧ (s.report l q o).1.tw.ageSummary = s.tw.ageSummary ∧
    (s.report l q o).1.tw.zoneSummary = s.tw.zoneSummary ∧
    (s.report l q o).1.tw.recheckSummary = s.tw.recheckSummary ∧
    (s.report l q o).1.al.overrunBitmap = s.al.overrunBitmap ∧ (s.report l q o).1.al.ready = s.al.ready ∧
    (s.report l q o).1.al.count = s.al.count ∧ (s.report l q o).1.al.ageInterval = s.al.ageInterval ∧
    (s.report l q o).1.al.ageDeadline = s.al.ageDeadline ∧
    (s.report l q o).1.al.interruptEnable = s.al.interruptEnable := by
  unfold State.report
  split <;> simp

@[simp] theorem linkReport_frame (s : State) (c : BitVec 4) (q o : BitVec 8) :
    (s.linkReport c q o).1.resetHeld = s.resetHeld ∧ (s.linkReport c q o).1.pending = s.pending ∧
    (s.linkReport c q o).1.ci = s.ci ∧ (s.linkReport c q o).1.stc = s.stc ∧ (s.linkReport c q o).1.ftc = s.ftc ∧
    (s.linkReport c q o).1.lm.drained = s.lm.drained ∧ (s.linkReport c q o).1.lm.autoDue = s.lm.autoDue ∧
    (s.linkReport c q o).1.zas = s.zas ∧ (s.linkReport c q o).1.tw.walk = s.tw.walk ∧
    (s.linkReport c q o).1.tw.currentMark = s.tw.currentMark ∧
    (s.linkReport c q o).1.tw.previousMark = s.tw.previousMark ∧
    (s.linkReport c q o).1.tw.thirdMark = s.tw.thirdMark ∧ (s.linkReport c q o).1.tw.ageSummary = s.tw.ageSummary ∧
    (s.linkReport c q o).1.tw.zoneSummary = s.tw.zoneSummary ∧
    (s.linkReport c q o).1.tw.recheckSummary = s.tw.recheckSummary ∧
    (s.linkReport c q o).1.al.overrunBitmap = s.al.overrunBitmap ∧ (s.linkReport c q o).1.al.ready = s.al.ready ∧
    (s.linkReport c q o).1.al.count = s.al.count ∧ (s.linkReport c q o).1.al.ageInterval = s.al.ageInterval ∧
    (s.linkReport c q o).1.al.ageDeadline = s.al.ageDeadline ∧
    (s.linkReport c q o).1.al.interruptEnable = s.al.interruptEnable := by
  unfold State.linkReport
  repeat' split
  all_goals simp

@[simp] theorem enableLink_frame (s : State) (l : LinkId) :
    (s.enableLink l).1.resetHeld = s.resetHeld ∧ (s.enableLink l).1.pending = s.pending ∧
    (s.enableLink l).1.ci = s.ci ∧ (s.enableLink l).1.stc = s.stc ∧ (s.enableLink l).1.ftc = s.ftc ∧
    (s.enableLink l).1.lm.drained = s.lm.drained ∧ (s.enableLink l).1.lm.autoDue = s.lm.autoDue ∧
    (s.enableLink l).1.zas = s.zas ∧ (s.enableLink l).1.tw = s.tw ∧
    (s.enableLink l).1.al.overrunBitmap = s.al.overrunBitmap ∧ (s.enableLink l).1.al.ready = s.al.ready ∧
    (s.enableLink l).1.al.count = s.al.count ∧ (s.enableLink l).1.al.ageInterval = s.al.ageInterval ∧
    (s.enableLink l).1.al.ageDeadline = s.al.ageDeadline ∧
    (s.enableLink l).1.al.interruptEnable = s.al.interruptEnable := by
  unfold State.enableLink
  split <;> simp

@[simp] theorem enable_frame (s : State) (c : BitVec 4) :
    (s.enable c).1.resetHeld = s.resetHeld ∧ (s.enable c).1.pending = s.pending ∧ (s.enable c).1.ci = s.ci ∧
    (s.enable c).1.stc = s.stc ∧ (s.enable c).1.ftc = s.ftc ∧ (s.enable c).1.lm.drained = s.lm.drained ∧
    (s.enable c).1.lm.autoDue = s.lm.autoDue ∧ (s.enable c).1.zas = s.zas ∧ (s.enable c).1.tw = s.tw ∧
    (s.enable c).1.al.overrunBitmap = s.al.overrunBitmap ∧ (s.enable c).1.al.ready = s.al.ready ∧
    (s.enable c).1.al.count = s.al.count ∧ (s.enable c).1.al.ageInterval = s.al.ageInterval ∧
    (s.enable c).1.al.ageDeadline = s.al.ageDeadline ∧ (s.enable c).1.al.interruptEnable = s.al.interruptEnable := by
  simp only [State.enable, State.noLink]
  repeat' split
  all_goals simp

@[simp] theorem disableLink_frame (s : State) (l : LinkId) :
    (s.disableLink l).1.resetHeld = s.resetHeld ∧ (s.disableLink l).1.pending = s.pending ∧
    (s.disableLink l).1.ci = s.ci ∧ (s.disableLink l).1.stc = s.stc ∧ (s.disableLink l).1.ftc = s.ftc ∧
    (s.disableLink l).1.lm.drained = s.lm.drained ∧ (s.disableLink l).1.lm.autoDue = s.lm.autoDue ∧
    (s.disableLink l).1.zas = s.zas ∧ (s.disableLink l).1.tw.walk = s.tw.walk ∧
    (s.disableLink l).1.tw.currentMark = s.tw.currentMark ∧
    (s.disableLink l).1.tw.previousMark = s.tw.previousMark ∧ (s.disableLink l).1.tw.thirdMark = s.tw.thirdMark ∧
    (s.disableLink l).1.tw.ageSummary = s.tw.ageSummary ∧ (s.disableLink l).1.tw.zoneSummary = s.tw.zoneSummary ∧
    (s.disableLink l).1.tw.recheckSummary = s.tw.recheckSummary ∧
    (s.disableLink l).1.al.overrunBitmap = s.al.overrunBitmap ∧ (s.disableLink l).1.al.ready = s.al.ready ∧
    (s.disableLink l).1.al.count = s.al.count ∧ (s.disableLink l).1.al.ageInterval = s.al.ageInterval ∧
    (s.disableLink l).1.al.ageDeadline = s.al.ageDeadline ∧
    (s.disableLink l).1.al.interruptEnable = s.al.interruptEnable := by
  unfold State.disableLink
  split <;> simp

@[simp] theorem disable_frame (s : State) (c : BitVec 4) :
    (s.disable c).1.resetHeld = s.resetHeld ∧ (s.disable c).1.pending = s.pending ∧ (s.disable c).1.ci = s.ci ∧
    (s.disable c).1.stc = s.stc ∧ (s.disable c).1.ftc = s.ftc ∧ (s.disable c).1.lm.drained = s.lm.drained ∧
    (s.disable c).1.lm.autoDue = s.lm.autoDue ∧ (s.disable c).1.zas = s.zas ∧ (s.disable c).1.tw.walk = s.tw.walk ∧
    (s.disable c).1.tw.currentMark = s.tw.currentMark ∧ (s.disable c).1.tw.previousMark = s.tw.previousMark ∧
    (s.disable c).1.tw.thirdMark = s.tw.thirdMark ∧ (s.disable c).1.tw.ageSummary = s.tw.ageSummary ∧
    (s.disable c).1.tw.zoneSummary = s.tw.zoneSummary ∧ (s.disable c).1.tw.recheckSummary = s.tw.recheckSummary ∧
    (s.disable c).1.al.overrunBitmap = s.al.overrunBitmap ∧ (s.disable c).1.al.ready = s.al.ready ∧
    (s.disable c).1.al.count = s.al.count ∧ (s.disable c).1.al.ageInterval = s.al.ageInterval ∧
    (s.disable c).1.al.ageDeadline = s.al.ageDeadline ∧ (s.disable c).1.al.interruptEnable = s.al.interruptEnable := by
  simp only [State.disable, State.noLink]
  repeat' split
  all_goals simp

@[simp] theorem drainLink_frame (s : State) (l : LinkId) :
    (s.drainLink l).1.resetHeld = s.resetHeld ∧ (s.drainLink l).1.pending = s.pending ∧
    (s.drainLink l).1.ci = s.ci ∧ (s.drainLink l).1.stc = s.stc ∧ (s.drainLink l).1.ftc = s.ftc ∧
    (s.drainLink l).1.lm.drained = s.lm.drained ∧ (s.drainLink l).1.lm.autoDue = s.lm.autoDue ∧
    (s.drainLink l).1.zas = s.zas ∧ (s.drainLink l).1.tw.walk = s.tw.walk ∧
    (s.drainLink l).1.tw.currentMark = s.tw.currentMark ∧ (s.drainLink l).1.tw.previousMark = s.tw.previousMark ∧
    (s.drainLink l).1.tw.thirdMark = s.tw.thirdMark ∧ (s.drainLink l).1.tw.ageSummary = s.tw.ageSummary ∧
    (s.drainLink l).1.tw.zoneSummary = s.tw.zoneSummary ∧
    (s.drainLink l).1.tw.recheckSummary = s.tw.recheckSummary ∧
    (s.drainLink l).1.al.overrunBitmap = s.al.overrunBitmap ∧ (s.drainLink l).1.al.ready = s.al.ready ∧
    (s.drainLink l).1.al.count = s.al.count ∧ (s.drainLink l).1.al.ageInterval = s.al.ageInterval ∧
    (s.drainLink l).1.al.ageDeadline = s.al.ageDeadline ∧
    (s.drainLink l).1.al.interruptEnable = s.al.interruptEnable := by
  unfold State.drainLink
  split <;> simp

@[simp] theorem drain_frame (s : State) (c : BitVec 4) :
    (s.drain c).1.resetHeld = s.resetHeld ∧ (s.drain c).1.pending = s.pending ∧ (s.drain c).1.ci = s.ci ∧
    (s.drain c).1.stc = s.stc ∧ (s.drain c).1.ftc = s.ftc ∧ (s.drain c).1.lm.drained = s.lm.drained ∧
    (s.drain c).1.lm.autoDue = s.lm.autoDue ∧ (s.drain c).1.zas = s.zas ∧ (s.drain c).1.tw.walk = s.tw.walk ∧
    (s.drain c).1.tw.currentMark = s.tw.currentMark ∧ (s.drain c).1.tw.previousMark = s.tw.previousMark ∧
    (s.drain c).1.tw.thirdMark = s.tw.thirdMark ∧ (s.drain c).1.tw.ageSummary = s.tw.ageSummary ∧
    (s.drain c).1.tw.zoneSummary = s.tw.zoneSummary ∧ (s.drain c).1.tw.recheckSummary = s.tw.recheckSummary ∧
    (s.drain c).1.al.overrunBitmap = s.al.overrunBitmap ∧ (s.drain c).1.al.ready = s.al.ready ∧
    (s.drain c).1.al.count = s.al.count ∧ (s.drain c).1.al.ageInterval = s.al.ageInterval ∧
    (s.drain c).1.al.ageDeadline = s.al.ageDeadline ∧ (s.drain c).1.al.interruptEnable = s.al.interruptEnable := by
  simp only [State.drain, State.noLink]
  repeat' split
  all_goals simp

@[simp] theorem injectLink_frame (s : State) (l : LinkId) :
    (s.injectLink l).1.resetHeld = s.resetHeld ∧ (s.injectLink l).1.pending = s.pending ∧
    (s.injectLink l).1.ci = s.ci ∧ (s.injectLink l).1.stc = s.stc ∧ (s.injectLink l).1.ftc = s.ftc ∧
    (s.injectLink l).1.lm.drained = s.lm.drained ∧ (s.injectLink l).1.lm.autoDue = s.lm.autoDue ∧
    (s.injectLink l).1.zas = s.zas ∧ (s.injectLink l).1.tw.walk = s.tw.walk ∧
    (s.injectLink l).1.tw.currentMark = s.tw.currentMark ∧ (s.injectLink l).1.tw.previousMark = s.tw.previousMark ∧
    (s.injectLink l).1.tw.thirdMark = s.tw.thirdMark ∧ (s.injectLink l).1.tw.ageSummary = s.tw.ageSummary ∧
    (s.injectLink l).1.tw.zoneSummary = s.tw.zoneSummary ∧
    (s.injectLink l).1.tw.recheckSummary = s.tw.recheckSummary ∧
    (s.injectLink l).1.al.overrunBitmap = s.al.overrunBitmap ∧ (s.injectLink l).1.al.ready = s.al.ready ∧
    (s.injectLink l).1.al.count = s.al.count ∧ (s.injectLink l).1.al.ageInterval = s.al.ageInterval ∧
    (s.injectLink l).1.al.ageDeadline = s.al.ageDeadline ∧
    (s.injectLink l).1.al.interruptEnable = s.al.interruptEnable := by
  unfold State.injectLink
  split <;> simp

@[simp] theorem inject_frame (s : State) (c : BitVec 4) :
    (s.inject c).1.resetHeld = s.resetHeld ∧ (s.inject c).1.pending = s.pending ∧ (s.inject c).1.ci = s.ci ∧
    (s.inject c).1.stc = s.stc ∧ (s.inject c).1.ftc = s.ftc ∧ (s.inject c).1.lm.drained = s.lm.drained ∧
    (s.inject c).1.lm.autoDue = s.lm.autoDue ∧ (s.inject c).1.zas = s.zas ∧ (s.inject c).1.tw.walk = s.tw.walk ∧
    (s.inject c).1.tw.currentMark = s.tw.currentMark ∧ (s.inject c).1.tw.previousMark = s.tw.previousMark ∧
    (s.inject c).1.tw.thirdMark = s.tw.thirdMark ∧ (s.inject c).1.tw.ageSummary = s.tw.ageSummary ∧
    (s.inject c).1.tw.zoneSummary = s.tw.zoneSummary ∧ (s.inject c).1.tw.recheckSummary = s.tw.recheckSummary ∧
    (s.inject c).1.al.overrunBitmap = s.al.overrunBitmap ∧ (s.inject c).1.al.ready = s.al.ready ∧
    (s.inject c).1.al.count = s.al.count ∧ (s.inject c).1.al.ageInterval = s.al.ageInterval ∧
    (s.inject c).1.al.ageDeadline = s.al.ageDeadline ∧ (s.inject c).1.al.interruptEnable = s.al.interruptEnable := by
  simp only [State.inject, State.noLink]
  repeat' split
  all_goals simp

@[simp] theorem snapshotLink_frame (s : State) (l : LinkId) :
    (s.snapshotLink l).1.resetHeld = s.resetHeld ∧ (s.snapshotLink l).1.pending = s.pending ∧
    (s.snapshotLink l).1.ci = s.ci ∧ (s.snapshotLink l).1.stc = s.stc ∧ (s.snapshotLink l).1.ftc = s.ftc ∧
    (s.snapshotLink l).1.lm.drained = s.lm.drained ∧ (s.snapshotLink l).1.lm.autoDue = s.lm.autoDue ∧
    (s.snapshotLink l).1.zas = s.zas ∧ (s.snapshotLink l).1.tw = s.tw ∧ (s.snapshotLink l).1.al = s.al := by
  simp [State.snapshotLink]

@[simp] theorem snapshot_frame (s : State) (c : BitVec 4) :
    (s.snapshot c).1.resetHeld = s.resetHeld ∧ (s.snapshot c).1.pending = s.pending ∧ (s.snapshot c).1.ci = s.ci ∧
    (s.snapshot c).1.stc = s.stc ∧ (s.snapshot c).1.ftc = s.ftc ∧ (s.snapshot c).1.lm.drained = s.lm.drained ∧
    (s.snapshot c).1.lm.autoDue = s.lm.autoDue ∧ (s.snapshot c).1.zas = s.zas ∧ (s.snapshot c).1.tw = s.tw ∧
    (s.snapshot c).1.al = s.al := by
  simp only [State.snapshot, State.noLink]
  repeat' split
  all_goals simp

@[simp] theorem linkConfig_frame (s : State) (c : BitVec 4) (x : LinkConfig) (f : BitVec 4) :
    (s.linkConfig c x f).1.resetHeld = s.resetHeld ∧ (s.linkConfig c x f).1.pending = s.pending ∧
    (s.linkConfig c x f).1.ci = s.ci ∧ (s.linkConfig c x f).1.stc = s.stc ∧ (s.linkConfig c x f).1.ftc = s.ftc ∧
    (s.linkConfig c x f).1.lm.drained = s.lm.drained ∧ (s.linkConfig c x f).1.lm.autoDue = s.lm.autoDue ∧
    (s.linkConfig c x f).1.zas = s.zas ∧ (s.linkConfig c x f).1.tw = s.tw ∧ (s.linkConfig c x f).1.al = s.al := by
  unfold State.linkConfig
  repeat' split
  all_goals simp

@[simp] theorem zoneChange_frame (s : State) (c : BitVec 8) (f : Bool) :
    (s.zoneChange c f).1.resetHeld = s.resetHeld ∧ (s.zoneChange c f).1.pending = s.pending ∧
    (s.zoneChange c f).1.ci = s.ci ∧ (s.zoneChange c f).1.stc = s.stc ∧ (s.zoneChange c f).1.ftc = s.ftc ∧
    (s.zoneChange c f).1.lm = s.lm ∧ (s.zoneChange c f).1.zas.zones = s.zas.zones ∧
    (s.zoneChange c f).1.zas.agreements = s.zas.agreements ∧ (s.zoneChange c f).1.zas.tariffs = s.zas.tariffs ∧
    (s.zoneChange c f).1.zas.policyEpoch = s.zas.policyEpoch ∧ (s.zoneChange c f).1.tw.walk = s.tw.walk ∧
    (s.zoneChange c f).1.tw.currentMark = s.tw.currentMark ∧
    (s.zoneChange c f).1.tw.previousMark = s.tw.previousMark ∧ (s.zoneChange c f).1.tw.thirdMark = s.tw.thirdMark ∧
    (s.zoneChange c f).1.tw.ageSummary = s.tw.ageSummary ∧ (s.zoneChange c f).1.tw.zoneSummary = s.tw.zoneSummary ∧
    (s.zoneChange c f).1.tw.recheckSummary = s.tw.recheckSummary ∧ (s.zoneChange c f).1.al = s.al := by
  simp only [State.zoneChange]
  repeat' split
  all_goals simp

@[simp] theorem defineZone_frame (s : State) (k : ZoneIx) (r : ZoneRecord) :
    (s.defineZone k r).1.resetHeld = s.resetHeld ∧ (s.defineZone k r).1.pending = s.pending ∧
    (s.defineZone k r).1.ci = s.ci ∧ (s.defineZone k r).1.stc = s.stc ∧ (s.defineZone k r).1.ftc = s.ftc ∧
    (s.defineZone k r).1.lm = s.lm ∧ (s.defineZone k r).1.zas.agreements = s.zas.agreements ∧
    (s.defineZone k r).1.zas.tariffs = s.zas.tariffs ∧ (s.defineZone k r).1.zas.currentZone = s.zas.currentZone ∧
    (s.defineZone k r).1.zas.zoneEpoch = s.zas.zoneEpoch ∧ (s.defineZone k r).1.tw.walk = s.tw.walk ∧
    (s.defineZone k r).1.tw.currentMark = s.tw.currentMark ∧
    (s.defineZone k r).1.tw.previousMark = s.tw.previousMark ∧ (s.defineZone k r).1.tw.thirdMark = s.tw.thirdMark ∧
    (s.defineZone k r).1.tw.ageSummary = s.tw.ageSummary ∧ (s.defineZone k r).1.tw.zoneSummary = s.tw.zoneSummary ∧
    (s.defineZone k r).1.tw.recheckSummary = s.tw.recheckSummary ∧ (s.defineZone k r).1.al = s.al := by
  unfold State.defineZone
  repeat' split
  all_goals simp

@[simp] theorem zoneDefine_frame (s : State) (x : BitVec 8) (y : BitVec 2) (c : BitVec 8) :
    (s.zoneDefine x y c).1.resetHeld = s.resetHeld ∧ (s.zoneDefine x y c).1.pending = s.pending ∧
    (s.zoneDefine x y c).1.ci = s.ci ∧ (s.zoneDefine x y c).1.stc = s.stc ∧ (s.zoneDefine x y c).1.ftc = s.ftc ∧
    (s.zoneDefine x y c).1.lm = s.lm ∧ (s.zoneDefine x y c).1.zas.agreements = s.zas.agreements ∧
    (s.zoneDefine x y c).1.zas.tariffs = s.zas.tariffs ∧
    (s.zoneDefine x y c).1.zas.currentZone = s.zas.currentZone ∧
    (s.zoneDefine x y c).1.zas.zoneEpoch = s.zas.zoneEpoch ∧ (s.zoneDefine x y c).1.tw.walk = s.tw.walk ∧
    (s.zoneDefine x y c).1.tw.currentMark = s.tw.currentMark ∧
    (s.zoneDefine x y c).1.tw.previousMark = s.tw.previousMark ∧
    (s.zoneDefine x y c).1.tw.thirdMark = s.tw.thirdMark ∧ (s.zoneDefine x y c).1.tw.ageSummary = s.tw.ageSummary ∧
    (s.zoneDefine x y c).1.tw.zoneSummary = s.tw.zoneSummary ∧
    (s.zoneDefine x y c).1.tw.recheckSummary = s.tw.recheckSummary ∧ (s.zoneDefine x y c).1.al = s.al := by
  unfold State.zoneDefine
  split <;> simp

@[simp] theorem writeAgreement_frame (s : State) (a : Agreement) (l : List Agreement) (b : Bool) :
    (s.writeAgreement a l b).1.resetHeld = s.resetHeld ∧ (s.writeAgreement a l b).1.pending = s.pending ∧
    (s.writeAgreement a l b).1.ci = s.ci ∧ (s.writeAgreement a l b).1.stc = s.stc ∧
    (s.writeAgreement a l b).1.ftc = s.ftc ∧ (s.writeAgreement a l b).1.lm = s.lm ∧
    (s.writeAgreement a l b).1.zas.zones = s.zas.zones ∧ (s.writeAgreement a l b).1.zas.tariffs = s.zas.tariffs ∧
    (s.writeAgreement a l b).1.zas.currentZone = s.zas.currentZone ∧
    (s.writeAgreement a l b).1.zas.zoneEpoch = s.zas.zoneEpoch ∧ (s.writeAgreement a l b).1.tw.walk = s.tw.walk ∧
    (s.writeAgreement a l b).1.tw.currentMark = s.tw.currentMark ∧
    (s.writeAgreement a l b).1.tw.previousMark = s.tw.previousMark ∧
    (s.writeAgreement a l b).1.tw.thirdMark = s.tw.thirdMark ∧
    (s.writeAgreement a l b).1.tw.ageSummary = s.tw.ageSummary ∧
    (s.writeAgreement a l b).1.tw.zoneSummary = s.tw.zoneSummary ∧
    (s.writeAgreement a l b).1.tw.recheckSummary = s.tw.recheckSummary ∧ (s.writeAgreement a l b).1.al = s.al := by
  simp [State.writeAgreement]

@[simp] theorem setAgreement_frame (s : State) (a : Agreement) :
    (s.setAgreement a).1.resetHeld = s.resetHeld ∧ (s.setAgreement a).1.pending = s.pending ∧
    (s.setAgreement a).1.ci = s.ci ∧ (s.setAgreement a).1.stc = s.stc ∧ (s.setAgreement a).1.ftc = s.ftc ∧
    (s.setAgreement a).1.lm = s.lm ∧ (s.setAgreement a).1.zas.zones = s.zas.zones ∧
    (s.setAgreement a).1.zas.tariffs = s.zas.tariffs ∧ (s.setAgreement a).1.zas.currentZone = s.zas.currentZone ∧
    (s.setAgreement a).1.zas.zoneEpoch = s.zas.zoneEpoch ∧ (s.setAgreement a).1.tw.walk = s.tw.walk ∧
    (s.setAgreement a).1.tw.currentMark = s.tw.currentMark ∧
    (s.setAgreement a).1.tw.previousMark = s.tw.previousMark ∧ (s.setAgreement a).1.tw.thirdMark = s.tw.thirdMark ∧
    (s.setAgreement a).1.tw.ageSummary = s.tw.ageSummary ∧ (s.setAgreement a).1.tw.zoneSummary = s.tw.zoneSummary ∧
    (s.setAgreement a).1.tw.recheckSummary = s.tw.recheckSummary ∧ (s.setAgreement a).1.al = s.al := by
  unfold State.setAgreement
  repeat' split
  all_goals simp

@[simp] theorem agreementSet_frame (s : State) (o : Operator) (x : BitVec 2) (a b c d : BitVec 8) :
    (s.agreementSet o x a b c d).1.resetHeld = s.resetHeld ∧ (s.agreementSet o x a b c d).1.pending = s.pending ∧
    (s.agreementSet o x a b c d).1.ci = s.ci ∧ (s.agreementSet o x a b c d).1.stc = s.stc ∧
    (s.agreementSet o x a b c d).1.ftc = s.ftc ∧ (s.agreementSet o x a b c d).1.lm = s.lm ∧
    (s.agreementSet o x a b c d).1.zas.zones = s.zas.zones ∧
    (s.agreementSet o x a b c d).1.zas.tariffs = s.zas.tariffs ∧
    (s.agreementSet o x a b c d).1.zas.currentZone = s.zas.currentZone ∧
    (s.agreementSet o x a b c d).1.zas.zoneEpoch = s.zas.zoneEpoch ∧
    (s.agreementSet o x a b c d).1.tw.walk = s.tw.walk ∧
    (s.agreementSet o x a b c d).1.tw.currentMark = s.tw.currentMark ∧
    (s.agreementSet o x a b c d).1.tw.previousMark = s.tw.previousMark ∧
    (s.agreementSet o x a b c d).1.tw.thirdMark = s.tw.thirdMark ∧
    (s.agreementSet o x a b c d).1.tw.ageSummary = s.tw.ageSummary ∧
    (s.agreementSet o x a b c d).1.tw.zoneSummary = s.tw.zoneSummary ∧
    (s.agreementSet o x a b c d).1.tw.recheckSummary = s.tw.recheckSummary ∧
    (s.agreementSet o x a b c d).1.al = s.al := by
  unfold State.agreementSet
  split <;> simp

@[simp] theorem agreementRemove_frame (s : State) (o : Operator) :
    (s.agreementRemove o).1.resetHeld = s.resetHeld ∧ (s.agreementRemove o).1.pending = s.pending ∧
    (s.agreementRemove o).1.ci = s.ci ∧ (s.agreementRemove o).1.stc = s.stc ∧ (s.agreementRemove o).1.ftc = s.ftc ∧
    (s.agreementRemove o).1.lm = s.lm ∧ (s.agreementRemove o).1.zas.zones = s.zas.zones ∧
    (s.agreementRemove o).1.zas.tariffs = s.zas.tariffs ∧
    (s.agreementRemove o).1.zas.currentZone = s.zas.currentZone ∧
    (s.agreementRemove o).1.zas.zoneEpoch = s.zas.zoneEpoch ∧ (s.agreementRemove o).1.tw.walk = s.tw.walk ∧
    (s.agreementRemove o).1.tw.currentMark = s.tw.currentMark ∧
    (s.agreementRemove o).1.tw.previousMark = s.tw.previousMark ∧
    (s.agreementRemove o).1.tw.thirdMark = s.tw.thirdMark ∧
    (s.agreementRemove o).1.tw.ageSummary = s.tw.ageSummary ∧
    (s.agreementRemove o).1.tw.zoneSummary = s.tw.zoneSummary ∧
    (s.agreementRemove o).1.tw.recheckSummary = s.tw.recheckSummary ∧ (s.agreementRemove o).1.al = s.al := by
  unfold State.agreementRemove
  split <;> simp

@[simp] theorem writeTariff_frame (s : State) (i : TariffIx) (x : TariffTerms) :
    (s.writeTariff i x).1.resetHeld = s.resetHeld ∧ (s.writeTariff i x).1.pending = s.pending ∧
    (s.writeTariff i x).1.ci = s.ci ∧ (s.writeTariff i x).1.stc = s.stc ∧ (s.writeTariff i x).1.ftc = s.ftc ∧
    (s.writeTariff i x).1.lm = s.lm ∧ (s.writeTariff i x).1.zas.zones = s.zas.zones ∧
    (s.writeTariff i x).1.zas.agreements = s.zas.agreements ∧
    (s.writeTariff i x).1.zas.currentZone = s.zas.currentZone ∧
    (s.writeTariff i x).1.zas.zoneEpoch = s.zas.zoneEpoch ∧ (s.writeTariff i x).1.tw.walk = s.tw.walk ∧
    (s.writeTariff i x).1.tw.currentMark = s.tw.currentMark ∧
    (s.writeTariff i x).1.tw.previousMark = s.tw.previousMark ∧
    (s.writeTariff i x).1.tw.thirdMark = s.tw.thirdMark ∧ (s.writeTariff i x).1.tw.ageSummary = s.tw.ageSummary ∧
    (s.writeTariff i x).1.tw.zoneSummary = s.tw.zoneSummary ∧
    (s.writeTariff i x).1.tw.recheckSummary = s.tw.recheckSummary ∧ (s.writeTariff i x).1.al = s.al := by
  simp only [State.writeTariff]
  split <;> simp

@[simp] theorem tariffSet_frame (s : State) (c : BitVec 8) (x : TariffTerms) :
    (s.tariffSet c x).1.resetHeld = s.resetHeld ∧ (s.tariffSet c x).1.pending = s.pending ∧
    (s.tariffSet c x).1.ci = s.ci ∧ (s.tariffSet c x).1.stc = s.stc ∧ (s.tariffSet c x).1.ftc = s.ftc ∧
    (s.tariffSet c x).1.lm = s.lm ∧ (s.tariffSet c x).1.zas.zones = s.zas.zones ∧
    (s.tariffSet c x).1.zas.agreements = s.zas.agreements ∧
    (s.tariffSet c x).1.zas.currentZone = s.zas.currentZone ∧ (s.tariffSet c x).1.zas.zoneEpoch = s.zas.zoneEpoch ∧
    (s.tariffSet c x).1.tw.walk = s.tw.walk ∧ (s.tariffSet c x).1.tw.currentMark = s.tw.currentMark ∧
    (s.tariffSet c x).1.tw.previousMark = s.tw.previousMark ∧ (s.tariffSet c x).1.tw.thirdMark = s.tw.thirdMark ∧
    (s.tariffSet c x).1.tw.ageSummary = s.tw.ageSummary ∧ (s.tariffSet c x).1.tw.zoneSummary = s.tw.zoneSummary ∧
    (s.tariffSet c x).1.tw.recheckSummary = s.tw.recheckSummary ∧ (s.tariffSet c x).1.al = s.al := by
  unfold State.tariffSet
  repeat' split
  all_goals simp

@[simp] theorem ageRequest_frame (s : State) :
    s.ageRequest.1.resetHeld = s.resetHeld ∧ s.ageRequest.1.pending = s.pending ∧ s.ageRequest.1.ci = s.ci ∧
    s.ageRequest.1.stc = s.stc ∧ s.ageRequest.1.ftc = s.ftc ∧ s.ageRequest.1.lm = s.lm ∧
    s.ageRequest.1.zas = s.zas ∧ s.ageRequest.1.tw.walk = s.tw.walk ∧
    s.ageRequest.1.tw.currentMark = s.tw.currentMark ∧ s.ageRequest.1.tw.previousMark = s.tw.previousMark ∧
    s.ageRequest.1.tw.thirdMark = s.tw.thirdMark ∧ s.ageRequest.1.tw.ageSummary = s.tw.ageSummary ∧
    s.ageRequest.1.tw.zoneSummary = s.tw.zoneSummary ∧ s.ageRequest.1.tw.recheckSummary = s.tw.recheckSummary ∧
    s.ageRequest.1.al = s.al := by
  simp [State.ageRequest]

@[simp] theorem abortWalks_frame (s : State) (x : LinkSelector) :
    (s.abortWalks x).1.resetHeld = s.resetHeld ∧ (s.abortWalks x).1.pending = s.pending ∧
    (s.abortWalks x).1.ci = s.ci ∧ (s.abortWalks x).1.stc = s.stc ∧ (s.abortWalks x).1.ftc = s.ftc ∧
    (s.abortWalks x).1.lm.drained = s.lm.drained ∧ (s.abortWalks x).1.lm.autoDue = s.lm.autoDue ∧
    (s.abortWalks x).1.zas = s.zas ∧ (s.abortWalks x).1.tw.currentMark = s.tw.currentMark ∧
    (s.abortWalks x).1.tw.previousMark = s.tw.previousMark ∧ (s.abortWalks x).1.tw.thirdMark = s.tw.thirdMark ∧
    (s.abortWalks x).1.tw.ageSummary = s.tw.ageSummary ∧ (s.abortWalks x).1.tw.zoneSummary = s.tw.zoneSummary ∧
    (s.abortWalks x).1.tw.recheckSummary = s.tw.recheckSummary ∧
    (s.abortWalks x).1.al.overrunBitmap = s.al.overrunBitmap ∧ (s.abortWalks x).1.al.ready = s.al.ready ∧
    (s.abortWalks x).1.al.count = s.al.count ∧ (s.abortWalks x).1.al.ageInterval = s.al.ageInterval ∧
    (s.abortWalks x).1.al.ageDeadline = s.al.ageDeadline ∧
    (s.abortWalks x).1.al.interruptEnable = s.al.interruptEnable := by
  simp only [State.abortWalks]
  repeat' split
  all_goals simp

@[simp] theorem walkAbort_frame (s : State) (k : WalkKind) (c : BitVec 8) :
    (s.walkAbort k c).1.resetHeld = s.resetHeld ∧ (s.walkAbort k c).1.pending = s.pending ∧
    (s.walkAbort k c).1.ci = s.ci ∧ (s.walkAbort k c).1.stc = s.stc ∧ (s.walkAbort k c).1.ftc = s.ftc ∧
    (s.walkAbort k c).1.lm.drained = s.lm.drained ∧ (s.walkAbort k c).1.lm.autoDue = s.lm.autoDue ∧
    (s.walkAbort k c).1.zas = s.zas ∧ (s.walkAbort k c).1.tw.currentMark = s.tw.currentMark ∧
    (s.walkAbort k c).1.tw.previousMark = s.tw.previousMark ∧ (s.walkAbort k c).1.tw.thirdMark = s.tw.thirdMark ∧
    (s.walkAbort k c).1.tw.ageSummary = s.tw.ageSummary ∧ (s.walkAbort k c).1.tw.zoneSummary = s.tw.zoneSummary ∧
    (s.walkAbort k c).1.tw.recheckSummary = s.tw.recheckSummary ∧
    (s.walkAbort k c).1.al.overrunBitmap = s.al.overrunBitmap ∧ (s.walkAbort k c).1.al.ready = s.al.ready ∧
    (s.walkAbort k c).1.al.count = s.al.count ∧ (s.walkAbort k c).1.al.ageInterval = s.al.ageInterval ∧
    (s.walkAbort k c).1.al.ageDeadline = s.al.ageDeadline ∧
    (s.walkAbort k c).1.al.interruptEnable = s.al.interruptEnable := by
  unfold State.walkAbort
  repeat' split
  all_goals simp

@[simp] theorem noticeFetch_frame (s : State) (f : NoticeFilter) :
    (s.noticeFetch f).1.resetHeld = s.resetHeld ∧ (s.noticeFetch f).1.pending = s.pending ∧
    (s.noticeFetch f).1.ci = s.ci ∧ (s.noticeFetch f).1.stc = s.stc ∧ (s.noticeFetch f).1.ftc = s.ftc ∧
    (s.noticeFetch f).1.lm = s.lm ∧ (s.noticeFetch f).1.zas = s.zas ∧ (s.noticeFetch f).1.tw = s.tw ∧
    (s.noticeFetch f).1.al.ready = s.al.ready ∧ (s.noticeFetch f).1.al.count = s.al.count ∧
    (s.noticeFetch f).1.al.ageInterval = s.al.ageInterval ∧ (s.noticeFetch f).1.al.ageDeadline = s.al.ageDeadline ∧
    (s.noticeFetch f).1.al.interruptEnable = s.al.interruptEnable := by
  unfold State.noticeFetch
  split <;> simp

@[simp] theorem deviceConfig_frame (s : State) (x : Word) (b : Bool) :
    (s.deviceConfig x b).1.resetHeld = s.resetHeld ∧ (s.deviceConfig x b).1.pending = s.pending ∧
    (s.deviceConfig x b).1.ci = s.ci ∧ (s.deviceConfig x b).1.stc = s.stc ∧ (s.deviceConfig x b).1.ftc = s.ftc ∧
    (s.deviceConfig x b).1.lm = s.lm ∧ (s.deviceConfig x b).1.zas = s.zas ∧ (s.deviceConfig x b).1.tw = s.tw ∧
    (s.deviceConfig x b).1.al.list = s.al.list ∧ (s.deviceConfig x b).1.al.overrunBitmap = s.al.overrunBitmap ∧
    (s.deviceConfig x b).1.al.ready = s.al.ready ∧ (s.deviceConfig x b).1.al.count = s.al.count := by
  unfold State.deviceConfig
  split <;> simp

@[simp] theorem clearFault_frame (s : State) (ch : Chan) :
    (s.clearFault ch).1.resetHeld = s.resetHeld ∧ (s.clearFault ch).1.pending = s.pending ∧
    (s.clearFault ch).1.ci.softReset = s.ci.softReset ∧ (s.clearFault ch).1.stc = s.stc ∧
    (s.clearFault ch).1.ftc = s.ftc ∧ (s.clearFault ch).1.lm = s.lm ∧ (s.clearFault ch).1.zas = s.zas ∧
    (s.clearFault ch).1.tw = s.tw ∧ (s.clearFault ch).1.al = s.al := by
  simp [State.clearFault]

@[simp] theorem setChannel_frame (s : State) (n : Chan) (c : OwnerClass) (b : Bool) :
    (s.setChannel n c b).1.resetHeld = s.resetHeld ∧ (s.setChannel n c b).1.pending = s.pending ∧
    (s.setChannel n c b).1.ci.softReset = s.ci.softReset ∧ (s.setChannel n c b).1.stc = s.stc ∧
    (s.setChannel n c b).1.ftc = s.ftc ∧ (s.setChannel n c b).1.lm = s.lm ∧ (s.setChannel n c b).1.zas = s.zas ∧
    (s.setChannel n c b).1.tw = s.tw ∧ (s.setChannel n c b).1.al = s.al := by
  simp only [State.setChannel]
  repeat' split
  all_goals simp

@[simp] theorem channelSet_frame (s : State) (n : BitVec 8) (c : OwnerClass) (b : Bool) :
    (s.channelSet n c b).1.resetHeld = s.resetHeld ∧ (s.channelSet n c b).1.pending = s.pending ∧
    (s.channelSet n c b).1.ci.softReset = s.ci.softReset ∧ (s.channelSet n c b).1.stc = s.stc ∧
    (s.channelSet n c b).1.ftc = s.ftc ∧ (s.channelSet n c b).1.lm = s.lm ∧ (s.channelSet n c b).1.zas = s.zas ∧
    (s.channelSet n c b).1.tw = s.tw ∧ (s.channelSet n c b).1.al = s.al := by
  unfold State.channelSet
  split <;> simp

@[simp] theorem channelReset_frame (s : State) (ch : Chan) (n : BitVec 8) :
    (s.channelReset ch n).1.resetHeld = s.resetHeld ∧ (s.channelReset ch n).1.pending = s.pending ∧
    (s.channelReset ch n).1.ci.softReset = s.ci.softReset ∧ (s.channelReset ch n).1.stc = s.stc ∧
    (s.channelReset ch n).1.ftc = s.ftc ∧ (s.channelReset ch n).1.lm = s.lm ∧ (s.channelReset ch n).1.zas = s.zas ∧
    (s.channelReset ch n).1.tw = s.tw ∧ (s.channelReset ch n).1.al = s.al := by
  unfold State.channelReset
  split <;> simp

end Sys2Proof.Machine
end

