-- ==== Sys2Proof/Laws/Commands.lean ====
section
/-! SUPPORT. Every command answers a next state, and the parts of the state that it leaves as they were. -/

namespace Sys2Proof.Machine

@[simp] theorem grantTo_stc_ftc (s : State) (ch : Chan) : (s.grantTo .stc ch).ftc = s.ftc := by rfl
@[simp] theorem grantTo_ftc_stc (s : State) (ch : Chan) : (s.grantTo .ftc ch).stc = s.stc := by rfl

@[simp] theorem storeBytes_frame (s : State) (x : List Host.Cell) :
    (s.storeBytes x).resetHeld = s.resetHeld ∧ (s.storeBytes x).pending = s.pending ∧
    (s.storeBytes x).ci.softReset = s.ci.softReset ∧ (s.storeBytes x).stc = s.stc ∧
    (s.storeBytes x).ftc = s.ftc ∧ (s.storeBytes x).lm = s.lm ∧ (s.storeBytes x).zas = s.zas ∧
    (s.storeBytes x).tw = s.tw ∧ (s.storeBytes x).al = s.al := by
  induction x generalizing s with
  | nil => simp [State.storeBytes]
  | cons b rest ih =>
    have h := ih (s.storeByte b)
    simp only [State.storeBytes, List.foldl_cons] at h ⊢
    simpa using h

theorem submits_frame (s : State) (x : List Host.Cell) (cs : List Chan) :
    (cs.foldl (fun t c => if submitsOn x c then t.submit c else t) s).resetHeld = s.resetHeld ∧
    (cs.foldl (fun t c => if submitsOn x c then t.submit c else t) s).pending = s.pending ∧
    (cs.foldl (fun t c => if submitsOn x c then t.submit c else t) s).ci.softReset = s.ci.softReset ∧
    (cs.foldl (fun t c => if submitsOn x c then t.submit c else t) s).stc = s.stc ∧
    (cs.foldl (fun t c => if submitsOn x c then t.submit c else t) s).ftc = s.ftc ∧
    (cs.foldl (fun t c => if submitsOn x c then t.submit c else t) s).lm = s.lm ∧
    (cs.foldl (fun t c => if submitsOn x c then t.submit c else t) s).zas = s.zas ∧
    (cs.foldl (fun t c => if submitsOn x c then t.submit c else t) s).tw = s.tw ∧
    (cs.foldl (fun t c => if submitsOn x c then t.submit c else t) s).al.ready = s.al.ready ∧
    (cs.foldl (fun t c => if submitsOn x c then t.submit c else t) s).al.count = s.al.count ∧
    (cs.foldl (fun t c => if submitsOn x c then t.submit c else t) s).al.ageInterval = s.al.ageInterval ∧
    (cs.foldl (fun t c => if submitsOn x c then t.submit c else t) s).al.ageDeadline = s.al.ageDeadline ∧
    (cs.foldl (fun t c => if submitsOn x c then t.submit c else t) s).al.interruptEnable = s.al.interruptEnable := by
  induction cs generalizing s with
  | nil => simp
  | cons c rest ih =>
    simp only [List.foldl_cons]
    have h := ih (if submitsOn x c then s.submit c else s)
    split at h <;> rename_i hc <;> simpa [hc] using h

@[simp] theorem submitAll_frame (s : State) (x : List Host.Cell) :
    (s.submitAll x).resetHeld = s.resetHeld ∧ (s.submitAll x).pending = s.pending ∧
    (s.submitAll x).ci.softReset = s.ci.softReset ∧ (s.submitAll x).stc = s.stc ∧ (s.submitAll x).ftc = s.ftc ∧
    (s.submitAll x).lm = s.lm ∧ (s.submitAll x).zas = s.zas ∧ (s.submitAll x).tw = s.tw ∧
    (s.submitAll x).al.ready = s.al.ready ∧ (s.submitAll x).al.count = s.al.count ∧
    (s.submitAll x).al.ageInterval = s.al.ageInterval ∧ (s.submitAll x).al.ageDeadline = s.al.ageDeadline ∧
    (s.submitAll x).al.interruptEnable = s.al.interruptEnable :=
  submits_frame s x channels

theorem releases_frame (s : State) (x : List Host.Cell) (cs : List Chan) :
    (cs.foldl (fun t c => if releasesOn x c then t.release c else t) s).resetHeld = s.resetHeld ∧
    (cs.foldl (fun t c => if releasesOn x c then t.release c else t) s).pending = s.pending ∧
    (cs.foldl (fun t c => if releasesOn x c then t.release c else t) s).ci.softReset = s.ci.softReset ∧
    (cs.foldl (fun t c => if releasesOn x c then t.release c else t) s).stc = s.stc ∧
    (cs.foldl (fun t c => if releasesOn x c then t.release c else t) s).ftc = s.ftc ∧
    (cs.foldl (fun t c => if releasesOn x c then t.release c else t) s).lm = s.lm ∧
    (cs.foldl (fun t c => if releasesOn x c then t.release c else t) s).zas = s.zas ∧
    (cs.foldl (fun t c => if releasesOn x c then t.release c else t) s).tw = s.tw ∧
    (cs.foldl (fun t c => if releasesOn x c then t.release c else t) s).al = s.al := by
  induction cs generalizing s with
  | nil => simp
  | cons c rest ih =>
    simp only [List.foldl_cons]
    have h := ih (if releasesOn x c then s.release c else s)
    split at h <;> rename_i hc <;> simpa [hc] using h

@[simp] theorem releaseAll_frame (s : State) (x : List Host.Cell) :
    (s.releaseAll x).resetHeld = s.resetHeld ∧ (s.releaseAll x).pending = s.pending ∧
    (s.releaseAll x).ci.softReset = s.ci.softReset ∧ (s.releaseAll x).stc = s.stc ∧
    (s.releaseAll x).ftc = s.ftc ∧ (s.releaseAll x).lm = s.lm ∧ (s.releaseAll x).zas = s.zas ∧
    (s.releaseAll x).tw = s.tw ∧ (s.releaseAll x).al = s.al :=
  releases_frame s x channels

theorem execAttach_frame (ch : Chan) (s : State) :
    ∃ t, execAttach ch s = .next t ∧
      t.resetHeld = s.resetHeld ∧ t.pending = s.pending ∧ t.ci.softReset = s.ci.softReset ∧
      t.stc.unwind = s.stc.unwind ∧ t.ftc = s.ftc ∧ t.lm = s.lm ∧ t.zas = s.zas ∧ t.tw = s.tw ∧
      t.al.overrunBitmap = s.al.overrunBitmap ∧ t.al.ready = s.al.ready ∧ t.al.count = s.al.count ∧
      t.al.ageInterval = s.al.ageInterval ∧ t.al.ageDeadline = s.al.ageDeadline ∧
      t.al.interruptEnable = s.al.interruptEnable := by
  unfold execAttach
  split
  · exact ⟨_, rfl, by simp [Taken.finish]⟩
  · exact ⟨_, rfl, by simp⟩

theorem execDetach_frame (ch : Chan) (s : State) :
    ∃ t, execDetach ch s = .next t ∧
      t.resetHeld = s.resetHeld ∧ t.pending = s.pending ∧ t.ci.softReset = s.ci.softReset ∧
      t.stc.closedCount = s.stc.closedCount ∧ t.ftc = s.ftc ∧ t.lm = s.lm ∧ t.zas = s.zas ∧ t.tw = s.tw ∧
      t.al = s.al := by
  unfold execDetach
  split
  · exact ⟨_, rfl, by simp [Taken.finish]⟩
  · exact ⟨_, rfl, by simp⟩

theorem execSubFind_frame (ch : Chan) (s : State) :
    ∃ t, execSubFind ch s = .next t ∧
      t.resetHeld = s.resetHeld ∧ t.pending = s.pending ∧ t.ci.softReset = s.ci.softReset ∧
      t.stc.unwind = s.stc.unwind ∧ t.ftc = s.ftc ∧ t.lm = s.lm ∧ t.zas = s.zas ∧ t.tw = s.tw ∧
      t.al.overrunBitmap = s.al.overrunBitmap ∧ t.al.ready = s.al.ready ∧ t.al.count = s.al.count ∧
      t.al.ageInterval = s.al.ageInterval ∧ t.al.ageDeadline = s.al.ageDeadline ∧
      t.al.interruptEnable = s.al.interruptEnable := by
  unfold execSubFind
  split
  · exact ⟨_, rfl, by simp [Taken.finish]⟩
  · exact ⟨_, rfl, by simp⟩

theorem execSubUpdate_frame (ch : Chan) (s : State) :
    ∃ t, execSubUpdate ch s = .next t ∧
      t.resetHeld = s.resetHeld ∧ t.pending = s.pending ∧ t.ci.softReset = s.ci.softReset ∧
      t.stc.unwind = s.stc.unwind ∧ t.stc.deadlines = s.stc.deadlines ∧ t.stc.closedCount = s.stc.closedCount ∧
      t.ftc = s.ftc ∧ t.lm = s.lm ∧ t.zas = s.zas ∧ t.tw = s.tw ∧ t.al = s.al := by
  unfold execSubUpdate
  split
  · exact ⟨_, rfl, by simp [Taken.finish]⟩
  · exact ⟨_, rfl, by simp⟩

theorem execGrant_frame (ch : Chan) (s : State) :
    ∃ t, execGrant ch s = .next t ∧
      t.resetHeld = s.resetHeld ∧ t.pending = s.pending ∧ t.ci.softReset = s.ci.softReset ∧
      t.stc.unwind = s.stc.unwind ∧ t.stc.closedCount = s.stc.closedCount ∧ t.ftc = s.ftc ∧ t.lm = s.lm ∧
      t.zas = s.zas ∧ t.tw = s.tw ∧ t.al.overrunBitmap = s.al.overrunBitmap ∧ t.al.ready = s.al.ready ∧
      t.al.count = s.al.count ∧ t.al.ageInterval = s.al.ageInterval ∧ t.al.ageDeadline = s.al.ageDeadline ∧
      t.al.interruptEnable = s.al.interruptEnable := by
  unfold execGrant
  split
  · exact ⟨_, rfl, by simp [Taken.finish]⟩
  · exact ⟨_, rfl, by simp⟩

theorem execSettle_frame (ch : Chan) (s : State) :
    ∃ t, execSettle ch s = .next t ∧
      t.resetHeld = s.resetHeld ∧ t.pending = s.pending ∧ t.ci.softReset = s.ci.softReset ∧
      t.stc.unwind = s.stc.unwind ∧ t.ftc = s.ftc ∧ t.lm = s.lm ∧ t.zas = s.zas ∧ t.tw = s.tw ∧
      t.al.overrunBitmap = s.al.overrunBitmap ∧ t.al.ready = s.al.ready ∧ t.al.count = s.al.count ∧
      t.al.ageInterval = s.al.ageInterval ∧ t.al.ageDeadline = s.al.ageDeadline ∧
      t.al.interruptEnable = s.al.interruptEnable := by
  unfold execSettle
  split
  · exact ⟨_, rfl, by simp [Taken.finish]⟩
  · exact ⟨_, rfl, by simp⟩

theorem execUsagePost_frame (ch : Chan) (s : State) :
    ∃ t, execUsagePost ch s = .next t ∧
      t.resetHeld = s.resetHeld ∧ t.pending = s.pending ∧ t.ci.softReset = s.ci.softReset ∧
      t.stc.unwind = s.stc.unwind ∧ t.ftc = s.ftc ∧ t.lm = s.lm ∧ t.zas = s.zas ∧ t.tw = s.tw ∧
      t.al.overrunBitmap = s.al.overrunBitmap ∧ t.al.ready = s.al.ready ∧ t.al.count = s.al.count ∧
      t.al.ageInterval = s.al.ageInterval ∧ t.al.ageDeadline = s.al.ageDeadline ∧
      t.al.interruptEnable = s.al.interruptEnable := by
  unfold execUsagePost
  split
  · exact ⟨_, rfl, by simp⟩
  · exact ⟨_, rfl, by simp⟩

theorem execSubRead_frame (ch : Chan) (s : State) :
    ∃ t, execSubRead ch s = .next t ∧
      t.resetHeld = s.resetHeld ∧ t.pending = s.pending ∧ t.ci.softReset = s.ci.softReset ∧
      t.stc.subs = s.stc.subs ∧ t.stc.unwind = s.stc.unwind ∧ t.stc.deadlines = s.stc.deadlines ∧
      t.stc.closedCount = s.stc.closedCount ∧ t.ftc = s.ftc ∧ t.lm = s.lm ∧ t.zas = s.zas ∧ t.tw = s.tw ∧
      t.al = s.al := by
  unfold execSubRead
  split
  · exact ⟨_, rfl, by simp [Taken.finish]⟩
  · exact ⟨_, rfl, by simp⟩

theorem execFlowOpen_frame (ch : Chan) (s : State) :
    ∃ t, execFlowOpen ch s = .next t ∧
      t.resetHeld = s.resetHeld ∧ t.pending = s.pending ∧ t.ci.softReset = s.ci.softReset ∧
      t.stc.unwind = s.stc.unwind ∧ t.stc.lastGranted = s.stc.lastGranted ∧ t.lm.links = s.lm.links ∧
      t.lm.autoDue = s.lm.autoDue ∧ t.zas = s.zas ∧ t.tw = s.tw ∧ t.al.overrunBitmap = s.al.overrunBitmap ∧
      t.al.ready = s.al.ready ∧ t.al.count = s.al.count ∧ t.al.ageInterval = s.al.ageInterval ∧
      t.al.ageDeadline = s.al.ageDeadline ∧ t.al.interruptEnable = s.al.interruptEnable := by
  unfold execFlowOpen
  split
  · exact ⟨_, rfl, by simp [Taken.finish]⟩
  · exact ⟨_, rfl, by simp⟩

theorem execFlowClose_frame (ch : Chan) (s : State) :
    ∃ t, execFlowClose ch s = .next t ∧
      t.resetHeld = s.resetHeld ∧ t.pending = s.pending ∧ t.ci.softReset = s.ci.softReset ∧
      t.stc.unwind = s.stc.unwind ∧ t.stc.deadlines = s.stc.deadlines ∧ t.stc.closedCount = s.stc.closedCount ∧
      t.stc.lastGranted = s.stc.lastGranted ∧ t.ftc.plru = s.ftc.plru ∧ t.lm.links = s.lm.links ∧
      t.lm.autoDue = s.lm.autoDue ∧ t.zas = s.zas ∧ t.tw = s.tw ∧ t.al = s.al := by
  unfold execFlowClose
  split
  · exact ⟨_, rfl, by simp [Taken.finish]⟩
  · exact ⟨_, rfl, by simp⟩

theorem execFlowFind_frame (ch : Chan) (s : State) :
    ∃ t, execFlowFind ch s = .next t ∧
      t.resetHeld = s.resetHeld ∧ t.pending = s.pending ∧ t.ci.softReset = s.ci.softReset ∧
      t.stc.unwind = s.stc.unwind ∧ t.stc.lastGranted = s.stc.lastGranted ∧ t.ftc.pinned = s.ftc.pinned ∧
      t.lm = s.lm ∧ t.zas = s.zas ∧ t.tw = s.tw ∧ t.al.overrunBitmap = s.al.overrunBitmap ∧
      t.al.ready = s.al.ready ∧ t.al.count = s.al.count ∧ t.al.ageInterval = s.al.ageInterval ∧
      t.al.ageDeadline = s.al.ageDeadline ∧ t.al.interruptEnable = s.al.interruptEnable := by
  unfold execFlowFind
  split
  · exact ⟨_, rfl, by simp [Taken.finish]⟩
  · exact ⟨_, rfl, by simp⟩

theorem execFlowUpdate_frame (ch : Chan) (s : State) :
    ∃ t, execFlowUpdate ch s = .next t ∧
      t.resetHeld = s.resetHeld ∧ t.pending = s.pending ∧ t.ci.softReset = s.ci.softReset ∧ t.stc = s.stc ∧
      t.ftc.plru = s.ftc.plru ∧ t.ftc.pinned = s.ftc.pinned ∧ t.lm = s.lm ∧ t.zas = s.zas ∧ t.tw = s.tw ∧
      t.al = s.al := by
  unfold execFlowUpdate
  split
  · exact ⟨_, rfl, by simp [Taken.finish]⟩
  · exact ⟨_, rfl, by simp⟩

theorem execCharge_frame (ch : Chan) (s : State) :
    ∃ t, execCharge ch s = .next t ∧
      t.resetHeld = s.resetHeld ∧ t.pending = s.pending ∧ t.ci.softReset = s.ci.softReset ∧
      t.stc.unwind = s.stc.unwind ∧ t.stc.lastGranted = s.stc.lastGranted ∧ t.lm.links = s.lm.links ∧
      t.lm.autoDue = s.lm.autoDue ∧ t.zas = s.zas ∧ t.tw = s.tw ∧ t.al.overrunBitmap = s.al.overrunBitmap ∧
      t.al.ready = s.al.ready ∧ t.al.count = s.al.count ∧ t.al.ageInterval = s.al.ageInterval ∧
      t.al.ageDeadline = s.al.ageDeadline ∧ t.al.interruptEnable = s.al.interruptEnable := by
  unfold execCharge
  split
  · exact ⟨_, rfl, by simp [Taken.finish]⟩
  · exact ⟨_, rfl, by simp⟩

theorem execFlowRead_frame (ch : Chan) (s : State) :
    ∃ t, execFlowRead ch s = .next t ∧
      t.resetHeld = s.resetHeld ∧ t.pending = s.pending ∧ t.ci.softReset = s.ci.softReset ∧ t.stc = s.stc ∧
      t.ftc.flows = s.ftc.flows ∧ t.ftc.plru = s.ftc.plru ∧ t.ftc.pinned = s.ftc.pinned ∧ t.lm = s.lm ∧
      t.zas = s.zas ∧ t.tw = s.tw ∧ t.al = s.al := by
  unfold execFlowRead
  split
  · exact ⟨_, rfl, by simp [Taken.finish]⟩
  · exact ⟨_, rfl, by simp⟩

theorem execLinkReport_frame (ch : Chan) (s : State) :
    ∃ t, execLinkReport ch s = .next t ∧
      t.resetHeld = s.resetHeld ∧ t.pending = s.pending ∧ t.ci.softReset = s.ci.softReset ∧ t.stc = s.stc ∧
      t.ftc = s.ftc ∧ t.lm.drained = s.lm.drained ∧ t.lm.autoDue = s.lm.autoDue ∧ t.zas = s.zas ∧
      t.tw.walk = s.tw.walk ∧ t.tw.currentMark = s.tw.currentMark ∧ t.tw.previousMark = s.tw.previousMark ∧
      t.tw.thirdMark = s.tw.thirdMark ∧ t.tw.ageSummary = s.tw.ageSummary ∧ t.tw.zoneSummary = s.tw.zoneSummary ∧
      t.tw.recheckSummary = s.tw.recheckSummary ∧ t.al.overrunBitmap = s.al.overrunBitmap ∧
      t.al.ready = s.al.ready ∧ t.al.count = s.al.count ∧ t.al.ageInterval = s.al.ageInterval ∧
      t.al.ageDeadline = s.al.ageDeadline ∧ t.al.interruptEnable = s.al.interruptEnable := by
  unfold execLinkReport
  split
  · exact ⟨_, rfl, by simp [Taken.finish]⟩
  · exact ⟨_, rfl, by simp⟩

theorem execEnable_frame (ch : Chan) (s : State) :
    ∃ t, execEnable ch s = .next t ∧
      t.resetHeld = s.resetHeld ∧ t.pending = s.pending ∧ t.ci.softReset = s.ci.softReset ∧ t.stc = s.stc ∧
      t.ftc = s.ftc ∧ t.lm.drained = s.lm.drained ∧ t.lm.autoDue = s.lm.autoDue ∧ t.zas = s.zas ∧ t.tw = s.tw ∧
      t.al.overrunBitmap = s.al.overrunBitmap ∧ t.al.ready = s.al.ready ∧ t.al.count = s.al.count ∧
      t.al.ageInterval = s.al.ageInterval ∧ t.al.ageDeadline = s.al.ageDeadline ∧
      t.al.interruptEnable = s.al.interruptEnable := by
  unfold execEnable
  split
  · exact ⟨_, rfl, by simp [Taken.finish]⟩
  · exact ⟨_, rfl, by simp⟩

theorem execDisable_frame (ch : Chan) (s : State) :
    ∃ t, execDisable ch s = .next t ∧
      t.resetHeld = s.resetHeld ∧ t.pending = s.pending ∧ t.ci.softReset = s.ci.softReset ∧ t.stc = s.stc ∧
      t.ftc = s.ftc ∧ t.lm.drained = s.lm.drained ∧ t.lm.autoDue = s.lm.autoDue ∧ t.zas = s.zas ∧
      t.tw.walk = s.tw.walk ∧ t.tw.currentMark = s.tw.currentMark ∧ t.tw.previousMark = s.tw.previousMark ∧
      t.tw.thirdMark = s.tw.thirdMark ∧ t.tw.ageSummary = s.tw.ageSummary ∧ t.tw.zoneSummary = s.tw.zoneSummary ∧
      t.tw.recheckSummary = s.tw.recheckSummary ∧ t.al.overrunBitmap = s.al.overrunBitmap ∧
      t.al.ready = s.al.ready ∧ t.al.count = s.al.count ∧ t.al.ageInterval = s.al.ageInterval ∧
      t.al.ageDeadline = s.al.ageDeadline ∧ t.al.interruptEnable = s.al.interruptEnable := by
  unfold execDisable
  split
  · exact ⟨_, rfl, by simp [Taken.finish]⟩
  · exact ⟨_, rfl, by simp⟩

theorem execDrain_frame (ch : Chan) (s : State) :
    ∃ t, execDrain ch s = .next t ∧
      t.resetHeld = s.resetHeld ∧ t.pending = s.pending ∧ t.ci.softReset = s.ci.softReset ∧ t.stc = s.stc ∧
      t.ftc = s.ftc ∧ t.lm.drained = s.lm.drained ∧ t.lm.autoDue = s.lm.autoDue ∧ t.zas = s.zas ∧
      t.tw.walk = s.tw.walk ∧ t.tw.currentMark = s.tw.currentMark ∧ t.tw.previousMark = s.tw.previousMark ∧
      t.tw.thirdMark = s.tw.thirdMark ∧ t.tw.ageSummary = s.tw.ageSummary ∧ t.tw.zoneSummary = s.tw.zoneSummary ∧
      t.tw.recheckSummary = s.tw.recheckSummary ∧ t.al.overrunBitmap = s.al.overrunBitmap ∧
      t.al.ready = s.al.ready ∧ t.al.count = s.al.count ∧ t.al.ageInterval = s.al.ageInterval ∧
      t.al.ageDeadline = s.al.ageDeadline ∧ t.al.interruptEnable = s.al.interruptEnable := by
  unfold execDrain
  split
  · exact ⟨_, rfl, by simp [Taken.finish]⟩
  · exact ⟨_, rfl, by simp⟩

theorem execInject_frame (ch : Chan) (s : State) :
    ∃ t, execInject ch s = .next t ∧
      t.resetHeld = s.resetHeld ∧ t.pending = s.pending ∧ t.ci.softReset = s.ci.softReset ∧ t.stc = s.stc ∧
      t.ftc = s.ftc ∧ t.lm.drained = s.lm.drained ∧ t.lm.autoDue = s.lm.autoDue ∧ t.zas = s.zas ∧
      t.tw.walk = s.tw.walk ∧ t.tw.currentMark = s.tw.currentMark ∧ t.tw.previousMark = s.tw.previousMark ∧
      t.tw.thirdMark = s.tw.thirdMark ∧ t.tw.ageSummary = s.tw.ageSummary ∧ t.tw.zoneSummary = s.tw.zoneSummary ∧
      t.tw.recheckSummary = s.tw.recheckSummary ∧ t.al.overrunBitmap = s.al.overrunBitmap ∧
      t.al.ready = s.al.ready ∧ t.al.count = s.al.count ∧ t.al.ageInterval = s.al.ageInterval ∧
      t.al.ageDeadline = s.al.ageDeadline ∧ t.al.interruptEnable = s.al.interruptEnable := by
  unfold execInject
  split
  · exact ⟨_, rfl, by simp [Taken.finish]⟩
  · exact ⟨_, rfl, by simp⟩

theorem execSnapshot_frame (ch : Chan) (s : State) :
    ∃ t, execSnapshot ch s = .next t ∧
      t.resetHeld = s.resetHeld ∧ t.pending = s.pending ∧ t.ci.softReset = s.ci.softReset ∧ t.stc = s.stc ∧
      t.ftc = s.ftc ∧ t.lm.drained = s.lm.drained ∧ t.lm.autoDue = s.lm.autoDue ∧ t.zas = s.zas ∧ t.tw = s.tw ∧
      t.al = s.al := by
  unfold execSnapshot
  split
  · exact ⟨_, rfl, by simp [Taken.finish]⟩
  · exact ⟨_, rfl, by simp⟩

theorem execLinkConfig_frame (ch : Chan) (s : State) :
    ∃ t, execLinkConfig ch s = .next t ∧
      t.resetHeld = s.resetHeld ∧ t.pending = s.pending ∧ t.ci.softReset = s.ci.softReset ∧ t.stc = s.stc ∧
      t.ftc = s.ftc ∧ t.lm.drained = s.lm.drained ∧ t.lm.autoDue = s.lm.autoDue ∧ t.zas = s.zas ∧ t.tw = s.tw ∧
      t.al = s.al := by
  unfold execLinkConfig
  split
  · exact ⟨_, rfl, by simp [Taken.finish]⟩
  · exact ⟨_, rfl, by simp⟩

theorem execZoneChange_frame (ch : Chan) (s : State) :
    ∃ t, execZoneChange ch s = .next t ∧
      t.resetHeld = s.resetHeld ∧ t.pending = s.pending ∧ t.ci.softReset = s.ci.softReset ∧ t.stc = s.stc ∧
      t.ftc = s.ftc ∧ t.lm = s.lm ∧ t.zas.zones = s.zas.zones ∧ t.zas.agreements = s.zas.agreements ∧
      t.zas.tariffs = s.zas.tariffs ∧ t.zas.policyEpoch = s.zas.policyEpoch ∧ t.tw.walk = s.tw.walk ∧
      t.tw.currentMark = s.tw.currentMark ∧ t.tw.previousMark = s.tw.previousMark ∧
      t.tw.thirdMark = s.tw.thirdMark ∧ t.tw.ageSummary = s.tw.ageSummary ∧ t.tw.zoneSummary = s.tw.zoneSummary ∧
      t.tw.recheckSummary = s.tw.recheckSummary ∧ t.al = s.al := by
  unfold execZoneChange
  split
  · exact ⟨_, rfl, by simp [Taken.finish]⟩
  · exact ⟨_, rfl, by simp⟩

theorem execZoneDefine_frame (ch : Chan) (s : State) :
    ∃ t, execZoneDefine ch s = .next t ∧
      t.resetHeld = s.resetHeld ∧ t.pending = s.pending ∧ t.ci.softReset = s.ci.softReset ∧ t.stc = s.stc ∧
      t.ftc = s.ftc ∧ t.lm = s.lm ∧ t.zas.agreements = s.zas.agreements ∧ t.zas.tariffs = s.zas.tariffs ∧
      t.zas.currentZone = s.zas.currentZone ∧ t.zas.zoneEpoch = s.zas.zoneEpoch ∧ t.tw.walk = s.tw.walk ∧
      t.tw.currentMark = s.tw.currentMark ∧ t.tw.previousMark = s.tw.previousMark ∧
      t.tw.thirdMark = s.tw.thirdMark ∧ t.tw.ageSummary = s.tw.ageSummary ∧ t.tw.zoneSummary = s.tw.zoneSummary ∧
      t.tw.recheckSummary = s.tw.recheckSummary ∧ t.al = s.al := by
  unfold execZoneDefine
  split
  · exact ⟨_, rfl, by simp [Taken.finish]⟩
  · exact ⟨_, rfl, by simp⟩

theorem execAgreementSet_frame (ch : Chan) (s : State) :
    ∃ t, execAgreementSet ch s = .next t ∧
      t.resetHeld = s.resetHeld ∧ t.pending = s.pending ∧ t.ci.softReset = s.ci.softReset ∧ t.stc = s.stc ∧
      t.ftc = s.ftc ∧ t.lm = s.lm ∧ t.zas.zones = s.zas.zones ∧ t.zas.tariffs = s.zas.tariffs ∧
      t.zas.currentZone = s.zas.currentZone ∧ t.zas.zoneEpoch = s.zas.zoneEpoch ∧ t.tw.walk = s.tw.walk ∧
      t.tw.currentMark = s.tw.currentMark ∧ t.tw.previousMark = s.tw.previousMark ∧
      t.tw.thirdMark = s.tw.thirdMark ∧ t.tw.ageSummary = s.tw.ageSummary ∧ t.tw.zoneSummary = s.tw.zoneSummary ∧
      t.tw.recheckSummary = s.tw.recheckSummary ∧ t.al = s.al := by
  unfold execAgreementSet
  split
  · exact ⟨_, rfl, by simp [Taken.finish]⟩
  · exact ⟨_, rfl, by simp⟩

theorem execAgreementRemove_frame (ch : Chan) (s : State) :
    ∃ t, execAgreementRemove ch s = .next t ∧
      t.resetHeld = s.resetHeld ∧ t.pending = s.pending ∧ t.ci.softReset = s.ci.softReset ∧ t.stc = s.stc ∧
      t.ftc = s.ftc ∧ t.lm = s.lm ∧ t.zas.zones = s.zas.zones ∧ t.zas.tariffs = s.zas.tariffs ∧
      t.zas.currentZone = s.zas.currentZone ∧ t.zas.zoneEpoch = s.zas.zoneEpoch ∧ t.tw.walk = s.tw.walk ∧
      t.tw.currentMark = s.tw.currentMark ∧ t.tw.previousMark = s.tw.previousMark ∧
      t.tw.thirdMark = s.tw.thirdMark ∧ t.tw.ageSummary = s.tw.ageSummary ∧ t.tw.zoneSummary = s.tw.zoneSummary ∧
      t.tw.recheckSummary = s.tw.recheckSummary ∧ t.al = s.al := by
  unfold execAgreementRemove
  split
  · exact ⟨_, rfl, by simp [Taken.finish]⟩
  · exact ⟨_, rfl, by simp⟩

theorem execTariffSet_frame (ch : Chan) (s : State) :
    ∃ t, execTariffSet ch s = .next t ∧
      t.resetHeld = s.resetHeld ∧ t.pending = s.pending ∧ t.ci.softReset = s.ci.softReset ∧ t.stc = s.stc ∧
      t.ftc = s.ftc ∧ t.lm = s.lm ∧ t.zas.zones = s.zas.zones ∧ t.zas.agreements = s.zas.agreements ∧
      t.zas.currentZone = s.zas.currentZone ∧ t.zas.zoneEpoch = s.zas.zoneEpoch ∧ t.tw.walk = s.tw.walk ∧
      t.tw.currentMark = s.tw.currentMark ∧ t.tw.previousMark = s.tw.previousMark ∧
      t.tw.thirdMark = s.tw.thirdMark ∧ t.tw.ageSummary = s.tw.ageSummary ∧ t.tw.zoneSummary = s.tw.zoneSummary ∧
      t.tw.recheckSummary = s.tw.recheckSummary ∧ t.al = s.al := by
  unfold execTariffSet
  split
  · exact ⟨_, rfl, by simp [Taken.finish]⟩
  · exact ⟨_, rfl, by simp⟩

theorem execAge_frame (ch : Chan) (s : State) :
    ∃ t, execAge ch s = .next t ∧
      t.resetHeld = s.resetHeld ∧ t.pending = s.pending ∧ t.ci.softReset = s.ci.softReset ∧ t.stc = s.stc ∧
      t.ftc = s.ftc ∧ t.lm = s.lm ∧ t.zas = s.zas ∧ t.tw.walk = s.tw.walk ∧ t.tw.currentMark = s.tw.currentMark ∧
      t.tw.previousMark = s.tw.previousMark ∧ t.tw.thirdMark = s.tw.thirdMark ∧
      t.tw.ageSummary = s.tw.ageSummary ∧ t.tw.zoneSummary = s.tw.zoneSummary ∧
      t.tw.recheckSummary = s.tw.recheckSummary ∧ t.al = s.al := by
  unfold execAge
  split
  · exact ⟨_, rfl, by simp [Taken.finish]⟩
  · exact ⟨_, rfl, by simp⟩

theorem execWalkAbort_frame (ch : Chan) (s : State) :
    ∃ t, execWalkAbort ch s = .next t ∧
      t.resetHeld = s.resetHeld ∧ t.pending = s.pending ∧ t.ci.softReset = s.ci.softReset ∧ t.stc = s.stc ∧
      t.ftc = s.ftc ∧ t.lm.drained = s.lm.drained ∧ t.lm.autoDue = s.lm.autoDue ∧ t.zas = s.zas ∧
      t.tw.currentMark = s.tw.currentMark ∧ t.tw.previousMark = s.tw.previousMark ∧
      t.tw.thirdMark = s.tw.thirdMark ∧ t.tw.ageSummary = s.tw.ageSummary ∧ t.tw.zoneSummary = s.tw.zoneSummary ∧
      t.tw.recheckSummary = s.tw.recheckSummary ∧ t.al.overrunBitmap = s.al.overrunBitmap ∧
      t.al.ready = s.al.ready ∧ t.al.count = s.al.count ∧ t.al.ageInterval = s.al.ageInterval ∧
      t.al.ageDeadline = s.al.ageDeadline ∧ t.al.interruptEnable = s.al.interruptEnable := by
  unfold execWalkAbort
  split
  · exact ⟨_, rfl, by simp [Taken.finish]⟩
  · exact ⟨_, rfl, by simp⟩

theorem execNoticeFetch_frame (ch : Chan) (s : State) :
    ∃ t, execNoticeFetch ch s = .next t ∧
      t.resetHeld = s.resetHeld ∧ t.pending = s.pending ∧ t.ci.softReset = s.ci.softReset ∧ t.stc = s.stc ∧
      t.ftc = s.ftc ∧ t.lm = s.lm ∧ t.zas = s.zas ∧ t.tw = s.tw ∧ t.al.ready = s.al.ready ∧
      t.al.count = s.al.count ∧ t.al.ageInterval = s.al.ageInterval ∧ t.al.ageDeadline = s.al.ageDeadline ∧
      t.al.interruptEnable = s.al.interruptEnable := by
  unfold execNoticeFetch
  split
  · exact ⟨_, rfl, by simp [Taken.finish]⟩
  · exact ⟨_, rfl, by simp⟩

theorem execDeviceConfig_frame (ch : Chan) (s : State) :
    ∃ t, execDeviceConfig ch s = .next t ∧
      t.resetHeld = s.resetHeld ∧ t.pending = s.pending ∧ t.ci.softReset = s.ci.softReset ∧ t.stc = s.stc ∧
      t.ftc = s.ftc ∧ t.lm = s.lm ∧ t.zas = s.zas ∧ t.tw = s.tw ∧ t.al.list = s.al.list ∧
      t.al.overrunBitmap = s.al.overrunBitmap ∧ t.al.ready = s.al.ready ∧ t.al.count = s.al.count := by
  unfold execDeviceConfig
  split
  · exact ⟨_, rfl, by cases s.ageDue <;> simp [Taken.finish]⟩
  · exact ⟨_, rfl, by simp⟩

theorem execClearFault_frame (ch : Chan) (s : State) :
    ∃ t, execClearFault ch s = .next t ∧
      t.resetHeld = s.resetHeld ∧ t.pending = s.pending ∧ t.ci.softReset = s.ci.softReset ∧ t.stc = s.stc ∧
      t.ftc = s.ftc ∧ t.lm = s.lm ∧ t.zas = s.zas ∧ t.tw = s.tw ∧ t.al = s.al := by
  unfold execClearFault
  split
  · exact ⟨_, rfl, by simp [Taken.finish]⟩
  · exact ⟨_, rfl, by simp⟩

theorem execChannelSet_frame (ch : Chan) (s : State) :
    ∃ t, execChannelSet ch s = .next t ∧
      t.resetHeld = s.resetHeld ∧ t.pending = s.pending ∧ t.ci.softReset = s.ci.softReset ∧ t.stc = s.stc ∧
      t.ftc = s.ftc ∧ t.lm = s.lm ∧ t.zas = s.zas ∧ t.tw = s.tw ∧ t.al = s.al := by
  unfold execChannelSet
  split
  · exact ⟨_, rfl, by simp [Taken.finish]⟩
  · exact ⟨_, rfl, by simp⟩

theorem execChannelReset_frame (ch : Chan) (s : State) :
    ∃ t, execChannelReset ch s = .next t ∧
      t.resetHeld = s.resetHeld ∧ t.pending = s.pending ∧ t.ci.softReset = s.ci.softReset ∧ t.stc = s.stc ∧
      t.ftc = s.ftc ∧ t.lm = s.lm ∧ t.zas = s.zas ∧ t.tw = s.tw ∧ t.al = s.al := by
  unfold execChannelReset
  split
  · exact ⟨_, rfl, by simp [Taken.finish]⟩
  · exact ⟨_, rfl, by simp⟩

theorem execLinkRead_frame (ch : Chan) (s : State) :
    ∃ t, execLinkRead ch s = .next t ∧
      t.resetHeld = s.resetHeld ∧ t.pending = s.pending ∧ t.ci.softReset = s.ci.softReset ∧ t.stc = s.stc ∧
      t.ftc = s.ftc ∧ t.lm = s.lm ∧ t.zas = s.zas ∧ t.tw = s.tw ∧ t.al = s.al := by
  unfold execLinkRead
  split
  · exact ⟨_, rfl, by simp [Taken.finish]⟩
  · exact ⟨_, rfl, by simp⟩

theorem execZoneRead_frame (ch : Chan) (s : State) :
    ∃ t, execZoneRead ch s = .next t ∧
      t.resetHeld = s.resetHeld ∧ t.pending = s.pending ∧ t.ci.softReset = s.ci.softReset ∧ t.stc = s.stc ∧
      t.ftc = s.ftc ∧ t.lm = s.lm ∧ t.zas = s.zas ∧ t.tw = s.tw ∧ t.al = s.al := by
  unfold execZoneRead
  split
  · exact ⟨_, rfl, by simp [Taken.finish]⟩
  · exact ⟨_, rfl, by simp⟩

theorem execAgreementFind_frame (ch : Chan) (s : State) :
    ∃ t, execAgreementFind ch s = .next t ∧
      t.resetHeld = s.resetHeld ∧ t.pending = s.pending ∧ t.ci.softReset = s.ci.softReset ∧ t.stc = s.stc ∧
      t.ftc = s.ftc ∧ t.lm = s.lm ∧ t.zas = s.zas ∧ t.tw = s.tw ∧ t.al = s.al := by
  unfold execAgreementFind
  split
  · exact ⟨_, rfl, by simp [Taken.finish]⟩
  · exact ⟨_, rfl, by simp⟩

theorem execTariffRead_frame (ch : Chan) (s : State) :
    ∃ t, execTariffRead ch s = .next t ∧
      t.resetHeld = s.resetHeld ∧ t.pending = s.pending ∧ t.ci.softReset = s.ci.softReset ∧ t.stc = s.stc ∧
      t.ftc = s.ftc ∧ t.lm = s.lm ∧ t.zas = s.zas ∧ t.tw = s.tw ∧ t.al = s.al := by
  unfold execTariffRead
  split
  · exact ⟨_, rfl, by simp [Taken.finish]⟩
  · exact ⟨_, rfl, by simp⟩

theorem execWalkStatus_frame (ch : Chan) (s : State) :
    ∃ t, execWalkStatus ch s = .next t ∧
      t.resetHeld = s.resetHeld ∧ t.pending = s.pending ∧ t.ci.softReset = s.ci.softReset ∧ t.stc = s.stc ∧
      t.ftc = s.ftc ∧ t.lm = s.lm ∧ t.zas = s.zas ∧ t.tw = s.tw ∧ t.al = s.al := by
  unfold execWalkStatus
  split
  · exact ⟨_, rfl, by simp [Taken.finish]⟩
  · exact ⟨_, rfl, by simp⟩

theorem execDeviceStatus_frame (ch : Chan) (s : State) :
    ∃ t, execDeviceStatus ch s = .next t ∧
      t.resetHeld = s.resetHeld ∧ t.pending = s.pending ∧ t.ci.softReset = s.ci.softReset ∧ t.stc = s.stc ∧
      t.ftc = s.ftc ∧ t.lm = s.lm ∧ t.zas = s.zas ∧ t.tw = s.tw ∧ t.al = s.al := by
  unfold execDeviceStatus
  split
  · exact ⟨_, rfl, by simp [Taken.finish]⟩
  · exact ⟨_, rfl, by simp⟩

theorem execChannelStatus_frame (ch : Chan) (s : State) :
    ∃ t, execChannelStatus ch s = .next t ∧
      t.resetHeld = s.resetHeld ∧ t.pending = s.pending ∧ t.ci.softReset = s.ci.softReset ∧ t.stc = s.stc ∧
      t.ftc = s.ftc ∧ t.lm = s.lm ∧ t.zas = s.zas ∧ t.tw = s.tw ∧ t.al = s.al := by
  unfold execChannelStatus
  split
  · exact ⟨_, rfl, by simp [Taken.finish]⟩
  · exact ⟨_, rfl, by simp⟩

theorem execDispatch_frame (ch : Chan) (s : State) :
    ∃ t, execDispatch ch s = .next t ∧
      t.resetHeld = s.resetHeld ∧ t.pending = s.pending ∧ t.ci.softReset = s.ci.softReset ∧ t.stc = s.stc ∧
      t.ftc = s.ftc ∧ t.lm = s.lm ∧ t.zas = s.zas ∧ t.tw = s.tw ∧ t.al = s.al := by
  unfold execDispatch
  split
  · exact ⟨_, rfl, by simp⟩
  · exact ⟨_, rfl, by simp⟩

theorem execSoftReset_frame (ch : Chan) (s : State) :
    ∃ t, execSoftReset ch s = .next t ∧
      t.resetHeld = s.resetHeld ∧ t.pending = s.pending ∧ t.ci.channels = s.ci.channels ∧ t.stc = s.stc ∧
      t.ftc = s.ftc ∧ t.lm = s.lm ∧ t.zas = s.zas ∧ t.tw = s.tw ∧ t.al = s.al := by
  unfold execSoftReset
  split
  · exact ⟨_, rfl, by simp⟩
  · exact ⟨_, rfl, by simp⟩

theorem execDrainedNotice_frame (l : LinkId) (s : State) :
    ∃ t, execDrainedNotice l s = .next t ∧
      t.resetHeld = s.resetHeld ∧ t.pending = s.pending ∧ t.ci = s.ci ∧ t.stc = s.stc ∧ t.ftc = s.ftc ∧
      t.lm.autoDue = s.lm.autoDue ∧ t.zas = s.zas ∧ t.tw = s.tw ∧ t.al.overrunBitmap = s.al.overrunBitmap ∧
      t.al.ready = s.al.ready ∧ t.al.count = s.al.count ∧ t.al.ageInterval = s.al.ageInterval ∧
      t.al.ageDeadline = s.al.ageDeadline ∧ t.al.interruptEnable = s.al.interruptEnable := by
  unfold execDrainedNotice
  split
  · exact ⟨_, rfl, by simp⟩
  · exact ⟨_, rfl, by simp⟩

theorem execStaleExpiry_frame (l : LinkId) (s : State) :
    ∃ t, execStaleExpiry l s = .next t ∧
      t.resetHeld = s.resetHeld ∧ t.pending = s.pending ∧ t.ci = s.ci ∧ t.stc = s.stc ∧ t.ftc = s.ftc ∧
      t.lm.drained = s.lm.drained ∧ t.lm.autoDue = s.lm.autoDue ∧ t.zas = s.zas ∧ t.tw.walk = s.tw.walk ∧
      t.tw.currentMark = s.tw.currentMark ∧ t.tw.previousMark = s.tw.previousMark ∧
      t.tw.thirdMark = s.tw.thirdMark ∧ t.tw.ageSummary = s.tw.ageSummary ∧ t.tw.zoneSummary = s.tw.zoneSummary ∧
      t.tw.recheckSummary = s.tw.recheckSummary ∧ t.al.overrunBitmap = s.al.overrunBitmap ∧
      t.al.ready = s.al.ready ∧ t.al.count = s.al.count ∧ t.al.ageInterval = s.al.ageInterval ∧
      t.al.ageDeadline = s.al.ageDeadline ∧ t.al.interruptEnable = s.al.interruptEnable := by
  unfold execStaleExpiry
  split
  · exact ⟨_, rfl, by simp⟩
  · exact ⟨_, rfl, by simp⟩

theorem execAutoSnapshot_frame (l : LinkId) (s : State) :
    ∃ t, execAutoSnapshot l s = .next t ∧
      t.resetHeld = s.resetHeld ∧ t.pending = s.pending ∧ t.ci = s.ci ∧ t.stc = s.stc ∧ t.ftc = s.ftc ∧
      t.lm.drained = s.lm.drained ∧ t.zas = s.zas ∧ t.tw = s.tw ∧ t.al = s.al := by
  unfold execAutoSnapshot
  split
  · exact ⟨_, rfl, by simp⟩
  · exact ⟨_, rfl, by simp⟩

theorem execInitializationComplete_frame (s : State) :
    ∃ t, execInitializationComplete s = .next t ∧
      t.resetHeld = s.resetHeld ∧ t.pending = s.pending ∧ t.ci = s.ci ∧ t.stc = s.stc ∧ t.ftc = s.ftc ∧
      t.lm = s.lm ∧ t.zas = s.zas ∧ t.tw = s.tw ∧ t.al.overrunBitmap = s.al.overrunBitmap ∧
      t.al.count = s.al.count ∧ t.al.ageInterval = s.al.ageInterval ∧ t.al.ageDeadline = s.al.ageDeadline ∧
      t.al.interruptEnable = s.al.interruptEnable := by
  unfold execInitializationComplete
  split
  · exact ⟨_, rfl, by simp⟩
  · exact ⟨_, rfl, by simp⟩

theorem execResetNRelease_frame (s : State) :
    ∃ t, execResetNRelease s = .next t ∧
      t.pending = s.pending ∧ t.ci = s.ci ∧ t.stc = s.stc ∧ t.ftc = s.ftc ∧ t.lm = s.lm ∧ t.zas = s.zas ∧
      t.tw = s.tw ∧ t.al = s.al := by
  exact ⟨_, rfl, by simp [State.releaseReset]⟩

theorem execShipSecondAdvance_frame (s : State) :
    ∃ t, execShipSecondAdvance s = .next t ∧
      t.resetHeld = s.resetHeld ∧ t.pending = s.pending ∧ t.ci = s.ci ∧ t.stc = s.stc ∧ t.ftc = s.ftc ∧
      t.lm.links = s.lm.links ∧ t.lm.drained = s.lm.drained ∧ t.zas = s.zas ∧ t.tw = s.tw ∧
      t.al.list = s.al.list ∧ t.al.overrunBitmap = s.al.overrunBitmap ∧ t.al.ready = s.al.ready ∧
      t.al.ageInterval = s.al.ageInterval ∧ t.al.ageDeadline = s.al.ageDeadline ∧
      t.al.interruptEnable = s.al.interruptEnable := by
  unfold execShipSecondAdvance
  split
  · exact ⟨_, rfl, by simp⟩
  · exact ⟨_, rfl, by simp⟩

theorem execGrantDeadlineExpiry_frame (s : State) :
    ∃ t, execGrantDeadlineExpiry s = .next t ∧
      t.resetHeld = s.resetHeld ∧ t.pending = s.pending ∧ t.ci = s.ci ∧ t.stc.unwind = s.stc.unwind ∧
      t.stc.closedCount = s.stc.closedCount ∧ t.stc.lastGranted = s.stc.lastGranted ∧ t.ftc = s.ftc ∧
      t.lm = s.lm ∧ t.zas = s.zas ∧ t.tw = s.tw ∧ t.al.overrunBitmap = s.al.overrunBitmap ∧
      t.al.ready = s.al.ready ∧ t.al.count = s.al.count ∧ t.al.ageInterval = s.al.ageInterval ∧
      t.al.ageDeadline = s.al.ageDeadline ∧ t.al.interruptEnable = s.al.interruptEnable := by
  unfold execGrantDeadlineExpiry
  split
  · exact ⟨_, rfl, by simp⟩
  · exact ⟨_, rfl, by simp⟩

theorem execAgeExpiry_frame (s : State) :
    ∃ t, execAgeExpiry s = .next t ∧
      t.resetHeld = s.resetHeld ∧ t.pending = s.pending ∧ t.ci = s.ci ∧ t.stc = s.stc ∧ t.ftc = s.ftc ∧
      t.lm = s.lm ∧ t.zas = s.zas ∧ t.tw.walk = s.tw.walk ∧ t.tw.currentMark = s.tw.currentMark ∧
      t.tw.previousMark = s.tw.previousMark ∧ t.tw.thirdMark = s.tw.thirdMark ∧
      t.tw.ageSummary = s.tw.ageSummary ∧ t.tw.zoneSummary = s.tw.zoneSummary ∧
      t.tw.recheckSummary = s.tw.recheckSummary ∧ t.al.list = s.al.list ∧
      t.al.overrunBitmap = s.al.overrunBitmap ∧ t.al.ready = s.al.ready ∧ t.al.count = s.al.count ∧
      t.al.ageInterval = s.al.ageInterval ∧ t.al.interruptEnable = s.al.interruptEnable := by
  unfold execAgeExpiry
  split
  · exact ⟨_, rfl, by simp⟩
  · exact ⟨_, rfl, by simp⟩

theorem execWalkStart_frame (s : State) :
    ∃ t, execWalkStart s = .next t ∧
      t.resetHeld = s.resetHeld ∧ t.pending = s.pending ∧ t.ci = s.ci ∧ t.stc = s.stc ∧ t.ftc = s.ftc ∧
      t.lm.drained = s.lm.drained ∧ t.lm.autoDue = s.lm.autoDue ∧ t.zas = s.zas ∧
      t.tw.ageSummary = s.tw.ageSummary ∧ t.tw.zoneSummary = s.tw.zoneSummary ∧
      t.tw.recheckSummary = s.tw.recheckSummary ∧ t.al.overrunBitmap = s.al.overrunBitmap ∧
      t.al.ready = s.al.ready ∧ t.al.count = s.al.count ∧ t.al.ageInterval = s.al.ageInterval ∧
      t.al.ageDeadline = s.al.ageDeadline ∧ t.al.interruptEnable = s.al.interruptEnable := by
  unfold execWalkStart
  split
  · exact ⟨_, rfl, by simp⟩
  · exact ⟨_, rfl, by simp⟩

theorem execAgePass1Visit_frame (s : State) :
    ∃ t, execAgePass1Visit s = .next t ∧
      t.resetHeld = s.resetHeld ∧ t.pending = s.pending ∧ t.ci = s.ci ∧ t.stc.closedCount = s.stc.closedCount ∧
      t.stc.lastGranted = s.stc.lastGranted ∧ t.ftc = s.ftc ∧ t.lm = s.lm ∧ t.zas = s.zas ∧
      t.tw.queue = s.tw.queue ∧ t.tw.currentMark = s.tw.currentMark ∧ t.tw.previousMark = s.tw.previousMark ∧
      t.tw.thirdMark = s.tw.thirdMark ∧ t.tw.ageSummary = s.tw.ageSummary ∧ t.tw.zoneSummary = s.tw.zoneSummary ∧
      t.tw.recheckSummary = s.tw.recheckSummary ∧ t.al = s.al := by
  unfold execAgePass1Visit
  split
  · exact ⟨_, rfl, by simp⟩
  · exact ⟨_, rfl, by simp⟩

theorem execAgePass2Visit_frame (s : State) :
    ∃ t, execAgePass2Visit s = .next t ∧
      t.resetHeld = s.resetHeld ∧ t.pending = s.pending ∧ t.ci = s.ci ∧ t.stc.unwind = s.stc.unwind ∧
      t.stc.deadlines = s.stc.deadlines ∧ t.stc.closedCount = s.stc.closedCount ∧
      t.stc.lastGranted = s.stc.lastGranted ∧ t.ftc.plru = s.ftc.plru ∧ t.ftc.lastGranted = s.ftc.lastGranted ∧
      t.lm.links = s.lm.links ∧ t.lm.autoDue = s.lm.autoDue ∧ t.zas = s.zas ∧ t.tw.queue = s.tw.queue ∧
      t.tw.currentMark = s.tw.currentMark ∧ t.tw.previousMark = s.tw.previousMark ∧
      t.tw.thirdMark = s.tw.thirdMark ∧ t.tw.ageSummary = s.tw.ageSummary ∧ t.tw.zoneSummary = s.tw.zoneSummary ∧
      t.tw.recheckSummary = s.tw.recheckSummary ∧ t.al = s.al := by
  unfold execAgePass2Visit
  split
  · exact ⟨_, rfl, by simp⟩
  · exact ⟨_, rfl, by simp⟩

theorem execAgeWalkEnd_frame (s : State) :
    ∃ t, execAgeWalkEnd s = .next t ∧
      t.resetHeld = s.resetHeld ∧ t.pending = s.pending ∧ t.ci = s.ci ∧ t.stc = s.stc ∧ t.ftc = s.ftc ∧
      t.lm = s.lm ∧ t.zas = s.zas ∧ t.tw.queue = s.tw.queue ∧ t.tw.currentMark = s.tw.currentMark ∧
      t.tw.previousMark = s.tw.previousMark ∧ t.tw.thirdMark = s.tw.thirdMark ∧
      t.tw.zoneSummary = s.tw.zoneSummary ∧ t.tw.recheckSummary = s.tw.recheckSummary ∧
      t.al.overrunBitmap = s.al.overrunBitmap ∧ t.al.ready = s.al.ready ∧ t.al.count = s.al.count ∧
      t.al.ageInterval = s.al.ageInterval ∧ t.al.ageDeadline = s.al.ageDeadline ∧
      t.al.interruptEnable = s.al.interruptEnable := by
  unfold execAgeWalkEnd
  repeat' split
  all_goals exact ⟨_, rfl, by simp⟩

theorem execZoneVisit_frame (s : State) :
    ∃ t, execZoneVisit s = .next t ∧
      t.resetHeld = s.resetHeld ∧ t.pending = s.pending ∧ t.ci = s.ci ∧ t.stc.unwind = s.stc.unwind ∧
      t.stc.lastGranted = s.stc.lastGranted ∧ t.ftc = s.ftc ∧ t.lm = s.lm ∧ t.zas = s.zas ∧
      t.tw.queue = s.tw.queue ∧ t.tw.currentMark = s.tw.currentMark ∧ t.tw.previousMark = s.tw.previousMark ∧
      t.tw.thirdMark = s.tw.thirdMark ∧ t.tw.ageSummary = s.tw.ageSummary ∧ t.tw.zoneSummary = s.tw.zoneSummary ∧
      t.tw.recheckSummary = s.tw.recheckSummary ∧ t.al.overrunBitmap = s.al.overrunBitmap ∧
      t.al.ready = s.al.ready ∧ t.al.count = s.al.count ∧ t.al.ageInterval = s.al.ageInterval ∧
      t.al.ageDeadline = s.al.ageDeadline ∧ t.al.interruptEnable = s.al.interruptEnable := by
  unfold execZoneVisit
  split
  · exact ⟨_, rfl, by simp⟩
  · exact ⟨_, rfl, by simp⟩

theorem execZoneWalkEnd_frame (s : State) :
    ∃ t, execZoneWalkEnd s = .next t ∧
      t.resetHeld = s.resetHeld ∧ t.pending = s.pending ∧ t.ci = s.ci ∧ t.stc = s.stc ∧ t.ftc = s.ftc ∧
      t.lm = s.lm ∧ t.zas = s.zas ∧ t.tw.queue = s.tw.queue ∧ t.tw.currentMark = s.tw.currentMark ∧
      t.tw.previousMark = s.tw.previousMark ∧ t.tw.thirdMark = s.tw.thirdMark ∧
      t.tw.ageSummary = s.tw.ageSummary ∧ t.tw.recheckSummary = s.tw.recheckSummary ∧
      t.al.overrunBitmap = s.al.overrunBitmap ∧ t.al.ready = s.al.ready ∧ t.al.count = s.al.count ∧
      t.al.ageInterval = s.al.ageInterval ∧ t.al.ageDeadline = s.al.ageDeadline ∧
      t.al.interruptEnable = s.al.interruptEnable := by
  unfold execZoneWalkEnd
  repeat' split
  all_goals exact ⟨_, rfl, by simp⟩

theorem execRecheckVisit_frame (s : State) :
    ∃ t, execRecheckVisit s = .next t ∧
      t.resetHeld = s.resetHeld ∧ t.pending = s.pending ∧ t.ci = s.ci ∧ t.stc.unwind = s.stc.unwind ∧
      t.stc.lastGranted = s.stc.lastGranted ∧ t.ftc = s.ftc ∧ t.lm = s.lm ∧ t.zas = s.zas ∧
      t.tw.queue = s.tw.queue ∧ t.tw.currentMark = s.tw.currentMark ∧ t.tw.previousMark = s.tw.previousMark ∧
      t.tw.thirdMark = s.tw.thirdMark ∧ t.tw.ageSummary = s.tw.ageSummary ∧ t.tw.zoneSummary = s.tw.zoneSummary ∧
      t.tw.recheckSummary = s.tw.recheckSummary ∧ t.al.overrunBitmap = s.al.overrunBitmap ∧
      t.al.ready = s.al.ready ∧ t.al.count = s.al.count ∧ t.al.ageInterval = s.al.ageInterval ∧
      t.al.ageDeadline = s.al.ageDeadline ∧ t.al.interruptEnable = s.al.interruptEnable := by
  unfold execRecheckVisit
  split
  · exact ⟨_, rfl, by simp⟩
  · exact ⟨_, rfl, by simp⟩

theorem execRecheckWalkEnd_frame (s : State) :
    ∃ t, execRecheckWalkEnd s = .next t ∧
      t.resetHeld = s.resetHeld ∧ t.pending = s.pending ∧ t.ci = s.ci ∧ t.stc = s.stc ∧ t.ftc = s.ftc ∧
      t.lm = s.lm ∧ t.zas = s.zas ∧ t.tw.queue = s.tw.queue ∧ t.tw.currentMark = s.tw.currentMark ∧
      t.tw.previousMark = s.tw.previousMark ∧ t.tw.thirdMark = s.tw.thirdMark ∧
      t.tw.ageSummary = s.tw.ageSummary ∧ t.tw.zoneSummary = s.tw.zoneSummary ∧
      t.al.overrunBitmap = s.al.overrunBitmap ∧ t.al.ready = s.al.ready ∧ t.al.count = s.al.count ∧
      t.al.ageInterval = s.al.ageInterval ∧ t.al.ageDeadline = s.al.ageDeadline ∧
      t.al.interruptEnable = s.al.interruptEnable := by
  unfold execRecheckWalkEnd
  repeat' split
  all_goals exact ⟨_, rfl, by simp⟩

theorem execRepinVisit_frame (s : State) :
    ∃ t, execRepinVisit s = .next t ∧
      t.resetHeld = s.resetHeld ∧ t.pending = s.pending ∧ t.ci = s.ci ∧ t.stc = s.stc ∧ t.ftc.plru = s.ftc.plru ∧
      t.ftc.lastGranted = s.ftc.lastGranted ∧ t.lm.links = s.lm.links ∧ t.lm.autoDue = s.lm.autoDue ∧
      t.zas = s.zas ∧ t.tw.queue = s.tw.queue ∧ t.tw.currentMark = s.tw.currentMark ∧
      t.tw.previousMark = s.tw.previousMark ∧ t.tw.thirdMark = s.tw.thirdMark ∧
      t.tw.ageSummary = s.tw.ageSummary ∧ t.tw.zoneSummary = s.tw.zoneSummary ∧
      t.tw.recheckSummary = s.tw.recheckSummary ∧ t.al = s.al := by
  unfold execRepinVisit
  split
  · exact ⟨_, rfl, by simp⟩
  · exact ⟨_, rfl, by simp⟩

theorem execRepinWalkEnd_frame (s : State) :
    ∃ t, execRepinWalkEnd s = .next t ∧
      t.resetHeld = s.resetHeld ∧ t.pending = s.pending ∧ t.ci = s.ci ∧ t.stc = s.stc ∧ t.ftc = s.ftc ∧
      t.lm.drained = s.lm.drained ∧ t.lm.autoDue = s.lm.autoDue ∧ t.zas = s.zas ∧ t.tw.queue = s.tw.queue ∧
      t.tw.currentMark = s.tw.currentMark ∧ t.tw.previousMark = s.tw.previousMark ∧
      t.tw.thirdMark = s.tw.thirdMark ∧ t.tw.ageSummary = s.tw.ageSummary ∧ t.tw.zoneSummary = s.tw.zoneSummary ∧
      t.tw.recheckSummary = s.tw.recheckSummary ∧ t.al.overrunBitmap = s.al.overrunBitmap ∧
      t.al.ready = s.al.ready ∧ t.al.count = s.al.count ∧ t.al.ageInterval = s.al.ageInterval ∧
      t.al.ageDeadline = s.al.ageDeadline ∧ t.al.interruptEnable = s.al.interruptEnable := by
  unfold execRepinWalkEnd
  repeat' split
  all_goals exact ⟨_, rfl, by simp⟩

theorem execUnwindStep_frame (s : State) :
    ∃ t, execUnwindStep s = .next t ∧
      t.resetHeld = s.resetHeld ∧ t.pending = s.pending ∧ t.ci = s.ci ∧ t.stc.unwind = s.stc.unwind ∧
      t.stc.deadlines = s.stc.deadlines ∧ t.stc.closedCount = s.stc.closedCount ∧
      t.stc.lastGranted = s.stc.lastGranted ∧ t.ftc.plru = s.ftc.plru ∧ t.ftc.lastGranted = s.ftc.lastGranted ∧
      t.lm.links = s.lm.links ∧ t.lm.autoDue = s.lm.autoDue ∧ t.zas = s.zas ∧ t.tw = s.tw ∧ t.al = s.al := by
  unfold execUnwindStep
  split
  · exact ⟨_, rfl, by simp⟩
  · exact ⟨_, rfl, by simp⟩

theorem execEndOfUnwinding_frame (s : State) :
    ∃ t, execEndOfUnwinding s = .next t ∧
      t.resetHeld = s.resetHeld ∧ t.pending = s.pending ∧ t.ci = s.ci ∧ t.stc.deadlines = s.stc.deadlines ∧
      t.stc.closedCount = s.stc.closedCount ∧ t.stc.lastGranted = s.stc.lastGranted ∧ t.ftc = s.ftc ∧
      t.lm = s.lm ∧ t.zas = s.zas ∧ t.tw = s.tw ∧ t.al.overrunBitmap = s.al.overrunBitmap ∧
      t.al.ready = s.al.ready ∧ t.al.count = s.al.count ∧ t.al.ageInterval = s.al.ageInterval ∧
      t.al.ageDeadline = s.al.ageDeadline ∧ t.al.interruptEnable = s.al.interruptEnable := by
  unfold execEndOfUnwinding
  split
  · exact ⟨_, rfl, by simp⟩
  · exact ⟨_, rfl, by simp⟩

theorem execStagingWrite_frame (x : List Host.Cell) (s : State) :
    ∃ t, execStagingWrite x s = .next t ∧
      t.resetHeld = s.resetHeld ∧ t.pending = s.pending ∧ t.ci.softReset = s.ci.softReset ∧ t.stc = s.stc ∧
      t.ftc = s.ftc ∧ t.lm = s.lm ∧ t.zas = s.zas ∧ t.tw = s.tw ∧ t.al = s.al := by
  unfold execStagingWrite
  split
  · exact ⟨_, rfl, by simp⟩
  · exact ⟨_, rfl, by simp⟩

theorem execResponseRelease_frame (x : List Host.Cell) (s : State) :
    ∃ t, execResponseRelease x s = .next t ∧
      t.resetHeld = s.resetHeld ∧ t.pending = s.pending ∧ t.ci.softReset = s.ci.softReset ∧ t.stc = s.stc ∧
      t.ftc = s.ftc ∧ t.lm = s.lm ∧ t.zas = s.zas ∧ t.tw = s.tw ∧ t.al = s.al := by
  unfold execResponseRelease
  split
  · exact ⟨_, rfl, by simp⟩
  · exact ⟨_, rfl, by simp⟩

theorem execIgnoredWrite_frame (x : List Host.Cell) (s : State) :
    ∃ t, execIgnoredWrite x s = .next t ∧
      t.resetHeld = s.resetHeld ∧ t.pending = s.pending ∧ t.ci.softReset = s.ci.softReset ∧ t.stc = s.stc ∧
      t.ftc = s.ftc ∧ t.lm = s.lm ∧ t.zas = s.zas ∧ t.tw = s.tw ∧ t.al = s.al := by
  unfold execIgnoredWrite
  split
  · exact ⟨_, rfl, by simp⟩
  · exact ⟨_, rfl, by simp⟩

theorem execRequestSubmit_frame (x : List Host.Cell) (s : State) :
    ∃ t, execRequestSubmit x s = .next t ∧
      t.resetHeld = s.resetHeld ∧ t.pending = s.pending ∧ t.ci.softReset = s.ci.softReset ∧ t.stc = s.stc ∧
      t.ftc = s.ftc ∧ t.lm = s.lm ∧ t.zas = s.zas ∧ t.tw = s.tw ∧ t.al.ready = s.al.ready ∧
      t.al.count = s.al.count ∧ t.al.ageInterval = s.al.ageInterval ∧ t.al.ageDeadline = s.al.ageDeadline ∧
      t.al.interruptEnable = s.al.interruptEnable := by
  unfold execRequestSubmit
  split
  · exact ⟨_, rfl, by simp⟩
  · exact ⟨_, rfl, by simp⟩

@[simp] theorem beginClearing_frame (s : State) (ch : Chan) (b : Bool) :
    (s.beginClearing ch b).resetHeld = s.resetHeld ∧ (s.beginClearing ch b).pending = s.pending ∧
    (s.beginClearing ch b).lm.links = s.lm.links ∧ (s.beginClearing ch b).zas = s.zas ∧
    (s.beginClearing ch b).tw.ageSummary = s.tw.ageSummary ∧
    (s.beginClearing ch b).tw.zoneSummary = s.tw.zoneSummary ∧
    (s.beginClearing ch b).tw.recheckSummary = s.tw.recheckSummary ∧
    (s.beginClearing ch b).al.ready = s.al.ready ∧ (s.beginClearing ch b).al.count = s.al.count ∧
    (s.beginClearing ch b).al.ageInterval = s.al.ageInterval ∧
    (s.beginClearing ch b).al.ageDeadline = s.al.ageDeadline ∧
    (s.beginClearing ch b).al.interruptEnable = s.al.interruptEnable := by
  simp only [State.beginClearing]
  split <;> simp [State.clearTables, Lm.cleared, Tw.cleared]

@[simp] theorem resume_frame (s : State) :
    s.resume.resetHeld = s.resetHeld ∧ s.resume.pending = s.pending ∧ s.resume.ci.channels = s.ci.channels ∧
    s.resume.stc = s.stc ∧ s.resume.ftc = s.ftc ∧ s.resume.lm.drained = s.lm.drained ∧
    s.resume.lm.autoDue = s.lm.autoDue ∧ s.resume.zas = s.zas ∧ s.resume.tw = s.tw ∧
    s.resume.al.list = s.al.list ∧ s.resume.al.overrunBitmap = s.al.overrunBitmap ∧
    s.resume.al.ready = s.al.ready ∧ s.resume.al.count = s.al.count ∧
    s.resume.al.ageInterval = s.al.ageInterval ∧ s.resume.al.interruptEnable = s.al.interruptEnable := by
  simp [State.resume, Al.afterClearing]

@[simp] theorem endClearing_frame (s : State) (ch : Chan) (b : Bool) :
    (s.endClearing ch b).resetHeld = s.resetHeld ∧ (s.endClearing ch b).pending = s.pending ∧
    (s.endClearing ch b).stc = s.stc ∧ (s.endClearing ch b).ftc = s.ftc ∧
    (s.endClearing ch b).lm.drained = s.lm.drained ∧ (s.endClearing ch b).lm.autoDue = s.lm.autoDue ∧
    (s.endClearing ch b).zas = s.zas ∧ (s.endClearing ch b).tw = s.tw ∧
    (s.endClearing ch b).al.ready = s.al.ready ∧ (s.endClearing ch b).al.count = s.al.count ∧
    (s.endClearing ch b).al.ageInterval = s.al.ageInterval ∧
    (s.endClearing ch b).al.interruptEnable = s.al.interruptEnable := by
  simp only [State.endClearing]
  split <;> simp

theorem execSoftResetClearing_frame (b : Bool) (s : State) :
    ∃ t, execSoftResetClearing b s = .next t ∧
      t.resetHeld = s.resetHeld ∧ t.pending = s.pending ∧ t.lm.links = s.lm.links ∧ t.zas = s.zas ∧
      t.tw.ageSummary = s.tw.ageSummary ∧ t.tw.zoneSummary = s.tw.zoneSummary ∧
      t.tw.recheckSummary = s.tw.recheckSummary ∧ t.al.ready = s.al.ready ∧ t.al.count = s.al.count ∧
      t.al.ageInterval = s.al.ageInterval ∧ t.al.ageDeadline = s.al.ageDeadline ∧
      t.al.interruptEnable = s.al.interruptEnable := by
  unfold execSoftResetClearing
  split
  · exact ⟨_, rfl, by simp⟩
  · exact ⟨_, rfl, by simp⟩

theorem execSoftResetComplete_frame (s : State) :
    ∃ t, execSoftResetComplete s = .next t ∧
      t.resetHeld = s.resetHeld ∧ t.pending = s.pending ∧ t.stc = s.stc ∧ t.ftc = s.ftc ∧
      t.lm.drained = s.lm.drained ∧ t.lm.autoDue = s.lm.autoDue ∧ t.zas = s.zas ∧ t.tw = s.tw ∧
      t.al.ready = s.al.ready ∧ t.al.count = s.al.count ∧ t.al.ageInterval = s.al.ageInterval ∧
      t.al.interruptEnable = s.al.interruptEnable := by
  unfold execSoftResetComplete
  split
  · exact ⟨_, rfl, by simp⟩
  · exact ⟨_, rfl, by simp⟩
  · exact ⟨_, rfl, by simp⟩

/-- The part never stops: every command answers a next state (R161 to R163). -/
theorem exec_next (c : Instr) (s : State) : ∃ t, exec c s = .next t := by
  cases c <;> exact ⟨_, rfl⟩

/-- No command changes the commands that still wait. -/
theorem exec_pending (c : Instr) (s t : State) (h : exec c s = .next t) : t.pending = s.pending := by
  cases c with
  | powerOnReset =>
    cases h
    rfl
  | attach ch =>
    obtain ⟨u, hu, hf⟩ := execAttach_frame ch s
    cases hu.symm.trans h
    simp [hf]
  | detach ch =>
    obtain ⟨u, hu, hf⟩ := execDetach_frame ch s
    cases hu.symm.trans h
    simp [hf]
  | subFind ch =>
    obtain ⟨u, hu, hf⟩ := execSubFind_frame ch s
    cases hu.symm.trans h
    simp [hf]
  | subUpdate ch =>
    obtain ⟨u, hu, hf⟩ := execSubUpdate_frame ch s
    cases hu.symm.trans h
    simp [hf]
  | grant ch =>
    obtain ⟨u, hu, hf⟩ := execGrant_frame ch s
    cases hu.symm.trans h
    simp [hf]
  | settle ch =>
    obtain ⟨u, hu, hf⟩ := execSettle_frame ch s
    cases hu.symm.trans h
    simp [hf]
  | usagePost ch =>
    obtain ⟨u, hu, hf⟩ := execUsagePost_frame ch s
    cases hu.symm.trans h
    simp [hf]
  | subRead ch =>
    obtain ⟨u, hu, hf⟩ := execSubRead_frame ch s
    cases hu.symm.trans h
    simp [hf]
  | flowOpen ch =>
    obtain ⟨u, hu, hf⟩ := execFlowOpen_frame ch s
    cases hu.symm.trans h
    simp [hf]
  | flowClose ch =>
    obtain ⟨u, hu, hf⟩ := execFlowClose_frame ch s
    cases hu.symm.trans h
    simp [hf]
  | flowFind ch =>
    obtain ⟨u, hu, hf⟩ := execFlowFind_frame ch s
    cases hu.symm.trans h
    simp [hf]
  | flowUpdate ch =>
    obtain ⟨u, hu, hf⟩ := execFlowUpdate_frame ch s
    cases hu.symm.trans h
    simp [hf]
  | charge ch =>
    obtain ⟨u, hu, hf⟩ := execCharge_frame ch s
    cases hu.symm.trans h
    simp [hf]
  | flowRead ch =>
    obtain ⟨u, hu, hf⟩ := execFlowRead_frame ch s
    cases hu.symm.trans h
    simp [hf]
  | linkReport ch =>
    obtain ⟨u, hu, hf⟩ := execLinkReport_frame ch s
    cases hu.symm.trans h
    simp [hf]
  | enable ch =>
    obtain ⟨u, hu, hf⟩ := execEnable_frame ch s
    cases hu.symm.trans h
    simp [hf]
  | disable ch =>
    obtain ⟨u, hu, hf⟩ := execDisable_frame ch s
    cases hu.symm.trans h
    simp [hf]
  | drain ch =>
    obtain ⟨u, hu, hf⟩ := execDrain_frame ch s
    cases hu.symm.trans h
    simp [hf]
  | inject ch =>
    obtain ⟨u, hu, hf⟩ := execInject_frame ch s
    cases hu.symm.trans h
    simp [hf]
  | snapshot ch =>
    obtain ⟨u, hu, hf⟩ := execSnapshot_frame ch s
    cases hu.symm.trans h
    simp [hf]
  | linkConfig ch =>
    obtain ⟨u, hu, hf⟩ := execLinkConfig_frame ch s
    cases hu.symm.trans h
    simp [hf]
  | zoneChange ch =>
    obtain ⟨u, hu, hf⟩ := execZoneChange_frame ch s
    cases hu.symm.trans h
    simp [hf]
  | zoneDefine ch =>
    obtain ⟨u, hu, hf⟩ := execZoneDefine_frame ch s
    cases hu.symm.trans h
    simp [hf]
  | agreementSet ch =>
    obtain ⟨u, hu, hf⟩ := execAgreementSet_frame ch s
    cases hu.symm.trans h
    simp [hf]
  | agreementRemove ch =>
    obtain ⟨u, hu, hf⟩ := execAgreementRemove_frame ch s
    cases hu.symm.trans h
    simp [hf]
  | tariffSet ch =>
    obtain ⟨u, hu, hf⟩ := execTariffSet_frame ch s
    cases hu.symm.trans h
    simp [hf]
  | age ch =>
    obtain ⟨u, hu, hf⟩ := execAge_frame ch s
    cases hu.symm.trans h
    simp [hf]
  | walkAbort ch =>
    obtain ⟨u, hu, hf⟩ := execWalkAbort_frame ch s
    cases hu.symm.trans h
    simp [hf]
  | noticeFetch ch =>
    obtain ⟨u, hu, hf⟩ := execNoticeFetch_frame ch s
    cases hu.symm.trans h
    simp [hf]
  | deviceConfig ch =>
    obtain ⟨u, hu, hf⟩ := execDeviceConfig_frame ch s
    cases hu.symm.trans h
    simp [hf]
  | clearFault ch =>
    obtain ⟨u, hu, hf⟩ := execClearFault_frame ch s
    cases hu.symm.trans h
    simp [hf]
  | channelSet ch =>
    obtain ⟨u, hu, hf⟩ := execChannelSet_frame ch s
    cases hu.symm.trans h
    simp [hf]
  | channelReset ch =>
    obtain ⟨u, hu, hf⟩ := execChannelReset_frame ch s
    cases hu.symm.trans h
    simp [hf]
  | linkRead ch =>
    obtain ⟨u, hu, hf⟩ := execLinkRead_frame ch s
    cases hu.symm.trans h
    simp [hf]
  | zoneRead ch =>
    obtain ⟨u, hu, hf⟩ := execZoneRead_frame ch s
    cases hu.symm.trans h
    simp [hf]
  | agreementFind ch =>
    obtain ⟨u, hu, hf⟩ := execAgreementFind_frame ch s
    cases hu.symm.trans h
    simp [hf]
  | tariffRead ch =>
    obtain ⟨u, hu, hf⟩ := execTariffRead_frame ch s
    cases hu.symm.trans h
    simp [hf]
  | walkStatus ch =>
    obtain ⟨u, hu, hf⟩ := execWalkStatus_frame ch s
    cases hu.symm.trans h
    simp [hf]
  | deviceStatus ch =>
    obtain ⟨u, hu, hf⟩ := execDeviceStatus_frame ch s
    cases hu.symm.trans h
    simp [hf]
  | channelStatus ch =>
    obtain ⟨u, hu, hf⟩ := execChannelStatus_frame ch s
    cases hu.symm.trans h
    simp [hf]
  | dispatch ch =>
    obtain ⟨u, hu, hf⟩ := execDispatch_frame ch s
    cases hu.symm.trans h
    simp [hf]
  | softReset ch =>
    obtain ⟨u, hu, hf⟩ := execSoftReset_frame ch s
    cases hu.symm.trans h
    simp [hf]
  | drainedNotice l =>
    obtain ⟨u, hu, hf⟩ := execDrainedNotice_frame l s
    cases hu.symm.trans h
    simp [hf]
  | staleExpiry l =>
    obtain ⟨u, hu, hf⟩ := execStaleExpiry_frame l s
    cases hu.symm.trans h
    simp [hf]
  | autoSnapshot l =>
    obtain ⟨u, hu, hf⟩ := execAutoSnapshot_frame l s
    cases hu.symm.trans h
    simp [hf]
  | initializationComplete =>
    obtain ⟨u, hu, hf⟩ := execInitializationComplete_frame s
    cases hu.symm.trans h
    simp [hf]
  | resetNRelease =>
    obtain ⟨u, hu, hf⟩ := execResetNRelease_frame s
    cases hu.symm.trans h
    simp [hf]
  | shipSecondAdvance =>
    obtain ⟨u, hu, hf⟩ := execShipSecondAdvance_frame s
    cases hu.symm.trans h
    simp [hf]
  | grantDeadlineExpiry =>
    obtain ⟨u, hu, hf⟩ := execGrantDeadlineExpiry_frame s
    cases hu.symm.trans h
    simp [hf]
  | ageExpiry =>
    obtain ⟨u, hu, hf⟩ := execAgeExpiry_frame s
    cases hu.symm.trans h
    simp [hf]
  | walkStart =>
    obtain ⟨u, hu, hf⟩ := execWalkStart_frame s
    cases hu.symm.trans h
    simp [hf]
  | agePass1Visit =>
    obtain ⟨u, hu, hf⟩ := execAgePass1Visit_frame s
    cases hu.symm.trans h
    simp [hf]
  | agePass2Visit =>
    obtain ⟨u, hu, hf⟩ := execAgePass2Visit_frame s
    cases hu.symm.trans h
    simp [hf]
  | ageWalkEnd =>
    obtain ⟨u, hu, hf⟩ := execAgeWalkEnd_frame s
    cases hu.symm.trans h
    simp [hf]
  | zoneVisit =>
    obtain ⟨u, hu, hf⟩ := execZoneVisit_frame s
    cases hu.symm.trans h
    simp [hf]
  | zoneWalkEnd =>
    obtain ⟨u, hu, hf⟩ := execZoneWalkEnd_frame s
    cases hu.symm.trans h
    simp [hf]
  | recheckVisit =>
    obtain ⟨u, hu, hf⟩ := execRecheckVisit_frame s
    cases hu.symm.trans h
    simp [hf]
  | recheckWalkEnd =>
    obtain ⟨u, hu, hf⟩ := execRecheckWalkEnd_frame s
    cases hu.symm.trans h
    simp [hf]
  | repinVisit =>
    obtain ⟨u, hu, hf⟩ := execRepinVisit_frame s
    cases hu.symm.trans h
    simp [hf]
  | repinWalkEnd =>
    obtain ⟨u, hu, hf⟩ := execRepinWalkEnd_frame s
    cases hu.symm.trans h
    simp [hf]
  | unwindStep =>
    obtain ⟨u, hu, hf⟩ := execUnwindStep_frame s
    cases hu.symm.trans h
    simp [hf]
  | endOfUnwinding =>
    obtain ⟨u, hu, hf⟩ := execEndOfUnwinding_frame s
    cases hu.symm.trans h
    simp [hf]
  | stagingWrite x =>
    obtain ⟨u, hu, hf⟩ := execStagingWrite_frame x s
    cases hu.symm.trans h
    simp [hf]
  | responseRelease x =>
    obtain ⟨u, hu, hf⟩ := execResponseRelease_frame x s
    cases hu.symm.trans h
    simp [hf]
  | ignoredWrite x =>
    obtain ⟨u, hu, hf⟩ := execIgnoredWrite_frame x s
    cases hu.symm.trans h
    simp [hf]
  | requestSubmit x =>
    obtain ⟨u, hu, hf⟩ := execRequestSubmit_frame x s
    cases hu.symm.trans h
    simp [hf]
  | softResetClearing b =>
    obtain ⟨u, hu, hf⟩ := execSoftResetClearing_frame b s
    cases hu.symm.trans h
    simp [hf]
  | softResetComplete =>
    obtain ⟨u, hu, hf⟩ := execSoftResetComplete_frame s
    cases hu.symm.trans h
    simp [hf]

end Sys2Proof.Machine
end

