-- ==== Sys2Proof/Laws/Answering.lean ====
section
/-! SUPPORT. Taking a claim and answering it, in the terms that the statements use. -/

namespace Sys2Proof.Machine

theorem State.claim_outstanding {s : State} {o : Owner} {ch : Chan} {r : Request} (h : s.claim o ch = some r) :
    ∃ out, (s.chan ch).outstanding = some out ∧ out.request = r := by
  unfold State.claim State.handed at h
  split at h
  · split at h
    · split at h
      · rename_i out hout _
        exact ⟨out, hout, by simpa using h⟩
      · cases h
    · cases h
  · cases h

theorem State.claim_running {s : State} {o : Owner} {ch : Chan} {r : Request} (h : s.claim o ch = some r) :
    s.running = true := by
  unfold State.claim at h
  split at h
  · rename_i hg
    simp only [Bool.and_eq_true] at hg
    exact hg.1
  · cases h

theorem State.claim_owner {s : State} {o : Owner} {ch : Chan} {r : Request} (h : s.claim o ch = some r) :
    r.owner = o := by
  unfold State.claim State.handed at h
  split at h
  · split at h
    · split at h
      · cases h
        assumption
      · cases h
    · cases h
  · cases h

/-- Completing an outstanding request answers it. -/
theorem State.complete_answers {s : State} {ch : Chan} {o : Outstanding} (r : Reply)
    (h : (s.chan ch).outstanding = some o) : s.Answers ch r (s.complete ch r) := by
  refine ⟨⟨o, h, ?_⟩, ?_, ?_, ?_, ?_⟩
  · simp only [State.complete, setChan_chan, if_true, ChannelRecord.complete, h]
    split <;> simp_all
  · intro c hne
    simp [State.complete, setChan_chan, hne]
  · simp
  · simp
  · simp

/-- The answer is seen from every state with the same CI. -/
theorem State.Answers.of_ci {s u t : State} {ch : Chan} {r : Reply} (h : u.Answers ch r t) (hc : u.ci = s.ci)
    (hr : u.resetHeld = s.resetHeld) (hp : u.pending = s.pending) : s.Answers ch r t := by
  have hchan : ∀ c, u.chan c = s.chan c := fun c => by simp [State.chan, hc]
  obtain ⟨⟨o, ho, h1⟩, h2, h3, h4, h5⟩ := h
  refine ⟨⟨o, by rw [← hchan]; exact ho, by rw [← hchan]; exact h1⟩, fun c hne => by rw [← hchan]; exact h2 c hne, ?_⟩
  exact ⟨by rw [h3, hr], by rw [h4, hc], by rw [h5, hp]⟩

/-- A claim whose changes leave the CI alone completes with its reply. -/
theorem Taken.finish_answers {s : State} {k : Taken} {o : Owner} {ch : Chan} {q : Request}
    (h : s.claim o ch = some q) (hc : k.1.ci = s.ci) (hr : k.1.resetHeld = s.resetHeld)
    (hp : k.1.pending = s.pending) : s.Answers ch k.2 (k.finish ch) := by
  obtain ⟨out, hout, _⟩ := State.claim_outstanding h
  have ho : (k.1.chan ch).outstanding = some out := by simpa [State.chan, hc] using hout
  exact (State.complete_answers k.2 ho).of_ci hc hr hp

/-- A claim that changes nothing but its arbiter answers alone. -/
theorem Taken.finish_onlyAnswers {s : State} {o : Owner} {ch : Chan} {q : Request} (r : Reply)
    (h : s.claim o ch = some q) : s.OnlyAnswers o ch r (Taken.finish (s.grantTo o ch, r) ch) := by
  refine ⟨Taken.finish_answers h ?_ ?_ ?_, ?_⟩
  · cases o <;> rfl
  · cases o <;> rfl
  · cases o <;> rfl
  · simp [Taken.finish, State.SameBlocks]

end Sys2Proof.Machine
end

