-- ==== Sys2Proof/Laws/WalkQueue.lean ====
section
/-! SUPPORT. The walk queue never comes to hold two equal entries (R128). -/

namespace Sys2Proof.Machine

theorem nodup_append_new {α : Type} {l : List α} {x : α} (h : l.Nodup) (hx : x ∉ l) : (l ++ [x]).Nodup := by
  rw [List.nodup_append]
  refine ⟨h, by simp, ?_⟩
  intro a ha b hb hab
  rw [List.mem_singleton.mp hb] at hab
  exact hx (hab ▸ ha)

@[simp] theorem addWalk_keepsQueue (s : State) (e : WalkEntry) (hyp : s.tw.queue.Nodup) :
    (s.addWalk e).tw.queue.Nodup := by
  unfold State.addWalk
  split
  · exact hyp
  · rename_i h
    exact nodup_append_new hyp h

@[simp] theorem abortWalks_keepsQueue (s : State) (x : LinkSelector) (hyp : s.tw.queue.Nodup) :
    (s.abortWalks x).1.tw.queue.Nodup := by
  simp only [State.abortWalks]
  split
  · exact hyp
  · exact hyp.filter _

@[simp] theorem becomeLost_keepsQueue (s : State) (l : LinkId) (hyp : s.tw.queue.Nodup) :
    (s.becomeLost l).tw.queue.Nodup := by
  simp [State.becomeLost, hyp]

@[simp] theorem testWindows_keepsQueue (s : State) (l : LinkId) (hyp : s.tw.queue.Nodup) :
    (s.testWindows l).tw.queue.Nodup := by
  unfold State.testWindows
  split <;> simp [hyp]

@[simp] theorem classify_keepsQueue (s : State) (l : LinkId) (k : ReportClass) (hyp : s.tw.queue.Nodup) :
    (s.classify l k).tw.queue.Nodup := by
  simp only [State.classify]
  split <;> simp [hyp]

@[simp] theorem requestRepin_keepsQueue (s : State) (l : LinkId) (hyp : s.tw.queue.Nodup) :
    (s.requestRepin l).tw.queue.Nodup := by
  unfold State.requestRepin
  split <;> simp [hyp]

@[simp] theorem expireStale_keepsQueue (s : State) (l : LinkId) (hyp : s.tw.queue.Nodup) :
    (s.expireStale l).tw.queue.Nodup := by
  simp [State.expireStale, hyp]

@[simp] theorem advancePolicy_keepsQueue (s : State) (hyp : s.tw.queue.Nodup) :
    s.advancePolicy.tw.queue.Nodup := by
  simp [State.advancePolicy, hyp]

@[simp] theorem advancePolicyIf_keepsQueue (s : State) (b : Bool) (hyp : s.tw.queue.Nodup) :
    (s.advancePolicyIf b).tw.queue.Nodup := by
  unfold State.advancePolicyIf
  split <;> simp [hyp]

@[simp] theorem enterZone_keepsQueue (s : State) (k : ZoneIx) (hyp : s.tw.queue.Nodup) :
    (s.enterZone k).tw.queue.Nodup := by
  simp [State.enterZone, hyp]

@[simp] theorem expireAge_keepsQueue (s : State) (hyp : s.tw.queue.Nodup) :
    s.expireAge.tw.queue.Nodup := by
  simp [State.expireAge, hyp]

@[simp] theorem report_keepsQueue (s : State) (l : LinkId) (q : BitVec 6) (o : BitVec 8) (hyp : s.tw.queue.Nodup) :
    (s.report l q o).1.tw.queue.Nodup := by
  unfold State.report
  split <;> simp [hyp]

@[simp] theorem linkReport_keepsQueue (s : State) (c : BitVec 4) (q o : BitVec 8) (hyp : s.tw.queue.Nodup) :
    (s.linkReport c q o).1.tw.queue.Nodup := by
  unfold State.linkReport
  repeat' split
  all_goals simp [hyp]

@[simp] theorem disableLink_keepsQueue (s : State) (l : LinkId) (hyp : s.tw.queue.Nodup) :
    (s.disableLink l).1.tw.queue.Nodup := by
  unfold State.disableLink
  split <;> simp [hyp]

@[simp] theorem disable_keepsQueue (s : State) (c : BitVec 4) (hyp : s.tw.queue.Nodup) :
    (s.disable c).1.tw.queue.Nodup := by
  simp only [State.disable, State.noLink]
  repeat' split
  all_goals simp [hyp]

@[simp] theorem drainLink_keepsQueue (s : State) (l : LinkId) (hyp : s.tw.queue.Nodup) :
    (s.drainLink l).1.tw.queue.Nodup := by
  unfold State.drainLink
  split <;> simp [hyp]

@[simp] theorem drain_keepsQueue (s : State) (c : BitVec 4) (hyp : s.tw.queue.Nodup) :
    (s.drain c).1.tw.queue.Nodup := by
  simp only [State.drain, State.noLink]
  repeat' split
  all_goals simp [hyp]

@[simp] theorem injectLink_keepsQueue (s : State) (l : LinkId) (hyp : s.tw.queue.Nodup) :
    (s.injectLink l).1.tw.queue.Nodup := by
  unfold State.injectLink
  split <;> simp [hyp]

@[simp] theorem inject_keepsQueue (s : State) (c : BitVec 4) (hyp : s.tw.queue.Nodup) :
    (s.inject c).1.tw.queue.Nodup := by
  simp only [State.inject, State.noLink]
  repeat' split
  all_goals simp [hyp]

@[simp] theorem zoneChange_keepsQueue (s : State) (c : BitVec 8) (f : Bool) (hyp : s.tw.queue.Nodup) :
    (s.zoneChange c f).1.tw.queue.Nodup := by
  simp only [State.zoneChange]
  repeat' split
  all_goals simp [hyp]

@[simp] theorem defineZone_keepsQueue (s : State) (k : ZoneIx) (r : ZoneRecord) (hyp : s.tw.queue.Nodup) :
    (s.defineZone k r).1.tw.queue.Nodup := by
  unfold State.defineZone
  repeat' split
  all_goals simp [hyp]

@[simp] theorem zoneDefine_keepsQueue (s : State) (x : BitVec 8) (y : BitVec 2) (c : BitVec 8) (hyp : s.tw.queue.Nodup) :
    (s.zoneDefine x y c).1.tw.queue.Nodup := by
  unfold State.zoneDefine
  split <;> simp [hyp]

@[simp] theorem writeAgreement_keepsQueue (s : State) (a : Agreement) (l : List Agreement) (b : Bool) (hyp : s.tw.queue.Nodup) :
    (s.writeAgreement a l b).1.tw.queue.Nodup := by
  simp [State.writeAgreement, hyp]

@[simp] theorem setAgreement_keepsQueue (s : State) (a : Agreement) (hyp : s.tw.queue.Nodup) :
    (s.setAgreement a).1.tw.queue.Nodup := by
  unfold State.setAgreement
  repeat' split
  all_goals simp [hyp]

@[simp] theorem agreementSet_keepsQueue (s : State) (o : Operator) (x : BitVec 2) (a b c d : BitVec 8) (hyp : s.tw.queue.Nodup) :
    (s.agreementSet o x a b c d).1.tw.queue.Nodup := by
  unfold State.agreementSet
  split <;> simp [hyp]

@[simp] theorem agreementRemove_keepsQueue (s : State) (o : Operator) (hyp : s.tw.queue.Nodup) :
    (s.agreementRemove o).1.tw.queue.Nodup := by
  unfold State.agreementRemove
  split <;> simp [hyp]

@[simp] theorem writeTariff_keepsQueue (s : State) (i : TariffIx) (x : TariffTerms) (hyp : s.tw.queue.Nodup) :
    (s.writeTariff i x).1.tw.queue.Nodup := by
  simp only [State.writeTariff]
  split <;> simp [hyp]

@[simp] theorem tariffSet_keepsQueue (s : State) (c : BitVec 8) (x : TariffTerms) (hyp : s.tw.queue.Nodup) :
    (s.tariffSet c x).1.tw.queue.Nodup := by
  unfold State.tariffSet
  repeat' split
  all_goals simp [hyp]

@[simp] theorem ageRequest_keepsQueue (s : State) (hyp : s.tw.queue.Nodup) :
    s.ageRequest.1.tw.queue.Nodup := by
  simp [State.ageRequest, hyp]

@[simp] theorem walkAbort_keepsQueue (s : State) (k : WalkKind) (c : BitVec 8) (hyp : s.tw.queue.Nodup) :
    (s.walkAbort k c).1.tw.queue.Nodup := by
  unfold State.walkAbort
  repeat' split
  all_goals simp [hyp]

end Sys2Proof.Machine
end

