-- ==== Sys2Proof/Laws/Attention.lean ====
section
/-! SUPPORT. The attention list holds each record at most once and with some cause (R168), whatever raises, withdraws or
removes causes (R169). -/

namespace Sys2Proof.Machine

theorem Cause.mask_ne_zero (c : Cause) : c.mask ≠ 0 := by
  cases c <;> decide

theorem or_ne_zero_left {a b : Word} (h : a ≠ 0) : a ||| b ≠ 0 := by
  intro hz
  exact h (BitVec.or_eq_zero_iff.mp hz).1

theorem raiseIn_records (l : List AttnEntry) (r : AttnRecord) (c : Cause) :
    (raiseIn l r c).map AttnEntry.record =
      if r ∈ l.map AttnEntry.record then l.map AttnEntry.record else l.map AttnEntry.record ++ [r] := by
  induction l with
  | nil => simp [raiseIn]
  | cons e rest ih =>
    unfold raiseIn
    by_cases he : e.record = r
    · simp [he]
    · have hr : r ≠ e.record := fun h => he h.symm
      simp only [he, if_false, List.map_cons, ih, List.mem_cons, hr, false_or]
      split <;> simp

@[simp] theorem ListExact.raiseIn {l : List AttnEntry} (h : ListExact l) (r : AttnRecord) (c : Cause) :
    ListExact (raiseIn l r c) := by
  obtain ⟨hn, hc⟩ := h
  refine ⟨?_, ?_⟩
  · rw [raiseIn_records]
    split
    · exact hn
    · rename_i hr
      exact nodup_append_new hn hr
  · clear hn
    induction l with
    | nil =>
      intro e he
      rw [List.mem_singleton.mp he]
      exact c.mask_ne_zero
    | cons x rest ih =>
      intro e he
      unfold Machine.raiseIn at he
      split at he
      · rcases List.mem_cons.mp he with he | he
        · rw [he]
          exact or_ne_zero_left (hc x (by simp))
        · exact hc e (by simp [he])
      · rcases List.mem_cons.mp he with he | he
        · exact hc e (by simp [he])
        · exact ih (fun y hy => hc y (by simp [hy])) e he

/-- Withdrawing a cause leaves a sublist of the records. -/
theorem withdrawIn_sublist (l : List AttnEntry) (r : AttnRecord) (c : Cause) :
    ((withdrawIn l r c).map AttnEntry.record).Sublist (l.map AttnEntry.record) := by
  induction l with
  | nil => simp [withdrawIn]
  | cons e rest ih =>
    unfold withdrawIn
    split
    · dsimp only
      split <;> simp
    · simpa using ih

@[simp] theorem ListExact.withdrawIn {l : List AttnEntry} (h : ListExact l) (r : AttnRecord) (c : Cause) :
    ListExact (withdrawIn l r c) := by
  obtain ⟨hn, hc⟩ := h
  refine ⟨(withdrawIn_sublist l r c).nodup hn, ?_⟩
  clear hn
  induction l with
  | nil => simp [Machine.withdrawIn]
  | cons x rest ih =>
    intro e he
    unfold Machine.withdrawIn at he
    split at he
    · dsimp only at he
      split at he
      · exact hc e (by simp [he])
      · rename_i hz
        rcases List.mem_cons.mp he with he | he
        · rw [he]
          exact hz
        · exact hc e (by simp [he])
    · rcases List.mem_cons.mp he with he | he
      · exact hc e (by simp [he])
      · exact ih (fun y hy => hc y (by simp [hy])) e he

@[simp] theorem ListExact.removeIn {l : List AttnEntry} (h : ListExact l) (r : AttnRecord) :
    ListExact (removeIn l r) :=
  ⟨(List.Sublist.map _ List.filter_sublist).nodup h.1, fun e he => h.2 e (List.mem_filter.mp he).1⟩

@[simp] theorem ListExact.nil : ListExact [] := ⟨by simp, by simp⟩

@[simp] theorem emptyList_keepsList (s : State) : ListExact s.emptyList.al.list := ListExact.nil

@[simp] theorem raise_keepsList (s : State) (r : AttnRecord) (c : Cause) (hyp : ListExact s.al.list) :
    ListExact (s.raise r c).al.list := by
  simp [State.raise, hyp]

@[simp] theorem withdraw_keepsList (s : State) (r : AttnRecord) (c : Cause) (hyp : ListExact s.al.list) :
    ListExact (s.withdraw r c).al.list := by
  simp [State.withdraw, hyp]

@[simp] theorem removeEntry_keepsList (s : State) (r : AttnRecord) (hyp : ListExact s.al.list) :
    ListExact (s.removeEntry r).al.list := by
  simp [State.removeEntry, hyp]

@[simp] theorem enterRequested_keepsList (s : State) (i : SubIx) (n : Nat) (hyp : ListExact s.al.list) :
    ListExact (s.enterRequested i n).al.list := by
  simp [State.enterRequested, hyp]

@[simp] theorem lowCredit_keepsList (s : State) (i : SubIx) (hyp : ListExact s.al.list) :
    ListExact (s.lowCredit i).al.list := by
  simp only [State.lowCredit]
  repeat' split
  all_goals simp [hyp]

@[simp] theorem chargeSub_keepsList (s : State) (i : SubIx) (m n : Nat) (hyp : ListExact s.al.list) :
    ListExact (s.chargeSub i m n).al.list := by
  simp only [State.chargeSub]
  split <;> simp [hyp]

@[simp] theorem applyGrantTo_keepsList (s : State) (i : SubIx) (m n : Word) (hyp : ListExact s.al.list) :
    ListExact (s.applyGrantTo i m n).al.list := by
  simp [State.applyGrantTo, hyp]

@[simp] theorem expireGrant_keepsList (s : State) (i : SubIx) (hyp : ListExact s.al.list) :
    ListExact (s.expireGrant i).al.list := by
  simp [State.expireGrant, hyp]

@[simp] theorem raiseRoaming_keepsList (s : State) (i : SubIx) (x y : SubRecord) (hyp : ListExact s.al.list) :
    ListExact (s.raiseRoaming i x y).al.list := by
  unfold State.raiseRoaming
  repeat' split
  all_goals simp [hyp]

@[simp] theorem recheck_keepsList (s : State) (i : SubIx) (hyp : ListExact s.al.list) :
    ListExact (s.recheck i).al.list := by
  simp [State.recheck, hyp]

@[simp] theorem bringUpToDate_keepsList (s : State) (i : SubIx) (hyp : ListExact s.al.list) :
    ListExact (s.bringUpToDate i).al.list := by
  simp [State.bringUpToDate, hyp]

@[simp] theorem holdClose_keepsList (s : State) (i : SubIx) (hyp : ListExact s.al.list) :
    ListExact (s.holdClose i).al.list := by
  simp [State.holdClose, hyp]

@[simp] theorem lazy_keepsList (s : State) (i : SubIx) (hyp : ListExact s.al.list) :
    ListExact (s.lazy i).al.list := by
  unfold State.lazy
  split <;> simp [hyp]

@[simp] theorem touch_keepsList (s : State) (i : SubIx) (hyp : ListExact s.al.list) :
    ListExact (s.touch i).al.list := by
  simp [State.touch, hyp]

@[simp] theorem free_keepsList (s : State) (i : SubIx) (hyp : ListExact s.al.list) :
    ListExact (s.free i).al.list := by
  simp [State.free, hyp]

@[simp] theorem useFlow_keepsList (s : State) (i : FlowIx) (hyp : ListExact s.al.list) :
    ListExact (s.useFlow i).al.list := by
  simp [State.useFlow, hyp]

@[simp] theorem createSub_keepsList (s : State) (i : SubIx) (r : SubRecord) (hyp : ListExact s.al.list) :
    ListExact (s.createSub i r).al.list := by
  simp [State.createSub, hyp]

@[simp] theorem reviveStart_keepsList (s : State) (i : SubIx) (p : Bool) (h : Operator) (hyp : ListExact s.al.list) :
    ListExact (s.reviveStart i p h).al.list := by
  simp [State.reviveStart, hyp]

@[simp] theorem revive_keepsList (s : State) (i : SubIx) (p : Bool) (h : Operator) (hyp : ListExact s.al.list) :
    ListExact (s.revive i p h).al.list := by
  simp only [State.revive]
  repeat' split
  all_goals simp (maxDischargeDepth := 9) [hyp]

@[simp] theorem endUnwinding_keepsList (s : State) (i : SubIx) (hyp : ListExact s.al.list) :
    ListExact (s.endUnwinding i).al.list := by
  simp only [State.endUnwinding]
  split <;> simp [hyp]

@[simp] theorem deferredClose_keepsList (s : State) (i : SubIx) (hyp : ListExact s.al.list) :
    ListExact (s.deferredClose i).al.list := by
  simp [State.deferredClose, hyp]

@[simp] theorem settleParts_keepsList (s : State) (i : SubIx) (x y : Option ClosedSlot) (hyp : ListExact s.al.list) :
    ListExact (s.settleParts i x y).al.list := by
  simp only [State.settleParts]
  repeat' split
  all_goals simp [hyp]

@[simp] theorem freeIfSettled_keepsList (s : State) (i : SubIx) (hyp : ListExact s.al.list) :
    ListExact (s.freeIfSettled i).al.list := by
  unfold State.freeIfSettled
  split <;> simp [hyp]

@[simp] theorem postUsage_keepsList (s : State) (i : SubIx) (c : FlowClass) (m n : Word) (hyp : ListExact s.al.list) :
    ListExact (s.postUsage i c m n).al.list := by
  simp only [State.postUsage]
  split <;> simp [hyp]

@[simp] theorem chargeBurst_keepsList (s : State) (i : SubIx) (c : FlowClass) (m n : Nat) (hyp : ListExact s.al.list) :
    ListExact (s.chargeBurst i c m n).al.list := by
  unfold State.chargeBurst
  split <;> simp [hyp]

@[simp] theorem raiseEntry_keepsList (s : State) (l : LinkId) (e : LinkState) (hyp : ListExact s.al.list) :
    ListExact (s.raiseEntry l e).al.list := by
  unfold State.raiseEntry
  split <;> simp [hyp]

@[simp] theorem becomeLost_keepsList (s : State) (l : LinkId) (hyp : ListExact s.al.list) :
    ListExact (s.becomeLost l).al.list := by
  simp [State.becomeLost, hyp]

@[simp] theorem becomeUp_keepsList (s : State) (l : LinkId) (hyp : ListExact s.al.list) :
    ListExact (s.becomeUp l).al.list := by
  simp [State.becomeUp, hyp]

@[simp] theorem testWindows_keepsList (s : State) (l : LinkId) (hyp : ListExact s.al.list) :
    ListExact (s.testWindows l).al.list := by
  unfold State.testWindows
  split <;> simp [hyp]

@[simp] theorem classify_keepsList (s : State) (l : LinkId) (k : ReportClass) (hyp : ListExact s.al.list) :
    ListExact (s.classify l k).al.list := by
  simp only [State.classify]
  split <;> simp [hyp]

@[simp] theorem evaluateCongestion_keepsList (s : State) (l : LinkId) (o : BitVec 8) (hyp : ListExact s.al.list) :
    ListExact (s.evaluateCongestion l o).al.list := by
  simp only [State.evaluateCongestion]
  repeat' split
  all_goals simp [hyp]

@[simp] theorem leaveService_keepsList (s : State) (l : LinkId) (e : LinkState) (hyp : ListExact s.al.list) :
    ListExact (s.leaveService l e).al.list := by
  simp [State.leaveService, hyp]

@[simp] theorem takeDrained_keepsList (s : State) (l : LinkId) (hyp : ListExact s.al.list) :
    ListExact (s.takeDrained l).al.list := by
  simp only [State.takeDrained]
  split <;> simp [hyp]

@[simp] theorem expireStale_keepsList (s : State) (l : LinkId) (hyp : ListExact s.al.list) :
    ListExact (s.expireStale l).al.list := by
  simp [State.expireStale, hyp]

@[simp] theorem endRepin_keepsList (s : State) (l : LinkId) (m n : Nat) (b : Bool) (hyp : ListExact s.al.list) :
    ListExact (s.endRepin l m n b).al.list := by
  simp [State.endRepin, hyp]

@[simp] theorem startWalk_keepsList (s : State) (e : WalkEntry) (hyp : ListExact s.al.list) :
    ListExact (s.startWalk e).al.list := by
  unfold State.startWalk
  repeat' split
  all_goals simp [hyp]

@[simp] theorem lazyVisit_keepsList (s : State) (i : SubIx) (hyp : ListExact s.al.list) :
    ListExact (s.lazyVisit i).al.list := by
  unfold State.lazyVisit
  split <;> simp [hyp]

@[simp] theorem zoneVisit_keepsList (s : State) (w : Walk) (hyp : ListExact s.al.list) :
    ListExact (s.zoneVisit w).al.list := by
  simp [State.zoneVisit, hyp]

@[simp] theorem recheckVisit_keepsList (s : State) (w : Walk) (hyp : ListExact s.al.list) :
    ListExact (s.recheckVisit w).al.list := by
  simp [State.recheckVisit, hyp]

@[simp] theorem ageEnd_keepsList (s : State) (w : Walk) (hyp : ListExact s.al.list) :
    ListExact (s.ageEnd w).al.list := by
  simp [State.ageEnd, hyp]

@[simp] theorem zoneEnd_keepsList (s : State) (w : Walk) (hyp : ListExact s.al.list) :
    ListExact (s.zoneEnd w).al.list := by
  simp [State.zoneEnd, hyp]

@[simp] theorem recheckEnd_keepsList (s : State) (w : Walk) (hyp : ListExact s.al.list) :
    ListExact (s.recheckEnd w).al.list := by
  simp [State.recheckEnd, hyp]

@[simp] theorem discardMessage_keepsList (s : State) (ch : Chan) (hyp : ListExact s.al.list) :
    ListExact (s.discardMessage ch).al.list := by
  simp [State.discardMessage, hyp]

@[simp] theorem submit_keepsList (s : State) (ch : Chan) (hyp : ListExact s.al.list) :
    ListExact (s.submit ch).al.list := by
  unfold State.submit
  split <;> simp [hyp]

@[simp] theorem becomeReady_keepsList (s : State) (hyp : ListExact s.al.list) :
    ListExact s.becomeReady.al.list := by
  simp [State.becomeReady, hyp]

@[simp] theorem fetch_keepsList (s : State) (e : AttnEntry) (hyp : ListExact s.al.list) :
    ListExact (s.fetch e).al.list := by
  simp [State.fetch, hyp]

@[simp] theorem attachFound_keepsList (s : State) (i : SubIx) (c : SubClass) (p : Bool) (t : TariffIx) (h : Operator) (hyp : ListExact s.al.list) :
    ListExact (s.attachFound i c p t h).1.al.list := by
  unfold State.attachFound
  repeat' split
  all_goals simp [hyp]

@[simp] theorem attachChecked_keepsList (s : State) (g : Tag) (c : SubClass) (p : Bool) (t : TariffIx) (h : Operator) (hyp : ListExact s.al.list) :
    ListExact (s.attachChecked g c p t h).1.al.list := by
  unfold State.attachChecked
  repeat' split
  all_goals simp [hyp]

@[simp] theorem attach_keepsList (s : State) (g : Tag) (c : BitVec 2) (p : Bool) (t : TariffIx) (h : Operator) (hyp : ListExact s.al.list) :
    ListExact (s.attach g c p t h).1.al.list := by
  unfold State.attach
  repeat' split
  all_goals simp [hyp]

@[simp] theorem subFind_keepsList (s : State) (g : Tag) (hyp : ListExact s.al.list) :
    ListExact (s.subFind g).1.al.list := by
  unfold State.subFind
  split <;> simp [hyp]

@[simp] theorem grantCredit_keepsList (s : State) (h : SubHandle) (g : Option SubGuard) (m n : Word) (hyp : ListExact s.al.list) :
    ListExact (s.grantCredit h g m n).1.al.list := by
  unfold State.grantCredit
  repeat' split
  all_goals simp [hyp]

@[simp] theorem settle_keepsList (s : State) (h : SubHandle) (g : Option SubGuard) (p : SettlePart) (hyp : ListExact s.al.list) :
    ListExact (s.settle h g p).1.al.list := by
  unfold State.settle
  repeat' split
  all_goals simp [hyp]

@[simp] theorem usagePost_keepsList (s : State) (h : SubHandle) (c : BitVec 3) (m n : Word) (hyp : ListExact s.al.list) :
    ListExact (s.usagePost h c m n).1.al.list := by
  unfold State.usagePost
  repeat' split
  all_goals simp [hyp]

@[simp] theorem flowOpen_keepsList (s : State) (h : SubHandle) (k : FlowKey) (c : BitVec 3) (b : Bool) (hyp : ListExact s.al.list) :
    ListExact (s.flowOpen h k c b).1.al.list := by
  unfold State.flowOpen
  repeat' split
  all_goals simp [hyp]

@[simp] theorem flowFind_keepsList (s : State) (k : FlowKey) (hyp : ListExact s.al.list) :
    ListExact (s.flowFind k).1.al.list := by
  unfold State.flowFind
  split <;> simp [hyp]

@[simp] theorem forwardOn_keepsList (s : State) (i : FlowIx) (l : LinkId) (m n : Nat) (b : Bool) (hyp : ListExact s.al.list) :
    ListExact (s.forwardOn i l m n b).1.al.list := by
  simp [State.forwardOn, hyp]

@[simp] theorem linkStep_keepsList (s : State) (i : FlowIx) (m n : Nat) (hyp : ListExact s.al.list) :
    ListExact (s.linkStep i m n).1.al.list := by
  simp only [State.linkStep]
  repeat' split
  all_goals simp [hyp]

@[simp] theorem judge_keepsList (s : State) (i : FlowIx) (m n : Nat) (hyp : ListExact s.al.list) :
    ListExact (s.judge i m n).1.al.list := by
  simp only [State.judge]
  split <;> simp [hyp]

@[simp] theorem chargeFlow_keepsList (s : State) (h : FlowHandle) (m : BitVec 16) (n : BitVec 8) (hyp : ListExact s.al.list) :
    ListExact (s.chargeFlow h m n).1.al.list := by
  unfold State.chargeFlow
  repeat' split
  all_goals simp [hyp]

@[simp] theorem report_keepsList (s : State) (l : LinkId) (q : BitVec 6) (o : BitVec 8) (hyp : ListExact s.al.list) :
    ListExact (s.report l q o).1.al.list := by
  unfold State.report
  split <;> simp [hyp]

@[simp] theorem linkReport_keepsList (s : State) (c : BitVec 4) (q o : BitVec 8) (hyp : ListExact s.al.list) :
    ListExact (s.linkReport c q o).1.al.list := by
  unfold State.linkReport
  repeat' split
  all_goals simp [hyp]

@[simp] theorem enableLink_keepsList (s : State) (l : LinkId) (hyp : ListExact s.al.list) :
    ListExact (s.enableLink l).1.al.list := by
  unfold State.enableLink
  split <;> simp [hyp]

@[simp] theorem enable_keepsList (s : State) (c : BitVec 4) (hyp : ListExact s.al.list) :
    ListExact (s.enable c).1.al.list := by
  simp only [State.enable, State.noLink]
  repeat' split
  all_goals simp [hyp]

@[simp] theorem disableLink_keepsList (s : State) (l : LinkId) (hyp : ListExact s.al.list) :
    ListExact (s.disableLink l).1.al.list := by
  unfold State.disableLink
  split <;> simp [hyp]

@[simp] theorem disable_keepsList (s : State) (c : BitVec 4) (hyp : ListExact s.al.list) :
    ListExact (s.disable c).1.al.list := by
  simp only [State.disable, State.noLink]
  repeat' split
  all_goals simp [hyp]

@[simp] theorem drainLink_keepsList (s : State) (l : LinkId) (hyp : ListExact s.al.list) :
    ListExact (s.drainLink l).1.al.list := by
  unfold State.drainLink
  split <;> simp [hyp]

@[simp] theorem drain_keepsList (s : State) (c : BitVec 4) (hyp : ListExact s.al.list) :
    ListExact (s.drain c).1.al.list := by
  simp only [State.drain, State.noLink]
  repeat' split
  all_goals simp [hyp]

@[simp] theorem injectLink_keepsList (s : State) (l : LinkId) (hyp : ListExact s.al.list) :
    ListExact (s.injectLink l).1.al.list := by
  unfold State.injectLink
  split <;> simp [hyp]

@[simp] theorem inject_keepsList (s : State) (c : BitVec 4) (hyp : ListExact s.al.list) :
    ListExact (s.inject c).1.al.list := by
  simp only [State.inject, State.noLink]
  repeat' split
  all_goals simp [hyp]

@[simp] theorem abortWalks_keepsList (s : State) (x : LinkSelector) (hyp : ListExact s.al.list) :
    ListExact (s.abortWalks x).1.al.list := by
  simp only [State.abortWalks]
  repeat' split
  all_goals simp [hyp]

@[simp] theorem walkAbort_keepsList (s : State) (k : WalkKind) (c : BitVec 8) (hyp : ListExact s.al.list) :
    ListExact (s.walkAbort k c).1.al.list := by
  unfold State.walkAbort
  repeat' split
  all_goals simp [hyp]

@[simp] theorem noticeFetch_keepsList (s : State) (f : NoticeFilter) (hyp : ListExact s.al.list) :
    ListExact (s.noticeFetch f).1.al.list := by
  unfold State.noticeFetch
  split <;> simp [hyp]

end Sys2Proof.Machine
end

