-- ==== Sys2Proof/Laws/SubTable.lean ====
section
/-! SUPPORT. The subscriber table keeps its canonical form. -/

namespace Sys2Proof.Machine

@[simp] theorem setSub_keepsSubs (s : State) (i : SubIx) (r : SubRecord) (hyp : Table.wf .powerOn Config.subscriberCount s.stc.subs = true) :
    Table.wf .powerOn Config.subscriberCount (s.setSub i r).stc.subs = true :=
  Table.write_wf hyp i.isLt

@[simp] theorem enterRequested_keepsSubs (s : State) (i : SubIx) (n : Nat) (hyp : Table.wf .powerOn Config.subscriberCount s.stc.subs = true) :
    Table.wf .powerOn Config.subscriberCount (s.enterRequested i n).stc.subs = true := by
  simp [State.enterRequested, hyp]

@[simp] theorem lowCredit_keepsSubs (s : State) (i : SubIx) (hyp : Table.wf .powerOn Config.subscriberCount s.stc.subs = true) :
    Table.wf .powerOn Config.subscriberCount (s.lowCredit i).stc.subs = true := by
  simp only [State.lowCredit]
  repeat' split
  all_goals simp [hyp]

@[simp] theorem chargeSub_keepsSubs (s : State) (i : SubIx) (m n : Nat) (hyp : Table.wf .powerOn Config.subscriberCount s.stc.subs = true) :
    Table.wf .powerOn Config.subscriberCount (s.chargeSub i m n).stc.subs = true := by
  simp only [State.chargeSub]
  split <;> simp [hyp]

@[simp] theorem closeUsage_keepsSubs (s : State) (i : SubIx) (hyp : Table.wf .powerOn Config.subscriberCount s.stc.subs = true) :
    Table.wf .powerOn Config.subscriberCount (s.closeUsage i).stc.subs = true := by
  simp only [State.closeUsage]
  split <;> simp [hyp]

@[simp] theorem applyGrantTo_keepsSubs (s : State) (i : SubIx) (m n : Word) (hyp : Table.wf .powerOn Config.subscriberCount s.stc.subs = true) :
    Table.wf .powerOn Config.subscriberCount (s.applyGrantTo i m n).stc.subs = true := by
  simp [State.applyGrantTo, hyp]

@[simp] theorem expireGrant_keepsSubs (s : State) (i : SubIx) (hyp : Table.wf .powerOn Config.subscriberCount s.stc.subs = true) :
    Table.wf .powerOn Config.subscriberCount (s.expireGrant i).stc.subs = true := by
  simp [State.expireGrant, hyp]

@[simp] theorem recheck_keepsSubs (s : State) (i : SubIx) (hyp : Table.wf .powerOn Config.subscriberCount s.stc.subs = true) :
    Table.wf .powerOn Config.subscriberCount (s.recheck i).stc.subs = true := by
  simp [State.recheck, hyp]

@[simp] theorem bringUpToDate_keepsSubs (s : State) (i : SubIx) (hyp : Table.wf .powerOn Config.subscriberCount s.stc.subs = true) :
    Table.wf .powerOn Config.subscriberCount (s.bringUpToDate i).stc.subs = true := by
  simp [State.bringUpToDate, hyp]

@[simp] theorem holdClose_keepsSubs (s : State) (i : SubIx) (hyp : Table.wf .powerOn Config.subscriberCount s.stc.subs = true) :
    Table.wf .powerOn Config.subscriberCount (s.holdClose i).stc.subs = true := by
  simp [State.holdClose, hyp]

@[simp] theorem lazy_keepsSubs (s : State) (i : SubIx) (hyp : Table.wf .powerOn Config.subscriberCount s.stc.subs = true) :
    Table.wf .powerOn Config.subscriberCount (s.lazy i).stc.subs = true := by
  unfold State.lazy
  split <;> simp [hyp]

@[simp] theorem touch_keepsSubs (s : State) (i : SubIx) (hyp : Table.wf .powerOn Config.subscriberCount s.stc.subs = true) :
    Table.wf .powerOn Config.subscriberCount (s.touch i).stc.subs = true := by
  simp [State.touch, hyp]

@[simp] theorem enterDetaching_keepsSubs (s : State) (i : SubIx) (hyp : Table.wf .powerOn Config.subscriberCount s.stc.subs = true) :
    Table.wf .powerOn Config.subscriberCount (s.enterDetaching i).stc.subs = true := by
  simp [State.enterDetaching, hyp]

@[simp] theorem free_keepsSubs (s : State) (i : SubIx) (hyp : Table.wf .powerOn Config.subscriberCount s.stc.subs = true) :
    Table.wf .powerOn Config.subscriberCount (s.free i).stc.subs = true := by
  simp [State.free, hyp]

@[simp] theorem unlistFlow_keepsSubs (s : State) (i : SubIx) (h : FlowHandle) (hyp : Table.wf .powerOn Config.subscriberCount s.stc.subs = true) :
    Table.wf .powerOn Config.subscriberCount (s.unlistFlow i h).stc.subs = true := by
  simp [State.unlistFlow, hyp]

@[simp] theorem listFlow_keepsSubs (s : State) (i : SubIx) (h : FlowHandle) (hyp : Table.wf .powerOn Config.subscriberCount s.stc.subs = true) :
    Table.wf .powerOn Config.subscriberCount (s.listFlow i h).stc.subs = true := by
  simp [State.listFlow, hyp]

@[simp] theorem retire_keepsSubs (s : State) (i : FlowIx) (hyp : Table.wf .powerOn Config.subscriberCount s.stc.subs = true) :
    Table.wf .powerOn Config.subscriberCount (s.retire i).stc.subs = true := by
  simp [State.retire, hyp]

@[simp] theorem retireSome_keepsSubs (s : State) (v : Option FlowIx) (hyp : Table.wf .powerOn Config.subscriberCount s.stc.subs = true) :
    Table.wf .powerOn Config.subscriberCount (s.retireSome v).stc.subs = true := by
  unfold State.retireSome
  split <;> simp [hyp]

@[simp] theorem useFlow_keepsSubs (s : State) (i : FlowIx) (hyp : Table.wf .powerOn Config.subscriberCount s.stc.subs = true) :
    Table.wf .powerOn Config.subscriberCount (s.useFlow i).stc.subs = true := by
  simp [State.useFlow, hyp]

@[simp] theorem createFlow_keepsSubs (s : State) (i : FlowIx) (k : FlowKey) (c : FlowClass) (h : SubHandle) (hyp : Table.wf .powerOn Config.subscriberCount s.stc.subs = true) :
    Table.wf .powerOn Config.subscriberCount (s.createFlow i k c h).stc.subs = true := by
  simp [State.createFlow, hyp]

@[simp] theorem createSub_keepsSubs (s : State) (i : SubIx) (r : SubRecord) (hyp : Table.wf .powerOn Config.subscriberCount s.stc.subs = true) :
    Table.wf .powerOn Config.subscriberCount (s.createSub i r).stc.subs = true := by
  simp [State.createSub, hyp]

@[simp] theorem reviveStart_keepsSubs (s : State) (i : SubIx) (p : Bool) (h : Operator) (hyp : Table.wf .powerOn Config.subscriberCount s.stc.subs = true) :
    Table.wf .powerOn Config.subscriberCount (s.reviveStart i p h).stc.subs = true := by
  simp [State.reviveStart, hyp]

@[simp] theorem revive_keepsSubs (s : State) (i : SubIx) (p : Bool) (h : Operator) (hyp : Table.wf .powerOn Config.subscriberCount s.stc.subs = true) :
    Table.wf .powerOn Config.subscriberCount (s.revive i p h).stc.subs = true := by
  simp only [State.revive]
  repeat' split
  all_goals simp (maxDischargeDepth := 9) [hyp]

@[simp] theorem endUnwinding_keepsSubs (s : State) (i : SubIx) (hyp : Table.wf .powerOn Config.subscriberCount s.stc.subs = true) :
    Table.wf .powerOn Config.subscriberCount (s.endUnwinding i).stc.subs = true := by
  simp only [State.endUnwinding]
  split <;> simp [hyp]

@[simp] theorem deferredClose_keepsSubs (s : State) (i : SubIx) (hyp : Table.wf .powerOn Config.subscriberCount s.stc.subs = true) :
    Table.wf .powerOn Config.subscriberCount (s.deferredClose i).stc.subs = true := by
  simp (maxDischargeDepth := 9) [State.deferredClose, hyp]

@[simp] theorem settleParts_keepsSubs (s : State) (i : SubIx) (x y : Option ClosedSlot) (hyp : Table.wf .powerOn Config.subscriberCount s.stc.subs = true) :
    Table.wf .powerOn Config.subscriberCount (s.settleParts i x y).stc.subs = true := by
  simp only [State.settleParts]
  repeat' split
  all_goals simp [hyp]

@[simp] theorem freeIfSettled_keepsSubs (s : State) (i : SubIx) (hyp : Table.wf .powerOn Config.subscriberCount s.stc.subs = true) :
    Table.wf .powerOn Config.subscriberCount (s.freeIfSettled i).stc.subs = true := by
  unfold State.freeIfSettled
  split <;> simp [hyp]

@[simp] theorem markMixed_keepsSubs (s : State) (i : SubIx) (hyp : Table.wf .powerOn Config.subscriberCount s.stc.subs = true) :
    Table.wf .powerOn Config.subscriberCount (s.markMixed i).stc.subs = true := by
  unfold State.markMixed
  split <;> simp [hyp]

@[simp] theorem postUsage_keepsSubs (s : State) (i : SubIx) (c : FlowClass) (m n : Word) (hyp : Table.wf .powerOn Config.subscriberCount s.stc.subs = true) :
    Table.wf .powerOn Config.subscriberCount (s.postUsage i c m n).stc.subs = true := by
  simp only [State.postUsage]
  repeat' split
  all_goals simp (maxDischargeDepth := 9) [hyp]

@[simp] theorem chargeBurst_keepsSubs (s : State) (i : SubIx) (c : FlowClass) (m n : Nat) (hyp : Table.wf .powerOn Config.subscriberCount s.stc.subs = true) :
    Table.wf .powerOn Config.subscriberCount (s.chargeBurst i c m n).stc.subs = true := by
  unfold State.chargeBurst
  split <;> simp [hyp]

@[simp] theorem remark_keepsSubs (s : State) (i : SubIx) (hyp : Table.wf .powerOn Config.subscriberCount s.stc.subs = true) :
    Table.wf .powerOn Config.subscriberCount (s.remark i).stc.subs = true := by
  simp [State.remark, hyp]

@[simp] theorem ageSub_keepsSubs (s : State) (i : SubIx) (hyp : Table.wf .powerOn Config.subscriberCount s.stc.subs = true) :
    Table.wf .powerOn Config.subscriberCount (s.ageSub i).stc.subs = true := by
  unfold State.ageSub
  repeat' split
  all_goals simp [hyp]

@[simp] theorem lazyVisit_keepsSubs (s : State) (i : SubIx) (hyp : Table.wf .powerOn Config.subscriberCount s.stc.subs = true) :
    Table.wf .powerOn Config.subscriberCount (s.lazyVisit i).stc.subs = true := by
  unfold State.lazyVisit
  split <;> simp [hyp]

@[simp] theorem pass1Visit_keepsSubs (s : State) (w : Walk) (hyp : Table.wf .powerOn Config.subscriberCount s.stc.subs = true) :
    Table.wf .powerOn Config.subscriberCount (s.pass1Visit w).stc.subs = true := by
  simp [State.pass1Visit, hyp]

@[simp] theorem pass2Visit_keepsSubs (s : State) (w : Walk) (hyp : Table.wf .powerOn Config.subscriberCount s.stc.subs = true) :
    Table.wf .powerOn Config.subscriberCount (s.pass2Visit w).stc.subs = true := by
  simp only [State.pass2Visit]
  split <;> simp [hyp]

@[simp] theorem zoneVisit_keepsSubs (s : State) (w : Walk) (hyp : Table.wf .powerOn Config.subscriberCount s.stc.subs = true) :
    Table.wf .powerOn Config.subscriberCount (s.zoneVisit w).stc.subs = true := by
  simp [State.zoneVisit, hyp]

@[simp] theorem recheckVisit_keepsSubs (s : State) (w : Walk) (hyp : Table.wf .powerOn Config.subscriberCount s.stc.subs = true) :
    Table.wf .powerOn Config.subscriberCount (s.recheckVisit w).stc.subs = true := by
  simp [State.recheckVisit, hyp]

@[simp] theorem attachFound_keepsSubs (s : State) (i : SubIx) (c : SubClass) (p : Bool) (t : TariffIx) (h : Operator) (hyp : Table.wf .powerOn Config.subscriberCount s.stc.subs = true) :
    Table.wf .powerOn Config.subscriberCount (s.attachFound i c p t h).1.stc.subs = true := by
  unfold State.attachFound
  repeat' split
  all_goals simp [hyp]

@[simp] theorem attachChecked_keepsSubs (s : State) (g : Tag) (c : SubClass) (p : Bool) (t : TariffIx) (h : Operator) (hyp : Table.wf .powerOn Config.subscriberCount s.stc.subs = true) :
    Table.wf .powerOn Config.subscriberCount (s.attachChecked g c p t h).1.stc.subs = true := by
  unfold State.attachChecked
  repeat' split
  all_goals simp [hyp]

@[simp] theorem attach_keepsSubs (s : State) (g : Tag) (c : BitVec 2) (p : Bool) (t : TariffIx) (h : Operator) (hyp : Table.wf .powerOn Config.subscriberCount s.stc.subs = true) :
    Table.wf .powerOn Config.subscriberCount (s.attach g c p t h).1.stc.subs = true := by
  unfold State.attach
  repeat' split
  all_goals simp [hyp]

@[simp] theorem detach_keepsSubs (s : State) (h : SubHandle) (g : Option SubGuard) (hyp : Table.wf .powerOn Config.subscriberCount s.stc.subs = true) :
    Table.wf .powerOn Config.subscriberCount (s.detach h g).1.stc.subs = true := by
  unfold State.detach
  repeat' split
  all_goals simp [hyp]

@[simp] theorem subFind_keepsSubs (s : State) (g : Tag) (hyp : Table.wf .powerOn Config.subscriberCount s.stc.subs = true) :
    Table.wf .powerOn Config.subscriberCount (s.subFind g).1.stc.subs = true := by
  unfold State.subFind
  split <;> simp [hyp]

@[simp] theorem subUpdate_keepsSubs (s : State) (h : SubHandle) (g : Option SubGuard) (f : SubField) (a : UpdateAction) (v : Word) (hyp : Table.wf .powerOn Config.subscriberCount s.stc.subs = true) :
    Table.wf .powerOn Config.subscriberCount (s.subUpdate h g f a v).1.stc.subs = true := by
  unfold State.subUpdate
  repeat' split
  all_goals simp [hyp]

@[simp] theorem grantCredit_keepsSubs (s : State) (h : SubHandle) (g : Option SubGuard) (m n : Word) (hyp : Table.wf .powerOn Config.subscriberCount s.stc.subs = true) :
    Table.wf .powerOn Config.subscriberCount (s.grantCredit h g m n).1.stc.subs = true := by
  unfold State.grantCredit
  repeat' split
  all_goals simp [hyp]

@[simp] theorem settle_keepsSubs (s : State) (h : SubHandle) (g : Option SubGuard) (p : SettlePart) (hyp : Table.wf .powerOn Config.subscriberCount s.stc.subs = true) :
    Table.wf .powerOn Config.subscriberCount (s.settle h g p).1.stc.subs = true := by
  unfold State.settle
  repeat' split
  all_goals simp [hyp]

@[simp] theorem usagePost_keepsSubs (s : State) (h : SubHandle) (c : BitVec 3) (m n : Word) (hyp : Table.wf .powerOn Config.subscriberCount s.stc.subs = true) :
    Table.wf .powerOn Config.subscriberCount (s.usagePost h c m n).1.stc.subs = true := by
  unfold State.usagePost
  repeat' split
  all_goals simp [hyp]

@[simp] theorem openAfterReclaim_keepsSubs (s : State) (k : FlowKey) (c : FlowClass) (h : SubHandle) (x y : Option FlowIx) (hyp : Table.wf .powerOn Config.subscriberCount s.stc.subs = true) :
    Table.wf .powerOn Config.subscriberCount (s.openAfterReclaim k c h x y).1.stc.subs = true := by
  simp only [State.openAfterReclaim]
  repeat' split
  all_goals simp (maxDischargeDepth := 9) [hyp]

@[simp] theorem openNew_keepsSubs (s : State) (k : FlowKey) (c : FlowClass) (h : SubHandle) (b : Bool) (hyp : Table.wf .powerOn Config.subscriberCount s.stc.subs = true) :
    Table.wf .powerOn Config.subscriberCount (s.openNew k c h b).1.stc.subs = true := by
  simp only [State.openNew]
  repeat' split
  all_goals simp [hyp]

@[simp] theorem openTouched_keepsSubs (s : State) (k : FlowKey) (c : FlowClass) (h : SubHandle) (b : Bool) (hyp : Table.wf .powerOn Config.subscriberCount s.stc.subs = true) :
    Table.wf .powerOn Config.subscriberCount (s.openTouched k c h b).1.stc.subs = true := by
  unfold State.openTouched
  split <;> simp [hyp]

@[simp] theorem flowOpen_keepsSubs (s : State) (h : SubHandle) (k : FlowKey) (c : BitVec 3) (b : Bool) (hyp : Table.wf .powerOn Config.subscriberCount s.stc.subs = true) :
    Table.wf .powerOn Config.subscriberCount (s.flowOpen h k c b).1.stc.subs = true := by
  unfold State.flowOpen
  repeat' split
  all_goals simp [hyp]

@[simp] theorem flowClose_keepsSubs (s : State) (h : FlowHandle) (g : Option FlowGuard) (hyp : Table.wf .powerOn Config.subscriberCount s.stc.subs = true) :
    Table.wf .powerOn Config.subscriberCount (s.flowClose h g).1.stc.subs = true := by
  unfold State.flowClose
  repeat' split
  all_goals simp [hyp]

@[simp] theorem flowFind_keepsSubs (s : State) (k : FlowKey) (hyp : Table.wf .powerOn Config.subscriberCount s.stc.subs = true) :
    Table.wf .powerOn Config.subscriberCount (s.flowFind k).1.stc.subs = true := by
  unfold State.flowFind
  split <;> simp [hyp]

@[simp] theorem forwardOn_keepsSubs (s : State) (i : FlowIx) (l : LinkId) (m n : Nat) (b : Bool) (hyp : Table.wf .powerOn Config.subscriberCount s.stc.subs = true) :
    Table.wf .powerOn Config.subscriberCount (s.forwardOn i l m n b).1.stc.subs = true := by
  simp [State.forwardOn, hyp]

@[simp] theorem linkStep_keepsSubs (s : State) (i : FlowIx) (m n : Nat) (hyp : Table.wf .powerOn Config.subscriberCount s.stc.subs = true) :
    Table.wf .powerOn Config.subscriberCount (s.linkStep i m n).1.stc.subs = true := by
  simp only [State.linkStep]
  repeat' split
  all_goals simp [hyp]

@[simp] theorem judge_keepsSubs (s : State) (i : FlowIx) (m n : Nat) (hyp : Table.wf .powerOn Config.subscriberCount s.stc.subs = true) :
    Table.wf .powerOn Config.subscriberCount (s.judge i m n).1.stc.subs = true := by
  simp only [State.judge]
  split <;> simp [hyp]

@[simp] theorem chargeFlow_keepsSubs (s : State) (h : FlowHandle) (m : BitVec 16) (n : BitVec 8) (hyp : Table.wf .powerOn Config.subscriberCount s.stc.subs = true) :
    Table.wf .powerOn Config.subscriberCount (s.chargeFlow h m n).1.stc.subs = true := by
  unfold State.chargeFlow
  repeat' split
  all_goals simp [hyp]

end Sys2Proof.Machine
end

