-- ==== Sys2Proof/Laws/FlowTable.lean ====
section
/-! SUPPORT. The flow table keeps its canonical form. -/

namespace Sys2Proof.Machine

@[simp] theorem setFlow_keepsFlows (s : State) (i : FlowIx) (f : FlowRecord) (hyp : Table.wf .powerOn Config.flowCount s.ftc.flows = true) :
    Table.wf .powerOn Config.flowCount (s.setFlow i f).ftc.flows = true :=
  Table.write_wf hyp i.isLt

@[simp] theorem retire_keepsFlows (s : State) (i : FlowIx) (hyp : Table.wf .powerOn Config.flowCount s.ftc.flows = true) :
    Table.wf .powerOn Config.flowCount (s.retire i).ftc.flows = true := by
  simp [State.retire, hyp]

@[simp] theorem retireSome_keepsFlows (s : State) (v : Option FlowIx) (hyp : Table.wf .powerOn Config.flowCount s.ftc.flows = true) :
    Table.wf .powerOn Config.flowCount (s.retireSome v).ftc.flows = true := by
  unfold State.retireSome
  split <;> simp [hyp]

@[simp] theorem repinFlow_keepsFlows (s : State) (i : FlowIx) (p : Option LinkId) (hyp : Table.wf .powerOn Config.flowCount s.ftc.flows = true) :
    Table.wf .powerOn Config.flowCount (s.repinFlow i p).ftc.flows = true := by
  unfold State.repinFlow
  split <;> simp [hyp]

@[simp] theorem touchFlow_keepsFlows (s : State) (i : FlowIx) (hyp : Table.wf .powerOn Config.flowCount s.ftc.flows = true) :
    Table.wf .powerOn Config.flowCount (s.touchFlow i).ftc.flows = true := by
  simp [State.touchFlow, hyp]

@[simp] theorem useFlow_keepsFlows (s : State) (i : FlowIx) (hyp : Table.wf .powerOn Config.flowCount s.ftc.flows = true) :
    Table.wf .powerOn Config.flowCount (s.useFlow i).ftc.flows = true := by
  simp [State.useFlow, hyp]

@[simp] theorem createFlow_keepsFlows (s : State) (i : FlowIx) (k : FlowKey) (c : FlowClass) (h : SubHandle) (hyp : Table.wf .powerOn Config.flowCount s.ftc.flows = true) :
    Table.wf .powerOn Config.flowCount (s.createFlow i k c h).ftc.flows = true := by
  simp [State.createFlow, hyp]

@[simp] theorem pass2Visit_keepsFlows (s : State) (w : Walk) (hyp : Table.wf .powerOn Config.flowCount s.ftc.flows = true) :
    Table.wf .powerOn Config.flowCount (s.pass2Visit w).ftc.flows = true := by
  simp only [State.pass2Visit]
  split <;> simp [hyp]

@[simp] theorem repinVisit_keepsFlows (s : State) (l : LinkId) (w : Walk) (hyp : Table.wf .powerOn Config.flowCount s.ftc.flows = true) :
    Table.wf .powerOn Config.flowCount (s.repinVisit l w).ftc.flows = true := by
  simp only [State.repinVisit]
  split <;> simp [hyp]

@[simp] theorem openAfterReclaim_keepsFlows (s : State) (k : FlowKey) (c : FlowClass) (h : SubHandle) (x y : Option FlowIx) (hyp : Table.wf .powerOn Config.flowCount s.ftc.flows = true) :
    Table.wf .powerOn Config.flowCount (s.openAfterReclaim k c h x y).1.ftc.flows = true := by
  simp only [State.openAfterReclaim]
  repeat' split
  all_goals simp (maxDischargeDepth := 9) [hyp]

@[simp] theorem openNew_keepsFlows (s : State) (k : FlowKey) (c : FlowClass) (h : SubHandle) (b : Bool) (hyp : Table.wf .powerOn Config.flowCount s.ftc.flows = true) :
    Table.wf .powerOn Config.flowCount (s.openNew k c h b).1.ftc.flows = true := by
  simp only [State.openNew]
  repeat' split
  all_goals simp [hyp]

@[simp] theorem openTouched_keepsFlows (s : State) (k : FlowKey) (c : FlowClass) (h : SubHandle) (b : Bool) (hyp : Table.wf .powerOn Config.flowCount s.ftc.flows = true) :
    Table.wf .powerOn Config.flowCount (s.openTouched k c h b).1.ftc.flows = true := by
  unfold State.openTouched
  split <;> simp [hyp]

@[simp] theorem flowOpen_keepsFlows (s : State) (h : SubHandle) (k : FlowKey) (c : BitVec 3) (b : Bool) (hyp : Table.wf .powerOn Config.flowCount s.ftc.flows = true) :
    Table.wf .powerOn Config.flowCount (s.flowOpen h k c b).1.ftc.flows = true := by
  unfold State.flowOpen
  repeat' split
  all_goals simp [hyp]

@[simp] theorem flowClose_keepsFlows (s : State) (h : FlowHandle) (g : Option FlowGuard) (hyp : Table.wf .powerOn Config.flowCount s.ftc.flows = true) :
    Table.wf .powerOn Config.flowCount (s.flowClose h g).1.ftc.flows = true := by
  unfold State.flowClose
  repeat' split
  all_goals simp [hyp]

@[simp] theorem flowFind_keepsFlows (s : State) (k : FlowKey) (hyp : Table.wf .powerOn Config.flowCount s.ftc.flows = true) :
    Table.wf .powerOn Config.flowCount (s.flowFind k).1.ftc.flows = true := by
  unfold State.flowFind
  split <;> simp [hyp]

@[simp] theorem flowUpdate_keepsFlows (s : State) (h : FlowHandle) (g : Option FlowGuard) (f : FlowField) (a : UpdateAction) (v : Word) (hyp : Table.wf .powerOn Config.flowCount s.ftc.flows = true) :
    Table.wf .powerOn Config.flowCount (s.flowUpdate h g f a v).1.ftc.flows = true := by
  unfold State.flowUpdate
  repeat' split
  all_goals simp [hyp]

@[simp] theorem linkStep_keepsFlows (s : State) (i : FlowIx) (m n : Nat) (hyp : Table.wf .powerOn Config.flowCount s.ftc.flows = true) :
    Table.wf .powerOn Config.flowCount (s.linkStep i m n).1.ftc.flows = true := by
  simp only [State.linkStep]
  repeat' split
  all_goals simp [hyp]

@[simp] theorem judge_keepsFlows (s : State) (i : FlowIx) (m n : Nat) (hyp : Table.wf .powerOn Config.flowCount s.ftc.flows = true) :
    Table.wf .powerOn Config.flowCount (s.judge i m n).1.ftc.flows = true := by
  simp only [State.judge]
  split <;> simp [hyp]

@[simp] theorem chargeFlow_keepsFlows (s : State) (h : FlowHandle) (m : BitVec 16) (n : BitVec 8) (hyp : Table.wf .powerOn Config.flowCount s.ftc.flows = true) :
    Table.wf .powerOn Config.flowCount (s.chargeFlow h m n).1.ftc.flows = true := by
  unfold State.chargeFlow
  repeat' split
  all_goals simp [hyp]

end Sys2Proof.Machine
end

