-- ==== Sys2Proof/Laws/PlruTable.lean ====
section
/-! SUPPORT. The table of pseudo-LRU bits keeps its canonical form. -/

namespace Sys2Proof.Machine

@[simp] theorem setPlru_keepsPlru (s : State) (k : BitVec 12) (p : Plru) (hyp : Table.wf .powerOn (Config.flowCount / 4) s.ftc.plru = true) :
    Table.wf .powerOn (Config.flowCount / 4) (s.setPlru k p).ftc.plru = true :=
  Table.write_wf hyp k.isLt

@[simp] theorem useWay_keepsPlru (s : State) (i : FlowIx) (hyp : Table.wf .powerOn (Config.flowCount / 4) s.ftc.plru = true) :
    Table.wf .powerOn (Config.flowCount / 4) (s.useWay i).ftc.plru = true := by
  simp [State.useWay, hyp]

@[simp] theorem useFlow_keepsPlru (s : State) (i : FlowIx) (hyp : Table.wf .powerOn (Config.flowCount / 4) s.ftc.plru = true) :
    Table.wf .powerOn (Config.flowCount / 4) (s.useFlow i).ftc.plru = true := by
  simp [State.useFlow, hyp]

@[simp] theorem createFlow_keepsPlru (s : State) (i : FlowIx) (k : FlowKey) (c : FlowClass) (h : SubHandle) (hyp : Table.wf .powerOn (Config.flowCount / 4) s.ftc.plru = true) :
    Table.wf .powerOn (Config.flowCount / 4) (s.createFlow i k c h).ftc.plru = true := by
  simp [State.createFlow, hyp]

@[simp] theorem openAfterReclaim_keepsPlru (s : State) (k : FlowKey) (c : FlowClass) (h : SubHandle) (x y : Option FlowIx) (hyp : Table.wf .powerOn (Config.flowCount / 4) s.ftc.plru = true) :
    Table.wf .powerOn (Config.flowCount / 4) (s.openAfterReclaim k c h x y).1.ftc.plru = true := by
  simp only [State.openAfterReclaim]
  split <;> simp [hyp]

@[simp] theorem openNew_keepsPlru (s : State) (k : FlowKey) (c : FlowClass) (h : SubHandle) (b : Bool) (hyp : Table.wf .powerOn (Config.flowCount / 4) s.ftc.plru = true) :
    Table.wf .powerOn (Config.flowCount / 4) (s.openNew k c h b).1.ftc.plru = true := by
  simp only [State.openNew]
  repeat' split
  all_goals simp [hyp]

@[simp] theorem openTouched_keepsPlru (s : State) (k : FlowKey) (c : FlowClass) (h : SubHandle) (b : Bool) (hyp : Table.wf .powerOn (Config.flowCount / 4) s.ftc.plru = true) :
    Table.wf .powerOn (Config.flowCount / 4) (s.openTouched k c h b).1.ftc.plru = true := by
  unfold State.openTouched
  split <;> simp [hyp]

@[simp] theorem flowOpen_keepsPlru (s : State) (h : SubHandle) (k : FlowKey) (c : BitVec 3) (b : Bool) (hyp : Table.wf .powerOn (Config.flowCount / 4) s.ftc.plru = true) :
    Table.wf .powerOn (Config.flowCount / 4) (s.flowOpen h k c b).1.ftc.plru = true := by
  unfold State.flowOpen
  repeat' split
  all_goals simp [hyp]

@[simp] theorem flowFind_keepsPlru (s : State) (k : FlowKey) (hyp : Table.wf .powerOn (Config.flowCount / 4) s.ftc.plru = true) :
    Table.wf .powerOn (Config.flowCount / 4) (s.flowFind k).1.ftc.plru = true := by
  unfold State.flowFind
  split <;> simp [hyp]

@[simp] theorem chargeFlow_keepsPlru (s : State) (h : FlowHandle) (m : BitVec 16) (n : BitVec 8) (hyp : Table.wf .powerOn (Config.flowCount / 4) s.ftc.plru = true) :
    Table.wf .powerOn (Config.flowCount / 4) (s.chargeFlow h m n).1.ftc.plru = true := by
  unfold State.chargeFlow
  repeat' split
  all_goals simp [hyp]

end Sys2Proof.Machine
end

