-- ==== Sys2Proof/Laws/Clearing.lean ====
section
/-! SUPPORT. What the steps of a SOFT_RESET and the submissions of one transaction keep of the
queue, the list and the tables. -/

namespace Sys2Proof.Machine

@[simp] theorem clearTables_frame (s : State) :
    s.clearTables.resetHeld = s.resetHeld ∧ s.clearTables.pending = s.pending ∧ s.clearTables.zas = s.zas ∧
    s.clearTables.al = s.al ∧ s.clearTables.lm.links = s.lm.links ∧
    s.clearTables.ci.softReset = s.ci.softReset := by
  simp [State.clearTables, Lm.cleared, Ci.faultsCleared]

@[simp] theorem beginClearing_queue (s : State) (ch : Chan) (b : Bool) :
    (s.beginClearing ch b).tw.queue = [] := by
  simp only [State.beginClearing]
  split <;> simp [State.clearTables, Tw.cleared]

@[simp] theorem beginClearing_walk (s : State) (ch : Chan) (b : Bool) : (s.beginClearing ch b).tw.walk = none := by
  simp only [State.beginClearing]
  split <;> simp [State.clearTables, Tw.cleared]

@[simp] theorem beginClearing_keepsList (s : State) (ch : Chan) (b : Bool) (hyp : ListExact s.al.list) :
    ListExact (s.beginClearing ch b).al.list := by
  simp only [State.beginClearing]
  split <;> simp [hyp]

@[simp] theorem endClearing_keepsList (s : State) (ch : Chan) (b : Bool) (hyp : ListExact s.al.list) :
    ListExact (s.endClearing ch b).al.list := by
  simp only [State.endClearing]
  split <;> simp [hyp]

@[simp] theorem submitAll_keepsList (s : State) (x : List Host.Cell) (hyp : ListExact s.al.list) :
    ListExact (s.submitAll x).al.list := by
  unfold State.submitAll
  generalize channels = cs
  induction cs generalizing s with
  | nil => simpa using hyp
  | cons c rest ih =>
    simp only [List.foldl_cons]
    apply ih
    split
    · exact submit_keepsList s c hyp
    · exact hyp

theorem beginClearing_blocks (s : State) (ch : Chan) (b : Bool) :
    (s.beginClearing ch b).stc = s.stc.cleared ∧ (s.beginClearing ch b).ftc = s.ftc.cleared := by
  simp only [State.beginClearing]
  split <;> simp [State.clearTables]

@[simp] theorem beginClearing_keepsSubs (s : State) (ch : Chan) (b : Bool)
    (hyp : Table.wf .powerOn Config.subscriberCount s.stc.subs = true) :
    Table.wf .powerOn Config.subscriberCount (s.beginClearing ch b).stc.subs = true := by
  rw [(beginClearing_blocks s ch b).1]
  exact Table.mapRecords_wf hyp

@[simp] theorem beginClearing_keepsFlows (s : State) (ch : Chan) (b : Bool)
    (hyp : Table.wf .powerOn Config.flowCount s.ftc.flows = true) :
    Table.wf .powerOn Config.flowCount (s.beginClearing ch b).ftc.flows = true := by
  rw [(beginClearing_blocks s ch b).2]
  exact Table.mapRecords_wf hyp

@[simp] theorem beginClearing_keepsPlru (s : State) (ch : Chan) (b : Bool) :
    Table.wf .powerOn (Config.flowCount / 4) (s.beginClearing ch b).ftc.plru = true := by
  rw [(beginClearing_blocks s ch b).2]
  rfl

end Sys2Proof.Machine
end

