-- ==== Sys2Proof/Laws/Requests.lean ====
section
/-! SUPPORT. What the checks of a request and the credit arithmetic give, once, for the proofs that use them. -/

namespace Sys2Proof.Machine

/-- A claim that leaves the state its arbiter leaves, and answers, answers alone. -/
theorem State.onlyAnswers_of {s : State} {o : Owner} {ch : Chan} {q : Request} {r : Reply} {k : Taken}
    (h : s.claim o ch = some q) (hk : k = (s.grantTo o ch, r)) : s.OnlyAnswers o ch r (k.finish ch) := by
  subst hk
  exact Taken.finish_onlyAnswers r h

/-! ## Handles -/

theorem State.subOf_none {s : State} {h : SubHandle}
    (hx : (s.sub h.index).state = .vacant ∨ (s.sub h.index).stamp ≠ h.stamp) : s.subOf h = none := by
  unfold State.subOf SubRecord.live
  rcases hx with hx | hx <;> simp [hx]

theorem State.subOf_some {s : State} {h : SubHandle} (h1 : (s.sub h.index).state ≠ .vacant)
    (h2 : (s.sub h.index).stamp = h.stamp) : s.subOf h = some (s.sub h.index) := by
  unfold State.subOf SubRecord.live
  simp [h1, h2]

theorem State.subOf_spec {s : State} {h : SubHandle} {r : SubRecord} (hs : s.subOf h = some r) :
    s.sub h.index = r ∧ r.state ≠ .vacant ∧ r.stamp = h.stamp := by
  unfold State.subOf SubRecord.live at hs
  dsimp only at hs
  split at hs
  · rename_i hc
    cases hs
    simpa using hc
  · cases hs

theorem State.flowOf_none {s : State} {h : FlowHandle}
    (hx : (s.flow h.index).state = .vacant ∨ (s.flow h.index).stamp ≠ h.stamp) : s.flowOf h = none := by
  unfold State.flowOf FlowRecord.live
  rcases hx with hx | hx <;> simp [hx]

theorem State.flowOf_some {s : State} {h : FlowHandle} (h1 : (s.flow h.index).state ≠ .vacant)
    (h2 : (s.flow h.index).stamp = h.stamp) : s.flowOf h = some (s.flow h.index) := by
  unfold State.flowOf FlowRecord.live
  simp [h1, h2]

theorem State.flowOf_spec {s : State} {h : FlowHandle} {r : FlowRecord} (hs : s.flowOf h = some r) :
    s.flow h.index = r ∧ r.state ≠ .vacant ∧ r.stamp = h.stamp := by
  unfold State.flowOf FlowRecord.live at hs
  dsimp only at hs
  split at hs
  · rename_i hc
    cases hs
    simpa using hc
  · cases hs

/-! ## An arbiter's grant leaves every record and nibble as it is -/

@[simp] theorem grantTo_subOf (s : State) (o : Owner) (ch : Chan) (h : SubHandle) :
    (s.grantTo o ch).subOf h = s.subOf h := by simp [State.subOf]

@[simp] theorem grantTo_flowOf (s : State) (o : Owner) (ch : Chan) (h : FlowHandle) :
    (s.grantTo o ch).flowOf h = s.flowOf h := by simp [State.flowOf]

@[simp] theorem grantTo_subNibble (s : State) (o : Owner) (ch : Chan) (i : SubIx) :
    (s.grantTo o ch).subNibble i = s.subNibble i := by simp [State.subNibble, State.nibbleOf]

@[simp] theorem grantTo_nibbleAfter (s : State) (o : Owner) (ch : Chan) (i : SubIx) (g : Option SubGuard)
    (r : SubRecord) : (s.grantTo o ch).nibbleAfter i g r = s.nibbleAfter i g r := by
  cases g <;> simp [State.nibbleAfter]

@[simp] theorem grantTo_flowNibbleAfter (s : State) (o : Owner) (ch : Chan) (i : SubIx) (g : Option FlowGuard)
    (r : FlowRecord) : (s.grantTo o ch).flowNibbleAfter i g r = s.flowNibbleAfter i g r := by
  cases g <;> simp [State.flowNibbleAfter]

/-! ## Completion leaves every record and nibble as it is -/

@[simp] theorem complete_subNibble (s : State) (ch : Chan) (r : Reply) (i : SubIx) :
    (s.complete ch r).subNibble i = s.subNibble i := by simp [State.subNibble, State.nibbleOf]

@[simp] theorem complete_nibbleAfter (s : State) (ch : Chan) (a : Reply) (i : SubIx) (g : Option SubGuard)
    (r : SubRecord) : (s.complete ch a).nibbleAfter i g r = s.nibbleAfter i g r := by
  cases g <;> simp [State.nibbleAfter]

@[simp] theorem complete_flowNibbleAfter (s : State) (ch : Chan) (a : Reply) (i : SubIx) (g : Option FlowGuard)
    (r : FlowRecord) : (s.complete ch a).flowNibbleAfter i g r = s.flowNibbleAfter i g r := by
  cases g <;> simp [State.flowNibbleAfter]

/-! ## Credit -/

theorem satAdd_toNat {w : Nat} (x : BitVec w) (n : Nat) : (satAdd x n).toNat = min (x.toNat + n) (2 ^ w - 1) := by
  unfold satAdd
  have := x.isLt
  have := Nat.two_pow_pos w
  split
  · rw [BitVec.toNat_ofNat, Nat.mod_eq_of_lt (by assumption)]; omega
  · rw [BitVec.toNat_allOnes]; omega

theorem takeAmount_spec (a o : BitVec 32) (n : Nat) :
    (n ≤ a.toNat → (takeAmount a o n).1.toNat = a.toNat - n ∧ (takeAmount a o n).2.1 = o) ∧
    (a.toNat < n → (takeAmount a o n).1 = 0 ∧
      (takeAmount a o n).2.1.toNat = min (o.toNat + (n - a.toNat)) 4294967295) ∧
    ((takeAmount a o n).2.2 = true ↔ 4294967295 < o.toNat + (n - a.toNat)) := by
  have := a.isLt
  have := o.isLt
  unfold takeAmount
  split
  · refine ⟨fun _ => ⟨?_, rfl⟩, fun h => by omega, ?_⟩
    · simp; omega
    · simp; omega
  · refine ⟨fun h => by omega, fun _ => ⟨rfl, ?_⟩, ?_⟩
    · rw [satAdd_toNat]; norm_num
    · simp [exceeds]; omega

theorem emptied_iff (a b : BitVec 32) : emptied a b = true ↔ a ≠ 0 ∧ b = 0 := by simp [emptied]

theorem insertDeadline_spec (s : State) (i : SubIx) (l : List SubIx) :
    ∃ a b, l = a ++ b ∧ s.insertDeadline i l = a ++ i :: b ∧
    (∀ j ∈ a, s.remainingOf j ≤ s.remainingOf i) ∧ (∀ j, b.head? = some j → s.remainingOf i < s.remainingOf j) := by
  induction l with
  | nil => exact ⟨[], [], rfl, rfl, by simp, by simp⟩
  | cons x rest ih =>
    unfold State.insertDeadline
    split
    · rename_i h
      exact ⟨[], x :: rest, rfl, rfl, by simp, by simpa using h⟩
    · rename_i h
      obtain ⟨a, b, h1, h2, h3, h4⟩ := ih
      refine ⟨x :: a, b, by simp [h1], by simp [h2], ?_, h4⟩
      intro j hj
      rcases List.mem_cons.mp hj with rfl | hj
      · omega
      · exact h3 j hj

theorem grantAmount_spec (a o n : BitVec 32) :
    (grantAmount a o n).2.toNat = o.toNat - min o.toNat n.toNat ∧
    (grantAmount a o n).1.toNat = min (a.toNat + (n.toNat - min o.toNat n.toNat)) 4294967295 := by
  have := a.isLt
  have := o.isLt
  unfold grantAmount
  split
  · rename_i h
    have hle : n.toNat ≤ o.toNat := h
    refine ⟨?_, ?_⟩
    · rw [BitVec.toNat_sub_of_le h]; omega
    · simp; omega
  · rename_i h
    have hle : ¬ n.toNat ≤ o.toNat := h
    refine ⟨?_, ?_⟩
    · simp; omega
    · rw [satAdd_toNat]; omega


end Sys2Proof.Machine
end

