-- ==== Sys2Proof/Laws/Records.lean ====
section
/-! SUPPORT. What the credit and roaming operations on one subscriber do to the subscriber records. -/

namespace Sys2Proof.Machine

/-- Usage is nonzero when a count is above zero. -/
theorem Usage.nonzero_eq (u : Usage) : u.nonzero = decide (u.bytes ≠ 0 ∨ u.seconds ≠ 0) := by
  rw [Bool.eq_iff_iff]
  simp [Usage.nonzero]

/-! ## The closed-slot count stands beside the records -/

theorem setClosedCount_setSub (s : State) (n : Nat) (i : SubIx) (r : SubRecord) :
    State.setSub { s with stc := { s.stc with closedCount := n } } i r =
      { s.setSub i r with stc := { (s.setSub i r).stc with closedCount := n } } := by rfl

theorem setClosedCount_sub (s : State) (n : Nat) (i : SubIx) :
    State.sub { s with stc := { s.stc with closedCount := n } } i = s.sub i := by rfl

theorem enterRequested_sub (s : State) (i j : SubIx) (n : Nat) : (s.enterRequested i n).sub j =
    if j = i then { s.sub i with grant := .requested (s.after n) } else s.sub j := by
  show (s.setSub i _).sub j = _
  rw [setSub_sub]

/-- The low-credit check changes the grant state of its record alone. -/
theorem lowCredit_sub (s : State) (i : SubIx) : ∃ g, ∀ j, (s.lowCredit i).sub j =
    if j = i then { s.sub i with grant := g } else s.sub j := by
  unfold State.lowCredit
  split
  · dsimp only
    split
    · exact ⟨_, fun j => enterRequested_sub ..⟩
    · exact ⟨(s.sub i).grant, fun j => by split <;> simp_all⟩
  · exact ⟨(s.sub i).grant, fun j => by split <;> simp_all⟩

/-- The carry rule changes credit and exhausted noted alone. -/
theorem carryTariff_credit (s : State) (r : SubRecord) (old : Option TariffIx) : ∃ ba sa bo so e,
    s.carryTariff r old = { r with
      byteAllowance := ba, secondsAllowance := sa, byteOverrun := bo, secondsOverrun := so, exhaustedNoted := e } := by
  unfold State.carryTariff
  split
  · dsimp only
    split
    · exact ⟨_, _, _, _, _, rfl⟩
    · exact ⟨_, _, _, _, _, rfl⟩
  · exact ⟨_, _, _, _, _, rfl⟩

theorem rechecked_fields (s : State) (r : SubRecord) : ∃ ba sa bo so e,
    s.rechecked r = { r with
      state := recheckedState r.state (s.decision r).2, tariff := (s.decision r).1
      byteAllowance := ba, secondsAllowance := sa, byteOverrun := bo, secondsOverrun := so, exhaustedNoted := e } := by
  obtain ⟨ba, sa, bo, so, e, h⟩ := carryTariff_credit s
    { r with tariff := (s.decision r).1, state := recheckedState r.state (s.decision r).2 } r.tariff
  exact ⟨ba, sa, bo, so, e, h⟩

/-- The recheck writes state, tariff, credit, exhausted noted and the grant state of its record alone. -/
theorem recheck_sub (s : State) (i : SubIx) : ∃ r : SubRecord, ∀ j, (s.recheck i).sub j =
    if j = i then { s.sub i with
      state := recheckedState (s.sub i).state (s.decision (s.sub i)).2
      tariff := (s.decision (s.sub i)).1
      byteAllowance := r.byteAllowance, secondsAllowance := r.secondsAllowance, byteOverrun := r.byteOverrun
      secondsOverrun := r.secondsOverrun, exhaustedNoted := r.exhaustedNoted, grant := r.grant } else s.sub j := by
  unfold State.recheck
  dsimp only
  obtain ⟨ba, sa, bo, so, e, hr⟩ := rechecked_fields s (s.sub i)
  rw [hr]
  obtain ⟨g, hg⟩ := lowCredit_sub ((s.setSub i _).raiseRoaming i (s.sub i) _) i
  refine ⟨{ s.sub i with
    byteAllowance := ba, secondsAllowance := sa, byteOverrun := bo, secondsOverrun := so, exhaustedNoted := e
    grant := g }, fun j => ?_⟩
  rw [hg]
  split
  · simp only [raiseRoaming_frame, setSub_sub_same]
  · rename_i hj
    simp [setSub_sub, hj]
/-- ATTACHED or ROAM_BARRED. -/
def SubState.admitted (x : SubState) : Prop := x = .attached ∨ x = .roamBarred

/-- What roaming and credit leave of a record: its identity, its flows, and its state but for a move between ATTACHED
and ROAM_BARRED. -/
structure SubRecord.Follows (a b : SubRecord) : Prop where
  tag : b.tag = a.tag
  stamp : b.stamp = a.stamp
  cls : b.cls = a.cls
  permanent : b.permanent = a.permanent
  flowList : b.flowList = a.flowList
  state : b.state = a.state ∨ a.state.admitted ∧ b.state.admitted

theorem SubRecord.Follows.refl (a : SubRecord) : a.Follows a := ⟨rfl, rfl, rfl, rfl, rfl, .inl rfl⟩

theorem SubRecord.Follows.trans {a b c : SubRecord} (h : a.Follows b) (k : b.Follows c) : a.Follows c := by
  refine ⟨k.tag.trans h.tag, k.stamp.trans h.stamp, k.cls.trans h.cls, k.permanent.trans h.permanent,
    k.flowList.trans h.flowList, ?_⟩
  rcases h.state with h1 | ⟨h1, h2⟩ <;> rcases k.state with k1 | ⟨k1, k2⟩
  · exact .inl (k1.trans h1)
  · exact .inr ⟨h1 ▸ k1, k2⟩
  · exact .inr ⟨h1, k1 ▸ h2⟩
  · exact .inr ⟨h1, k2⟩

theorem recheckedState_follows (x : SubState) (s : State) (r : SubRecord) :
    recheckedState x (s.decision r).2 = x ∨
      x.admitted ∧ (recheckedState x (s.decision r).2).admitted := by
  have hd : (s.decision r).2 = none ∨ (s.decision r).2 = some .attached ∨ (s.decision r).2 = some .roamBarred := by
    unfold State.decision
    split
    · exact .inl rfl
    · exact .inl rfl
    · split
      · exact .inr (.inl rfl)
      · exact .inr (.inr rfl)
  rcases hd with h | h | h <;> rw [h] <;> cases x <;> simp [recheckedState, SubState.admitted]

/-- From `s` to `t`, record `i` follows and the others are as they were. -/
structure State.FollowsAt (s : State) (i : SubIx) (t : State) : Prop where
  self : (s.sub i).Follows (t.sub i)
  others : ∀ j, j ≠ i → t.sub j = s.sub j

theorem State.FollowsAt.refl (s : State) (i : SubIx) : s.FollowsAt i s := ⟨.refl _, fun _ _ => rfl⟩

theorem State.FollowsAt.trans {s t u : State} {i : SubIx} (h : s.FollowsAt i t) (k : t.FollowsAt i u) :
    s.FollowsAt i u := ⟨h.self.trans k.self, fun j hj => (k.others j hj).trans (h.others j hj)⟩

theorem State.FollowsAt.set {s : State} {i : SubIx} {r : SubRecord} (h : (s.sub i).Follows r) :
    s.FollowsAt i (s.setSub i r) := ⟨by simpa using h, fun j hj => by simp [setSub_sub, hj]⟩

theorem State.FollowsAt.of_sub {s t u : State} {i : SubIx} (h : s.FollowsAt i t) (hu : ∀ j, u.sub j = t.sub j) :
    s.FollowsAt i u := ⟨by rw [hu]; exact h.self, fun j hj => by rw [hu]; exact h.others j hj⟩

theorem State.FollowsAt.after_set {s u : State} {i : SubIx} {r : SubRecord} (k : (s.setSub i r).FollowsAt i u)
    (h : (s.sub i).Follows r) : s.FollowsAt i u := (State.FollowsAt.set h).trans k

theorem holdClose_follows (s : State) (i : SubIx) : s.FollowsAt i (s.holdClose i) := by
  refine State.FollowsAt.of_sub (t := s.setSub i { s.sub i with closeHeld := true }) (.set ?_) fun j => rfl
  exact ⟨rfl, rfl, rfl, rfl, rfl, .inl rfl⟩

theorem lowCredit_follows (s : State) (i : SubIx) : s.FollowsAt i (s.lowCredit i) := by
  obtain ⟨g, hg⟩ := lowCredit_sub s i
  refine ⟨?_, fun j hj => by rw [hg, if_neg hj]⟩
  rw [hg, if_pos rfl]
  exact ⟨rfl, rfl, rfl, rfl, rfl, .inl rfl⟩

theorem recheck_follows (s : State) (i : SubIx) : s.FollowsAt i (s.recheck i) := by
  obtain ⟨r, hr⟩ := recheck_sub s i
  refine ⟨?_, fun j hj => by rw [hr, if_neg hj]⟩
  rw [hr, if_pos rfl]
  exact ⟨rfl, rfl, rfl, rfl, rfl, recheckedState_follows ..⟩

theorem closeCurrent_follows (r : SubRecord) : r.Follows r.closeCurrent := by
  unfold SubRecord.closeCurrent
  split
  · exact ⟨rfl, rfl, rfl, rfl, rfl, .inl rfl⟩
  · exact .refl _

theorem closeUsage_follows (s : State) (i : SubIx) : s.FollowsAt i (s.closeUsage i) := by
  unfold State.closeUsage
  dsimp only
  split
  · exact (State.FollowsAt.set (closeCurrent_follows _)).of_sub fun j => rfl
  · exact .set (closeCurrent_follows _)

theorem bringUpToDate_follows (s : State) (i : SubIx) : s.FollowsAt i (s.bringUpToDate i) :=
  (recheck_follows _ i).after_set ⟨rfl, rfl, rfl, rfl, rfl, .inl rfl⟩

theorem lazy_follows (s : State) (i : SubIx) : s.FollowsAt i (s.lazy i) := by
  unfold State.lazy
  split
  · exact .refl ..
  · exact holdClose_follows s i
  · exact (closeUsage_follows s i).trans (bringUpToDate_follows _ i)
  · exact (recheck_follows _ i).after_set ⟨rfl, rfl, rfl, rfl, rfl, .inl rfl⟩
  · exact .refl ..

theorem touch_follows (s : State) (i : SubIx) : s.FollowsAt i (s.touch i) :=
  (lazy_follows _ i).after_set ⟨rfl, rfl, rfl, rfl, rfl, .inl rfl⟩

theorem charge_follows (r : SubRecord) (m n : Nat) : r.Follows (r.charge m n) := ⟨rfl, rfl, rfl, rfl, rfl, .inl rfl⟩

theorem chargeSub_follows (s : State) (i : SubIx) (m n : Nat) : s.FollowsAt i (s.chargeSub i m n) := by
  unfold State.chargeSub
  dsimp only
  refine State.FollowsAt.trans (t := if raisesExhausted (s.sub i) ((s.sub i).charge m n) = true then
    (s.setSub i ((s.sub i).charge m n)).raise (.subscriber i) .exhausted else s.setSub i ((s.sub i).charge m n)) ?_
    (lowCredit_follows _ _)
  split
  · exact (State.FollowsAt.set (charge_follows ..)).of_sub fun j => rfl
  · exact .set (charge_follows ..)

theorem deferredClose_follows (s : State) (i : SubIx) : s.FollowsAt i (s.deferredClose i) := by
  unfold State.deferredClose
  refine State.FollowsAt.trans (t := s.setSub i { s.sub i with closeHeld := false })
    (.set ⟨rfl, rfl, rfl, rfl, rfl, .inl rfl⟩) ?_
  exact (closeUsage_follows _ i).trans (bringUpToDate_follows _ i)

theorem dropClosed_follows {s t : State} {i : SubIx} (n : Nat) (h : s.FollowsAt i t) :
    s.FollowsAt i (t.dropClosed n) := h.of_sub fun _ => rfl

theorem settleParts_follows (s : State) (i : SubIx) (c d : Option ClosedSlot) :
    s.FollowsAt i (s.settleParts i c d) := by
  unfold State.settleParts
  dsimp only
  have h0 : (s.sub i).Follows ((s.sub i).settled c d) := ⟨rfl, rfl, rfl, rfl, rfl, .inl rfl⟩
  have h1 : s.FollowsAt i (if c.isSome = true then (s.setSub i ((s.sub i).settled c d)).dropClosed 1
      else s.setSub i ((s.sub i).settled c d)) := by
    generalize (s.sub i).settled c d = x at h0
    split
    · exact dropClosed_follows 1 (.set h0)
    · exact .set h0
  generalize (if c.isSome = true then (s.setSub i ((s.sub i).settled c d)).dropClosed 1
    else s.setSub i ((s.sub i).settled c d)) = x at h1 ⊢
  split
  · exact h1.trans (deferredClose_follows _ i)
  · exact h1

end Sys2Proof.Machine
end

