-- ==== Sys2Proof/Laws/SubExact.lean ====
section
/-! SUPPORT. The subscriber records stay sound and their lists and count exact (R1, R12, R64, R70, R78) under every
operation on a record. -/

namespace Sys2Proof.Machine

/-! ## Counting over the indices -/

theorem subIndices_nodup : subIndices.Nodup := by
  unfold subIndices
  refine List.Nodup.map_on ?_ List.nodup_range
  intro a ha b hb h
  have h2 := congrArg BitVec.toNat h
  simp only [BitVec.toNat_ofNat, List.mem_range, Config.subscriberCount] at h2 ha hb
  omega

theorem mem_subIndices (i : SubIx) : i ∈ subIndices := by
  unfold subIndices
  refine List.mem_map.mpr ⟨i.toNat, List.mem_range.mpr i.isLt, ?_⟩
  simp

theorem flowIndices_nodup : flowIndices.Nodup := by
  unfold flowIndices
  refine List.Nodup.map_on ?_ List.nodup_range
  intro a ha b hb h
  have h2 := congrArg BitVec.toNat h
  simp only [BitVec.toNat_ofNat, List.mem_range, Config.flowCount] at h2 ha hb
  omega

theorem mem_flowIndices (i : FlowIx) : i ∈ flowIndices := by
  unfold flowIndices
  refine List.mem_map.mpr ⟨i.toNat, List.mem_range.mpr i.isLt, ?_⟩
  simp

/-- A count changes by what happens at the one index where the property changes. -/
theorem countP_update {α : Type} {l : List α} (hl : l.Nodup) {i : α} (hi : i ∈ l) {p q : α → Bool}
    (h : ∀ j, j ≠ i → q j = p j) : l.countP q + (if p i then 1 else 0) = l.countP p + (if q i then 1 else 0) := by
  induction l with
  | nil => cases hi
  | cons x rest ih =>
    obtain ⟨hx, hr⟩ := List.nodup_cons.mp hl
    rw [List.countP_cons, List.countP_cons]
    by_cases he : x = i
    · subst he
      have hsame : rest.countP q = rest.countP p := by
        refine List.countP_congr fun j hj => ?_
        rw [h j (fun e => hx (e ▸ hj))]
      rw [hsame]
      omega
    · have hi' : i ∈ rest := by
        rcases List.mem_cons.mp hi with e | e
        · exact absurd e.symm he
        · exact e
      have := ih hr hi'
      rw [h x he]
      omega

/-! ## One record changes -/

/-- A state whose subscriber records, lists and count are those of another. -/
theorem State.SubsExact.of_stc {s t : State} (h : s.SubsExact) (hs : ∀ i, t.sub i = s.sub i)
    (hu : t.stc.unwind = s.stc.unwind) (hd : t.stc.deadlines = s.stc.deadlines)
    (hc : t.stc.closedCount = s.stc.closedCount) : t.SubsExact := by
  obtain ⟨h1, h2, h3, h4⟩ := h
  refine ⟨fun i => by rw [hs]; exact h1 i, ?_, ?_, ?_⟩
  · exact ⟨by rw [hu]; exact h2.1, fun i => by rw [hu, hs]; exact h2.2 i⟩
  · exact ⟨by rw [hd]; exact h3.1, fun i => by rw [hd, hs]; exact h3.2 i⟩
  · unfold State.ClosedExact at h4 ⊢
    rw [hc, h4]
    simp only [hs]

theorem State.UnwindExact.keep {s t : State} {i : SubIx} (h : s.UnwindExact) (ho : ∀ j, j ≠ i → t.sub j = s.sub j)
    (hu : t.stc.unwind = s.stc.unwind) (hi : (t.sub i).state = .detaching ↔ (s.sub i).state = .detaching) :
    t.UnwindExact := by
  refine ⟨by rw [hu]; exact h.1, fun j => ?_⟩
  rw [hu, h.2 j]
  by_cases hj : j = i
  · rw [hj, hi]
  · rw [ho j hj]

theorem State.DeadlinesExact.keep {s t : State} {i : SubIx} (h : s.DeadlinesExact)
    (ho : ∀ j, j ≠ i → t.sub j = s.sub j) (hd : t.stc.deadlines = s.stc.deadlines)
    (hi : (t.sub i).grant.isRequested = (s.sub i).grant.isRequested) : t.DeadlinesExact := by
  refine ⟨by rw [hd]; exact h.1, fun j => ?_⟩
  rw [hd, h.2 j]
  by_cases hj : j = i
  · rw [hj, hi]
  · rw [ho j hj]

/-- The record leaves the deadline list, REQUESTED before or not, and is not REQUESTED after. -/
theorem State.DeadlinesExact.leave {s t : State} {i : SubIx} (h : s.DeadlinesExact)
    (ho : ∀ j, j ≠ i → t.sub j = s.sub j)
    (hd : t.stc.deadlines = s.stc.deadlines.filter fun j => decide (j ≠ i))
    (hi : (t.sub i).grant.isRequested = false) : t.DeadlinesExact := by
  refine ⟨by rw [hd]; exact h.1.filter _, fun j => ?_⟩
  rw [hd, List.mem_filter, h.2 j]
  by_cases hj : j = i
  · rw [hj, hi]
    simp
  · rw [ho j hj]
    simp [hj]

/-- The record joins the deadline list as it becomes REQUESTED. -/
theorem State.DeadlinesExact.join {s t : State} {i : SubIx} (h : s.DeadlinesExact)
    (ho : ∀ j, j ≠ i → t.sub j = s.sub j) (hd : t.stc.deadlines.Perm (i :: s.stc.deadlines))
    (h0 : (s.sub i).grant.isRequested = false) (hi : (t.sub i).grant.isRequested = true) : t.DeadlinesExact := by
  have hni : i ∉ s.stc.deadlines := fun hm => by
    rw [(h.2 i).mp hm] at h0
    cases h0
  refine ⟨hd.nodup_iff.mpr (List.nodup_cons.mpr ⟨hni, h.1⟩), fun j => ?_⟩
  rw [hd.mem_iff, List.mem_cons, h.2 j]
  by_cases hj : j = i
  · rw [hj, hi]
    simp
  · rw [ho j hj]
    simp [hj]

theorem State.ClosedExact.change {s t : State} {i : SubIx} (h : s.ClosedExact)
    (ho : ∀ j, j ≠ i → t.sub j = s.sub j)
    (hc : t.stc.closedCount + (if (s.sub i).closed.isSome then 1 else 0) =
      s.stc.closedCount + if (t.sub i).closed.isSome then 1 else 0) : t.ClosedExact := by
  unfold State.ClosedExact at h ⊢
  have := countP_update subIndices_nodup (mem_subIndices i) (p := fun i => (s.sub i).closed.isSome)
    (q := fun i => (t.sub i).closed.isSome) fun j hj => by rw [ho j hj]
  omega

/-- One record is written, and neither list nor count has to change. -/
theorem State.SubsExact.change {s t : State} {i : SubIx} (h : s.SubsExact) (ho : ∀ j, j ≠ i → t.sub j = s.sub j)
    (hr : (t.sub i).Sound) (hu : t.stc.unwind = s.stc.unwind) (hd : t.stc.deadlines = s.stc.deadlines)
    (hc : t.stc.closedCount = s.stc.closedCount)
    (h1 : (t.sub i).state = .detaching ↔ (s.sub i).state = .detaching)
    (h2 : (t.sub i).grant.isRequested = (s.sub i).grant.isRequested)
    (h3 : (t.sub i).closed.isSome = (s.sub i).closed.isSome) : t.SubsExact := by
  obtain ⟨k1, k2, k3, k4⟩ := h
  refine ⟨fun j => ?_, k2.keep ho hu h1, k3.keep ho hd h2, k4.change ho (by rw [hc, h3])⟩
  by_cases hj : j = i
  · rw [hj]
    exact hr
  · rw [ho j hj]
    exact k1 j

theorem State.SubsExact.setSub {s : State} {i : SubIx} {r : SubRecord} (h : s.SubsExact) (hr : r.Sound)
    (h1 : r.state = .detaching ↔ (s.sub i).state = .detaching)
    (h2 : r.grant.isRequested = (s.sub i).grant.isRequested)
    (h3 : r.closed.isSome = (s.sub i).closed.isSome) : (s.setSub i r).SubsExact :=
  h.change (i := i) (fun j hj => setSub_sub_ne s r hj) (by simpa using hr) rfl rfl rfl (by simpa using h1)
    (by simpa using h2) (by simpa using h3)

/-- A live record with the credit, grant state and state of another is sound with it. -/
theorem SubRecord.Sound.of_live {a b : SubRecord} (h : a.Sound) (hl : a.live = true)
    (hb : b.byteAllowance = a.byteAllowance ∧ b.byteOverrun = a.byteOverrun)
    (hn : b.secondsAllowance = a.secondsAllowance ∧ b.secondsOverrun = a.secondsOverrun)
    (hg : b.grant.isRequested = a.grant.isRequested) (hs : b.state = a.state) : b.Sound := by
  obtain ⟨h1, h2, h3⟩ := h
  refine ⟨?_, ?_, ?_⟩
  · unfold SubRecord.OverrunOnlyAtZero at h1 ⊢
    rw [hb.1, hb.2, hn.1, hn.2]
    exact h1
  · unfold SubRecord.RequestedServes at h2 ⊢
    rw [hg, hs]
    exact h2
  · intro hv
    rw [hs] at hv
    simp [SubRecord.live, hv] at hl

/-- A write of a live record that leaves credit, grant state, state and closed slot. -/
theorem State.SubsExact.setSub_plain {s : State} {i : SubIx} {r : SubRecord} (h : s.SubsExact)
    (hl : (s.sub i).live = true) (hb : r.byteAllowance = (s.sub i).byteAllowance ∧ r.byteOverrun = (s.sub i).byteOverrun)
    (hn : r.secondsAllowance = (s.sub i).secondsAllowance ∧ r.secondsOverrun = (s.sub i).secondsOverrun)
    (hg : r.grant = (s.sub i).grant) (hs : r.state = (s.sub i).state) (hc : r.closed = (s.sub i).closed) :
    (s.setSub i r).SubsExact :=
  h.setSub ((h.1 i).of_live hl hb hn (by rw [hg]) hs) (by rw [hs]) (by rw [hg]) (by rw [hc])

/-! ## Credit -/

theorem State.insertDeadline_perm (s : State) (i : SubIx) (l : List SubIx) :
    (s.insertDeadline i l).Perm (i :: l) := by
  induction l with
  | nil => exact .refl _
  | cons j rest ih =>
    unfold State.insertDeadline
    split
    · exact .refl _
    · exact (ih.cons j).trans (.swap ..)

theorem askingTariff_spec {r : SubRecord} {k : TariffIx} (h : askingTariff r = some k) :
    r.state = .attached ∧ r.grant = .none ∧ r.tariff = some k := by
  unfold askingTariff at h
  split at h
  · exact ⟨by assumption, by assumption, h⟩
  · cases h

theorem State.SubsExact.lowCredit {s : State} (h : s.SubsExact) (i : SubIx) : (s.lowCredit i).SubsExact := by
  unfold State.lowCredit
  split
  · rename_i k hk
    obtain ⟨ha, hg, _⟩ := askingTariff_spec hk
    dsimp only
    split
    · obtain ⟨k1, k2, k3, k4⟩ := h
      have ho : ∀ n j, j ≠ i → (s.enterRequested i n).sub j = s.sub j := fun n j hj => by
        rw [enterRequested_sub, if_neg hj]
      have hi : ∀ n, (s.enterRequested i n).sub i = { s.sub i with grant := .requested (s.after n) } := fun n => by
        rw [enterRequested_sub, if_pos rfl]
      refine ⟨fun j => ?_, ?_, ?_, ?_⟩
      · by_cases hj : j = i
        · rw [hj, hi]
          obtain ⟨m1, m2, m3⟩ := k1 i
          exact ⟨m1, fun _ => .inl ha, fun hv => by rw [show (s.sub i).state = SubState.vacant from hv] at ha; cases ha⟩
        · rw [ho _ j hj]
          exact k1 j
      · exact k2.keep (ho _) rfl (by rw [hi])
      · refine k3.join (ho _) (State.insertDeadline_perm ..) (by rw [hg]; rfl) (by rw [hi]; rfl)
      · exact k4.change (ho _) (by rw [hi]; rfl)
    · exact h
  · exact h

theorem grantAmount_overrun (a o n : BitVec 32) (h : o ≠ 0 → a = 0) :
    (grantAmount a o n).2 ≠ 0 → (grantAmount a o n).1 = 0 := by
  unfold grantAmount
  split
  · intro hx
    refine h ?_
    rintro rfl
    rename_i hle
    have : n = 0 := by
      have hle' : n.toNat ≤ 0 := hle
      exact BitVec.eq_of_toNat_eq (by simpa using hle')
    exact hx (by rw [this]; rfl)
  · intro hx
    exact absurd rfl hx

theorem applyGrant_overrun {r : SubRecord} (h : r.OverrunOnlyAtZero) (b n : BitVec 32) :
    (r.applyGrant b n).OverrunOnlyAtZero :=
  ⟨grantAmount_overrun _ _ _ h.1, grantAmount_overrun _ _ _ h.2⟩

theorem takeAmount_overrun (a o : BitVec 32) (n : Nat) (h : o ≠ 0 → a = 0) :
    (takeAmount a o n).2.1 ≠ 0 → (takeAmount a o n).1 = 0 := by
  unfold takeAmount
  split
  · intro hx
    rename_i hle
    have ha := h hx
    subst ha
    have : n = 0 := by simpa using hle
    subst this
    rfl
  · intro _
    rfl

theorem charge_overrun {r : SubRecord} (h : r.OverrunOnlyAtZero) (b n : Nat) : (r.charge b n).OverrunOnlyAtZero :=
  ⟨takeAmount_overrun _ _ _ h.1, takeAmount_overrun _ _ _ h.2⟩

theorem carryTariff_overrun {s : State} {r : SubRecord} (h : r.OverrunOnlyAtZero) (old : Option TariffIx) :
    (s.carryTariff r old).OverrunOnlyAtZero := by
  unfold State.carryTariff
  split
  · dsimp only
    split
    · exact applyGrant_overrun ⟨fun _ => rfl, fun _ => rfl⟩ _ _
    · exact h
  · exact h

theorem State.SubsExact.chargeSub {s : State} (h : s.SubsExact) {i : SubIx} (hl : (s.sub i).live = true) (b n : Nat) :
    (s.chargeSub i b n).SubsExact := by
  unfold State.chargeSub
  dsimp only
  refine State.SubsExact.lowCredit ?_ i
  obtain ⟨m1, m2, m3⟩ := h.1 i
  have h1 : (s.setSub i ((s.sub i).charge b n)).SubsExact :=
    h.setSub ⟨charge_overrun m1 b n, m2, fun hv => by
      have hv' : (s.sub i).state = .vacant := hv
      simp [SubRecord.live, hv'] at hl⟩ (Iff.rfl) rfl rfl
  split
  · exact h1.of_stc (fun _ => rfl) rfl rfl rfl
  · exact h1

/-! ## The recheck, zone processing and touches -/

theorem rechecked_sound {s : State} {r : SubRecord} (h : r.Sound) (hl : r.live = true) : (s.rechecked r).Sound := by
  obtain ⟨h1, h2, h3⟩ := h
  have ho : (s.rechecked r).OverrunOnlyAtZero := by
    unfold State.rechecked
    exact carryTariff_overrun (by exact h1) _
  obtain ⟨ba, sa, bo, so, e, hr⟩ := rechecked_fields s r
  have hf := recheckedState_follows r.state s r
  refine ⟨ho, ?_, ?_⟩
  · rw [hr]
    intro hg
    rcases hf with hf | ⟨_, hf⟩
    · change recheckedState r.state (s.decision r).2 = _ ∨ recheckedState r.state (s.decision r).2 = _
      rw [hf]
      exact h2 hg
    · exact hf
  · intro hv
    rw [hr] at hv
    have hv' : recheckedState r.state (s.decision r).2 = .vacant := hv
    rcases hf with hf | ⟨_, hf⟩
    · rw [hf] at hv'
      simp [SubRecord.live, hv'] at hl
    · rw [hv'] at hf
      rcases hf with hf | hf <;> cases hf

theorem State.SubsExact.recheck {s : State} (h : s.SubsExact) {i : SubIx} (hl : (s.sub i).live = true) :
    (s.recheck i).SubsExact := by
  unfold State.recheck
  dsimp only
  refine State.SubsExact.lowCredit ?_ i
  have hs := rechecked_sound (s := s) (h.1 i) hl
  obtain ⟨ba, sa, bo, so, e, hr⟩ := rechecked_fields s (s.sub i)
  have hf := recheckedState_follows (s.sub i).state s (s.sub i)
  have h1 : (s.setSub i (s.rechecked (s.sub i))).SubsExact := by
    refine h.setSub hs ?_ (by rw [hr]) (by rw [hr])
    rw [hr]
    change recheckedState (s.sub i).state _ = _ ↔ _
    rcases hf with hf | ⟨ha, hb⟩
    · rw [hf]
    · constructor
      · intro hx
        rw [hx] at hb
        rcases hb with hb | hb <;> cases hb
      · intro hx
        rw [hx] at ha
        rcases ha with ha | ha <;> cases ha
  refine h1.of_stc (fun _ => by simp) ?_ ?_ ?_ <;> simp

theorem SubRecord.Follows.live {a b : SubRecord} (h : a.Follows b) (hl : a.live = true) : b.live = true := by
  rcases h.state with hs | ⟨_, hs⟩
  · simpa [SubRecord.live, hs] using hl
  · rcases hs with hs | hs <;> simp [SubRecord.live, hs]

theorem State.FollowsAt.live {s t : State} {i j : SubIx} (h : s.FollowsAt i t) (hl : (s.sub j).live = true) :
    (t.sub j).live = true := by
  by_cases hj : j = i
  · subst hj
    exact h.self.live hl
  · rw [h.others j hj]
    exact hl

theorem live_setSub {s : State} {i : SubIx} {r : SubRecord} (h : r.live = true) : ((s.setSub i r).sub i).live = true := by
  rw [setSub_sub_same]
  exact h

theorem State.SubsExact.bringUpToDate {s : State} (h : s.SubsExact) {i : SubIx} (hl : (s.sub i).live = true) :
    (s.bringUpToDate i).SubsExact := by
  unfold State.bringUpToDate
  have h1 : (s.setSub i { s.sub i with
      ratingZone := s.zas.currentZone, zoneEpoch := s.zas.zoneEpoch
      policyEpoch := s.zas.policyEpoch }).SubsExact :=
    h.setSub_plain hl ⟨rfl, rfl⟩ ⟨rfl, rfl⟩ rfl rfl rfl
  exact h1.recheck (live_setSub hl)

theorem State.SubsExact.closeUsage {s : State} (h : s.SubsExact) {i : SubIx} (hl : (s.sub i).live = true)
    (hc : (s.sub i).closed = none) : (s.closeUsage i).SubsExact := by
  obtain ⟨k1, k2, k3, k4⟩ := h
  have hm := k1 i
  unfold State.closeUsage
  dsimp only
  by_cases hn : (s.sub i).current.nonzero = true
  · rw [if_pos hn]
    have hr : (s.sub i).closeCurrent =
        { s.sub i with closed := some { zone := (s.sub i).ratingZone, usage := (s.sub i).current }, current := .zero } := by
      unfold SubRecord.closeCurrent
      rw [if_pos hn]
    have hsub : ∀ j, ((s.setSub i (s.sub i).closeCurrent).addClosed 1).sub j =
        if j = i then (s.sub i).closeCurrent else s.sub j := fun j => by
      show (s.setSub i (s.sub i).closeCurrent).sub j = _
      rw [setSub_sub]
    have ho : ∀ j, j ≠ i → ((s.setSub i (s.sub i).closeCurrent).addClosed 1).sub j = s.sub j := fun j hj => by
      rw [hsub, if_neg hj]
    refine ⟨fun j => ?_, k2.keep ho rfl ?_, k3.keep ho rfl ?_, k4.change ho ?_⟩
    · rw [hsub]
      split
      · rw [hr]
        exact hm.of_live hl ⟨rfl, rfl⟩ ⟨rfl, rfl⟩ rfl rfl
      · exact k1 j
    · rw [hsub, if_pos rfl, hr]
    · rw [hsub, if_pos rfl, hr]
    · rw [hsub, if_pos rfl, hr, hc]
      rfl
  · rw [if_neg hn]
    have hr : (s.sub i).closeCurrent = s.sub i := by
      unfold SubRecord.closeCurrent
      rw [if_neg hn]
    rw [hr]
    exact State.SubsExact.setSub_plain ⟨k1, k2, k3, k4⟩ hl ⟨rfl, rfl⟩ ⟨rfl, rfl⟩ rfl rfl rfl

theorem State.SubsExact.holdClose {s : State} (h : s.SubsExact) {i : SubIx} (hl : (s.sub i).live = true) :
    (s.holdClose i).SubsExact := by
  unfold State.holdClose
  exact State.SubsExact.of_stc (h.setSub_plain (r := { s.sub i with closeHeld := true }) hl ⟨rfl, rfl⟩ ⟨rfl, rfl⟩ rfl rfl rfl)
    (fun _ => rfl) rfl rfl rfl

theorem lazyBranch_zone {s : State} {r : SubRecord} (h : s.lazyBranch r = .zone) : r.closed = none := by
  unfold State.lazyBranch at h
  split at h
  · cases h
  · split at h
    · split at h
      · cases h
      · rename_i hc
        simpa using hc
    · split at h <;> cases h

theorem State.SubsExact.lazy {s : State} (h : s.SubsExact) {i : SubIx} (hl : (s.sub i).live = true) :
    (s.lazy i).SubsExact := by
  unfold State.lazy
  split
  · exact h
  · exact h.holdClose hl
  · rename_i hb
    exact (h.closeUsage hl (lazyBranch_zone hb)).bringUpToDate ((closeUsage_follows s i).live hl)
  · have h1 : (s.setSub i { s.sub i with policyEpoch := s.zas.policyEpoch }).SubsExact :=
      h.setSub_plain hl ⟨rfl, rfl⟩ ⟨rfl, rfl⟩ rfl rfl rfl
    exact h1.recheck (live_setSub hl)
  · exact h

theorem State.SubsExact.touch {s : State} (h : s.SubsExact) {i : SubIx} (hl : (s.sub i).live = true) :
    (s.touch i).SubsExact := by
  have h1 : (s.setSub i { s.sub i with mark := s.tw.currentMark }).SubsExact :=
    h.setSub_plain hl ⟨rfl, rfl⟩ ⟨rfl, rfl⟩ rfl rfl rfl
  exact h1.lazy (live_setSub hl)

/-! ## Grants -/

theorem State.SubsExact.applyGrantTo {s : State} (h : s.SubsExact) {i : SubIx} (hl : (s.sub i).live = true)
    (b n : Word) : (s.applyGrantTo i b n).SubsExact := by
  unfold State.applyGrantTo
  refine State.SubsExact.lowCredit ?_ i
  obtain ⟨k1, k2, k3, k4⟩ := h
  have hsub : ∀ j, ((s.setSub i ((s.sub i).granted b n)).leaveDeadlines i).sub j =
      if j = i then (s.sub i).granted b n else s.sub j := fun j => by
    show (s.setSub i ((s.sub i).granted b n)).sub j = _
    rw [setSub_sub]
  have ho : ∀ j, j ≠ i → ((s.setSub i ((s.sub i).granted b n)).leaveDeadlines i).sub j = s.sub j := fun j hj => by
    rw [hsub, if_neg hj]
  refine ⟨fun j => ?_, k2.keep ho rfl ?_, k3.leave ho rfl ?_, k4.change ho ?_⟩
  · rw [hsub]
    split
    · obtain ⟨m1, m2, m3⟩ := k1 i
      refine ⟨applyGrant_overrun (by exact m1) _ _, ?_, ?_⟩
      · intro hg
        cases hg
      · intro hv
        have hv' : (s.sub i).state = .vacant := hv
        simp [SubRecord.live, hv'] at hl
    · exact k1 j
  · rw [hsub, if_pos rfl]
    rfl
  · rw [hsub, if_pos rfl]
    rfl
  · rw [hsub, if_pos rfl]
    rfl

theorem overdrawn_fields (s : State) (r : SubRecord) : (s.overdrawn r).grant = r.grant ∧
    (s.overdrawn r).state = r.state ∧ (s.overdrawn r).closed = r.closed ∧
    (r.OverrunOnlyAtZero → (s.overdrawn r).OverrunOnlyAtZero) := by
  unfold State.overdrawn
  split
  · exact ⟨rfl, rfl, rfl, id⟩
  · dsimp only
    split
    · exact ⟨rfl, rfl, rfl, fun h => applyGrant_overrun h _ _⟩
    · exact ⟨rfl, rfl, rfl, id⟩

theorem State.SubsExact.expireGrant {s : State} (h : s.SubsExact) {i : SubIx}
    (hg : (s.sub i).grant.isRequested = true) : (s.expireGrant i).SubsExact := by
  unfold State.expireGrant
  obtain ⟨k1, k2, k3, k4⟩ := h
  obtain ⟨m1, m2, m3⟩ := k1 i
  obtain ⟨f1, f2, f3, f4⟩ := overdrawn_fields s { s.sub i with grant := .timedOut }
  have hx := f4 m1
  generalize s.overdrawn { s.sub i with grant := .timedOut } = x at f1 f2 f3 hx
  have hsub : ∀ j, (((s.setSub i x).leaveDeadlines i).raise (.subscriber i) .grantTimeout).sub j =
      if j = i then x else s.sub j := fun j => by
    show (s.setSub i x).sub j = _
    rw [setSub_sub]
  have ho : ∀ j, j ≠ i → (((s.setSub i x).leaveDeadlines i).raise (.subscriber i) .grantTimeout).sub j = s.sub j :=
    fun j hj => by rw [hsub, if_neg hj]
  refine ⟨fun j => ?_, k2.keep ho rfl ?_, k3.leave ho rfl ?_, k4.change ho ?_⟩
  · rw [hsub]
    split
    · refine ⟨hx, ?_, ?_⟩
      · intro hr
        rw [f1] at hr
        cases hr
      · intro hv
        rw [f2] at hv
        have hv' : (s.sub i).state = .vacant := hv
        have := m2 hg
        rw [hv'] at this
        rcases this with h | h <;> cases h
    · exact k1 j
  · rw [hsub, if_pos rfl, f2]
  · rw [hsub, if_pos rfl, f1]
    rfl
  · rw [hsub, if_pos rfl, f3]
    rfl

/-! ## SETTLE and USAGE_POST -/

theorem State.SubsExact.deferredClose {s : State} (h : s.SubsExact) {i : SubIx} (hl : (s.sub i).live = true)
    (hc : (s.sub i).closed = none) : (s.deferredClose i).SubsExact := by
  unfold State.deferredClose
  have h1 : (s.setSub i { s.sub i with closeHeld := false }).SubsExact :=
    h.setSub_plain hl ⟨rfl, rfl⟩ ⟨rfl, rfl⟩ rfl rfl rfl
  have hl1 : ((s.setSub i { s.sub i with closeHeld := false }).sub i).live = true := live_setSub hl
  exact (h1.closeUsage hl1 (by simpa using hc)).bringUpToDate ((closeUsage_follows _ i).live hl1)

theorem State.SubsExact.settleParts {s : State} (h : s.SubsExact) {i : SubIx} (hl : (s.sub i).live = true)
    (c d : Option ClosedSlot) (hc : c.isSome = true → (s.sub i).closed.isSome = true) :
    (s.settleParts i c d).SubsExact := by
  obtain ⟨k1, k2, k3, k4⟩ := h
  unfold State.settleParts
  dsimp only
  have hm : ((s.sub i).settled c d).Sound := (k1 i).of_live hl ⟨rfl, rfl⟩ ⟨rfl, rfl⟩ rfl rfl
  by_cases hs : c.isSome = true
  · simp only [hs, if_true, Bool.true_and]
    have hsub : ∀ j, ((s.setSub i ((s.sub i).settled c d)).dropClosed 1).sub j =
        if j = i then (s.sub i).settled c d else s.sub j := fun j => by
      show (s.setSub i ((s.sub i).settled c d)).sub j = _
      rw [setSub_sub]
    have ho : ∀ j, j ≠ i → ((s.setSub i ((s.sub i).settled c d)).dropClosed 1).sub j = s.sub j := fun j hj => by
      rw [hsub, if_neg hj]
    have hnone : ((s.sub i).settled c d).closed = none := by
      unfold SubRecord.settled
      simp [hs]
    have h1 : ((s.setSub i ((s.sub i).settled c d)).dropClosed 1).SubsExact := by
      refine ⟨fun j => ?_, k2.keep ho rfl ?_, k3.keep ho rfl ?_, k4.change ho ?_⟩
      · rw [hsub]
        split
        · exact hm
        · exact k1 j
      · rw [hsub, if_pos rfl]
        rfl
      · rw [hsub, if_pos rfl]
        rfl
      · rw [hsub, if_pos rfl, hnone, hc hs]
        change s.stc.closedCount - 1 + _ = _
        have hpos : 0 < s.stc.closedCount := by
          have k4' : s.stc.closedCount = _ := k4
          rw [k4', List.countP_pos_iff]
          exact ⟨i, mem_subIndices i, hc hs⟩
        simp only [if_true, Option.isSome_none, Bool.false_eq_true, if_false]
        omega
    split
    · refine h1.deferredClose ?_ ?_
      · rw [hsub, if_pos rfl]
        exact hl
      · rw [hsub, if_pos rfl]
        exact hnone
    · exact h1
  · have hs' : c.isSome = false := by simpa using hs
    simp only [hs', Bool.false_eq_true, if_false, Bool.false_and]
    refine State.SubsExact.setSub ⟨k1, k2, k3, k4⟩ hm Iff.rfl rfl ?_
    unfold SubRecord.settled
    simp [hs']

theorem State.SubsExact.markMixed {s : State} (h : s.SubsExact) {i : SubIx} (hl : (s.sub i).live = true) :
    (s.markMixed i).SubsExact := by
  unfold State.markMixed
  split
  · exact h.setSub_plain hl ⟨rfl, rfl⟩ ⟨rfl, rfl⟩ rfl rfl rfl
  · exact h

/-! ## DETACHING, freeing, creation, revive -/

theorem vacated_sound (r : SubRecord) : r.vacated.Sound :=
  ⟨⟨fun h => absurd rfl h, fun h => absurd rfl h⟩, fun h => (by cases h), fun _ => rfl⟩

theorem State.SubsExact.enterDetaching {s : State} (h : s.SubsExact) {i : SubIx} (ha : (s.sub i).state.admitted) :
    (s.enterDetaching i).SubsExact := by
  obtain ⟨k1, k2, k3, k4⟩ := h
  obtain ⟨m1, m2, m3⟩ := k1 i
  have hsub : ∀ j, (s.enterDetaching i).sub j =
      if j = i then { s.sub i with state := .detaching, grant := .none } else s.sub j := fun j => by
    show (s.setSub i _).sub j = _
    rw [setSub_sub]
  have ho : ∀ j, j ≠ i → (s.enterDetaching i).sub j = s.sub j := fun j hj => by rw [hsub, if_neg hj]
  have hnd : (s.sub i).state ≠ .detaching := by
    intro hx
    rw [hx] at ha
    rcases ha with h | h <;> cases h
  refine ⟨fun j => ?_, ⟨?_, fun j => ?_⟩, k3.leave ho rfl ?_, k4.change ho ?_⟩
  · rw [hsub]
    split
    · exact ⟨m1, fun hg => (by cases hg), fun hv => (by cases hv)⟩
    · exact k1 j
  · change (s.stc.unwind ++ [i]).Nodup
    refine List.Nodup.append k2.1 (List.nodup_singleton i) ?_
    intro j hj hji
    rw [List.mem_singleton] at hji
    subst hji
    exact hnd ((k2.2 j).mp hj)
  · change j ∈ s.stc.unwind ++ [i] ↔ _
    rw [List.mem_append, List.mem_singleton, hsub, k2.2 j]
    by_cases hj : j = i
    · simp [hj]
    · simp [hj]
  · rw [hsub, if_pos rfl]
    rfl
  · rw [hsub, if_pos rfl]
    rfl

/-- Freeing an UNSETTLED record with nothing unsettled. -/
theorem State.SubsExact.free {s : State} (h : s.SubsExact) {i : SubIx} (hs : (s.sub i).state = .unsettled)
    (hc : (s.sub i).closed = none) : (s.free i).SubsExact := by
  have hg : (s.sub i).grant.isRequested = false := by
    by_contra hx
    have := (h.1 i).2.1 (by simpa using hx)
    rw [hs] at this
    rcases this with h | h <;> cases h
  exact State.SubsExact.of_stc (h.setSub (vacated_sound (s.sub i)) (by rw [hs]; simp [SubRecord.vacated, SubRecord.powerOn])
    (by rw [hg]; rfl) (by rw [hc]; rfl)) (fun _ => rfl) rfl rfl rfl

theorem State.SubsExact.freeIfSettled {s : State} (h : s.SubsExact) (i : SubIx) : (s.freeIfSettled i).SubsExact := by
  unfold State.freeIfSettled
  split
  · rename_i hc
    simp only [Bool.and_eq_true, beq_iff_eq, Bool.not_eq_true', SubRecord.unsettledUsage, Bool.or_eq_false_iff] at hc
    exact h.free hc.1 (by simpa using hc.2.2)
  · exact h

theorem State.SubsExact.endUnwinding {s : State} (h : s.SubsExact) {i : SubIx} {rest : List SubIx}
    (hu : s.stc.unwind = i :: rest) : (s.endUnwinding i).SubsExact := by
  obtain ⟨k1, k2, k3, k4⟩ := h
  obtain ⟨m1, m2, m3⟩ := k1 i
  have hd : (s.sub i).state = .detaching := (k2.2 i).mp (by rw [hu]; simp)
  have hg : (s.sub i).grant.isRequested = false := by
    by_contra hx
    have := m2 (by simpa using hx)
    rw [hd] at this
    rcases this with h | h <;> cases h
  have hnd := k2.1
  rw [hu] at hnd
  obtain ⟨hni, hnr⟩ := List.nodup_cons.mp hnd
  -- the record's new value `x`, whichever it is
  have key : ∀ (t : State) (x : SubRecord), (∀ j, t.sub j = if j = i then x else s.sub j) → x.Sound →
      x.state ≠ .detaching → x.grant.isRequested = false → x.closed.isSome = (s.sub i).closed.isSome →
      t.stc.unwind = rest → t.stc.deadlines = s.stc.deadlines → t.stc.closedCount = s.stc.closedCount →
      t.SubsExact := by
    intro t x hsub hx h1 h2 h3 h4 h5 h6
    have ho : ∀ j, j ≠ i → t.sub j = s.sub j := fun j hj => by rw [hsub, if_neg hj]
    have hi : t.sub i = x := by rw [hsub, if_pos rfl]
    refine ⟨fun j => ?_, ⟨by rw [h4]; exact hnr, fun j => ?_⟩, k3.keep ho h5 (by rw [hi, h2, hg]),
      k4.change ho (by rw [hi, h3, h6])⟩
    · rw [hsub]
      split
      · exact hx
      · exact k1 j
    · rw [h4]
      by_cases hj : j = i
      · rw [hj, hi]
        exact ⟨fun h => absurd h hni, fun h => absurd h h1⟩
      · rw [ho j hj, ← k2.2 j, hu]
        simp [hj]
  unfold State.endUnwinding
  dsimp only
  split
  · refine key _ { s.sub i with state := .unsettled } (fun j => ?_) ?_ ?_ hg rfl ?_ rfl rfl
    · show (State.setSub _ i _).sub j = _
      rw [setSub_sub]
      rfl
    · refine ⟨m1, fun hr => ?_, fun hv => (by cases hv)⟩
      rw [show ({ s.sub i with state := SubState.unsettled } : SubRecord).grant = (s.sub i).grant from rfl, hg] at hr
      cases hr
    · exact fun h => by cases h
    · show s.stc.unwind.tail = rest
      rw [hu]
      rfl
  · rename_i hn
    have hc : (s.sub i).closed = none := by
      have hn' : (s.sub i).unsettledUsage = false := Bool.eq_false_iff.mpr hn
      simp only [SubRecord.unsettledUsage, Bool.or_eq_false_iff] at hn'
      simpa using hn'.2
    refine key _ (s.sub i).vacated (fun j => ?_) (vacated_sound _) ?_ rfl ?_ ?_ rfl rfl
    · show (State.setSub _ i _).sub j = _
      rw [setSub_sub]
      rfl
    · exact fun h => by cases h
    · rw [hc]
      rfl
    · show s.stc.unwind.tail = rest
      rw [hu]
      rfl

theorem State.SubsExact.createSub {s : State} (h : s.SubsExact) {i : SubIx} (hv : (s.sub i).state = .vacant)
    (tag : Tag) (cls : SubClass) (permanent : Bool) (tariff : TariffIx) (home : Operator) :
    (s.createSub i (s.newRecord i tag cls permanent tariff home)).SubsExact := by
  unfold State.createSub
  have hclear := (h.1 i).2.2 hv
  refine State.SubsExact.recheck (h.setSub ?_ ?_ ?_ ?_) ?_
  · exact ⟨⟨fun h => absurd rfl h, fun h => absurd rfl h⟩, fun h => (by cases h), fun h => (by cases h)⟩
  · rw [hv]
    simp [State.newRecord]
  · rw [hclear]
    rfl
  · rw [hclear]
    rfl
  · rw [setSub_sub_same]
    rfl

theorem State.SubsExact.revive {s : State} (h : s.SubsExact) {i : SubIx} (hu : (s.sub i).state = .unsettled)
    (permanent : Bool) (home : Operator) : (s.revive i permanent home).SubsExact := by
  have hg : (s.sub i).grant.isRequested = false := by
    by_contra hx
    have := (h.1 i).2.1 (by simpa using hx)
    rw [hu] at this
    rcases this with h | h <;> cases h
  have h1 : (s.reviveStart i permanent home).SubsExact := by
    unfold State.reviveStart
    refine State.SubsExact.of_stc (h.setSub (r := { s.sub i with home := home, permanent := permanent, state := .attached })
      ⟨(h.1 i).1, fun _ => .inl rfl, fun hv => (by cases hv)⟩ ?_ rfl rfl) (fun _ => rfl) rfl rfl rfl
    rw [hu]
    simp
  have hl : ((s.reviveStart i permanent home).sub i).live = true := by
    show ((s.setSub i _).sub i).live = true
    rw [setSub_sub_same]
    rfl
  unfold State.revive
  dsimp only
  refine State.SubsExact.lowCredit ?_ i
  split
  · exact h1.touch hl
  · exact (h1.touch hl).recheck ((touch_follows _ i).live hl)

end Sys2Proof.Machine
end

