-- ==== Sys2Proof/Laws/FlowExact.lean ====
section
/-! SUPPORT. The flow records, the pinned counts and the flow lists stay exact (R25, R30, R40) under every operation
on a flow and on its owner. -/

namespace Sys2Proof.Machine

/-! ## Pins -/

/-- Does the pin name the link: 1, or 0? -/
def pinsOn (p : Option LinkId) (l : LinkId) : Nat := if p = some l then 1 else 0

theorem pin_eq_some {f : FlowRecord} {l : LinkId} : f.pin = some l ↔ f.state = .opened l := by
  unfold FlowRecord.pin
  split <;> rename_i h <;> simp [h]

theorem dropPin_pinnedCount (s : State) (l k : LinkId) :
    (s.dropPin l).pinnedCount k = s.pinnedCount k - pinsOn (some l) k := by
  have h1 : (s.dropPin l).pinnedCount k = (s.setPinned l (s.pinnedCount l - 1)).pinnedCount k := by
    unfold State.dropPin
    dsimp only
    split
    · rfl
    · rfl
  rw [h1, setPinned_pinnedCount]
  unfold pinsOn
  by_cases hk : k = l
  · subst hk
    simp
  · have : ¬some l = some k := fun e => hk (Option.some.inj e).symm
    rw [if_neg hk, if_neg this, Nat.sub_zero]

theorem dropPinOf_pinnedCount (s : State) (p : Option LinkId) (k : LinkId) :
    (s.dropPinOf p).pinnedCount k = s.pinnedCount k - pinsOn p k := by
  cases p with
  | none => simp [State.dropPinOf, pinsOn]
  | some l => exact dropPin_pinnedCount s l k

theorem addPinOf_pinnedCount (s : State) (p : Option LinkId) (k : LinkId) :
    (s.addPinOf p).pinnedCount k = s.pinnedCount k + pinsOn p k := by
  cases p with
  | none => simp [State.addPinOf, pinsOn]
  | some l =>
    show (s.setPinned l (s.pinnedCount l + 1)).pinnedCount k = _
    rw [setPinned_pinnedCount]
    unfold pinsOn
    by_cases hk : k = l
    · subst hk
      simp
    · have : ¬some l = some k := fun e => hk (Option.some.inj e).symm
      rw [if_neg hk, if_neg this, Nat.add_zero]

/-- A pinned count is above 0 on the link of an OPEN flow's pin. -/
theorem State.PinnedExact.covers {s : State} (h : s.PinnedExact) (i : FlowIx) (l : LinkId) :
    pinsOn (s.flow i).pin l ≤ s.pinnedCount l := by
  unfold pinsOn
  split
  · rename_i hp
    rw [h l]
    refine List.countP_pos_iff.mpr ⟨i, mem_flowIndices i, ?_⟩
    exact decide_eq_true (pin_eq_some.mp hp)
  · exact Nat.zero_le _

/-- One flow's pin changes and the counts follow. -/
theorem State.PinnedExact.change {s t : State} {i : FlowIx} (h : s.PinnedExact)
    (ho : ∀ j, j ≠ i → t.flow j = s.flow j)
    (hc : ∀ l, t.pinnedCount l + pinsOn (s.flow i).pin l = s.pinnedCount l + pinsOn (t.flow i).pin l) :
    t.PinnedExact := by
  intro l
  have hp : ∀ x : State, (if decide ((x.flow i).state = .opened l) = true then 1 else 0) = pinsOn (x.flow i).pin l := by
    intro x
    unfold pinsOn
    simp only [decide_eq_true_eq, pin_eq_some]
  have := countP_update flowIndices_nodup (mem_flowIndices i) (p := fun i => decide ((s.flow i).state = .opened l))
    (q := fun i => decide ((t.flow i).state = .opened l)) fun j hj => by rw [ho j hj]
  rw [hp s, hp t] at this
  have h1 := h l
  have h2 := hc l
  omega

/-! ## The owners' side -/

/-- The subscriber records follow, and the flows and the counts are as they were. -/
theorem State.FlowsExact.follow {s t : State} (h : s.FlowsExact) (hs : ∀ j, (s.sub j).Follows (t.sub j))
    (hf : ∀ i, t.flow i = s.flow i) (hp : ∀ l, t.pinnedCount l = s.pinnedCount l) : t.FlowsExact := by
  obtain ⟨h1, h2, h3, h4, h5⟩ := h
  refine ⟨fun i => by rw [hf]; exact h1 i, fun l => ?_, fun i hi => ?_, fun j => ?_, fun j hj => ?_⟩
  · rw [hp, h2 l]
    simp only [hf]
  · rw [hf] at hi ⊢
    obtain ⟨k1, k2, k3⟩ := h3 i hi
    have hw := hs (s.flow i).owner.index
    refine ⟨hw.live k1, by rw [hw.stamp]; exact k2, ?_⟩
    have : t.flowHandle i = s.flowHandle i := by simp only [State.flowHandle, hf]
    rw [hw.flowList, this]
    exact k3
  · rw [(hs j).flowList]
    refine ⟨(h4 j).1, fun x hx => ?_⟩
    rw [hf]
    exact (h4 j).2 x hx
  · rw [(hs j).flowList]
    refine h5 j ?_
    rcases (hs j).state with he | ⟨_, he⟩
    · rwa [← he]
    · rcases hj with hj | hj <;> rw [hj] at he <;> rcases he with he | he <;> cases he

theorem State.FollowsAt.all {s t : State} {i : SubIx} (h : s.FollowsAt i t) : ∀ j, (s.sub j).Follows (t.sub j) := by
  intro j
  by_cases hj : j = i
  · rw [hj]
    exact h.self
  · rw [h.others j hj]
    exact .refl _

theorem State.FlowsExact.followAt {s t : State} {i : SubIx} (h : s.FlowsExact) (hs : s.FollowsAt i t)
    (hf : t.ftc = s.ftc) : t.FlowsExact :=
  h.follow hs.all (fun i => by simp [State.flow, hf]) fun l => by simp [State.pinnedCount, hf]

/-- A record without flows is written by one without flows. -/
theorem State.FlowsExact.writeEmpty {s t : State} {i : SubIx} (h : s.FlowsExact) (he : (s.sub i).flowList = [])
    (ho : ∀ j, j ≠ i → t.sub j = s.sub j) (hi : (t.sub i).flowList = []) (hf : t.ftc = s.ftc) : t.FlowsExact := by
  have hflow : ∀ k, t.flow k = s.flow k := fun k => by simp [State.flow, hf]
  obtain ⟨h1, h2, h3, h4, h5⟩ := h
  refine ⟨fun k => by rw [hflow]; exact h1 k, fun l => ?_, fun k hk => ?_, fun j => ?_, fun j hj => ?_⟩
  · rw [show t.pinnedCount l = s.pinnedCount l by simp [State.pinnedCount, hf], h2 l]
    simp only [hflow]
  · rw [hflow] at hk ⊢
    obtain ⟨k1, k2, k3⟩ := h3 k hk
    have hne : (s.flow k).owner.index ≠ i := by
      intro e
      rw [e, he] at k3
      cases k3
    rw [ho _ hne]
    refine ⟨k1, k2, ?_⟩
    simpa only [State.flowHandle, hflow] using k3
  · by_cases hj : j = i
    · rw [hj, hi]
      exact ⟨List.nodup_nil, fun x hx => by cases hx⟩
    · rw [ho j hj]
      refine ⟨(h4 j).1, fun x hx => ?_⟩
      rw [hflow]
      exact (h4 j).2 x hx
  · by_cases hj' : j = i
    · rw [hj']
      exact hi
    · rw [ho j hj'] at hj ⊢
      exact h5 j hj

/-- A live record takes another live state that may hold flows. -/
theorem State.FlowsExact.writeState {s t : State} {i : SubIx} (h : s.FlowsExact)
    (ho : ∀ j, j ≠ i → t.sub j = s.sub j) (hl : (t.sub i).live = true) (hst : (t.sub i).stamp = (s.sub i).stamp)
    (hfl : (t.sub i).flowList = (s.sub i).flowList) (hu : (t.sub i).state = .unsettled → (s.sub i).flowList = [])
    (hf : t.ftc = s.ftc) : t.FlowsExact := by
  have hflow : ∀ k, t.flow k = s.flow k := fun k => by simp [State.flow, hf]
  obtain ⟨h1, h2, h3, h4, h5⟩ := h
  refine ⟨fun k => by rw [hflow]; exact h1 k, fun l => ?_, fun k hk => ?_, fun j => ?_, fun j hj => ?_⟩
  · rw [show t.pinnedCount l = s.pinnedCount l by simp [State.pinnedCount, hf], h2 l]
    simp only [hflow]
  · rw [hflow] at hk ⊢
    obtain ⟨k1, k2, k3⟩ := h3 k hk
    have hh : t.flowHandle k = s.flowHandle k := by simp only [State.flowHandle, hflow]
    rw [hh]
    by_cases he : (s.flow k).owner.index = i
    · rw [he] at k2 k3 ⊢
      exact ⟨hl, by rw [hst]; exact k2, by rw [hfl]; exact k3⟩
    · rw [ho _ he]
      exact ⟨k1, k2, k3⟩
  · have hlist : (t.sub j).flowList = (s.sub j).flowList := by
      by_cases hj : j = i
      · rw [hj, hfl]
      · rw [ho j hj]
    rw [hlist]
    refine ⟨(h4 j).1, fun x hx => ?_⟩
    rw [hflow]
    exact (h4 j).2 x hx
  · by_cases hj' : j = i
    · subst hj'
      rw [hfl]
      rcases hj with hj | hj
      · simp [SubRecord.live, hj] at hl
      · exact hu hj
    · rw [ho j hj'] at hj ⊢
      exact h5 j hj

/-! ## The flows' side -/

/-- A live flow is written with its stamp and owner, and pins and counts agree. -/
theorem State.FlowsExact.writeFlow {s t : State} {i : FlowIx} (h : s.FlowsExact) (hs : ∀ j, t.sub j = s.sub j)
    (ho : ∀ j, j ≠ i → t.flow j = s.flow j) (hli : (s.flow i).live = true) (hl : (t.flow i).live = true)
    (hst : (t.flow i).stamp = (s.flow i).stamp) (how : (t.flow i).owner = (s.flow i).owner)
    (hc : ∀ l, t.pinnedCount l + pinsOn (s.flow i).pin l = s.pinnedCount l + pinsOn (t.flow i).pin l) :
    t.FlowsExact := by
  obtain ⟨h1, h2, h3, h4, h5⟩ := h
  refine ⟨fun k => ?_, h2.change ho hc, fun k hk => ?_, fun j => ?_, fun j hj => ?_⟩
  · by_cases hk : k = i
    · rw [hk]
      intro hv
      simp [FlowRecord.live, hv] at hl
    · rw [ho k hk]
      exact h1 k
  · by_cases he : k = i
    · subst he
      rw [how, hs]
      have hh : t.flowHandle k = s.flowHandle k := by simp only [State.flowHandle, hst]
      rw [hh]
      exact h3 k hli
    · rw [ho k he] at hk ⊢
      rw [hs]
      have hh : t.flowHandle k = s.flowHandle k := by simp only [State.flowHandle, ho k he]
      rw [hh]
      exact h3 k hk
  · rw [hs]
    refine ⟨(h4 j).1, fun x hx => ?_⟩
    have hx' := (h4 j).2 x hx
    by_cases he : x.index = i
    · rw [he] at hx' ⊢
      exact ⟨hl, by rw [hst]; exact hx'.2.1, by rw [how]; exact hx'.2.2⟩
    · rw [ho _ he]
      exact hx'
  · rw [hs] at hj ⊢
    exact h5 j hj

/-- A live flow's class, mark, user word or key is written. -/
theorem State.FlowsExact.setFlow {s : State} {i : FlowIx} {f : FlowRecord} (h : s.FlowsExact)
    (hli : (s.flow i).live = true) (hst : f.stamp = (s.flow i).stamp) (how : f.owner = (s.flow i).owner)
    (hstate : f.state = (s.flow i).state) : (s.setFlow i f).FlowsExact := by
  have hi : (s.setFlow i f).flow i = f := by
    rw [setFlow_flow, if_pos rfl]
  refine h.writeFlow (i := i) (fun _ => rfl) (fun j hj => by rw [setFlow_flow, if_neg hj]) hli ?_ ?_ ?_ fun l => ?_
  · rw [hi]
    simpa [FlowRecord.live, hstate] using hli
  · rw [hi, hst]
  · rw [hi, how]
  · rw [hi]
    have : f.pin = (s.flow i).pin := by simp only [FlowRecord.pin, hstate]
    rw [this]
    rfl

theorem State.FlowsExact.repinFlow {s : State} {i : FlowIx} (h : s.FlowsExact) (hli : (s.flow i).live = true)
    (p : Option LinkId) : (s.repinFlow i p).FlowsExact := by
  have hcov := h.2.1.covers i
  have hsub : ∀ x j, (s.repinFlow i x).sub j = s.sub j := by
    intro x j
    unfold State.repinFlow
    cases x <;> simp [State.addPin]
  cases p with
  | none =>
    have hflow : ∀ j, (s.repinFlow i none).flow j = if j = i then { s.flow i with state := .held } else s.flow j := by
      intro j
      show ((s.dropPinOf (s.flow i).pin).setFlow i _).flow j = _
      rw [setFlow_flow]
      simp
    refine h.writeFlow (i := i) (hsub none) (fun j hj => by rw [hflow, if_neg hj]) hli ?_ ?_ ?_ fun l => ?_
    · rw [hflow, if_pos rfl]
      rfl
    · rw [hflow, if_pos rfl]
    · rw [hflow, if_pos rfl]
    · have : (s.repinFlow i none).pinnedCount l = (s.dropPinOf (s.flow i).pin).pinnedCount l := rfl
      rw [this, dropPinOf_pinnedCount, hflow, if_pos rfl]
      have h3 : ({ s.flow i with state := .held } : FlowRecord).pin = none := rfl
      rw [h3]
      have h0 : pinsOn none l = 0 := rfl
      have := hcov l
      omega
  | some k =>
    have hflow : ∀ j, (s.repinFlow i (some k)).flow j =
        if j = i then { s.flow i with state := .opened k } else s.flow j := by
      intro j
      show ((s.dropPinOf (s.flow i).pin).setFlow i _).flow j = _
      rw [setFlow_flow]
      simp
    refine h.writeFlow (i := i) (hsub (some k)) (fun j hj => by rw [hflow, if_neg hj]) hli ?_ ?_ ?_ fun l => ?_
    · rw [hflow, if_pos rfl]
      rfl
    · rw [hflow, if_pos rfl]
    · rw [hflow, if_pos rfl]
    · have h1 : (s.repinFlow i (some k)).pinnedCount l =
          (((s.dropPinOf (s.flow i).pin).setFlow i { s.flow i with state := .opened k }).addPinOf (some k)).pinnedCount l := rfl
      have h2 : ((s.dropPinOf (s.flow i).pin).setFlow i { s.flow i with state := .opened k }).pinnedCount l =
          (s.dropPinOf (s.flow i).pin).pinnedCount l := rfl
      rw [h1, addPinOf_pinnedCount, h2, dropPinOf_pinnedCount, hflow, if_pos rfl]
      have h3 : ({ s.flow i with state := .opened k } : FlowRecord).pin = some k := rfl
      rw [h3]
      have := hcov l
      omega

/-! ## Retirement -/

theorem retire_sub (s : State) (i : FlowIx) (j : SubIx) : (s.retire i).sub j =
    if j = (s.flow i).owner.index then
      { s.sub j with flowList := (s.sub j).flowList.erase { index := i, stamp := (s.flow i).stamp } } else s.sub j := by
  have : (s.retire i).sub j =
      ((s.setFlow i (s.flow i).vacated).unlistFlow (s.flow i).owner.index
        { index := i, stamp := (s.flow i).stamp }).sub j := by
    unfold State.retire
    simp
  rw [this]
  unfold State.unlistFlow
  rw [setSub_sub]
  split
  · rename_i h
    rw [h]
    rfl
  · rfl

theorem retire_flow (s : State) (i j : FlowIx) :
    (s.retire i).flow j = if j = i then (s.flow i).vacated else s.flow j := by
  have : (s.retire i).flow j = (s.setFlow i (s.flow i).vacated).flow j := by
    unfold State.retire State.unlistFlow
    simp
  rw [this, setFlow_flow]

theorem retire_pinnedCount (s : State) (i : FlowIx) (l : LinkId) :
    (s.retire i).pinnedCount l = s.pinnedCount l - pinsOn (s.flow i).pin l := by
  unfold State.retire
  rw [dropPinOf_pinnedCount]
  rfl

theorem State.FlowsExact.retire {s : State} (h : s.FlowsExact) {i : FlowIx} (hli : (s.flow i).live = true) :
    (s.retire i).FlowsExact := by
  have hcov := h.2.1.covers i
  obtain ⟨h1, h2, h3, h4, h5⟩ := h
  have hvac : ((s.retire i).flow i) = (s.flow i).vacated := by rw [retire_flow, if_pos rfl]
  have ho : ∀ j, j ≠ i → (s.retire i).flow j = s.flow j := fun j hj => by rw [retire_flow, if_neg hj]
  have hlist : ∀ j, ((s.retire i).sub j).flowList = (s.sub j).flowList ∨ (j = (s.flow i).owner.index ∧
      ((s.retire i).sub j).flowList = (s.sub j).flowList.erase { index := i, stamp := (s.flow i).stamp }) := by
    intro j
    rw [retire_sub]
    split
    · rename_i hj
      exact .inr ⟨hj, rfl⟩
    · exact .inl rfl
  have hrest : ∀ j, ((s.retire i).sub j).live = (s.sub j).live ∧ ((s.retire i).sub j).stamp = (s.sub j).stamp ∧
      ((s.retire i).sub j).state = (s.sub j).state := by
    intro j
    rw [retire_sub]
    split <;> exact ⟨rfl, rfl, rfl⟩
  refine ⟨fun k => ?_, h2.change ho fun l => ?_, fun k hk => ?_, fun j => ?_, fun j hj => ?_⟩
  · by_cases hk : k = i
    · rw [hk, hvac]
      intro _
      rfl
    · rw [ho k hk]
      exact h1 k
  · rw [retire_pinnedCount, hvac]
    have := hcov l
    have h0 : pinsOn (s.flow i).vacated.pin l = 0 := rfl
    omega
  · by_cases he : k = i
    · rw [he, hvac] at hk
      cases hk
    · rw [ho k he] at hk ⊢
      obtain ⟨k1, k2, k3⟩ := h3 k hk
      have hh : (s.retire i).flowHandle k = s.flowHandle k := by simp only [State.flowHandle, ho k he]
      obtain ⟨r1, r2, r3⟩ := hrest (s.flow k).owner.index
      refine ⟨by rw [r1]; exact k1, by rw [r2]; exact k2, ?_⟩
      rw [hh]
      rcases hlist (s.flow k).owner.index with e | ⟨_, e⟩
      · rw [e]
        exact k3
      · rw [e]
        refine (List.mem_erase_of_ne ?_).mpr k3
        intro hx
        exact he (congrArg FlowHandle.index hx)
  · rcases hlist j with e | ⟨hj, e⟩
    · rw [e]
      refine ⟨(h4 j).1, fun x hx => ?_⟩
      obtain ⟨x1, x2, x3⟩ := (h4 j).2 x hx
      have hne : x.index ≠ i := by
        intro hxi
        rw [hxi] at x2 x3
        have hmem : ({ index := i, stamp := (s.flow i).stamp } : FlowHandle) ∈ (s.sub j).flowList := by
          have : x = { index := i, stamp := (s.flow i).stamp } := by
            cases x
            simp only at hxi x2
            rw [hxi, x2]
          rw [← this]
          exact hx
        have hj : j = (s.flow i).owner.index := x3.symm
        have e' : ((s.retire i).sub j).flowList =
            (s.sub j).flowList.erase { index := i, stamp := (s.flow i).stamp } := by
          rw [retire_sub, if_pos hj]
        rw [e] at e'
        have hnot := (h4 j).1.not_mem_erase (a := ({ index := i, stamp := (s.flow i).stamp } : FlowHandle))
        rw [← e'] at hnot
        exact hnot hmem
      rw [ho _ hne]
      exact ⟨x1, x2, x3⟩
    · rw [e]
      refine ⟨(h4 j).1.erase _, fun x hx => ?_⟩
      obtain ⟨x1, x2, x3⟩ := (h4 j).2 x (List.mem_of_mem_erase hx)
      have hne : x.index ≠ i := by
        intro hxi
        rw [hxi] at x2
        have : x = { index := i, stamp := (s.flow i).stamp } := by
          cases x
          simp only at hxi x2
          rw [hxi, x2]
        rw [this] at hx
        exact (h4 j).1.not_mem_erase hx
      rw [ho _ hne]
      exact ⟨x1, x2, x3⟩
  · have h0 := h5 j (by rw [(hrest j).2.2] at hj; exact hj)
    rcases hlist j with e | ⟨_, e⟩
    · rw [e]
      exact h0
    · rw [e, h0]
      rfl

/-- The owner of a live flow is live. -/
theorem State.FlowsExact.owner_live {s : State} (h : s.FlowsExact) {i : FlowIx} (hli : (s.flow i).live = true) :
    (s.sub (s.flow i).owner.index).live = true := (h.2.2.1 i hli).1

theorem State.SubsExact.retire {s : State} (h : s.SubsExact) {i : FlowIx}
    (hl : (s.sub (s.flow i).owner.index).live = true) : (s.retire i).SubsExact := by
  refine h.change (i := (s.flow i).owner.index) (fun j hj => by rw [retire_sub, if_neg hj]) ?_ ?_ ?_ ?_ ?_ ?_ ?_
  · rw [retire_sub, if_pos rfl]
    exact (h.1 _).of_live hl ⟨rfl, rfl⟩ ⟨rfl, rfl⟩ rfl rfl
  · simp
  · simp
  · simp
  · rw [retire_sub, if_pos rfl]
  · rw [retire_sub, if_pos rfl]
  · rw [retire_sub, if_pos rfl]

/-! ## Creation -/

theorem createFlow_parts (s : State) (i : FlowIx) (k : FlowKey) (c : FlowClass) (h : SubHandle) :
    (∀ j, (s.createFlow i k c h).flow j = if j = i then s.newFlow i k c h (s.selectLink c none) else s.flow j) ∧
    (∀ j, (s.createFlow i k c h).sub j = if j = h.index then
      { s.sub j with flowList := (s.sub j).flowList ++ [{ index := i, stamp := (s.flow i).stamp }] } else s.sub j) ∧
    ∀ l, (s.createFlow i k c h).pinnedCount l = s.pinnedCount l + pinsOn (s.selectLink c none) l := by
  unfold State.createFlow
  dsimp only
  generalize s.selectLink c none = p
  refine ⟨fun j => ?_, fun j => ?_, fun l => ?_⟩
  · have : ((((s.setFlow i (s.newFlow i k c h p)).addPinOf p).listFlow h.index
        { index := i, stamp := (s.newFlow i k c h p).stamp }).useWay i).flow j =
        (s.setFlow i (s.newFlow i k c h p)).flow j := by
      cases p <;> rfl
    rw [this, setFlow_flow]
  · have : ((((s.setFlow i (s.newFlow i k c h p)).addPinOf p).listFlow h.index
        { index := i, stamp := (s.newFlow i k c h p).stamp }).useWay i).sub j =
        (s.listFlow h.index { index := i, stamp := (s.flow i).stamp }).sub j := by
      cases p <;> rfl
    rw [this]
    unfold State.listFlow
    rw [setSub_sub]
    split
    · rename_i hj
      rw [hj]
    · rfl
  · have : ((((s.setFlow i (s.newFlow i k c h p)).addPinOf p).listFlow h.index
        { index := i, stamp := (s.newFlow i k c h p).stamp }).useWay i).pinnedCount l =
        (s.addPinOf p).pinnedCount l := by
      cases p <;> rfl
    rw [this, addPinOf_pinnedCount]

theorem newFlow_pin (s : State) (i : FlowIx) (k : FlowKey) (c : FlowClass) (h : SubHandle) (p : Option LinkId) :
    (s.newFlow i k c h p).pin = p := by
  cases p <;> rfl

theorem State.FlowsExact.createFlow {s : State} (h : s.FlowsExact) {i : FlowIx} (hv : (s.flow i).live = false)
    (k : FlowKey) (c : FlowClass) {o : SubHandle} (hl : (s.sub o.index).live = true)
    (hst : (s.sub o.index).stamp = o.stamp) (hu : (s.sub o.index).state ≠ .unsettled) :
    (s.createFlow i k c o).FlowsExact := by
  obtain ⟨p1, p2, p3⟩ := createFlow_parts s i k c o
  generalize s.createFlow i k c o = t at p1 p2 p3
  obtain ⟨h1, h2, h3, h4, h5⟩ := h
  have ho : ∀ j, j ≠ i → t.flow j = s.flow j := fun j hj => by rw [p1, if_neg hj]
  have hi : t.flow i = s.newFlow i k c o (s.selectLink c none) := by rw [p1, if_pos rfl]
  have hpin0 : ∀ l, pinsOn (s.flow i).pin l = 0 := by
    intro l
    have : (s.flow i).state = .vacant := by simpa [FlowRecord.live] using hv
    simp [pinsOn, FlowRecord.pin, this]
  have hsame : ∀ j, (t.sub j).live = (s.sub j).live ∧ (t.sub j).stamp = (s.sub j).stamp ∧
      (t.sub j).state = (s.sub j).state := by
    intro j
    rw [p2]
    split <;> exact ⟨rfl, rfl, rfl⟩
  have hlist : ∀ j, (t.sub j).flowList = (s.sub j).flowList ∨ (j = o.index ∧
      (t.sub j).flowList = (s.sub j).flowList ++ [{ index := i, stamp := (s.flow i).stamp }]) := by
    intro j
    rw [p2]
    split
    · rename_i hj
      exact .inr ⟨hj, rfl⟩
    · exact .inl rfl
  have hold : ∀ j, ∀ x ∈ (s.sub j).flowList, x.index ≠ i := by
    intro j x hx e
    have := ((h4 j).2 x hx).1
    rw [e, hv] at this
    cases this
  refine ⟨fun j => ?_, h2.change ho fun l => ?_, fun j hj => ?_, fun j => ?_, fun j hj => ?_⟩
  · by_cases hj : j = i
    · rw [hj, hi]
      intro hx
      unfold State.newFlow at hx
      split at hx <;> cases hx
    · rw [ho j hj]
      exact h1 j
  · rw [p3, hpin0, hi, newFlow_pin]
    rfl
  · by_cases he : j = i
    · subst he
      have how : (t.flow j).owner = o := by rw [hi]; rfl
      rw [how]
      obtain ⟨r1, r2, _⟩ := hsame o.index
      refine ⟨by rw [r1]; exact hl, by rw [r2]; exact hst, ?_⟩
      have hh : t.flowHandle j = { index := j, stamp := (s.flow j).stamp } := by
        simp only [State.flowHandle, hi]
        rfl
      rw [hh, p2, if_pos rfl]
      simp
    · rw [ho j he] at hj ⊢
      obtain ⟨k1, k2, k3⟩ := h3 j hj
      obtain ⟨r1, r2, _⟩ := hsame (s.flow j).owner.index
      have hh : t.flowHandle j = s.flowHandle j := by simp only [State.flowHandle, ho j he]
      refine ⟨by rw [r1]; exact k1, by rw [r2]; exact k2, ?_⟩
      rw [hh]
      rcases hlist (s.flow j).owner.index with e | ⟨_, e⟩
      · rw [e]
        exact k3
      · rw [e]
        exact List.mem_append_left _ k3
  · have hold' : ∀ x ∈ (s.sub j).flowList, (t.flow x.index).live = true ∧ (t.flow x.index).stamp = x.stamp ∧
        (t.flow x.index).owner.index = j := by
      intro x hx
      rw [ho _ (hold j x hx)]
      exact (h4 j).2 x hx
    rcases hlist j with e | ⟨hj, e⟩
    · rw [e]
      exact ⟨(h4 j).1, hold'⟩
    · rw [e]
      refine ⟨List.Nodup.append (h4 j).1 (List.nodup_singleton _) ?_, fun x hx => ?_⟩
      · intro x hx hx'
        rw [List.mem_singleton] at hx'
        exact hold j x hx (by rw [hx'])
      · rcases List.mem_append.mp hx with hx | hx
        · exact hold' x hx
        · rw [List.mem_singleton] at hx
          subst hx
          dsimp only
          rw [hi]
          refine ⟨?_, rfl, hj.symm⟩
          unfold State.newFlow FlowRecord.live
          cases s.selectLink c none <;> rfl
  · rw [(hsame j).2.2] at hj
    have hne : j ≠ o.index := by
      rintro rfl
      rcases hj with hj | hj
      · simp [SubRecord.live, hj] at hl
      · exact hu hj
    rw [p2, if_neg hne]
    exact h5 j hj

theorem State.SubsExact.createFlow {s : State} (h : s.SubsExact) (i : FlowIx) (k : FlowKey) (c : FlowClass)
    {o : SubHandle} (hl : (s.sub o.index).live = true) : (s.createFlow i k c o).SubsExact := by
  obtain ⟨_, p2, _⟩ := createFlow_parts s i k c o
  refine h.change (i := o.index) (fun j hj => by rw [p2, if_neg hj]) ?_ ?_ ?_ ?_ ?_ ?_ ?_
  · rw [p2, if_pos rfl]
    exact (h.1 _).of_live hl ⟨rfl, rfl⟩ ⟨rfl, rfl⟩ rfl rfl
  · simp
  · simp
  · simp
  · rw [p2, if_pos rfl]
  · rw [p2, if_pos rfl]
  · rw [p2, if_pos rfl]

end Sys2Proof.Machine
end

