-- ==== Sys2Proof/Laws/RecordsExact.lean ====
section
/-! SUPPORT. Subscriber and flow records stay exact together under the operations of the commands, and under a
clearing. -/

namespace Sys2Proof.Machine

/-! ## Nothing of the records changes -/

theorem State.RecordsExact.of_eq {s t : State} (h : s.RecordsExact) (hs : t.stc.subs = s.stc.subs)
    (hu : t.stc.unwind = s.stc.unwind) (hd : t.stc.deadlines = s.stc.deadlines)
    (hc : t.stc.closedCount = s.stc.closedCount) (hf : t.ftc.flows = s.ftc.flows)
    (hp : t.ftc.pinned = s.ftc.pinned) : t.RecordsExact := by
  have h1 : ∀ i, t.sub i = s.sub i := fun i => by simp [State.sub, hs]
  have h2 : ∀ i, t.flow i = s.flow i := fun i => by simp [State.flow, hf]
  refine ⟨h.1.of_stc h1 hu hd hc, h.2.follow (fun i => ?_) h2 fun l => by simp [State.pinnedCount, hp]⟩
  rw [h1]
  exact .refl _

theorem State.RecordsExact.of_tables {s t : State} (h : s.RecordsExact) (hs : t.stc = s.stc) (hf : t.ftc = s.ftc) :
    t.RecordsExact := h.of_eq (by rw [hs]) (by rw [hs]) (by rw [hs]) (by rw [hs]) (by rw [hf]) (by rw [hf])

theorem State.RecordsExact.finish {t : Taken} (h : t.1.RecordsExact) (ch : Chan) : (t.finish ch).RecordsExact :=
  h.of_tables (by simp [Taken.finish]) (by simp [Taken.finish])

theorem State.RecordsExact.grantTo {s : State} (h : s.RecordsExact) (o : Owner) (ch : Chan) :
    (s.grantTo o ch).RecordsExact := by
  cases o <;> exact h.of_eq rfl rfl rfl rfl rfl rfl

/-! ## One subscriber -/

theorem State.RecordsExact.touch {s : State} (h : s.RecordsExact) {i : SubIx} (hl : (s.sub i).live = true) :
    (s.touch i).RecordsExact := ⟨h.1.touch hl, h.2.followAt (touch_follows s i) (by simp)⟩

theorem State.RecordsExact.lazy {s : State} (h : s.RecordsExact) {i : SubIx} (hl : (s.sub i).live = true) :
    (s.lazy i).RecordsExact := ⟨h.1.lazy hl, h.2.followAt (lazy_follows s i) (by simp)⟩

theorem State.RecordsExact.chargeSub {s : State} (h : s.RecordsExact) {i : SubIx} (hl : (s.sub i).live = true)
    (m n : Nat) : (s.chargeSub i m n).RecordsExact :=
  ⟨h.1.chargeSub hl m n, h.2.followAt (chargeSub_follows s i m n) (by simp)⟩

theorem applyGrantTo_follows (s : State) (i : SubIx) (m n : Word) : s.FollowsAt i (s.applyGrantTo i m n) := by
  unfold State.applyGrantTo
  refine State.FollowsAt.trans (t := (s.setSub i ((s.sub i).granted m n)).leaveDeadlines i) ?_ (lowCredit_follows _ i)
  exact (State.FollowsAt.set (r := (s.sub i).granted m n) ⟨rfl, rfl, rfl, rfl, rfl, .inl rfl⟩).of_sub fun _ => rfl

theorem State.RecordsExact.applyGrantTo {s : State} (h : s.RecordsExact) {i : SubIx} (hl : (s.sub i).live = true)
    (m n : Word) : (s.applyGrantTo i m n).RecordsExact :=
  ⟨h.1.applyGrantTo hl m n, h.2.followAt (applyGrantTo_follows s i m n) (by simp)⟩

theorem overdrawn_follows (s : State) (r : SubRecord) : r.Follows (s.overdrawn r) := by
  unfold State.overdrawn
  split
  · exact .refl _
  · dsimp only
    split
    · exact ⟨rfl, rfl, rfl, rfl, rfl, .inl rfl⟩
    · exact .refl _

theorem expireGrant_follows (s : State) (i : SubIx) : s.FollowsAt i (s.expireGrant i) := by
  unfold State.expireGrant
  have h0 : (s.sub i).Follows { s.sub i with grant := .timedOut } := ⟨rfl, rfl, rfl, rfl, rfl, .inl rfl⟩
  exact (State.FollowsAt.set (h0.trans (overdrawn_follows s _))).of_sub fun _ => rfl

theorem State.RecordsExact.expireGrant {s : State} (h : s.RecordsExact) {i : SubIx}
    (hg : (s.sub i).grant.isRequested = true) : (s.expireGrant i).RecordsExact :=
  ⟨h.1.expireGrant hg, h.2.followAt (expireGrant_follows s i) (by simp)⟩

theorem State.RecordsExact.settleParts {s : State} (h : s.RecordsExact) {i : SubIx} (hl : (s.sub i).live = true)
    (c d : Option ClosedSlot) (hc : c.isSome = true → (s.sub i).closed.isSome = true) :
    (s.settleParts i c d).RecordsExact :=
  ⟨h.1.settleParts hl c d hc, h.2.followAt (settleParts_follows s i c d) (by simp)⟩

theorem free_sub (s : State) (i j : SubIx) : (s.free i).sub j = if j = i then (s.sub i).vacated else s.sub j := by
  show (s.setSub i _).sub j = _
  rw [setSub_sub]

theorem State.FlowsExact.free {s : State} (h : s.FlowsExact) {i : SubIx} (he : (s.sub i).flowList = []) :
    (s.free i).FlowsExact :=
  h.writeEmpty he (fun j hj => by rw [free_sub, if_neg hj]) (by rw [free_sub, if_pos rfl]; rfl) (by simp)

theorem State.RecordsExact.freeIfSettled {s : State} (h : s.RecordsExact) (i : SubIx) :
    (s.freeIfSettled i).RecordsExact := by
  refine ⟨h.1.freeIfSettled i, ?_⟩
  unfold State.freeIfSettled
  split
  · rename_i hc
    simp only [Bool.and_eq_true, beq_iff_eq] at hc
    exact h.2.free (h.2.2.2.2.2 i (.inr hc.1))
  · exact h.2

theorem State.RecordsExact.postUsage {s : State} (h : s.RecordsExact) {i : SubIx} (hl : (s.sub i).live = true)
    (c : FlowClass) (m n : Word) : (s.postUsage i c m n).RecordsExact := by
  have h1 := h.touch hl
  have hl1 := (touch_follows s i).live hl
  unfold State.postUsage
  dsimp only
  generalize s.touch i = t at h1 hl1
  split
  · have h2 : (t.markMixed i).RecordsExact := by
      refine ⟨h1.1.markMixed hl1, h1.2.followAt (i := i) ?_ (by simp)⟩
      unfold State.markMixed
      split
      · exact .set ⟨rfl, rfl, rfl, rfl, rfl, .inl rfl⟩
      · exact .refl ..
    refine h2.chargeSub ?_ _ _
    unfold State.markMixed
    split
    · exact live_setSub hl1
    · exact hl1
  · exact h1

theorem State.RecordsExact.enterDetaching {s : State} (h : s.RecordsExact) {i : SubIx}
    (ha : (s.sub i).state.admitted) : (s.enterDetaching i).RecordsExact := by
  have hsub : ∀ j, (s.enterDetaching i).sub j =
      if j = i then { s.sub i with state := .detaching, grant := .none } else s.sub j := fun j => by
    show (s.setSub i _).sub j = _
    rw [setSub_sub]
  refine ⟨h.1.enterDetaching ha, h.2.writeState (i := i) (fun j hj => by rw [hsub, if_neg hj]) ?_ ?_ ?_ ?_ (by simp)⟩ <;>
    rw [hsub, if_pos rfl]
  · rfl
  · intro hx
    cases hx

/-- A write of a live record that leaves identity, flows, credit, grant state, state and closed slot. -/
theorem State.RecordsExact.setSub {s : State} {i : SubIx} (r : SubRecord) (h : s.RecordsExact)
    (hl : (s.sub i).live = true) (hw : (s.sub i).Follows r)
    (hb : r.byteAllowance = (s.sub i).byteAllowance ∧ r.byteOverrun = (s.sub i).byteOverrun)
    (hn : r.secondsAllowance = (s.sub i).secondsAllowance ∧ r.secondsOverrun = (s.sub i).secondsOverrun)
    (hg : r.grant = (s.sub i).grant) (hs : r.state = (s.sub i).state) (hc : r.closed = (s.sub i).closed) :
    (s.setSub i r).RecordsExact :=
  ⟨h.1.setSub_plain hl hb hn hg hs hc, h.2.followAt (.set hw) (by simp)⟩

theorem State.RecordsExact.remark {s : State} (h : s.RecordsExact) {i : SubIx} (hl : (s.sub i).live = true) :
    (s.remark i).RecordsExact := by
  unfold State.remark
  exact h.setSub { s.sub i with mark := s.tw.previousMark } hl ⟨rfl, rfl, rfl, rfl, rfl, .inl rfl⟩ ⟨rfl, rfl⟩
    ⟨rfl, rfl⟩ rfl rfl rfl

theorem live_of_state {r : SubRecord} (h : r.state ≠ .vacant) : r.live = true := by
  simpa [SubRecord.live] using h

theorem State.RecordsExact.ageSub {s : State} (h : s.RecordsExact) (i : SubIx) : (s.ageSub i).RecordsExact := by
  unfold State.ageSub
  split
  · rename_i hd
    have hl : (s.sub i).live = true := by
      simp only [State.doomedSub, Bool.and_eq_true] at hd
      exact hd.1
    split
    · rename_i hr
      have ha : (s.sub i).state.admitted := by
        simp only [SubRecord.retires, Bool.and_eq_true, Bool.or_eq_true, beq_iff_eq] at hr
        exact hr.1.2
      refine (h.enterDetaching ha).remark ?_
      show ((s.setSub i _).sub i).live = true
      rw [setSub_sub_same]
      rfl
    · exact h.remark hl
  · exact h

theorem State.RecordsExact.lazyVisit {s : State} (h : s.RecordsExact) (i : SubIx) : (s.lazyVisit i).RecordsExact := by
  unfold State.lazyVisit
  split
  · exact h.lazy (by assumption)
  · exact h

theorem State.RecordsExact.createSub {s : State} (h : s.RecordsExact) {i : SubIx} (hv : (s.sub i).state = .vacant)
    (tag : Tag) (cls : SubClass) (permanent : Bool) (tariff : TariffIx) (home : Operator) :
    (s.createSub i (s.newRecord i tag cls permanent tariff home)).RecordsExact := by
  refine ⟨h.1.createSub hv .., ?_⟩
  have h1 : (s.setSub i (s.newRecord i tag cls permanent tariff home)).FlowsExact :=
    h.2.writeEmpty (i := i) (h.2.2.2.2.2 i (.inl hv)) (fun j hj => setSub_sub_ne s _ hj)
      (by rw [setSub_sub_same]; rfl) (by simp)
  exact h1.followAt (recheck_follows _ i) (by simp)

theorem State.RecordsExact.revive {s : State} (h : s.RecordsExact) {i : SubIx} (hu : (s.sub i).state = .unsettled)
    (permanent : Bool) (home : Operator) : (s.revive i permanent home).RecordsExact := by
  refine ⟨h.1.revive hu .., ?_⟩
  have h1 : (s.reviveStart i permanent home).FlowsExact := by
    have hsub : ∀ j, (s.reviveStart i permanent home).sub j =
        if j = i then { s.sub i with home := home, permanent := permanent, state := .attached } else s.sub j :=
      fun j => by
        show (s.setSub i _).sub j = _
        rw [setSub_sub]
    refine h.2.writeState (i := i) (fun j hj => by rw [hsub, if_neg hj]) ?_ ?_ ?_ ?_ (by simp) <;>
      rw [hsub, if_pos rfl]
    · rfl
    · intro hx
      cases hx
  unfold State.revive
  dsimp only
  generalize s.reviveStart i permanent home = u at h1
  refine State.FlowsExact.followAt ?_ (lowCredit_follows _ i) (by simp)
  split
  · exact h1.followAt (touch_follows u i) (by simp)
  · exact (h1.followAt (touch_follows u i) (by simp)).followAt (recheck_follows _ i) (by simp)

/-! ## Unwinding -/

theorem State.RecordsExact.retire {s : State} (h : s.RecordsExact) {i : FlowIx} (hl : (s.flow i).live = true) :
    (s.retire i).RecordsExact := ⟨h.1.retire (h.2.owner_live hl), h.2.retire hl⟩

theorem State.FlowsExact.listed_live {s : State} (h : s.FlowsExact) {i : SubIx} {x : FlowHandle}
    (hx : x ∈ (s.sub i).flowList) : (s.flow x.index).live = true := ((h.2.2.2.1 i).2 x hx).1

theorem State.unwindFlow_live {s : State} (h : s.FlowsExact) {x : FlowHandle} (hx : s.unwindFlow = some x) :
    (s.flow x.index).live = true := by
  unfold State.unwindFlow at hx
  split at hx
  · cases hx
  · exact h.listed_live (List.mem_of_mem_head? hx)

theorem State.unwindDone_spec {s : State} {i : SubIx} (hx : s.unwindDone = some i) :
    ∃ rest, s.stc.unwind = i :: rest ∧ (s.sub i).flowList = [] := by
  unfold State.unwindDone at hx
  split at hx
  · cases hx
  · rename_i j rest hq
    split at hx
    · rename_i he
      cases hx
      exact ⟨rest, hq, by simpa using he⟩
    · cases hx

theorem State.RecordsExact.endUnwinding {s : State} (h : s.RecordsExact) {i : SubIx} (hx : s.unwindDone = some i) :
    (s.endUnwinding i).RecordsExact := by
  obtain ⟨rest, hq, he⟩ := State.unwindDone_spec hx
  refine ⟨h.1.endUnwinding hq, ?_⟩
  unfold State.endUnwinding
  dsimp only
  split
  · refine h.2.writeEmpty (i := i) he (fun j hj => ?_) ?_ (by simp)
    · show (State.setSub _ i _).sub j = _
      rw [setSub_sub, if_neg hj]
      rfl
    · show ((State.setSub _ i _).sub i).flowList = []
      rw [setSub_sub_same]
      exact he
  · refine h.2.writeEmpty (i := i) he (fun j hj => ?_) ?_ (by simp)
    · rw [free_sub, if_neg hj]
      rfl
    · rw [free_sub, if_pos rfl]
      rfl

/-! ## Flows -/

theorem live_of_subOf {s : State} {h : SubHandle} {r : SubRecord} (hs : s.subOf h = some r) :
    r = s.sub h.index ∧ (s.sub h.index).live = true ∧ (s.sub h.index).stamp = h.stamp := by
  unfold State.subOf at hs
  dsimp only at hs
  split at hs
  · rename_i hc
    cases hs
    simpa using hc
  · cases hs

theorem live_of_flowOf {s : State} {h : FlowHandle} {f : FlowRecord} (hs : s.flowOf h = some f) :
    f = s.flow h.index ∧ (s.flow h.index).live = true := by
  unfold State.flowOf at hs
  dsimp only at hs
  split at hs
  · rename_i hc
    cases hs
    simp only [Bool.and_eq_true] at hc
    exact ⟨rfl, hc.1⟩
  · cases hs

theorem findTag_live {s : State} {tag : Tag} {i : SubIx} (hf : s.findTag tag = some i) : (s.sub i).live = true := by
  have := List.find?_some hf
  simp only [Bool.and_eq_true] at this
  exact this.1

theorem findKey_live {s : State} {k : FlowKey} {i : FlowIx} (hf : s.findKey k = some i) : (s.flow i).live = true := by
  have := List.find?_some hf
  simp only [Bool.and_eq_true] at this
  exact this.1

theorem vacantSub_state {s : State} {tag : Tag} {i : SubIx} (hf : s.vacantSub tag = some i) :
    (s.sub i).state = .vacant := by
  have := List.find?_some hf
  simpa [SubRecord.live] using this

theorem vacantFlow_live {s : State} {k : FlowKey} {i : FlowIx} (hf : s.vacantFlow k = some i) :
    (s.flow i).live = false := by
  have := List.find?_some hf
  simpa using this

/-- A write of a live flow that leaves stamp, owner and state. -/
theorem State.RecordsExact.setFlow {s : State} {i : FlowIx} {f : FlowRecord} (h : s.RecordsExact)
    (hl : (s.flow i).live = true) (hst : f.stamp = (s.flow i).stamp) (how : f.owner = (s.flow i).owner)
    (hs : f.state = (s.flow i).state) : (s.setFlow i f).RecordsExact :=
  ⟨h.1.of_stc (fun _ => rfl) rfl rfl rfl, h.2.setFlow hl hst how hs⟩

theorem State.RecordsExact.touchFlow {s : State} (h : s.RecordsExact) {i : FlowIx} (hl : (s.flow i).live = true) :
    (s.touchFlow i).RecordsExact := h.setFlow hl rfl rfl rfl

theorem State.RecordsExact.repinFlow {s : State} (h : s.RecordsExact) {i : FlowIx} (hl : (s.flow i).live = true)
    (p : Option LinkId) : (s.repinFlow i p).RecordsExact :=
  ⟨h.1.of_stc (fun _ => by simp) (by simp) (by simp) (by simp), h.2.repinFlow hl p⟩

theorem useFlow_flow (s : State) (i j : FlowIx) :
    (s.useFlow i).flow j = if j = i then { s.flow i with mark := s.tw.currentMark } else s.flow j := by
  unfold State.useFlow
  rw [show ∀ (t : State) k, (t.touch k).flow j = t.flow j from fun t k => by simp]
  show (s.setFlow i _).flow j = _
  rw [setFlow_flow]

theorem State.RecordsExact.useFlow {s : State} (h : s.RecordsExact) {i : FlowIx} (hl : (s.flow i).live = true) :
    (s.useFlow i).RecordsExact := by
  unfold State.useFlow
  have h1 : ((s.touchFlow i).useWay i).RecordsExact := (h.touchFlow hl).of_eq rfl rfl rfl rfl rfl rfl
  exact h1.touch (h.2.owner_live hl)

theorem State.RecordsExact.chargeBurst {s : State} (h : s.RecordsExact) {i : SubIx} (hl : (s.sub i).live = true)
    (c : FlowClass) (m n : Nat) : (s.chargeBurst i c m n).RecordsExact := by
  unfold State.chargeBurst
  split
  · exact h.chargeSub hl m n
  · exact h

theorem State.RecordsExact.forwardOn {s : State} (h : s.RecordsExact) {i : FlowIx} (hl : (s.flow i).live = true)
    (l : LinkId) (m n : Nat) (b : Bool) : (s.forwardOn i l m n b).1.RecordsExact :=
  h.chargeBurst (h.2.owner_live hl) _ m n

theorem repinFlow_live (s : State) {i : FlowIx} (p : Option LinkId) : ((s.repinFlow i p).flow i).live = true := by
  cases p with
  | none =>
    show (((s.dropPinOf (s.flow i).pin).setFlow i _).flow i).live = true
    rw [setFlow_flow, if_pos rfl]
    rfl
  | some l =>
    show (((s.dropPinOf (s.flow i).pin).setFlow i _).flow i).live = true
    rw [setFlow_flow, if_pos rfl]
    rfl

theorem State.RecordsExact.judge {s : State} (h : s.RecordsExact) {i : FlowIx} (hl : (s.flow i).live = true)
    (m n : Nat) : (s.judge i m n).1.RecordsExact := by
  unfold State.judge
  dsimp only
  split
  · exact h
  · unfold State.linkStep
    dsimp only
    split
    · exact h.forwardOn hl ..
    · split
      · exact (h.repinFlow hl _).forwardOn (repinFlow_live ..) ..
      · exact h.repinFlow hl _

/-! ## FLOW_OPEN -/

theorem State.RecordsExact.retireSome {s : State} (h : s.RecordsExact) (v : Option FlowIx)
    (hl : ∀ i, v = some i → (s.flow i).live = true) : (s.retireSome v).RecordsExact := by
  cases v with
  | none => exact h
  | some i => exact h.retire (hl i rfl)

theorem retireSome_others (s : State) (v : Option FlowIx) {i : FlowIx} (hv : v ≠ some i) :
    (s.retireSome v).flow i = s.flow i := by
  cases v with
  | none => rfl
  | some j =>
    show (s.retire j).flow i = _
    rw [retire_flow, if_neg]
    rintro rfl
    exact hv rfl

theorem retireSome_owner (s : State) (v : Option FlowIx) (j : SubIx) :
    ((s.retireSome v).sub j).stamp = (s.sub j).stamp ∧ ((s.retireSome v).sub j).state = (s.sub j).state := by
  cases v with
  | none => exact ⟨rfl, rfl⟩
  | some i =>
    show ((s.retire i).sub j).stamp = _ ∧ ((s.retire i).sub j).state = _
    rw [retire_sub]
    split <;> exact ⟨rfl, rfl⟩

theorem State.RecordsExact.createFlow {s : State} (h : s.RecordsExact) {i : FlowIx} (hv : (s.flow i).live = false)
    (k : FlowKey) (c : FlowClass) {o : SubHandle} (hst : (s.sub o.index).stamp = o.stamp)
    (ha : (s.sub o.index).state.admitted) : (s.createFlow i k c o).RecordsExact := by
  have hl : (s.sub o.index).live = true := by
    rcases ha with ha | ha <;> exact live_of_state (by rw [ha]; simp)
  refine ⟨h.1.createFlow i k c hl, h.2.createFlow hv k c hl hst ?_⟩
  rcases ha with ha | ha <;> rw [ha] <;> simp

theorem limitVictim_live {s : State} (h : s.FlowsExact) {i : SubIx} {b : Bool} {v : FlowIx}
    (hv : s.limitReclaim (s.sub i) b = .victim v) : (s.flow v).live = true := by
  unfold State.limitReclaim at hv
  split at hv
  · cases hv
  · split at hv
    · cases hv
    · split at hv
      · rename_i x hx
        cases hv
        exact h.listed_live (List.mem_of_find?_eq_some hx)
      · cases hv

theorem ways_all (w : BitVec 2) : w ∈ ways := by
  revert w
  decide

theorem bucketVictim_live {s : State} {b : BitVec 12} {lv : Option FlowIx} {r : Bool} {v : FlowIx}
    (hv : s.bucketReclaim b lv r = .victim v) : (s.flow v).live = true ∧ lv ≠ some v := by
  unfold State.bucketReclaim at hv
  dsimp only at hv
  split at hv
  · cases hv
  · rename_i hf
    split at hv
    · cases hv
    · split at hv
      · cases hv
      · cases hv
        simp only [Bool.not_eq_true', Bool.not_eq_false, State.bucketFull, List.all_eq_true, List.mem_map,
          Bool.and_eq_true, decide_eq_true_eq] at hf
        obtain ⟨h1, h2⟩ := hf _ ⟨(s.plru b).victim, ways_all _, rfl⟩
        exact ⟨h1, fun e => h2 e.symm⟩

theorem State.RecordsExact.openAfterReclaim {s : State} (h : s.RecordsExact) (k : FlowKey) (c : FlowClass)
    {o : SubHandle} (hst : (s.sub o.index).stamp = o.stamp) (ha : (s.sub o.index).state.admitted)
    {x y : Option FlowIx} (hx : ∀ i, x = some i → (s.flow i).live = true)
    (hy : ∀ i, y = some i → (s.flow i).live = true ∧ x ≠ some i) : (s.openAfterReclaim k c o x y).1.RecordsExact := by
  have h1 : ((s.retireSome x).retireSome y).RecordsExact :=
    (h.retireSome x hx).retireSome y fun i hi => by
      rw [retireSome_others s x (hy i hi).2]
      exact (hy i hi).1
  unfold State.openAfterReclaim
  dsimp only
  split
  · exact h
  · rename_i i hi
    refine h1.createFlow (vacantFlow_live hi) k c ?_ ?_
    · rw [(retireSome_owner ..).1, (retireSome_owner ..).1, hst]
    · rw [(retireSome_owner ..).2, (retireSome_owner ..).2]
      exact ha

theorem State.RecordsExact.openTouched {s : State} (h : s.RecordsExact) (k : FlowKey) (c : FlowClass)
    {o : SubHandle} (hst : (s.sub o.index).stamp = o.stamp) (ha : (s.sub o.index).state.admitted) (r : Bool) :
    (s.openTouched k c o r).1.RecordsExact := by
  unfold State.openTouched
  split
  · rename_i i hi
    exact h.touchFlow (findKey_live hi)
  · unfold State.openNew
    dsimp only
    cases hlim : s.limitReclaim (s.sub o.index) r with
    | refuse => exact h
    | clear =>
      dsimp only
      cases hb : s.bucketReclaim (flowBucket k) (Reclaim.index .clear) r with
      | refuse => exact h
      | clear => exact h.openAfterReclaim k c hst ha (fun i hi => by cases hi) fun i hi => by cases hi
      | victim v =>
        refine h.openAfterReclaim k c hst ha (fun i hi => by cases hi) fun i hi => ?_
        cases hi
        exact bucketVictim_live hb
    | victim u =>
      dsimp only
      have hu := limitVictim_live h.2 hlim
      cases hb : s.bucketReclaim (flowBucket k) (Reclaim.index (.victim u)) r with
      | refuse => exact h
      | clear =>
        refine h.openAfterReclaim k c hst ha (fun i hi => ?_) fun i hi => by cases hi
        cases hi
        exact hu
      | victim v =>
        refine h.openAfterReclaim k c hst ha (fun i hi => ?_) fun i hi => ?_
        · cases hi
          exact hu
        · cases hi
          exact bucketVictim_live hb

/-! ## Whole requests -/

theorem State.RecordsExact.flowOpen {s : State} (h : s.RecordsExact) (o : SubHandle) (k : FlowKey) (code : BitVec 3)
    (r : Bool) : (s.flowOpen o k code r).1.RecordsExact := by
  unfold State.flowOpen
  split
  · exact h
  · split
    · exact h
    · rename_i rec hr
      obtain ⟨rfl, hl, hst⟩ := live_of_subOf hr
      have hf := (touch_follows s o.index).self
      have key : (s.sub o.index).state.admitted → ∀ c, ((s.touch o.index).openTouched k c o r).1.RecordsExact := by
        intro ha c
        refine (h.touch hl).openTouched k c (by rw [hf.stamp, hst]) ?_ r
        rcases hf.state with he | ⟨_, he⟩
        · rw [he]
          exact ha
        · exact he
      split
      · exact h
      · exact h
      · exact key (.inl (by assumption)) _
      · exact key (.inr (by assumption)) _
      · exact h

theorem State.RecordsExact.flowClose {s : State} (h : s.RecordsExact) (x : FlowHandle) (g : Option FlowGuard) :
    (s.flowClose x g).1.RecordsExact := by
  unfold State.flowClose
  split
  · exact h
  · rename_i f hf
    split
    · exact h
    · exact h.retire (live_of_flowOf hf).2

theorem State.RecordsExact.flowFind {s : State} (h : s.RecordsExact) (k : FlowKey) :
    (s.flowFind k).1.RecordsExact := by
  unfold State.flowFind
  split
  · exact h
  · exact h.useFlow (findKey_live (by assumption))

theorem FlowField.update_parts (f : FlowField) (a : UpdateAction) (v : Word) (r : FlowRecord) :
    (f.update a v r).stamp = r.stamp ∧ (f.update a v r).owner = r.owner ∧ (f.update a v r).state = r.state := by
  unfold FlowField.update FlowField.put
  split
  · exact ⟨rfl, rfl, rfl⟩
  · split <;> exact ⟨rfl, rfl, rfl⟩

theorem State.RecordsExact.flowUpdate {s : State} (h : s.RecordsExact) (x : FlowHandle) (g : Option FlowGuard)
    (f : FlowField) (a : UpdateAction) (v : Word) : (s.flowUpdate x g f a v).1.RecordsExact := by
  unfold State.flowUpdate
  split
  · exact h
  · split
    · exact h
    · rename_i r hr
      obtain ⟨rfl, hl⟩ := live_of_flowOf hr
      split
      · exact h
      · obtain ⟨h1, h2, h3⟩ := FlowField.update_parts f a v (s.flow x.index)
        exact h.setFlow hl h1 h2 h3

theorem State.RecordsExact.chargeFlow {s : State} (h : s.RecordsExact) (x : FlowHandle) (m : BitVec 16)
    (n : BitVec 8) : (s.chargeFlow x m n).1.RecordsExact := by
  unfold State.chargeFlow
  split
  · exact h
  · rename_i f hf
    split
    · exact h
    · have hl := (live_of_flowOf hf).2
      refine (h.useFlow hl).judge ?_ _ _
      rw [useFlow_flow, if_pos rfl]
      exact hl

theorem State.RecordsExact.attach {s : State} (h : s.RecordsExact) (tag : Tag) (code : BitVec 2) (p : Bool)
    (t : TariffIx) (home : Operator) : (s.attach tag code p t home).1.RecordsExact := by
  unfold State.attach
  split
  · exact h
  · split
    · exact h
    · unfold State.attachChecked
      split
      · rename_i i hi
        have hl := findTag_live hi
        unfold State.attachFound
        split
        · exact h.touch hl
        · exact h.touch hl
        · exact h
        · rename_i hu
          split
          · exact h
          · exact h.revive hu p home
        · exact h
      · split
        · exact h
        · rename_i i hi
          exact h.createSub (vacantSub_state hi) ..

theorem State.RecordsExact.detach {s : State} (h : s.RecordsExact) (x : SubHandle) (g : Option SubGuard) :
    (s.detach x g).1.RecordsExact := by
  unfold State.detach
  split
  · exact h
  · rename_i r hr
    obtain ⟨rfl, hl, hst⟩ := live_of_subOf hr
    split
    · exact h
    · split
      · exact h.enterDetaching (.inl (by assumption))
      · exact h.enterDetaching (.inr (by assumption))
      · exact h
      · exact h
      · exact h

theorem State.RecordsExact.subFind {s : State} (h : s.RecordsExact) (tag : Tag) :
    (s.subFind tag).1.RecordsExact := by
  unfold State.subFind
  split
  · exact h
  · exact h.touch (findTag_live (by assumption))

theorem SubField.update_parts (f : SubField) (a : UpdateAction) (v : Word) (r : SubRecord) :
    ∃ w p o, f.update a v r = { r with userWord := w, permanent := p, so := o } := by
  unfold SubField.update SubField.put
  split <;> exact ⟨_, _, _, rfl⟩

theorem State.RecordsExact.subUpdate {s : State} (h : s.RecordsExact) (x : SubHandle) (g : Option SubGuard)
    (f : SubField) (a : UpdateAction) (v : Word) : (s.subUpdate x g f a v).1.RecordsExact := by
  unfold State.subUpdate
  split
  · exact h
  · split
    · exact h
    · rename_i r hr
      obtain ⟨rfl, hl, hst⟩ := live_of_subOf hr
      split
      · exact h
      · obtain ⟨w, p, o, he⟩ := SubField.update_parts f a v (s.sub x.index)
        dsimp only
        rw [he]
        refine ⟨h.1.setSub_plain (r := { s.sub x.index with userWord := w, permanent := p, so := o }) hl ⟨rfl, rfl⟩
          ⟨rfl, rfl⟩ rfl rfl rfl, h.2.writeState (i := x.index) (fun j hj => setSub_sub_ne s _ hj) ?_ ?_ ?_ ?_ (by simp)⟩
          <;> rw [setSub_sub_same]
        · exact hl
        · intro hu
          exact h.2.2.2.2.2 _ (.inr hu)

theorem State.RecordsExact.grantCredit {s : State} (h : s.RecordsExact) (x : SubHandle) (g : Option SubGuard)
    (m n : Word) : (s.grantCredit x g m n).1.RecordsExact := by
  unfold State.grantCredit
  split
  · exact h
  · rename_i r hr
    obtain ⟨rfl, hl, hst⟩ := live_of_subOf hr
    split
    · exact h
    · split
      · exact h.applyGrantTo hl m n
      · exact h.applyGrantTo hl m n
      · exact h
      · exact h
      · exact h

theorem State.RecordsExact.settle {s : State} (h : s.RecordsExact) (x : SubHandle) (g : Option SubGuard)
    (p : SettlePart) : (s.settle x g p).1.RecordsExact := by
  unfold State.settle
  split
  · exact h
  · rename_i r hr
    obtain ⟨rfl, hl, hst⟩ := live_of_subOf hr
    split
    · exact h
    · split
      · exact h
      · refine (h.settleParts hl _ _ ?_).freeIfSettled _
        intro hc
        cases p with
        | closed => exact hc
        | both => exact hc
        | current => cases hc

theorem State.RecordsExact.usagePost {s : State} (h : s.RecordsExact) (x : SubHandle) (code : BitVec 3)
    (m n : Word) : (s.usagePost x code m n).1.RecordsExact := by
  unfold State.usagePost
  split
  · exact h
  · rename_i r hr
    obtain ⟨rfl, hl, hst⟩ := live_of_subOf hr
    split
    · exact h
    · exact h.postUsage hl ..

/-! ## The clearing -/

theorem beginClearing_records (s : State) (hc : s.TablesCanonical) (ch : Chan) (b : Bool) :
    (∀ i, (s.beginClearing ch b).sub i = (s.sub i).cleared) ∧
      ∀ i, (s.beginClearing ch b).flow i = (s.flow i).cleared := by
  obtain ⟨h1, h2⟩ := beginClearing_blocks s ch b
  constructor
  · intro i
    unfold State.sub
    rw [h1]
    exact Table.read_mapRecords ((Table.wf_iff _ _ _).mp hc.1).1 rfl _
  · intro i
    unfold State.flow
    rw [h2]
    exact Table.read_mapRecords ((Table.wf_iff _ _ _).mp hc.2.1).1 rfl _

theorem SubRecord.cleared_eq {r : SubRecord} (h : r.ClearWhileVacant) :
    ∃ n, r.cleared = { SubRecord.powerOn with stamp := n } := by
  unfold SubRecord.cleared
  split
  · exact ⟨_, rfl⟩
  · rename_i hl
    exact ⟨_, h (by simpa [SubRecord.live] using hl)⟩

theorem FlowRecord.cleared_eq {f : FlowRecord} (h : f.ClearWhileVacant) :
    ∃ n, f.cleared = { FlowRecord.powerOn with stamp := n } := by
  unfold FlowRecord.cleared
  split
  · exact ⟨_, rfl⟩
  · rename_i hl
    exact ⟨_, h (by simpa [FlowRecord.live] using hl)⟩

/-- Every record is VACANT, and lists and counts are empty. -/
theorem recordsExact_of_vacant {t : State} (hs : ∀ i, ∃ n, t.sub i = { SubRecord.powerOn with stamp := n })
    (hf : ∀ i, ∃ n, t.flow i = { FlowRecord.powerOn with stamp := n }) (hu : t.stc.unwind = [])
    (hd : t.stc.deadlines = []) (hc : t.stc.closedCount = 0) (hp : ∀ l, t.pinnedCount l = 0) : t.RecordsExact := by
  refine ⟨⟨fun i => ?_, ⟨by rw [hu]; exact .nil, fun i => ?_⟩, ⟨by rw [hd]; exact .nil, fun i => ?_⟩, ?_⟩,
    fun i => ?_, fun l => ?_, fun i hi => ?_, fun i => ?_, fun i _ => ?_⟩
  · obtain ⟨n, hn⟩ := hs i
    rw [hn]
    exact ⟨⟨fun h => absurd rfl h, fun h => absurd rfl h⟩, fun h => (by cases h), fun _ => rfl⟩
  · obtain ⟨n, hn⟩ := hs i
    rw [hu, hn]
    simp [SubRecord.powerOn]
  · obtain ⟨n, hn⟩ := hs i
    rw [hd, hn]
    simp [SubRecord.powerOn, GrantState.isRequested]
  · unfold State.ClosedExact
    rw [hc, eq_comm, List.countP_eq_zero]
    intro i _
    obtain ⟨n, hn⟩ := hs i
    rw [hn]
    simp [SubRecord.powerOn]
  · obtain ⟨n, hn⟩ := hf i
    rw [hn]
    exact fun _ => rfl
  · rw [hp, eq_comm, List.countP_eq_zero]
    intro i _
    obtain ⟨n, hn⟩ := hf i
    rw [hn]
    simp [FlowRecord.powerOn]
  · obtain ⟨n, hn⟩ := hf i
    rw [hn] at hi
    cases hi
  · obtain ⟨n, hn⟩ := hs i
    rw [hn]
    exact ⟨.nil, fun x hx => by cases hx⟩
  · obtain ⟨n, hn⟩ := hs i
    rw [hn]
    rfl

theorem State.RecordsExact.beginClearing {s : State} (h : s.RecordsExact) (hc : s.TablesCanonical) (ch : Chan)
    (b : Bool) : (s.beginClearing ch b).RecordsExact := by
  obtain ⟨h1, h2⟩ := beginClearing_blocks s ch b
  obtain ⟨h3, h4⟩ := beginClearing_records s hc ch b
  refine recordsExact_of_vacant (fun i => ?_) (fun i => ?_) (by rw [h1]; rfl) (by rw [h1]; rfl) (by rw [h1]; rfl)
    fun l => ?_
  · rw [h3]
    exact SubRecord.cleared_eq (h.1.1 i).2.2
  · rw [h4]
    exact FlowRecord.cleared_eq (h.2.1 i)
  · simp [State.pinnedCount, h2, Ftc.cleared]

theorem reset_recordsExact (s : State) : s.powerOn.RecordsExact :=
  recordsExact_of_vacant (fun _ => ⟨0, rfl⟩) (fun _ => ⟨0, rfl⟩) rfl rfl rfl fun l => by
    simp [State.pinnedCount, State.powerOn, State.reset, Ftc.powerOn]

end Sys2Proof.Machine
end

