-- ==== Sys2Proof/Laws/Marks.lean ====
section
/-! SUPPORT. No operation but the start of an AGE walk puts the third mark on a record (R22, R132). -/

namespace Sys2Proof.Machine

/-- A live record of `t` that carries `d` is live and carries `d` in `s`. -/
structure State.NoNew (d : Mark) (s t : State) : Prop where
  subs : ∀ i, (t.sub i).live = true → (t.sub i).mark = d → (s.sub i).live = true ∧ (s.sub i).mark = d
  flows : ∀ i, (t.flow i).live = true → (t.flow i).mark = d → (s.flow i).live = true ∧ (s.flow i).mark = d

variable {d : Mark} {s t u : State}

theorem State.NoNew.refl (d : Mark) (s : State) : s.NoNew d s := ⟨fun _ => .intro, fun _ => .intro⟩

theorem State.NoNew.trans (h : s.NoNew d t) (k : t.NoNew d u) : s.NoNew d u :=
  ⟨fun i h1 h2 => h.subs i (k.subs i h1 h2).1 (k.subs i h1 h2).2,
    fun i h1 h2 => h.flows i (k.flows i h1 h2).1 (k.flows i h1 h2).2⟩

theorem State.NoNew.of_eq (h : s.NoNew d t) (hs : u.stc.subs = t.stc.subs) (hf : u.ftc.flows = t.ftc.flows) :
    s.NoNew d u := by
  refine ⟨fun i => ?_, fun i => ?_⟩
  · rw [show u.sub i = t.sub i by simp [State.sub, hs]]
    exact h.subs i
  · rw [show u.flow i = t.flow i by simp [State.flow, hf]]
    exact h.flows i

/-- One subscriber is written. -/
theorem State.NoNew.sub {i : SubIx} (ho : ∀ j, j ≠ i → t.sub j = s.sub j)
    (hi : (t.sub i).live = true → (t.sub i).mark = d → (s.sub i).live = true ∧ (s.sub i).mark = d)
    (hf : ∀ j, t.flow j = s.flow j) : s.NoNew d t := by
  refine ⟨fun j => ?_, fun j => ?_⟩
  · by_cases hj : j = i
    · rw [hj]
      exact hi
    · rw [ho j hj]
      exact .intro
  · rw [hf]
    exact .intro

/-- One flow is written. -/
theorem State.NoNew.flow {i : FlowIx} (hs : ∀ j, t.sub j = s.sub j) (ho : ∀ j, j ≠ i → t.flow j = s.flow j)
    (hi : (t.flow i).live = true → (t.flow i).mark = d → (s.flow i).live = true ∧ (s.flow i).mark = d) :
    s.NoNew d t := by
  refine ⟨fun j => ?_, fun j => ?_⟩
  · rw [hs]
    exact .intro
  · by_cases hj : j = i
    · rw [hj]
      exact hi
    · rw [ho j hj]
      exact .intro

/-- A subscriber whose mark and state follow those of another. -/
theorem State.NoNew.follow {i : SubIx} (hw : s.FollowsAt i t) (hm : (t.sub i).mark = (s.sub i).mark)
    (hf : ∀ j, t.flow j = s.flow j) : s.NoNew d t := by
  refine .sub hw.others (fun hl hd => ⟨?_, hm ▸ hd⟩) hf
  rcases hw.self.state with he | ⟨he, _⟩
  · simpa [SubRecord.live, he] using hl
  · rcases he with he | he <;> simp [SubRecord.live, he]

/-! ## Marks under the operations on one subscriber -/

theorem lowCredit_mark (s : State) (i j : SubIx) : ((s.lowCredit i).sub j).mark = (s.sub j).mark := by
  obtain ⟨g, hg⟩ := lowCredit_sub s i
  rw [hg]
  split
  · rename_i h
    rw [h]
  · rfl

theorem recheck_mark (s : State) (i j : SubIx) : ((s.recheck i).sub j).mark = (s.sub j).mark := by
  obtain ⟨r, hr⟩ := recheck_sub s i
  rw [hr]
  split
  · rename_i h
    rw [h]
  · rfl

theorem setSub_mark (s : State) {i : SubIx} {r : SubRecord} (h : r.mark = (s.sub i).mark) (j : SubIx) :
    ((s.setSub i r).sub j).mark = (s.sub j).mark := by
  rw [setSub_sub]
  split
  · rename_i hj
    rw [hj, h]
  · rfl

theorem chargeSub_mark (s : State) (i j : SubIx) (m n : Nat) : ((s.chargeSub i m n).sub j).mark = (s.sub j).mark := by
  unfold State.chargeSub
  dsimp only
  rw [lowCredit_mark]
  split
  · exact setSub_mark s (r := (s.sub i).charge m n) rfl j
  · exact setSub_mark s (r := (s.sub i).charge m n) rfl j

theorem closeCurrent_mark (r : SubRecord) : r.closeCurrent.mark = r.mark := by
  unfold SubRecord.closeCurrent
  split <;> rfl

theorem closeUsage_mark (s : State) (i j : SubIx) : ((s.closeUsage i).sub j).mark = (s.sub j).mark := by
  unfold State.closeUsage
  dsimp only
  split
  · exact setSub_mark s (closeCurrent_mark _) j
  · exact setSub_mark s (closeCurrent_mark _) j

theorem bringUpToDate_mark (s : State) (i j : SubIx) : ((s.bringUpToDate i).sub j).mark = (s.sub j).mark := by
  unfold State.bringUpToDate
  rw [recheck_mark]
  exact setSub_mark s (r := { s.sub i with
    ratingZone := s.zas.currentZone, zoneEpoch := s.zas.zoneEpoch, policyEpoch := s.zas.policyEpoch }) rfl j

theorem lazy_mark (s : State) (i j : SubIx) : ((s.lazy i).sub j).mark = (s.sub j).mark := by
  unfold State.lazy
  split
  · rfl
  · exact setSub_mark s (r := { s.sub i with closeHeld := true }) rfl j
  · rw [bringUpToDate_mark, closeUsage_mark]
  · rw [recheck_mark]
    exact setSub_mark s (r := { s.sub i with policyEpoch := s.zas.policyEpoch }) rfl j
  · rfl

theorem settleParts_mark (s : State) (i j : SubIx) (c e : Option ClosedSlot) :
    ((s.settleParts i c e).sub j).mark = (s.sub j).mark := by
  unfold State.settleParts
  dsimp only
  have h1 : ∀ k, ((if c.isSome = true then (s.setSub i ((s.sub i).settled c e)).dropClosed 1
      else s.setSub i ((s.sub i).settled c e)).sub k).mark = (s.sub k).mark := by
    intro k
    split
    · exact setSub_mark s (r := (s.sub i).settled c e) rfl k
    · exact setSub_mark s (r := (s.sub i).settled c e) rfl k
  generalize (if c.isSome = true then (s.setSub i ((s.sub i).settled c e)).dropClosed 1
    else s.setSub i ((s.sub i).settled c e)) = x at h1 ⊢
  split
  · unfold State.deferredClose
    rw [bringUpToDate_mark, closeUsage_mark, ← h1 j]
    exact setSub_mark x (r := { x.sub i with closeHeld := false }) rfl j
  · exact h1 j

/-! ## No new third mark -/

theorem lazy_noNew (s : State) (i : SubIx) : s.NoNew d (s.lazy i) :=
  .follow (lazy_follows s i) (lazy_mark ..) fun _ => by simp

theorem touch_noNew (hd : s.tw.currentMark ≠ d) (i : SubIx) : s.NoNew d (s.touch i) := by
  have h1 : s.NoNew d (s.setSub i { s.sub i with mark := s.tw.currentMark }) :=
    .sub (fun j hj => setSub_sub_ne s _ hj) (fun _ hm => by
      rw [setSub_sub_same] at hm
      exact absurd hm hd) fun _ => rfl
  exact h1.trans (lazy_noNew _ i)

theorem chargeSub_noNew (s : State) (i : SubIx) (m n : Nat) : s.NoNew d (s.chargeSub i m n) :=
  .follow (chargeSub_follows s i m n) (chargeSub_mark ..) fun _ => by simp

theorem applyGrantTo_noNew (s : State) (i : SubIx) (m n : Word) : s.NoNew d (s.applyGrantTo i m n) := by
  refine .follow (applyGrantTo_follows s i m n) ?_ fun _ => by simp
  unfold State.applyGrantTo
  rw [lowCredit_mark]
  exact setSub_mark s (r := (s.sub i).granted m n) rfl i

theorem expireGrant_noNew (s : State) (i : SubIx) : s.NoNew d (s.expireGrant i) := by
  refine .follow (expireGrant_follows s i) ?_ fun _ => by simp
  unfold State.expireGrant
  refine setSub_mark s ?_ i
  unfold State.overdrawn
  split
  · rfl
  · dsimp only
    split <;> rfl

theorem settleParts_noNew (s : State) (i : SubIx) (c e : Option ClosedSlot) : s.NoNew d (s.settleParts i c e) :=
  .follow (settleParts_follows s i c e) (settleParts_mark ..) fun _ => by simp

theorem free_noNew (s : State) (i : SubIx) : s.NoNew d (s.free i) := by
  refine .sub (i := i) (fun j hj => by rw [free_sub, if_neg hj]) (fun hl _ => ?_) fun _ => by simp
  rw [free_sub, if_pos rfl] at hl
  cases hl

theorem freeIfSettled_noNew (s : State) (i : SubIx) : s.NoNew d (s.freeIfSettled i) := by
  unfold State.freeIfSettled
  split
  · exact free_noNew s i
  · exact .refl ..

/-- A write that leaves the mark and gives no VACANT record life. -/
theorem setSub_noNew (s : State) {i : SubIx} {r : SubRecord} (hm : r.mark = (s.sub i).mark)
    (hl : (s.sub i).live = true) : s.NoNew d (s.setSub i r) :=
  .sub (fun j hj => setSub_sub_ne s _ hj) (fun _ h => ⟨hl, by rw [setSub_sub_same, hm] at h; exact h⟩) fun _ => rfl

theorem postUsage_noNew (hd : s.tw.currentMark ≠ d) {i : SubIx} (hl : (s.sub i).live = true) (c : FlowClass)
    (m n : Word) : s.NoNew d (s.postUsage i c m n) := by
  have h1 := touch_noNew hd i
  have hl1 := (touch_follows s i).live hl
  unfold State.postUsage
  dsimp only
  generalize s.touch i = x at h1 hl1
  split
  · refine (h1.trans ?_).trans (chargeSub_noNew ..)
    unfold State.markMixed
    split
    · exact setSub_noNew x (r := { x.sub i with current := { (x.sub i).current with mixed := true } }) rfl hl1
    · exact .refl ..
  · exact h1

theorem enterDetaching_noNew {i : SubIx} (hl : (s.sub i).live = true) : s.NoNew d (s.enterDetaching i) := by
  unfold State.enterDetaching
  exact (setSub_noNew s (r := { s.sub i with state := .detaching, grant := .none }) rfl hl).of_eq rfl rfl

theorem ageSub_noNew (hd : s.tw.previousMark ≠ d) (i : SubIx) : s.NoNew d (s.ageSub i) := by
  have key : ∀ x : State, x.tw.previousMark ≠ d → x.NoNew d (x.remark i) := fun x hx =>
    .sub (fun j hj => setSub_sub_ne x _ hj) (fun _ hm => by
      rw [State.remark, setSub_sub_same] at hm
      exact absurd hm hx) fun _ => rfl
  unfold State.ageSub
  split
  · rename_i hc
    have hl : (s.sub i).live = true := by
      simp only [State.doomedSub, Bool.and_eq_true] at hc
      exact hc.1
    split
    · exact (enterDetaching_noNew hl).trans (key _ hd)
    · exact key _ hd
  · exact .refl ..

/-- R133: the visited record carries the third mark no longer. -/
theorem ageSub_clears (hd : s.tw.previousMark ≠ s.tw.thirdMark) (i : SubIx) (hl : ((s.ageSub i).sub i).live = true) :
    ((s.ageSub i).sub i).mark ≠ s.tw.thirdMark := by
  unfold State.ageSub at hl ⊢
  split at hl
  · rename_i hc
    rw [if_pos hc]
    split <;>
    · rw [State.remark, setSub_sub_same]
      exact hd
  · rename_i hc
    rw [if_neg hc]
    intro hm
    apply hc
    simp [State.doomedSub, hl, hm]

theorem createSub_noNew (hd : s.tw.currentMark ≠ d) (i : SubIx) (tag : Tag) (cls : SubClass) (p : Bool)
    (t : TariffIx) (home : Operator) : s.NoNew d (s.createSub i (s.newRecord i tag cls p t home)) := by
  have h1 : s.NoNew d (s.setSub i (s.newRecord i tag cls p t home)) :=
    .sub (fun j hj => setSub_sub_ne s _ hj) (fun _ hm => by
      rw [setSub_sub_same] at hm
      exact absurd hm hd) fun _ => rfl
  exact h1.trans (.follow (recheck_follows _ i) (recheck_mark ..) fun _ => by simp)

theorem revive_noNew (hd : s.tw.currentMark ≠ d) {i : SubIx} (hl : (s.sub i).live = true) (p : Bool)
    (home : Operator) : s.NoNew d (s.revive i p home) := by
  have h1 : s.NoNew d (s.reviveStart i p home) := by
    unfold State.reviveStart
    exact (setSub_noNew s (r := { s.sub i with home := home, permanent := p, state := .attached }) rfl hl).of_eq
      rfl rfl
  have hx : (s.reviveStart i p home).tw.currentMark ≠ d := by simpa using hd
  unfold State.revive
  dsimp only
  generalize s.reviveStart i p home = x at h1 hx
  refine h1.trans (State.NoNew.trans ?_ (.follow (lowCredit_follows _ i) (lowCredit_mark ..) fun _ => by simp))
  split
  · exact touch_noNew hx i
  · exact (touch_noNew hx i).trans (.follow (recheck_follows _ i) (recheck_mark ..) fun _ => by simp)

theorem endUnwinding_noNew {i : SubIx} (hl : (s.sub i).live = true) : s.NoNew d (s.endUnwinding i) := by
  have h1 : s.NoNew d { s with stc := { s.stc with unwind := s.stc.unwind.tail } } := (State.NoNew.refl d s).of_eq rfl rfl
  unfold State.endUnwinding
  dsimp only
  refine h1.trans ?_
  generalize hx : ({ s with stc := { s.stc with unwind := s.stc.unwind.tail } } : State) = x
  have hlx : (x.sub i).live = true := by
    rw [← hx]
    exact hl
  split
  · exact (setSub_noNew x (r := { x.sub i with state := .unsettled }) rfl hlx).of_eq rfl rfl
  · exact free_noNew x i

theorem retire_noNew (s : State) (i : FlowIx) : s.NoNew d (s.retire i) := by
  refine ⟨fun j => ?_, fun j => ?_⟩
  · rw [retire_sub]
    split <;> exact .intro
  · rw [retire_flow]
    split
    · intro h
      cases h
    · exact .intro

theorem retireSome_noNew (s : State) (v : Option FlowIx) : s.NoNew d (s.retireSome v) := by
  cases v with
  | none => exact .refl ..
  | some i => exact retire_noNew s i

theorem repinFlow_noNew (s : State) {i : FlowIx} (hl : (s.flow i).live = true) (p : Option LinkId) :
    s.NoNew d (s.repinFlow i p) := by
  have hflow : ∀ j, (s.repinFlow i p).flow j =
      if j = i then { s.flow i with state := match p with
        | some l => .opened l
        | none => .held } else s.flow j := by
    intro j
    cases p with
    | none =>
      show ((s.dropPinOf (s.flow i).pin).setFlow i _).flow j = _
      rw [setFlow_flow]
      simp
    | some l =>
      show ((s.dropPinOf (s.flow i).pin).setFlow i _).flow j = _
      rw [setFlow_flow]
      simp
  refine .flow (i := i) (fun j => by simp) (fun j hj => by rw [hflow, if_neg hj]) fun _ hm => ⟨hl, ?_⟩
  rw [hflow, if_pos rfl] at hm
  exact hm

theorem touchFlow_noNew (hd : s.tw.currentMark ≠ d) (i : FlowIx) : s.NoNew d (s.touchFlow i) := by
  refine .flow (i := i) (fun _ => rfl) (fun j hj => ?_) fun _ hm => ?_
  · rw [State.touchFlow, setFlow_flow, if_neg hj]
  · rw [State.touchFlow, setFlow_flow, if_pos rfl] at hm
    exact absurd hm hd

theorem useFlow_noNew (hd : s.tw.currentMark ≠ d) (i : FlowIx) : s.NoNew d (s.useFlow i) := by
  unfold State.useFlow
  have h1 : s.NoNew d ((s.touchFlow i).useWay i) := (touchFlow_noNew hd i).of_eq rfl rfl
  exact h1.trans (touch_noNew (s := (s.touchFlow i).useWay i) hd _)

theorem createFlow_noNew (hd : s.tw.currentMark ≠ d) (i : FlowIx) (k : FlowKey) (c : FlowClass) (o : SubHandle) :
    s.NoNew d (s.createFlow i k c o) := by
  obtain ⟨h1, h2, _⟩ := createFlow_parts s i k c o
  refine ⟨fun j => ?_, fun j => ?_⟩
  · rw [h2]
    split <;> exact .intro
  · rw [h1]
    split
    · intro _ hm
      exact absurd hm hd
    · exact .intro

theorem chargeBurst_noNew (s : State) (i : SubIx) (c : FlowClass) (m n : Nat) : s.NoNew d (s.chargeBurst i c m n) := by
  unfold State.chargeBurst
  split
  · exact chargeSub_noNew ..
  · exact .refl ..

theorem judge_noNew (s : State) {i : FlowIx} (hl : (s.flow i).live = true) (m n : Nat) : s.NoNew d (s.judge i m n).1 := by
  unfold State.judge
  dsimp only
  split
  · exact .refl ..
  · unfold State.linkStep
    dsimp only
    split
    · exact chargeBurst_noNew ..
    · split
      · exact (repinFlow_noNew s hl _).trans (chargeBurst_noNew ..)
      · exact repinFlow_noNew s hl _

/-! ## Whole requests -/

theorem attach_noNew (hd : s.tw.currentMark ≠ d) (tag : Tag) (code : BitVec 2) (p : Bool) (t : TariffIx)
    (home : Operator) : s.NoNew d (s.attach tag code p t home).1 := by
  unfold State.attach
  split
  · exact .refl ..
  · split
    · exact .refl ..
    · unfold State.attachChecked
      split
      · rename_i i hi
        unfold State.attachFound
        split
        · exact touch_noNew hd i
        · exact touch_noNew hd i
        · exact .refl ..
        · split
          · exact .refl ..
          · exact revive_noNew hd (findTag_live hi) p home
        · exact .refl ..
      · split
        · exact .refl ..
        · exact createSub_noNew hd ..

theorem detach_noNew (s : State) (x : SubHandle) (g : Option SubGuard) : s.NoNew d (s.detach x g).1 := by
  unfold State.detach
  split
  · exact .refl ..
  · rename_i r hr
    obtain ⟨rfl, hl, _⟩ := live_of_subOf hr
    split
    · exact .refl ..
    · split
      · exact enterDetaching_noNew hl
      · exact enterDetaching_noNew hl
      · exact .refl ..
      · exact .refl ..
      · exact .refl ..

theorem subFind_noNew (hd : s.tw.currentMark ≠ d) (tag : Tag) : s.NoNew d (s.subFind tag).1 := by
  unfold State.subFind
  split
  · exact .refl ..
  · exact touch_noNew hd _

theorem subUpdate_noNew (s : State) (x : SubHandle) (g : Option SubGuard) (f : SubField) (a : UpdateAction)
    (v : Word) : s.NoNew d (s.subUpdate x g f a v).1 := by
  unfold State.subUpdate
  split
  · exact .refl ..
  · split
    · exact .refl ..
    · rename_i r hr
      obtain ⟨rfl, hl, _⟩ := live_of_subOf hr
      split
      · exact .refl ..
      · obtain ⟨w, p, o, he⟩ := SubField.update_parts f a v (s.sub x.index)
        dsimp only
        rw [he]
        exact setSub_noNew s (r := { s.sub x.index with userWord := w, permanent := p, so := o }) rfl hl

theorem grantCredit_noNew (s : State) (x : SubHandle) (g : Option SubGuard) (m n : Word) :
    s.NoNew d (s.grantCredit x g m n).1 := by
  unfold State.grantCredit
  split
  · exact .refl ..
  · split
    · exact .refl ..
    · split
      · exact applyGrantTo_noNew ..
      · exact applyGrantTo_noNew ..
      · exact .refl ..
      · exact .refl ..
      · exact .refl ..

theorem settle_noNew (s : State) (x : SubHandle) (g : Option SubGuard) (p : SettlePart) :
    s.NoNew d (s.settle x g p).1 := by
  unfold State.settle
  split
  · exact .refl ..
  · split
    · exact .refl ..
    · split
      · exact .refl ..
      · exact (settleParts_noNew ..).trans (freeIfSettled_noNew ..)

theorem usagePost_noNew (hd : s.tw.currentMark ≠ d) (x : SubHandle) (code : BitVec 3) (m n : Word) :
    s.NoNew d (s.usagePost x code m n).1 := by
  unfold State.usagePost
  split
  · exact .refl ..
  · rename_i r hr
    split
    · exact .refl ..
    · exact postUsage_noNew hd (live_of_subOf hr).2.1 ..

theorem flowOpen_noNew (hd : s.tw.currentMark ≠ d) (o : SubHandle) (k : FlowKey) (code : BitVec 3) (r : Bool) :
    s.NoNew d (s.flowOpen o k code r).1 := by
  have after : ∀ (x : State) (c : FlowClass) (a b : Option FlowIx), x.tw.currentMark ≠ d →
      x.NoNew d (x.openAfterReclaim k c o a b).1 := by
    intro x c a b hx
    unfold State.openAfterReclaim
    dsimp only
    split
    · exact .refl ..
    · exact ((retireSome_noNew x a).trans (retireSome_noNew _ b)).trans (createFlow_noNew (by simpa using hx) ..)
  have touched : ∀ c, s.NoNew d ((s.touch o.index).openTouched k c o r).1 := by
    intro c
    refine (touch_noNew hd o.index).trans ?_
    have hx : (s.touch o.index).tw.currentMark ≠ d := by simpa using hd
    generalize s.touch o.index = x at hx
    unfold State.openTouched
    split
    · exact touchFlow_noNew hx _
    · unfold State.openNew
      dsimp only
      split
      · exact .refl ..
      · split
        · exact .refl ..
        · exact after x c _ _ hx
        · exact after x c _ _ hx
      · split
        · exact .refl ..
        · exact after x c _ _ hx
        · exact after x c _ _ hx
  unfold State.flowOpen
  split
  · exact .refl ..
  · split
    · exact .refl ..
    · split
      · exact .refl ..
      · exact .refl ..
      · exact touched _
      · exact touched _
      · exact .refl ..

theorem flowClose_noNew (s : State) (x : FlowHandle) (g : Option FlowGuard) : s.NoNew d (s.flowClose x g).1 := by
  unfold State.flowClose
  split
  · exact .refl ..
  · split
    · exact .refl ..
    · exact retire_noNew ..

theorem flowFind_noNew (hd : s.tw.currentMark ≠ d) (k : FlowKey) : s.NoNew d (s.flowFind k).1 := by
  unfold State.flowFind
  split
  · exact .refl ..
  · exact useFlow_noNew hd _

theorem FlowField.update_mark (f : FlowField) (a : UpdateAction) (v : Word) (r : FlowRecord) :
    (f.update a v r).mark = r.mark := by
  unfold FlowField.update FlowField.put
  split
  · rfl
  · split <;> rfl

theorem flowUpdate_noNew (s : State) (x : FlowHandle) (g : Option FlowGuard) (f : FlowField) (a : UpdateAction)
    (v : Word) : s.NoNew d (s.flowUpdate x g f a v).1 := by
  unfold State.flowUpdate
  split
  · exact .refl ..
  · split
    · exact .refl ..
    · rename_i r hr
      obtain ⟨rfl, hl⟩ := live_of_flowOf hr
      split
      · exact .refl ..
      · refine .flow (i := x.index) (fun _ => rfl) (fun j hj => ?_) fun _ hm => ⟨hl, ?_⟩
        · dsimp only
          rw [setFlow_flow, if_neg hj]
        · dsimp only at hm
          rw [setFlow_flow, if_pos rfl, FlowField.update_mark] at hm
          exact hm

theorem chargeFlow_noNew (hd : s.tw.currentMark ≠ d) (x : FlowHandle) (m : BitVec 16) (n : BitVec 8) :
    s.NoNew d (s.chargeFlow x m n).1 := by
  unfold State.chargeFlow
  split
  · exact .refl ..
  · rename_i f hf
    split
    · exact .refl ..
    · refine (useFlow_noNew hd _).trans (judge_noNew _ ?_ _ _)
      rw [useFlow_flow, if_pos rfl]
      exact (live_of_flowOf hf).2

/-! ## The invariant -/

/-- No AGE walk is in progress. -/
def State.NotAging (s : State) : Prop := ∀ w, s.tw.walk = some w → w.entry ≠ .age

theorem State.marksSound_iff (s : State) : s.MarksSound ↔ s.MarksDistinct ∧ (s.NotAging → s.EmptyMarkUnused) ∧
    ∀ w, s.tw.walk = some w → w.entry = .age → s.AgePassed w := by
  unfold State.MarksSound State.NotAging
  cases hw : s.tw.walk with
  | none => simp
  | some w =>
    simp only [Option.some.injEq, forall_eq']
    by_cases he : w.entry = .age <;> simp [he]

/-- No record gains the third mark, the roles stay, and an AGE walk in progress is the one of before, as far along. -/
theorem State.MarksSound.of_noNew (h : s.MarksSound) (hn : s.NoNew s.tw.thirdMark t)
    (h1 : t.tw.currentMark = s.tw.currentMark) (h2 : t.tw.previousMark = s.tw.previousMark)
    (h3 : t.tw.thirdMark = s.tw.thirdMark) (hw : t.NotAging → s.NotAging)
    (ha : ∀ w, t.tw.walk = some w → w.entry = .age → ∃ v, s.tw.walk = some v ∧ v.entry = .age ∧
      w.flowPass = v.flowPass ∧ w.cursor = v.cursor) : t.MarksSound := by
  rw [State.marksSound_iff] at h ⊢
  obtain ⟨k1, k2, k3⟩ := h
  refine ⟨?_, fun hna => ?_, fun w hw' he => ?_⟩
  · unfold State.MarksDistinct at k1 ⊢
    rw [h1, h2, h3]
    exact k1
  · obtain ⟨e1, e2⟩ := k2 (hw hna)
    refine ⟨fun i hl hm => ?_, fun i hl hm => ?_⟩
    · rw [h3] at hm
      obtain ⟨n1, n2⟩ := hn.subs i hl hm
      exact e1 i n1 n2
    · rw [h3] at hm
      obtain ⟨n1, n2⟩ := hn.flows i hl hm
      exact e2 i n1 n2
  · obtain ⟨v, hv, hve, hp, hc⟩ := ha w hw' he
    obtain ⟨e1, e2⟩ := k3 v hv hve
    refine ⟨fun i hl hx hm => ?_, fun hx i hl hi hm => ?_⟩
    · rw [h3] at hm
      obtain ⟨n1, n2⟩ := hn.subs i hl hm
      exact e1 i n1 (by rw [← hp, ← hc]; exact hx) n2
    · rw [h3] at hm
      obtain ⟨n1, n2⟩ := hn.flows i hl hm
      exact e2 (by rw [← hp]; exact hx) i n1 (by rw [← hc]; exact hi) n2

/-- The TW is as it was but for its queue and summaries. -/
theorem State.MarksSound.of_tw (h : s.MarksSound) (hn : s.NoNew s.tw.thirdMark t)
    (h1 : t.tw.currentMark = s.tw.currentMark) (h2 : t.tw.previousMark = s.tw.previousMark)
    (h3 : t.tw.thirdMark = s.tw.thirdMark) (hw : t.tw.walk = s.tw.walk) : t.MarksSound :=
  h.of_noNew hn h1 h2 h3 (fun hx w hw' => hx w (by rw [hw]; exact hw')) fun w hw' he =>
    ⟨w, by rw [← hw]; exact hw', he, rfl, rfl⟩

/-- A claim of the STC or the FTC, taken whole. -/
theorem State.MarksSound.taken {k : Taken} {o : Owner} {ch : Chan} (h : s.MarksSound)
    (hn : (s.grantTo o ch).NoNew s.tw.thirdMark k.1) (hw : k.1.tw = s.tw) : (k.finish ch).MarksSound := by
  have h0 : s.NoNew s.tw.thirdMark (s.grantTo o ch) := by
    cases o <;> exact (State.NoNew.refl _ s).of_eq rfl rfl
  have ht : (k.finish ch).tw = s.tw := by simp [Taken.finish, hw]
  exact h.of_tw ((h0.trans hn).of_eq (by simp [Taken.finish]) (by simp [Taken.finish])) (by rw [ht]) (by rw [ht])
    (by rw [ht]) (by rw [ht])

/-- A walk that is not an AGE walk goes on or ends. -/
theorem State.MarksSound.of_other {w : Walk} (h : s.MarksSound) (hn : s.NoNew s.tw.thirdMark t)
    (h1 : t.tw.currentMark = s.tw.currentMark) (h2 : t.tw.previousMark = s.tw.previousMark)
    (h3 : t.tw.thirdMark = s.tw.thirdMark) (hw : s.tw.walk = some w) (he : w.entry ≠ .age)
    (ht : t.NotAging) : t.MarksSound := by
  refine h.of_noNew hn h1 h2 h3 (fun _ v hv => ?_) fun v hv hv' => absurd hv' (ht v hv)
  rw [hw] at hv
  cases hv
  exact he

/-- A walk other than an AGE walk starts, on an IDLE walker. -/
theorem State.MarksSound.of_idle (h : s.MarksSound) (hn : s.NoNew s.tw.thirdMark t)
    (h1 : t.tw.currentMark = s.tw.currentMark) (h2 : t.tw.previousMark = s.tw.previousMark)
    (h3 : t.tw.thirdMark = s.tw.thirdMark) (hw : s.tw.walk = none) (ht : t.NotAging) : t.MarksSound :=
  h.of_noNew hn h1 h2 h3 (fun _ v hv => by rw [hw] at hv; cases hv) fun v hv hv' => absurd hv' (ht v hv)

theorem State.walking_eq {w : Walk} (h : s.walking = some w) : s.tw.walk = some w := by
  unfold State.walking at h
  split at h
  · exact h
  · cases h

/-- R132: the roles rotate at the start of an AGE walk. -/
theorem State.MarksSound.startAge {q : List WalkEntry} (h : s.MarksSound) :
    ((s.setQueue q).startWalk .age).MarksSound := by
  rw [State.marksSound_iff] at h ⊢
  obtain ⟨⟨d1, d2, d3⟩, _, _⟩ := h
  refine ⟨⟨fun e => d3 e.symm, d1, fun e => d2 e.symm⟩, fun hna => ?_, fun w hw _ => ?_⟩
  · exact absurd rfl (hna _ rfl)
  · cases hw
    refine ⟨fun i _ hx => ?_, fun hx => (by cases hx)⟩
    rcases hx with hx | hx
    · cases hx
    · exact absurd hx (Nat.not_lt_zero _)

theorem subAt_toNat {w : Walk} (h : w.cursor < 4096) : w.subAt.toNat = w.cursor := by
  simp [Walk.subAt, Nat.mod_eq_of_lt h]

theorem flowAt_toNat {w : Walk} (h : w.cursor < 16384) : w.flowAt.toNat = w.cursor := by
  simp [Walk.flowAt, Nat.mod_eq_of_lt h]

/-- R133: a pass-1 visit. -/
theorem State.MarksSound.pass1Visit {w : Walk} (h : s.MarksSound) (hp : s.pass1Walk = some w) :
    (s.pass1Visit w).MarksSound := by
  unfold State.pass1Walk at hp
  obtain ⟨hw, hc⟩ := Option.filter_eq_some_iff.mp hp
  simp only [Bool.and_eq_true, beq_iff_eq, Bool.not_eq_true', Walk.visiting, decide_eq_true_eq] at hc
  obtain ⟨⟨he, hf⟩, hlt⟩ := hc
  have hsize : w.size = 4096 := by
    unfold Walk.size
    rw [he]
    simp [hf, Config.subscriberCount]
  rw [hsize] at hlt
  have hw' := State.walking_eq hw
  rw [State.marksSound_iff] at h ⊢
  obtain ⟨hd, _, h3⟩ := h
  obtain ⟨e1, _⟩ := h3 w hw' he
  have hmarks : (s.ageSub w.subAt).tw = s.tw := by simp
  have hn : s.NoNew s.tw.thirdMark (s.ageSub w.subAt) := ageSub_noNew hd.2.1 _
  have passed : ∀ i, ((s.ageSub w.subAt).sub i).live = true → i.toNat < w.cursor + 1 →
      ((s.ageSub w.subAt).sub i).mark ≠ s.tw.thirdMark := by
    intro i hl hi hm
    by_cases hx : i = w.subAt
    · rw [hx] at hl hm
      exact ageSub_clears hd.2.1 _ hl hm
    · obtain ⟨n1, n2⟩ := hn.subs i hl hm
      refine e1 i n1 (.inr ?_) n2
      have : i.toNat ≠ w.cursor := fun e => hx (BitVec.eq_of_toNat_eq (by rw [e, subAt_toNat hlt]))
      omega
  have hthird : (s.pass1Visit w).tw.thirdMark = s.tw.thirdMark := by simp [State.pass1Visit]
  have hsub : ∀ i, (s.pass1Visit w).sub i = (s.ageSub w.subAt).sub i := fun _ => rfl
  obtain ⟨counts, hwalk⟩ : ∃ counts, (s.pass1Visit w).tw.walk = some (w.advancePass1 counts) := ⟨_, rfl⟩
  refine ⟨?_, fun hna => ?_, fun v hv _ => ?_⟩
  · unfold State.MarksDistinct at hd ⊢
    simpa [State.pass1Visit] using hd
  · refine absurd ?_ (hna _ hwalk)
    unfold Walk.advancePass1 Walk.advance
    split <;> exact he
  · rw [hwalk] at hv
    cases hv
    unfold Walk.advancePass1 Walk.advance
    refine ⟨fun i hl hx => ?_, fun hx i hl hi => ?_⟩
    · rw [hsub] at hl ⊢
      rw [hthird]
      refine passed i hl ?_
      split at hx
      · rename_i hlast
        rw [hlast]
        exact i.isLt
      · rcases hx with hx | hx
        · rw [show ({ w with counts := counts, cursor := w.cursor + 1 } : Walk).flowPass = w.flowPass from rfl, hf] at hx
          cases hx
        · exact hx
    · split at hx
      · rename_i hlast
        rw [if_pos hlast] at hi
        exact absurd hi (Nat.not_lt_zero _)
      · rw [show ({ w with counts := counts, cursor := w.cursor + 1 } : Walk).flowPass = w.flowPass from rfl, hf] at hx
        cases hx

/-- R134: a pass-2 visit. -/
theorem State.MarksSound.pass2Visit {w : Walk} (h : s.MarksSound) (hp : s.pass2Walk = some w) :
    (s.pass2Visit w).MarksSound := by
  unfold State.pass2Walk at hp
  obtain ⟨hw, hc⟩ := Option.filter_eq_some_iff.mp hp
  simp only [Bool.and_eq_true, beq_iff_eq, Walk.visiting, decide_eq_true_eq] at hc
  obtain ⟨⟨he, hf⟩, hlt⟩ := hc
  have hsize : w.size = 16384 := by
    unfold Walk.size
    rw [he]
    simp [hf, Config.flowCount]
  rw [hsize] at hlt
  have hw' := State.walking_eq hw
  rw [State.marksSound_iff] at h ⊢
  obtain ⟨hd, _, h3⟩ := h
  obtain ⟨e1, e2⟩ := h3 w hw' he
  obtain ⟨t, ht⟩ : ∃ t, (if s.doomedFlow w.flowAt = true then s.retire w.flowAt else s) = t := ⟨_, rfl⟩
  have hn : s.NoNew s.tw.thirdMark t := by
    rw [← ht]
    split
    · exact retire_noNew ..
    · exact .refl ..
  have hat : ¬((t.flow w.flowAt).live = true ∧ (t.flow w.flowAt).mark = s.tw.thirdMark) := by
    rw [← ht]
    split
    · rw [retire_flow, if_pos rfl]
      rintro ⟨hl, _⟩
      cases hl
    · rename_i hc
      rintro ⟨hl, hm⟩
      apply hc
      simp [State.doomedFlow, hl, hm]
  have htw : t.tw = s.tw := by
    rw [← ht]
    split <;> simp
  obtain ⟨counts, hvis⟩ : ∃ counts, s.pass2Visit w = t.setWalk (some (w.advance counts)) := by
    refine ⟨{ w.counts with flowsRetired := w.counts.flowsRetired + if s.doomedFlow w.flowAt then 1 else 0 }, ?_⟩
    rw [← ht]
    rfl
  rw [hvis]
  refine ⟨?_, fun hna => ?_, fun v hv _ => ?_⟩
  · unfold State.MarksDistinct at hd ⊢
    simpa [htw] using hd
  · exact absurd he (hna (w.advance counts) rfl)
  · cases hv
    refine ⟨fun i hl _ hm => ?_, fun _ i hl hi hm => ?_⟩
    · rw [show (t.setWalk (some (w.advance counts))).tw.thirdMark = s.tw.thirdMark by simp [htw]] at hm
      obtain ⟨n1, n2⟩ := hn.subs i hl hm
      exact e1 i n1 (.inl hf) n2
    · rw [show (t.setWalk (some (w.advance counts))).tw.thirdMark = s.tw.thirdMark by simp [htw]] at hm
      by_cases hx : i = w.flowAt
      · rw [hx] at hl hm
        exact hat ⟨hl, hm⟩
      · obtain ⟨n1, n2⟩ := hn.flows i hl hm
        refine e2 hf i n1 ?_ n2
        have : i.toNat ≠ w.cursor := fun e => hx (BitVec.eq_of_toNat_eq (by rw [e, flowAt_toNat hlt]))
        have hi' : i.toNat < w.cursor + 1 := hi
        omega

/-- R135: at the end of an AGE walk no live record carries the doomed mark. -/
theorem State.MarksSound.ageEnd {w : Walk} (h : s.MarksSound) (hp : s.endingWalk = some w) (he : w.entry = .age) :
    (s.ageEnd w).MarksSound := by
  unfold State.endingWalk at hp
  obtain ⟨hw, hc⟩ := Option.filter_eq_some_iff.mp hp
  simp only [he, Bool.and_eq_true, Bool.not_eq_true', Walk.visiting, decide_eq_false_iff_not, bne_self_eq_false,
    Bool.or_false] at hc
  obtain ⟨hlt, hf⟩ := hc
  have hsize : w.size = 16384 := by
    unfold Walk.size
    rw [he]
    simp [hf, Config.flowCount]
  rw [hsize] at hlt
  have hw' := State.walking_eq hw
  rw [State.marksSound_iff] at h ⊢
  obtain ⟨hd, _, h3⟩ := h
  obtain ⟨e1, e2⟩ := h3 w hw' he
  refine ⟨hd, fun _ => ⟨fun i hl hm => e1 i hl (.inl hf) hm, fun i hl hm => e2 hf i hl ?_ hm⟩, fun v hv => ?_⟩
  · have := i.isLt
    omega
  · cases hv

/-- Every record is VACANT and the marks have their power-on values. -/
theorem marksSound_of_vacant (hs : ∀ i, (s.sub i).live = false) (hf : ∀ i, (s.flow i).live = false)
    (h1 : s.tw.currentMark = 0) (h2 : s.tw.previousMark = 2) (h3 : s.tw.thirdMark = 1) (hw : s.tw.walk = none) :
    s.MarksSound := by
  rw [State.marksSound_iff]
  refine ⟨?_, fun _ => ⟨fun i hl => ?_, fun i hl => ?_⟩, fun w hv => ?_⟩
  · unfold State.MarksDistinct
    rw [h1, h2, h3]
    decide
  · rw [hs] at hl
    cases hl
  · rw [hf] at hl
    cases hl
  · rw [hw] at hv
    cases hv

theorem beginClearing_marksSound (s : State) (hc : s.TablesCanonical) (ch : Chan) (b : Bool) :
    (s.beginClearing ch b).MarksSound := by
  obtain ⟨h3, h4⟩ := beginClearing_records s hc ch b
  refine marksSound_of_vacant (fun i => ?_) (fun i => ?_) ?_ ?_ ?_ (by simp)
  · rw [h3]
    unfold SubRecord.cleared
    split
    · rfl
    · rename_i hl
      simpa using hl
  · rw [h4]
    unfold FlowRecord.cleared
    split
    · rfl
    · rename_i hl
      simpa using hl
  · cases b <;> rfl
  · cases b <;> rfl
  · cases b <;> rfl

end Sys2Proof.Machine
end

