-- ==== Sys2Proof/Laws/Terms.lean ====
section
/-! SUPPORT. The zones, the agreement list and the tariffs stay sound (R85, R88, R92) under every ZAS claim. -/

namespace Sys2Proof.Machine

/-! ## The agreement list -/

/-- Ascending order of operator code (R88). -/
def Ordered (l : List Agreement) : Prop := l.Pairwise fun a b => a.code < b.code

theorem mem_insertAgreement {a b : Agreement} {l : List Agreement} :
    b ∈ insertAgreement a l ↔ b = a ∨ b ∈ l := by
  induction l with
  | nil => simp [insertAgreement]
  | cons x rest ih =>
    unfold insertAgreement
    split
    · simp
    · simp only [List.mem_cons, ih]
      tauto

theorem length_insertAgreement (a : Agreement) (l : List Agreement) :
    (insertAgreement a l).length = l.length + 1 := by
  induction l with
  | nil => rfl
  | cons x rest ih =>
    unfold insertAgreement
    split
    · rfl
    · simp [ih]

/-- An insertion of a code that is absent keeps the order (R89). -/
theorem Ordered.insert {a : Agreement} {l : List Agreement} (h : Ordered l) (ha : ∀ b ∈ l, b.code ≠ a.code) :
    Ordered (insertAgreement a l) := by
  induction l with
  | nil => simp [insertAgreement, Ordered]
  | cons x rest ih =>
    obtain ⟨hx, hr⟩ := List.pairwise_cons.mp h
    unfold insertAgreement
    split
    · rename_i hlt
      refine List.pairwise_cons.mpr ⟨fun b hb => ?_, h⟩
      rcases List.mem_cons.mp hb with hb | hb
      · exact hb ▸ hlt
      · exact BitVec.lt_trans hlt (hx b hb)
    · rename_i hge
      refine List.pairwise_cons.mpr ⟨fun b hb => ?_, ih hr fun b hb => ha b (by simp [hb])⟩
      rcases mem_insertAgreement.mp hb with hb | hb
      · have hne := ha x (by simp)
        rw [hb]
        rw [BitVec.lt_def] at hge ⊢
        have : x.code.toNat ≠ a.code.toNat := fun e => hne (BitVec.eq_of_toNat_eq e)
        omega
      · exact hx b hb

theorem replaceAgreement_codes (a : Agreement) (l : List Agreement) :
    (replaceAgreement a l).map Agreement.code = l.map Agreement.code := by
  induction l with
  | nil => rfl
  | cons x rest ih =>
    unfold replaceAgreement
    split
    · rename_i hx
      simp [hx]
    · simp [ih]

theorem mem_replaceAgreement {a b : Agreement} {l : List Agreement} (h : b ∈ replaceAgreement a l) :
    b = a ∨ b ∈ l := by
  induction l with
  | nil => simp [replaceAgreement] at h
  | cons x rest ih =>
    unfold replaceAgreement at h
    split at h
    · rcases List.mem_cons.mp h with h | h
      · exact .inl h
      · exact .inr (by simp [h])
    · rcases List.mem_cons.mp h with h | h
      · exact .inr (by simp [h])
      · rcases ih h with h | h
        · exact .inl h
        · exact .inr (by simp [h])

/-- The order of the list is a property of its codes. -/
theorem ordered_iff_codes (l : List Agreement) : Ordered l ↔ (l.map Agreement.code).Pairwise (· < ·) := by
  simp [Ordered, List.pairwise_map]

/-- A replacement leaves the order of the list unchanged (R89). -/
theorem Ordered.replace {a : Agreement} {l : List Agreement} (h : Ordered l) : Ordered (replaceAgreement a l) := by
  rw [ordered_iff_codes, replaceAgreement_codes, ← ordered_iff_codes]
  exact h

theorem findAgreement_none {l : List Agreement} {code : Operator} (h : findAgreement l code = none) :
    ∀ b ∈ l, b.code ≠ code := by
  intro b hb
  have := List.find?_eq_none.mp h b hb
  simpa using this

/-! ## The terms -/

/-- The terms are sound whatever the parts of the state that they do not read. -/
theorem State.TermsSound.of_zas {s t : State} (h : s.TermsSound) (hz : t.zas.zones = s.zas.zones)
    (hc : t.zas.currentZone = s.zas.currentZone) (ha : t.zas.agreements = s.zas.agreements)
    (ht : t.zas.tariffs = s.zas.tariffs) : t.TermsSound := by
  have hzone : ∀ z, t.zone z = s.zone z := fun z => by simp [State.zone, hz]
  have htar : ∀ i, t.tariff i = s.tariff i := fun i => by simp [State.tariff, ht]
  obtain ⟨h1, h2, h3, h4, h5⟩ := h
  refine ⟨by rw [hc, hzone]; exact h1, by rw [ha]; exact h2, by rw [ha]; exact h3, ?_, fun i => by rw [htar]; exact h5 i⟩
  intro a hmem c i hi
  rw [htar]
  exact h4 a (ha ▸ hmem) c i hi

theorem State.TermsSound.finish {t : Taken} (h : t.1.TermsSound) (ch : Chan) : (t.finish ch).TermsSound :=
  h.of_zas (by simp [Taken.finish]) (by simp [Taken.finish]) (by simp [Taken.finish]) (by simp [Taken.finish])

theorem State.TermsSound.advance {s : State} (h : s.TermsSound) (b : Bool) : (s.advancePolicyIf b).TermsSound :=
  h.of_zas (by simp) (by simp) (by simp) (by simp)

theorem State.TermsSound.enterZone {s : State} (h : s.TermsSound) {z : ZoneIx} (hz : (s.zone z).defined = true) :
    (s.enterZone z).TermsSound := by
  obtain ⟨h1, h2, h3, h4, h5⟩ := h
  refine ⟨?_, by simpa using h2, by simpa using h3, ?_, by simpa using h5⟩
  · simp only [enterZone_frame]
    have : (s.enterZone z).zas.currentZone = z := by simp [State.enterZone]
    rw [this]
    exact hz
  · intro a ha c i hi
    simpa using h4 a (by simpa using ha) c i hi

theorem State.TermsSound.zoneChange {s : State} (h : s.TermsSound) (c : BitVec 8) (f : Bool) :
    (s.zoneChange c f).1.TermsSound := by
  unfold State.zoneChange
  split
  · exact h
  · dsimp only
    split
    · rename_i z _ hs
      refine h.enterZone ?_
      unfold State.zoneChangeStatus at hs
      by_contra hd
      have hd' : (s.zone z).defined = false := by simpa using hd
      simp [hd'] at hs
    · exact h

theorem State.TermsSound.defineZone {s : State} (h : s.TermsSound) (z : ZoneIx) (r : ZoneRecord) :
    (s.defineZone z r).1.TermsSound := by
  simp only [State.defineZone]
  split
  · exact h
  · rename_i hc
    split
    · exact h
    · refine State.TermsSound.advance ?_ _
      obtain ⟨h1, h2, h3, h4, h5⟩ := h
      refine ⟨?_, by simpa using h2, by simpa using h3, ?_, by simpa using h5⟩
      · simp only [setZone_zasCurrentZone, setZone_zone]
        split
        · rename_i hz
          by_contra hd
          exact hc ⟨by simpa using hd, hz.symm⟩
        · exact h1
      · intro a ha c i hi
        simpa using h4 a (by simpa using ha) c i hi

theorem State.TermsSound.zoneDefine {s : State} (h : s.TermsSound) (x : BitVec 8) (y : BitVec 2) (c : BitVec 8) :
    (s.zoneDefine x y c).1.TermsSound := by
  unfold State.zoneDefine
  split
  · exact h.defineZone _ _
  · exact h

/-- A tariff field that a request names is DEFINED (R89, steps 1 and 2). -/
theorem namedTariff_defined {s : State} {x : BitVec 8} {t : TariffIx} (h : s.namedTariff x = some (some t)) :
    (s.tariff t).defined = true := by
  unfold State.namedTariff at h
  split at h
  · cases h
  · cases h
  · split at h
    · rename_i hd
      cases h
      exact hd
    · cases h

theorem requestedAgreement_names {s : State} {code : Operator} {x : BitVec 2} {t0 t1 t2 t3 : BitVec 8} {a : Agreement}
    (h : s.requestedAgreement code x t0 t1 t2 t3 = some a) : s.NamesDefined a := by
  simp only [State.requestedAgreement, Option.bind_eq_bind, Option.bind_eq_some_iff] at h
  obtain ⟨_, _, _, h0, _, h1, _, h2, _, h3, ha⟩ := h
  cases ha
  intro c t ht
  unfold Agreement.tariffFor at ht
  split at ht <;> dsimp only at ht <;> subst ht
  · exact namedTariff_defined h0
  · exact namedTariff_defined h1
  · exact namedTariff_defined h2
  · exact namedTariff_defined h3

theorem State.TermsSound.setAgreements {s : State} (h : s.TermsSound) {l : List Agreement} (ho : Ordered l)
    (hl : l.length ≤ Config.agreementCapacity) (hn : ∀ a ∈ l, s.NamesDefined a) : (s.setAgreements l).TermsSound := by
  obtain ⟨h1, h2, h3, h4, h5⟩ := h
  exact ⟨by simpa using h1, ho, hl, fun a ha c i hi => by simpa using hn a ha c i hi, by simpa using h5⟩

theorem State.TermsSound.setAgreement {s : State} (h : s.TermsSound) {a : Agreement} (ha : s.NamesDefined a) :
    (s.setAgreement a).1.TermsSound := by
  unfold State.setAgreement
  obtain ⟨h1, h2, h3, h4, h5⟩ := id h
  split
  · split
    · exact h
    · simp only [State.writeAgreement]
      refine State.TermsSound.advance (h.setAgreements (Ordered.replace h2) ?_ ?_) _
      · have hlen := congrArg List.length (replaceAgreement_codes a s.zas.agreements)
        simp only [List.length_map] at hlen
        rw [hlen]
        exact h3
      · intro b hb
        rcases mem_replaceAgreement hb with hb | hb
        · exact hb ▸ ha
        · exact h4 b hb
  · rename_i hnone
    split
    · exact h
    · rename_i hcap
      simp only [State.writeAgreement]
      refine State.TermsSound.advance (h.setAgreements (Ordered.insert h2 (findAgreement_none hnone)) ?_ ?_) _
      · rw [length_insertAgreement]
        omega
      · intro b hb
        rcases mem_insertAgreement.mp hb with hb | hb
        · exact hb ▸ ha
        · exact h4 b hb

theorem State.TermsSound.agreementSet {s : State} (h : s.TermsSound) (o : Operator) (x : BitVec 2)
    (t0 t1 t2 t3 : BitVec 8) : (s.agreementSet o x t0 t1 t2 t3).1.TermsSound := by
  unfold State.agreementSet
  split
  · exact h
  · rename_i ha
    exact h.setAgreement (requestedAgreement_names ha)

theorem State.TermsSound.agreementRemove {s : State} (h : s.TermsSound) (o : Operator) :
    (s.agreementRemove o).1.TermsSound := by
  unfold State.agreementRemove
  obtain ⟨h1, h2, h3, h4, h5⟩ := id h
  split
  · exact h
  · refine State.TermsSound.advance (h.setAgreements (List.Pairwise.filter _ h2) ?_ ?_) _
    · exact Nat.le_trans (List.length_filter_le _ _) h3
    · intro b hb
      exact h4 b (List.mem_filter.mp hb).1

theorem State.TermsSound.tariffSet {s : State} (h : s.TermsSound) (c : BitVec 8) (x : TariffTerms) :
    (s.tariffSet c x).1.TermsSound := by
  unfold State.tariffSet
  split
  · exact h
  · rename_i k _
    split
    · rename_i hr
      simp only [State.writeTariff]
      split
      · exact h
      · refine State.TermsSound.advance ?_ _
        obtain ⟨h1, h2, h3, h4, h5⟩ := h
        refine ⟨by simpa using h1, by simpa using h2, by simpa using h3, ?_, ?_⟩
        · intro a ha c i hi
          rw [setTariff_tariff]
          split
          · rfl
          · exact h4 a (by simpa using ha) c i hi
        · intro i
          rw [setTariff_tariff]
          split
          · exact hr
          · exact h5 i
    · exact h

end Sys2Proof.Machine
end

