-- ==== Sys2Proof/Laws/Carried.lean ====
section
/-! SUPPORT. What every operation but an ATTACH and a FLOW_OPEN that create a record carries over: a live record was live
with the same tag or key, no flow list grows, and a zone epoch is the old one or the device's (R1, R25, R30, R104). -/

namespace Sys2Proof.Machine

/-- The zone epoch of `b` is `e`, or the one `a` had, close held in neither; or `b` has close held. -/
def SubRecord.ZoneKept (e : Epoch) (a b : SubRecord) : Prop :=
  b.closeHeld = false → b.zoneEpoch = e ∨ (a.closeHeld = false ∧ b.zoneEpoch = a.zoneEpoch)

theorem SubRecord.ZoneKept.refl (e : Epoch) (a : SubRecord) : a.ZoneKept e a := fun h => .inr ⟨h, rfl⟩

theorem SubRecord.ZoneKept.trans {e : Epoch} {a b c : SubRecord} (h : a.ZoneKept e b) (k : b.ZoneKept e c) :
    a.ZoneKept e c := by
  intro hc
  rcases k hc with k | ⟨k1, k2⟩
  · exact .inl k
  · rcases h k1 with h | ⟨h1, h2⟩
    · exact .inl (k2.trans h)
    · exact .inr ⟨h1, k2.trans h2⟩

theorem SubRecord.ZoneKept.of_eq {e : Epoch} {a b : SubRecord} (h1 : b.closeHeld = a.closeHeld)
    (h2 : b.zoneEpoch = a.zoneEpoch) : a.ZoneKept e b := fun h => .inr ⟨h1 ▸ h, h2⟩

/-- From `s` to `t` no record is created, tags, keys and owners stay, no flow list grows, and zone epochs are kept or
brought up to date. -/
structure State.Carries (s t : State) : Prop where
  epoch : t.zas.zoneEpoch = s.zas.zoneEpoch
  subs : ∀ i, (t.sub i).live = true → (s.sub i).live = true ∧ (t.sub i).tag = (s.sub i).tag ∧
    (s.sub i).ZoneKept s.zas.zoneEpoch (t.sub i)
  lists : ∀ i, (t.sub i).flowList.length ≤ (s.sub i).flowList.length
  flows : ∀ i, (t.flow i).live = true → (s.flow i).live = true ∧ (t.flow i).key = (s.flow i).key ∧
    (t.flow i).owner = (s.flow i).owner

variable {s t u : State}

theorem State.Carries.refl (s : State) : s.Carries s :=
  ⟨rfl, fun _ h => ⟨h, rfl, .refl _ _⟩, fun _ => le_rfl, fun _ h => ⟨h, rfl, rfl⟩⟩

theorem State.Carries.trans (h : s.Carries t) (k : t.Carries u) : s.Carries u := by
  refine ⟨k.epoch.trans h.epoch, fun i hl => ?_, fun i => (k.lists i).trans (h.lists i), fun i hl => ?_⟩
  · obtain ⟨k1, k2, k3⟩ := k.subs i hl
    obtain ⟨h1, h2, h3⟩ := h.subs i k1
    rw [h.epoch] at k3
    exact ⟨h1, k2.trans h2, h3.trans k3⟩
  · obtain ⟨k1, k2, k3⟩ := k.flows i hl
    obtain ⟨h1, h2, h3⟩ := h.flows i k1
    exact ⟨h1, k2.trans h2, k3.trans h3⟩

theorem State.Carries.of_eq (h : s.Carries t) (hs : u.stc.subs = t.stc.subs) (hf : u.ftc.flows = t.ftc.flows)
    (he : u.zas.zoneEpoch = t.zas.zoneEpoch) : s.Carries u := by
  have h1 : ∀ i, u.sub i = t.sub i := fun i => by simp [State.sub, hs]
  have h2 : ∀ i, u.flow i = t.flow i := fun i => by simp [State.flow, hf]
  refine ⟨he.trans h.epoch, fun i hl => ?_, fun i => ?_, fun i hl => ?_⟩
  · rw [h1] at hl ⊢
    exact h.subs i hl
  · rw [h1]
    exact h.lists i
  · rw [h2] at hl ⊢
    exact h.flows i hl

/-- One subscriber is written. -/
theorem State.Carries.sub {i : SubIx} (ho : ∀ j, j ≠ i → t.sub j = s.sub j)
    (hi : (t.sub i).live = true → (s.sub i).live = true ∧ (t.sub i).tag = (s.sub i).tag ∧
      (s.sub i).ZoneKept s.zas.zoneEpoch (t.sub i))
    (hl : (t.sub i).flowList.length ≤ (s.sub i).flowList.length) (hf : ∀ j, t.flow j = s.flow j)
    (he : t.zas.zoneEpoch = s.zas.zoneEpoch) : s.Carries t := by
  refine ⟨he, fun j hj => ?_, fun j => ?_, fun j hj => ?_⟩
  · by_cases hx : j = i
    · subst hx
      exact hi hj
    · rw [ho j hx] at hj ⊢
      exact ⟨hj, rfl, .refl _ _⟩
  · by_cases hx : j = i
    · subst hx
      exact hl
    · rw [ho j hx]
  · rw [hf] at hj ⊢
    exact ⟨hj, rfl, rfl⟩

/-- One flow is written. -/
theorem State.Carries.flow {i : FlowIx} (hs : ∀ j, t.sub j = s.sub j) (ho : ∀ j, j ≠ i → t.flow j = s.flow j)
    (hi : (t.flow i).live = true → (s.flow i).live = true ∧ (t.flow i).key = (s.flow i).key ∧
      (t.flow i).owner = (s.flow i).owner) (he : t.zas.zoneEpoch = s.zas.zoneEpoch) : s.Carries t := by
  refine ⟨he, fun j hj => ?_, fun j => by rw [hs], fun j hj => ?_⟩
  · rw [hs] at hj ⊢
    exact ⟨hj, rfl, .refl _ _⟩
  · by_cases hx : j = i
    · subst hx
      exact hi hj
    · rw [ho j hx] at hj ⊢
      exact ⟨hj, rfl, rfl⟩

/-- A subscriber that follows another, with its zone epoch. -/
theorem State.Carries.follow {i : SubIx} (hw : s.FollowsAt i t)
    (hz : (s.sub i).ZoneKept s.zas.zoneEpoch (t.sub i)) (hf : ∀ j, t.flow j = s.flow j)
    (he : t.zas.zoneEpoch = s.zas.zoneEpoch) : s.Carries t := by
  refine .sub hw.others (fun hl => ⟨?_, hw.self.tag, hz⟩) (by rw [hw.self.flowList]) hf he
  rcases hw.self.state with hs | ⟨hs, _⟩
  · simpa [SubRecord.live, hs] using hl
  · rcases hs with hs | hs <;> simp [SubRecord.live, hs]

/-! ## Zone epochs under the operations on one subscriber -/

theorem lowCredit_zoneKept (s : State) (e : Epoch) (i j : SubIx) : (s.sub j).ZoneKept e ((s.lowCredit i).sub j) := by
  obtain ⟨g, hg⟩ := lowCredit_sub s i
  rw [hg]
  split
  · rename_i h
    subst h
    exact .of_eq rfl rfl
  · exact .refl _ _

theorem recheck_zoneKept (s : State) (e : Epoch) (i j : SubIx) : (s.sub j).ZoneKept e ((s.recheck i).sub j) := by
  obtain ⟨r, hr⟩ := recheck_sub s i
  rw [hr]
  split
  · rename_i h
    subst h
    exact .of_eq rfl rfl
  · exact .refl _ _

theorem setSub_zoneKept (s : State) {e : Epoch} {i : SubIx} {r : SubRecord} (h : (s.sub i).ZoneKept e r) (j : SubIx) :
    (s.sub j).ZoneKept e ((s.setSub i r).sub j) := by
  rw [setSub_sub]
  split
  · rename_i hj
    subst hj
    exact h
  · exact .refl _ _

theorem chargeSub_zoneKept (s : State) (e : Epoch) (i j : SubIx) (m n : Nat) :
    (s.sub j).ZoneKept e ((s.chargeSub i m n).sub j) := by
  unfold State.chargeSub
  dsimp only
  have h1 : (s.sub i).ZoneKept e ((s.sub i).charge m n) := .of_eq rfl rfl
  split
  · exact (setSub_zoneKept s h1 j).trans (lowCredit_zoneKept _ _ _ _)
  · exact (setSub_zoneKept s h1 j).trans (lowCredit_zoneKept _ _ _ _)

theorem closeUsage_zoneKept (s : State) (e : Epoch) (i j : SubIx) : (s.sub j).ZoneKept e ((s.closeUsage i).sub j) := by
  have h1 : (s.sub i).ZoneKept e (s.sub i).closeCurrent := by
    unfold SubRecord.closeCurrent
    split <;> exact .of_eq rfl rfl
  unfold State.closeUsage
  dsimp only
  split <;> exact setSub_zoneKept s h1 j

/-- R99, step 3: the record carries the device zone epoch. -/
theorem bringUpToDate_zoneKept (s : State) (i j : SubIx) :
    (s.sub j).ZoneKept s.zas.zoneEpoch ((s.bringUpToDate i).sub j) := by
  have h1 : (s.sub i).ZoneKept s.zas.zoneEpoch { s.sub i with
      ratingZone := s.zas.currentZone, zoneEpoch := s.zas.zoneEpoch, policyEpoch := s.zas.policyEpoch } :=
    fun _ => .inl rfl
  unfold State.bringUpToDate
  exact (setSub_zoneKept s h1 j).trans (recheck_zoneKept _ _ _ _)

/-- A record that has been brought up to date carries the device zone epoch, close held or not. -/
theorem bringUpToDate_epoch (s : State) (i : SubIx) :
    ((s.bringUpToDate i).sub i).zoneEpoch = s.zas.zoneEpoch := by
  unfold State.bringUpToDate
  obtain ⟨r, hr⟩ := recheck_sub (s.setSub i { s.sub i with
    ratingZone := s.zas.currentZone, zoneEpoch := s.zas.zoneEpoch, policyEpoch := s.zas.policyEpoch }) i
  rw [hr, if_pos rfl, setSub_sub_same]

theorem lazy_zoneKept (s : State) (i j : SubIx) : (s.sub j).ZoneKept s.zas.zoneEpoch ((s.lazy i).sub j) := by
  unfold State.lazy
  split
  · exact .refl _ _
  · have h1 : (s.sub i).ZoneKept s.zas.zoneEpoch { s.sub i with closeHeld := true } := fun h => by cases h
    exact setSub_zoneKept s h1 j
  · have h2 := bringUpToDate_zoneKept (s.closeUsage i) i j
    rw [show (s.closeUsage i).zas.zoneEpoch = s.zas.zoneEpoch by simp] at h2
    exact (closeUsage_zoneKept s _ i j).trans h2
  · have h1 : (s.sub i).ZoneKept s.zas.zoneEpoch { s.sub i with policyEpoch := s.zas.policyEpoch } := .of_eq rfl rfl
    exact (setSub_zoneKept s h1 j).trans (recheck_zoneKept _ _ _ _)
  · exact .refl _ _

/-- R99, R100: after lazy processing a record carries the device zone epoch or has close held. -/
theorem lazy_settles (s : State) (i : SubIx) (h : ((s.lazy i).sub i).closeHeld = false) :
    ((s.lazy i).sub i).zoneEpoch = s.zas.zoneEpoch := by
  have hz := lazy_zoneKept s i i h
  rcases hz with hz | ⟨h1, h2⟩
  · exact hz
  · by_cases he : (s.sub i).zoneEpoch = s.zas.zoneEpoch
    · rw [h2, he]
    · unfold State.lazy State.lazyBranch at h ⊢
      simp only [h1, Bool.false_eq_true, if_false, ne_eq, he, not_false_eq_true, if_true] at h ⊢
      by_cases hc : (s.sub i).closed.isSome = true
      · simp only [hc, if_true] at h
        rw [State.holdClose] at h
        rw [show ∀ x : State, ((x.raise (.subscriber i) .closeHeld).sub i) = x.sub i from fun _ => rfl,
          setSub_sub_same] at h
        cases h
      · simp only [hc, Bool.false_eq_true, if_false] at h ⊢
        rw [bringUpToDate_epoch]
        simp

theorem settleParts_zoneKept (s : State) (i j : SubIx) (c d : Option ClosedSlot) :
    (s.sub j).ZoneKept s.zas.zoneEpoch ((s.settleParts i c d).sub j) := by
  unfold State.settleParts
  dsimp only
  have h0 : (s.sub i).ZoneKept s.zas.zoneEpoch ((s.sub i).settled c d) := .of_eq rfl rfl
  have h1 : ∀ k, (s.sub k).ZoneKept s.zas.zoneEpoch ((if c.isSome = true then
      (s.setSub i ((s.sub i).settled c d)).dropClosed 1 else s.setSub i ((s.sub i).settled c d)).sub k) := by
    intro k
    split <;> exact setSub_zoneKept s h0 k
  have he : (if c.isSome = true then (s.setSub i ((s.sub i).settled c d)).dropClosed 1
      else s.setSub i ((s.sub i).settled c d)).zas.zoneEpoch = s.zas.zoneEpoch := by split <;> rfl
  generalize (if c.isSome = true then (s.setSub i ((s.sub i).settled c d)).dropClosed 1
    else s.setSub i ((s.sub i).settled c d)) = x at h1 he ⊢
  split
  · -- the deferred close ends at the device epoch
    refine (h1 j).trans ?_
    by_cases hj : j = i
    · subst hj
      intro _
      refine .inl ?_
      unfold State.deferredClose
      rw [bringUpToDate_epoch]
      simpa using he
    · have := (deferredClose_follows x i).others j hj
      rw [this]
      exact .refl _ _
  · exact h1 j

/-! ## The operations carry -/

theorem lazy_carries (s : State) (i : SubIx) : s.Carries (s.lazy i) :=
  .follow (lazy_follows s i) (lazy_zoneKept _ _ _) (fun _ => by simp) (by simp)

theorem setSub_carries (s : State) {i : SubIx} {r : SubRecord} (hl : (s.sub i).live = true)
    (ht : r.tag = (s.sub i).tag) (hz : (s.sub i).ZoneKept s.zas.zoneEpoch r)
    (hf : r.flowList = (s.sub i).flowList) : s.Carries (s.setSub i r) := by
  refine .sub (i := i) (fun j hj => setSub_sub_ne s _ hj) (fun _ => ?_) ?_ (fun _ => rfl) rfl
  · rw [setSub_sub_same]
    exact ⟨hl, ht, hz⟩
  · rw [setSub_sub_same, hf]

theorem touch_carries (s : State) (i : SubIx) : s.Carries (s.touch i) := by
  have h1 : s.Carries (s.setSub i { s.sub i with mark := s.tw.currentMark }) := by
    refine .follow (i := i) (.set ⟨rfl, rfl, rfl, rfl, rfl, .inl rfl⟩) ?_ (fun _ => rfl) rfl
    rw [setSub_sub_same]
    exact .of_eq rfl rfl
  exact h1.trans (lazy_carries _ i)

theorem recheck_carries (s : State) (i : SubIx) : s.Carries (s.recheck i) :=
  .follow (recheck_follows s i) (recheck_zoneKept _ _ _ _) (fun _ => by simp) (by simp)

theorem lowCredit_carries (s : State) (i : SubIx) : s.Carries (s.lowCredit i) :=
  .follow (lowCredit_follows s i) (lowCredit_zoneKept _ _ _ _) (fun _ => by simp) (by simp)

theorem chargeSub_carries (s : State) (i : SubIx) (m n : Nat) : s.Carries (s.chargeSub i m n) :=
  .follow (chargeSub_follows s i m n) (chargeSub_zoneKept _ _ _ _ _ _) (fun _ => by simp) (by simp)

theorem applyGrantTo_carries (s : State) (i : SubIx) (m n : Word) : s.Carries (s.applyGrantTo i m n) := by
  refine .follow (applyGrantTo_follows s i m n) ?_ (fun _ => by simp) (by simp)
  unfold State.applyGrantTo
  have h1 : (s.sub i).ZoneKept s.zas.zoneEpoch ((s.sub i).granted m n) := .of_eq rfl rfl
  exact (setSub_zoneKept s h1 i).trans (lowCredit_zoneKept ((s.setSub i ((s.sub i).granted m n)).leaveDeadlines i) _ i i)

theorem expireGrant_carries (s : State) (i : SubIx) : s.Carries (s.expireGrant i) := by
  refine .follow (expireGrant_follows s i) ?_ (fun _ => by simp) (by simp)
  have h1 : (s.sub i).ZoneKept s.zas.zoneEpoch (s.overdrawn { s.sub i with grant := .timedOut }) := by
    unfold State.overdrawn
    split
    · exact .of_eq rfl rfl
    · dsimp only
      split <;> exact .of_eq rfl rfl
  exact setSub_zoneKept s h1 i

theorem settleParts_carries (s : State) (i : SubIx) (c d : Option ClosedSlot) : s.Carries (s.settleParts i c d) :=
  .follow (settleParts_follows s i c d) (settleParts_zoneKept _ _ _ _ _) (fun _ => by simp) (by simp)

theorem free_carries (s : State) (i : SubIx) : s.Carries (s.free i) := by
  refine .sub (i := i) (fun j hj => by rw [free_sub, if_neg hj]) (fun hl => ?_) ?_ (fun _ => by simp) (by simp)
  · rw [free_sub, if_pos rfl] at hl
    cases hl
  · rw [free_sub, if_pos rfl]
    exact Nat.zero_le _

theorem freeIfSettled_carries (s : State) (i : SubIx) : s.Carries (s.freeIfSettled i) := by
  unfold State.freeIfSettled
  split
  · exact free_carries s i
  · exact .refl _

theorem postUsage_carries {i : SubIx} (hl : (s.sub i).live = true) (c : FlowClass) (m n : Word) :
    s.Carries (s.postUsage i c m n) := by
  have h1 := touch_carries s i
  have hl1 := (touch_follows s i).live hl
  unfold State.postUsage
  dsimp only
  generalize s.touch i = x at h1 hl1
  split
  · refine (h1.trans ?_).trans (chargeSub_carries ..)
    unfold State.markMixed
    split
    · exact setSub_carries x (r := { x.sub i with current := { (x.sub i).current with mixed := true } }) hl1 rfl
        (.of_eq rfl rfl) rfl
    · exact .refl _
  · exact h1

theorem enterDetaching_carries {i : SubIx} (hl : (s.sub i).live = true) : s.Carries (s.enterDetaching i) := by
  unfold State.enterDetaching
  exact (setSub_carries s (r := { s.sub i with state := .detaching, grant := .none }) hl rfl (.of_eq rfl rfl) rfl).of_eq
    rfl rfl rfl

theorem ageSub_carries (s : State) (i : SubIx) : s.Carries (s.ageSub i) := by
  have key : ∀ x : State, x.Carries (x.remark i) := fun x => by
    refine .follow (i := i) (.set ⟨rfl, rfl, rfl, rfl, rfl, .inl rfl⟩) ?_ (fun _ => rfl) rfl
    rw [State.remark, setSub_sub_same]
    exact .of_eq rfl rfl
  unfold State.ageSub
  split
  · rename_i hc
    have hl : (s.sub i).live = true := by
      simp only [State.doomedSub, Bool.and_eq_true] at hc
      exact hc.1
    split
    · exact (enterDetaching_carries hl).trans (key _)
    · exact key _
  · exact .refl _

theorem lazyVisit_carries (s : State) (i : SubIx) : s.Carries (s.lazyVisit i) := by
  unfold State.lazyVisit
  split
  · exact lazy_carries s i
  · exact .refl _

theorem revive_carries {i : SubIx} (hl : (s.sub i).live = true) (p : Bool) (home : Operator) :
    s.Carries (s.revive i p home) := by
  have h1 : s.Carries (s.reviveStart i p home) := by
    unfold State.reviveStart
    exact (setSub_carries s (r := { s.sub i with home := home, permanent := p, state := .attached }) hl rfl
      (.of_eq rfl rfl) rfl).of_eq rfl rfl rfl
  unfold State.revive
  dsimp only
  generalize s.reviveStart i p home = x at h1
  refine h1.trans (State.Carries.trans ?_ (lowCredit_carries _ i))
  split
  · exact touch_carries x i
  · exact (touch_carries x i).trans (recheck_carries _ i)

theorem endUnwinding_carries {i : SubIx} (hl : (s.sub i).live = true) : s.Carries (s.endUnwinding i) := by
  have h1 : s.Carries { s with stc := { s.stc with unwind := s.stc.unwind.tail } } :=
    (State.Carries.refl s).of_eq rfl rfl rfl
  unfold State.endUnwinding
  dsimp only
  refine h1.trans ?_
  generalize hx : ({ s with stc := { s.stc with unwind := s.stc.unwind.tail } } : State) = x
  have hlx : (x.sub i).live = true := by
    rw [← hx]
    exact hl
  split
  · exact (setSub_carries x (r := { x.sub i with state := .unsettled }) hlx rfl (.of_eq rfl rfl) rfl).of_eq rfl rfl rfl
  · exact free_carries x i

theorem retire_carries (s : State) (i : FlowIx) : s.Carries (s.retire i) := by
  refine ⟨by simp, fun j hl => ?_, fun j => ?_, fun j hl => ?_⟩
  · rw [retire_sub] at hl ⊢
    split at hl
    · rename_i hj
      rw [if_pos hj]
      exact ⟨hl, rfl, .of_eq rfl rfl⟩
    · rename_i hj
      rw [if_neg hj]
      exact ⟨hl, rfl, .refl _ _⟩
  · rw [retire_sub]
    split
    · exact List.length_erase_le
    · exact le_rfl
  · rw [retire_flow] at hl ⊢
    split at hl
    · cases hl
    · rename_i hj
      rw [if_neg hj]
      exact ⟨hl, rfl, rfl⟩

theorem retireSome_carries (s : State) (v : Option FlowIx) : s.Carries (s.retireSome v) := by
  cases v with
  | none => exact .refl _
  | some i => exact retire_carries s i

theorem repinFlow_carries (s : State) {i : FlowIx} (hl : (s.flow i).live = true) (p : Option LinkId) :
    s.Carries (s.repinFlow i p) := by
  have hflow : ∀ j, (s.repinFlow i p).flow j =
      if j = i then { s.flow i with state := match p with
        | some l => .opened l
        | none => .held } else s.flow j := by
    intro j
    cases p with
    | none =>
      show ((s.dropPinOf (s.flow i).pin).setFlow i _).flow j = _
      rw [setFlow_flow]
      simp
    | some l =>
      show ((s.dropPinOf (s.flow i).pin).setFlow i _).flow j = _
      rw [setFlow_flow]
      simp
  refine .flow (i := i) (fun j => by simp) (fun j hj => by rw [hflow, if_neg hj]) (fun _ => ?_) (by simp)
  rw [hflow, if_pos rfl]
  exact ⟨hl, rfl, rfl⟩

/-- A live flow is written with its key and owner. -/
theorem setFlow_carries (s : State) {i : FlowIx} {f : FlowRecord} (hk : f.key = (s.flow i).key)
    (ho : f.owner = (s.flow i).owner) (hl : f.live = (s.flow i).live) : s.Carries (s.setFlow i f) := by
  refine .flow (i := i) (fun _ => rfl) (fun j hj => by rw [setFlow_flow, if_neg hj]) (fun h => ?_) rfl
  rw [setFlow_flow, if_pos rfl] at h ⊢
  exact ⟨hl ▸ h, hk, ho⟩

theorem touchFlow_carries (s : State) (i : FlowIx) : s.Carries (s.touchFlow i) := setFlow_carries s rfl rfl rfl

theorem useFlow_carries (s : State) (i : FlowIx) : s.Carries (s.useFlow i) := by
  unfold State.useFlow
  have h1 : s.Carries ((s.touchFlow i).useWay i) := (touchFlow_carries s i).of_eq rfl rfl rfl
  exact h1.trans (touch_carries _ _)

theorem chargeBurst_carries (s : State) (i : SubIx) (c : FlowClass) (m n : Nat) :
    s.Carries (s.chargeBurst i c m n) := by
  unfold State.chargeBurst
  split
  · exact chargeSub_carries ..
  · exact .refl _

theorem judge_carries (s : State) {i : FlowIx} (hl : (s.flow i).live = true) (m n : Nat) :
    s.Carries (s.judge i m n).1 := by
  unfold State.judge
  dsimp only
  split
  · exact .refl _
  · unfold State.linkStep
    dsimp only
    split
    · exact chargeBurst_carries ..
    · split
      · exact (repinFlow_carries s hl _).trans (chargeBurst_carries ..)
      · exact repinFlow_carries s hl _

/-! ## Whole requests -/

theorem detach_carries (s : State) (x : SubHandle) (g : Option SubGuard) : s.Carries (s.detach x g).1 := by
  unfold State.detach
  split
  · exact .refl _
  · rename_i r hr
    obtain ⟨rfl, hl, _⟩ := live_of_subOf hr
    split
    · exact .refl _
    · split
      · exact enterDetaching_carries hl
      · exact enterDetaching_carries hl
      · exact .refl _
      · exact .refl _
      · exact .refl _

theorem subFind_carries (s : State) (tag : Tag) : s.Carries (s.subFind tag).1 := by
  unfold State.subFind
  split
  · exact .refl _
  · exact touch_carries s _

theorem subUpdate_carries (s : State) (x : SubHandle) (g : Option SubGuard) (f : SubField) (a : UpdateAction)
    (v : Word) : s.Carries (s.subUpdate x g f a v).1 := by
  unfold State.subUpdate
  split
  · exact .refl _
  · split
    · exact .refl _
    · rename_i r hr
      obtain ⟨rfl, hl, _⟩ := live_of_subOf hr
      split
      · exact .refl _
      · obtain ⟨w, p, o, he⟩ := SubField.update_parts f a v (s.sub x.index)
        dsimp only
        rw [he]
        exact setSub_carries s (r := { s.sub x.index with userWord := w, permanent := p, so := o }) hl rfl
          (.of_eq rfl rfl) rfl

theorem grantCredit_carries (s : State) (x : SubHandle) (g : Option SubGuard) (m n : Word) :
    s.Carries (s.grantCredit x g m n).1 := by
  unfold State.grantCredit
  split
  · exact .refl _
  · split
    · exact .refl _
    · split
      · exact applyGrantTo_carries ..
      · exact applyGrantTo_carries ..
      · exact .refl _
      · exact .refl _
      · exact .refl _

theorem settle_carries (s : State) (x : SubHandle) (g : Option SubGuard) (p : SettlePart) :
    s.Carries (s.settle x g p).1 := by
  unfold State.settle
  split
  · exact .refl _
  · split
    · exact .refl _
    · split
      · exact .refl _
      · exact (settleParts_carries ..).trans (freeIfSettled_carries ..)

theorem usagePost_carries (s : State) (x : SubHandle) (code : BitVec 3) (m n : Word) :
    s.Carries (s.usagePost x code m n).1 := by
  unfold State.usagePost
  split
  · exact .refl _
  · rename_i r hr
    split
    · exact .refl _
    · exact postUsage_carries (live_of_subOf hr).2.1 ..

theorem flowClose_carries (s : State) (x : FlowHandle) (g : Option FlowGuard) : s.Carries (s.flowClose x g).1 := by
  unfold State.flowClose
  split
  · exact .refl _
  · split
    · exact .refl _
    · exact retire_carries ..

theorem flowFind_carries (s : State) (k : FlowKey) : s.Carries (s.flowFind k).1 := by
  unfold State.flowFind
  split
  · exact .refl _
  · exact useFlow_carries s _

theorem flowUpdate_carries (s : State) (x : FlowHandle) (g : Option FlowGuard) (f : FlowField) (a : UpdateAction)
    (v : Word) : s.Carries (s.flowUpdate x g f a v).1 := by
  unfold State.flowUpdate
  split
  · exact .refl _
  · split
    · exact .refl _
    · rename_i r hr
      obtain ⟨rfl, _⟩ := live_of_flowOf hr
      split
      · exact .refl _
      · have h1 : ∀ y : FlowRecord, (f.update a v y).key = y.key ∧ (f.update a v y).owner = y.owner ∧
            (f.update a v y).live = y.live := by
          intro y
          unfold FlowField.update FlowField.put
          split
          · exact ⟨rfl, rfl, rfl⟩
          · split <;> exact ⟨rfl, rfl, rfl⟩
        obtain ⟨e1, e2, e3⟩ := h1 (s.flow x.index)
        exact setFlow_carries s e1 e2 e3

theorem chargeFlow_carries (s : State) (x : FlowHandle) (m : BitVec 16) (n : BitVec 8) :
    s.Carries (s.chargeFlow x m n).1 := by
  unfold State.chargeFlow
  split
  · exact .refl _
  · rename_i f hf
    split
    · exact .refl _
    · refine (useFlow_carries s _).trans (judge_carries _ ?_ _ _)
      rw [useFlow_flow, if_pos rfl]
      exact (live_of_flowOf hf).2

end Sys2Proof.Machine
end

