-- ==== Sys2Proof/Laws/ChannelRecords.lean ====
section
/-! SUPPORT. The channels stay sound (R155, R157, R159, R167) under every command that reaches the CI. -/

namespace Sys2Proof.Machine

/-- The channels are sound whatever the parts of the state outside the CI. -/
theorem State.ChannelsSound.of_ci {s t : State} (h : s.ChannelsSound) (hc : t.ci = s.ci) : t.ChannelsSound := by
  have hchan : ∀ c, t.chan c = s.chan c := fun c => by simp [State.chan, hc]
  obtain ⟨h1, h2, h3⟩ := h
  refine ⟨fun c => by rw [hchan]; exact h1 c, by rw [hchan]; exact h2, ?_⟩
  unfold State.SoftResetOutstanding at h3 ⊢
  rw [hc]
  simpa only [hchan] using h3

/-- A channel record written in place of another. -/
theorem State.ChannelsSound.setChan {s : State} (h : s.ChannelsSound) {ch : Chan} {c : ChannelRecord}
    (hb : c.Bounded) (h7 : ch = 7 → c.ownerClass = .supervisor)
    (ho : (s.chan ch).outstanding.map Outstanding.request = some .softReset →
      c.outstanding.map Outstanding.request = some .softReset) : (s.setChan ch c).ChannelsSound := by
  obtain ⟨h1, h2, h3⟩ := h
  have hphase : (s.setChan ch c).ci.softReset = s.ci.softReset := rfl
  have hkeep : ∀ k : Chan, (s.chan k).outstanding.map Outstanding.request = some .softReset →
      ((s.setChan ch c).chan k).outstanding.map Outstanding.request = some .softReset := by
    intro k hk
    rw [setChan_chan]
    split
    · rename_i he
      exact ho (he ▸ hk)
    · exact hk
  refine ⟨fun k => ?_, ?_, ?_⟩
  · rw [setChan_chan]
    split
    · exact hb
    · exact h1 k
  · rw [setChan_chan]
    split
    · rename_i he
      exact h7 he.symm
    · exact h2
  · unfold State.SoftResetOutstanding at h3 ⊢
    rw [hphase]
    split
    · trivial
    · rename_i hp
      rw [hp] at h3
      exact hkeep _ h3
    · rename_i hp
      rw [hp] at h3
      exact hkeep _ h3

/-- A channel record with the FIFOs, the owner class and the outstanding request of another. -/
theorem State.ChannelsSound.setChan_same {s : State} (h : s.ChannelsSound) {ch : Chan} {c : ChannelRecord}
    (hq : c.requests = (s.chan ch).requests) (hr : c.responses = (s.chan ch).responses)
    (hc : c.ownerClass = (s.chan ch).ownerClass) (ho : c.outstanding = (s.chan ch).outstanding) :
    (s.setChan ch c).ChannelsSound := by
  have hb := h.1 ch
  refine h.setChan ?_ ?_ (by rw [ho]; exact id)
  · unfold ChannelRecord.Bounded ChannelRecord.reserved at hb ⊢
    rw [hq, hr, ho]
    exact hb
  · rintro rfl
    rw [hc]
    exact h.2.1

/-- The completion of an answered request other than a SOFT_RESET. -/
theorem State.ChannelsSound.complete {s : State} (h : s.ChannelsSound) {ch : Chan} {out : Outstanding} (r : Reply)
    (ho : (s.chan ch).outstanding = some out) (h8 : out.request.kind ≠ 0x08) (h64 : out.request ≠ .softReset) :
    (s.complete ch r).ChannelsSound := by
  have hb := h.1 ch
  refine h.setChan ?_ ?_ ?_
  · unfold ChannelRecord.Bounded ChannelRecord.reserved at hb ⊢
    unfold ChannelRecord.complete
    rw [ho] at hb ⊢
    simp only [if_neg h8] at hb
    dsimp only
    refine ⟨hb.1, ?_⟩
    split
    · omega
    · simpa using hb.2
  · rintro rfl
    have : ((s.chan 7).complete r).ownerClass = (s.chan 7).ownerClass := by
      unfold ChannelRecord.complete
      split <;> rfl
    rw [this]
    exact h.2.1
  · intro hs
    rw [ho] at hs
    exact absurd (by simpa using hs) h64

/-- A claim on an answered request other than a SOFT_RESET, whose changes keep the outstanding request. -/
theorem State.ChannelsSound.finish {s : State} {k : Taken} {o : Owner} {ch : Chan} {q : Request}
    (h : k.1.ChannelsSound) (hq : s.claim o ch = some q)
    (ho : (k.1.chan ch).outstanding = (s.chan ch).outstanding) (h8 : q.kind ≠ 0x08) (h64 : q ≠ .softReset) :
    (k.finish ch).ChannelsSound := by
  obtain ⟨out, hout, he⟩ := State.claim_outstanding hq
  exact h.complete k.2 (ho.trans hout) (he ▸ h8) (he ▸ h64)

/-- A claim whose changes leave the CI alone. -/
theorem State.ChannelsSound.taken {s : State} (h : s.ChannelsSound) {k : Taken} {o : Owner} {ch : Chan} {q : Request}
    (hq : s.claim o ch = some q) (hc : k.1.ci = s.ci) (h8 : q.kind ≠ 0x08) (h64 : q ≠ .softReset) :
    (k.finish ch).ChannelsSound :=
  State.ChannelsSound.finish (h.of_ci hc) hq (by simp [State.chan, hc]) h8 h64

/-- The completion of a posted request. -/
theorem State.ChannelsSound.completePosted {s : State} (h : s.ChannelsSound) {ch : Chan} {out : Outstanding}
    (f : Option Status) (ho : (s.chan ch).outstanding = some out) (h64 : out.request ≠ .softReset) :
    (s.completePosted ch f).ChannelsSound := by
  have hb := h.1 ch
  have hc : ((s.chan ch).completePosted f).requests = (s.chan ch).requests ∧
      ((s.chan ch).completePosted f).responses = (s.chan ch).responses ∧
      ((s.chan ch).completePosted f).ownerClass = (s.chan ch).ownerClass ∧
      ((s.chan ch).completePosted f).outstanding = none := by
    unfold ChannelRecord.completePosted
    rw [ho]
    cases f with
    | none => simp
    | some st =>
      dsimp only
      split
      · simp
      · unfold ChannelRecord.recordFault
        split <;> simp
  refine h.setChan ?_ ?_ ?_
  · unfold ChannelRecord.Bounded ChannelRecord.reserved at hb ⊢
    rw [hc.1, hc.2.1, hc.2.2.2]
    exact ⟨hb.1, by have := hb.2; simp only [Nat.add_zero]; omega⟩
  · rintro rfl
    rw [hc.2.2.1]
    exact h.2.1
  · intro hs
    rw [ho] at hs
    exact absurd (by simpa using hs) h64

/-! ## Writes to the windows -/

theorem State.ChannelsSound.storeBytes {s : State} (h : s.ChannelsSound) (x : List Host.Cell) :
    (s.storeBytes x).ChannelsSound := by
  unfold State.storeBytes
  induction x generalizing s with
  | nil => exact h
  | cons b rest ih =>
    refine ih ?_
    unfold State.storeByte
    split
    · exact h.setChan_same rfl rfl rfl rfl
    · exact h
    · exact h

theorem State.ChannelsSound.submit {s : State} (h : s.ChannelsSound) (ch : Chan) : (s.submit ch).ChannelsSound := by
  have hb := h.1 ch
  unfold State.submit
  split
  · rename_i hl
    refine h.setChan ?_ (by rintro rfl; exact h.2.1) id
    refine ⟨?_, hb.2⟩
    simpa using hl
  · exact State.ChannelsSound.of_ci (s := s.setChan ch { s.chan ch with overrun := true })
      (h.setChan_same rfl rfl rfl rfl) rfl

theorem State.ChannelsSound.release {s : State} (h : s.ChannelsSound) (ch : Chan) : (s.release ch).ChannelsSound := by
  have hb := h.1 ch
  unfold State.release
  refine h.setChan ?_ (by rintro rfl; exact h.2.1) id
  refine ⟨hb.1, ?_⟩
  have h2 := hb.2
  simp only [ChannelRecord.reserved] at h2 ⊢
  simp only [List.length_tail]
  omega

theorem State.ChannelsSound.submitAll {s : State} (h : s.ChannelsSound) (x : List Host.Cell) :
    (s.submitAll x).ChannelsSound := by
  unfold State.submitAll
  generalize channels = l
  induction l generalizing s with
  | nil => exact h
  | cons b rest ih =>
    refine ih ?_
    dsimp only
    split
    · exact h.submit b
    · exact h

theorem State.ChannelsSound.releaseAll {s : State} (h : s.ChannelsSound) (x : List Host.Cell) :
    (s.releaseAll x).ChannelsSound := by
  unfold State.releaseAll
  generalize channels = l
  induction l generalizing s with
  | nil => exact h
  | cons b rest ih =>
    refine ih ?_
    dsimp only
    split
    · exact h.release b
    · exact h

/-! ## Dispatch -/

theorem State.dispatchable_spec {s : State} {ch : Chan} {m : Message} (h : s.dispatchable ch = some m) :
    (s.chan ch).outstanding = none ∧ (m.posted = true ∨ (s.chan ch).responses.length < Config.fifoDepth) := by
  unfold State.dispatchable at h
  split at h
  · rename_i hc
    simp only [Bool.and_eq_true, Option.isNone_iff_eq_none] at hc
    refine ⟨hc.2, ?_⟩
    split at h
    · cases h
    · split at h
      · rename_i hp
        cases h
        simpa using hp
      · cases h
  · cases h

theorem recordFault_fifos (c : ChannelRecord) (f : HeldFault) :
    (c.recordFault f).requests = c.requests ∧ (c.recordFault f).responses = c.responses ∧
      (c.recordFault f).ownerClass = c.ownerClass ∧ (c.recordFault f).outstanding = c.outstanding := by
  unfold ChannelRecord.recordFault
  split <;> simp

theorem map_kind {α : Type} {k : BitVec 8} {x : Option α} {f : α → Request} {r : Request} (h : x.map f = some r)
    (hf : ∀ a, (f a).kind = k) : r.kind = k := by
  obtain ⟨a, _, rfl⟩ := Option.map_eq_some_iff.mp h
  exact hf a

theorem readSubPlain_kind {k : BitVec 8} {body : List Word} {r : Request} (h : readSubPlain k body = some r) : r.kind = k := by
  unfold readSubPlain at h
  repeat' split at h
  all_goals subst_vars
  all_goals first
    | exact map_kind h fun _ => rfl
    | (cases h; done)
    | (cases h; rfl)

theorem readFlowPlain_kind {k : BitVec 8} {body : List Word} {r : Request} (h : readFlowPlain k body = some r) : r.kind = k := by
  unfold readFlowPlain at h
  repeat' split at h
  all_goals subst_vars
  all_goals first
    | exact map_kind h fun _ => rfl
    | (cases h; done)
    | (cases h; rfl)

theorem readLink_kind {k : BitVec 8} {body : List Word} {r : Request} (h : readLink k body = some r) : r.kind = k := by
  unfold readLink at h
  repeat' split at h
  all_goals subst_vars
  all_goals first
    | exact map_kind h fun _ => rfl
    | (cases h; done)
    | (cases h; rfl)

theorem readZone_kind {k : BitVec 8} {body : List Word} {r : Request} (h : readZone k body = some r) : r.kind = k := by
  unfold readZone at h
  repeat' split at h
  all_goals subst_vars
  all_goals first
    | exact map_kind h fun _ => rfl
    | (cases h; done)
    | (cases h; rfl)

theorem readWalk_kind {k : BitVec 8} {body : List Word} {r : Request} (h : readWalk k body = some r) : r.kind = k := by
  unfold readWalk at h
  repeat' split at h
  all_goals subst_vars
  all_goals first
    | exact map_kind h fun _ => rfl
    | (cases h; done)
    | (cases h; rfl)

theorem readDevice_kind {k : BitVec 8} {body : List Word} {r : Request} (h : readDevice k body = some r) : r.kind = k := by
  unfold readDevice at h
  repeat' split at h
  all_goals subst_vars
  all_goals first
    | exact map_kind h fun _ => rfl
    | (cases h; done)
    | (cases h; rfl)

theorem readChannel_kind {k : BitVec 8} {body : List Word} {r : Request} (h : readChannel k body = some r) : r.kind = k := by
  unfold readChannel at h
  repeat' split at h
  all_goals subst_vars
  all_goals first
    | exact map_kind h fun _ => rfl
    | (cases h; done)
    | (cases h; rfl)

theorem orElse_some {α : Type} {a b : Option α} {r : α} (h : (a <|> b) = some r) : a = some r ∨ b = some r := by
  cases a
  · exact .inr h
  · exact .inl h

theorem readPlain_kind {k : BitVec 8} {body : List Word} {r : Request} (h : readPlain k body = some r) : r.kind = k := by
  rcases orElse_some h with h | h
  · exact readSubPlain_kind h
  rcases orElse_some h with h | h
  · exact readFlowPlain_kind h
  rcases orElse_some h with h | h
  · exact readLink_kind h
  rcases orElse_some h with h | h
  · exact readZone_kind h
  rcases orElse_some h with h | h
  · exact readWalk_kind h
  rcases orElse_some h with h | h
  · exact readDevice_kind h
  · exact readChannel_kind h

theorem readSubGuarded_kind {k : BitVec 8} {g : Option SubGuard} {body : List Word} {r : Request}
    (h : readSubGuarded k g body = some r) : r.kind = k := by
  unfold readSubGuarded at h
  split at h
  all_goals first
    | exact map_kind h fun _ => rfl
    | (cases h; done)
    | (cases h; rfl)

theorem readFlowGuarded_kind {k : BitVec 8} {g : Option FlowGuard} {body : List Word} {r : Request}
    (h : readFlowGuarded k g body = some r) : r.kind = k := by
  unfold readFlowGuarded at h
  split at h
  all_goals first
    | exact map_kind h fun _ => rfl
    | (cases h; done)
    | (cases h; rfl)

theorem readRequest_kind {k : BitVec 8} {g : Option (Word × Word)} {body : List Word} {r : Request}
    (h : readRequest k g body = some r) : r.kind = k := by
  unfold readRequest at h
  split at h
  · obtain ⟨_, _, h⟩ := Option.bind_eq_some_iff.mp h
    exact readSubGuarded_kind h
  · split at h
    · obtain ⟨_, _, h⟩ := Option.bind_eq_some_iff.mp h
      exact readFlowGuarded_kind h
    · split at h
      · exact readPlain_kind h
      · cases h

/-- A message of a kind spells a request of that kind (R180). -/
theorem Message.request_kind {m : Message} {r : Request} (h : m.request = some r) : r.kind = m.kind := by
  unfold Message.request at h
  split at h
  · split at h
    · cases h
    · exact readRequest_kind h
  · cases h

theorem check_passes {c : ChannelRecord} {ch : Chan} {m : Message} {r : Request} (h : c.check ch m = .passes r) :
    m.request = some r := by
  unfold ChannelRecord.check at h
  split at h
  · cases h
  · split at h
    · cases h
    · split at h
      · cases h
        assumption
      · cases h

theorem State.ChannelsSound.dispatch {s : State} (h : s.ChannelsSound) {ch : Chan} {m : Message}
    (hd : s.dispatchable ch = some m) : (s.dispatch ch m).ChannelsSound := by
  obtain ⟨hn, hroom⟩ := State.dispatchable_spec hd
  obtain ⟨hb1, hb2⟩ := h.1 ch
  have hb2' : (s.chan ch).responses.length ≤ Config.fifoDepth := by omega
  have ht : (s.chan ch).requests.tail.length ≤ Config.fifoDepth := by
    rw [List.length_tail]
    omega
  unfold State.dispatch
  refine h.setChan ?_ ?_ (by rw [hn]; exact fun hx => by cases hx)
  · unfold ChannelRecord.dispatched ChannelRecord.Bounded
    have hdef : ∀ x : CiCheck, x = ({ s.chan ch with requests := (s.chan ch).requests.tail } : ChannelRecord).check ch m →
        x = .deferred → m.posted = false := by
      intro x hx he
      rw [he] at hx
      unfold ChannelRecord.check at hx
      split at hx
      · rename_i hc
        simp only [Bool.and_eq_true, Message.heldBack, Bool.not_eq_true'] at hc
        exact hc.2.1.1
      · split at hx
        · cases hx
        · split at hx <;> cases hx
    have hans : ∀ r, (({ s.chan ch with requests := (s.chan ch).requests.tail } : ChannelRecord).answer m r).reserved = 0 := by
      intro r
      simp [ChannelRecord.reserved, ChannelRecord.answer, hn]
    split
    · rename_i he
      have hp := hdef _ rfl he
      rw [hans]
      refine ⟨ht, ?_⟩
      rcases hroom with hr | hr
      · rw [hp] at hr
        cases hr
      · simpa [ChannelRecord.answer] using hr
    · split
      · obtain ⟨f1, f2, f3, f4⟩ := recordFault_fifos ({ s.chan ch with requests := (s.chan ch).requests.tail } : ChannelRecord)
          { status := _, kind := m.kind, tag := m.tag }
        unfold ChannelRecord.reserved
        rw [f1, f2, f4, hn]
        exact ⟨ht, by simpa using hb2'⟩
      · rename_i hp
        rw [hans]
        refine ⟨ht, ?_⟩
        rcases hroom with hr | hr
        · exact absurd hr hp
        · simpa [ChannelRecord.answer] using hr
    · rename_i r he
      have hk := Message.request_kind (check_passes he)
      refine ⟨ht, ?_⟩
      simp only [ChannelRecord.reserved]
      rw [hk]
      split
      · simpa using hb2'
      · rename_i h8
        rcases hroom with hr | hr
        · exact absurd (by simpa [Message.posted] using hr) h8
        · omega
  · rintro rfl
    unfold ChannelRecord.dispatched
    split
    · exact h.2.1
    · split
      · rw [(recordFault_fifos _ _).2.2.1]
        exact h.2.1
      · exact h.2.1
    · exact h.2.1

/-! ## The requests of the CI -/

theorem State.ChannelsSound.clearFault {s : State} (h : s.ChannelsSound) (ch : Chan) :
    (s.clearFault ch).1.ChannelsSound := h.setChan_same rfl rfl rfl rfl

theorem State.ChannelsSound.channelSet {s : State} (h : s.ChannelsSound) (x : BitVec 8) (c : OwnerClass) (q : Bool) :
    (s.channelSet x c q).1.ChannelsSound := by
  unfold State.channelSet
  split
  · exact h
  · rename_i n _
    simp only [State.setChannel]
    split
    · exact h
    · rename_i h7
      split
      · exact h
      · refine h.setChan (h.1 n) ?_ id
        intro hn
        by_contra hc
        exact h7 ⟨hn, hc⟩

theorem State.ChannelsSound.channelReset {s : State} (h : s.ChannelsSound) (ch : Chan) (x : BitVec 8) :
    (s.channelReset ch x).1.ChannelsSound := by
  unfold State.channelReset
  split
  · exact h
  · rename_i n _
    refine h.setChan ?_ (by rintro rfl; exact h.2.1) ?_
    · refine ⟨by simp [ChannelRecord.resetBy], ?_⟩
      have : ∀ c : ChannelRecord, c.reserved ≤ 1 := by
        intro c
        unfold ChannelRecord.reserved
        split
        · omega
        · split <;> omega
      have h1 := this ((s.chan n).resetBy (n == ch))
      simp only [ChannelRecord.resetBy, List.length_nil, Config.fifoDepth] at h1 ⊢
      omega
    · intro hs
      unfold ChannelRecord.resetBy
      dsimp only
      split
      · exact hs
      · rw [Option.map_map]
        exact hs

/-- The outstanding request of the requester stands after its CHANNEL_RESET, marked or not. -/
theorem channelReset_outstanding (s : State) (ch : Chan) (x : BitVec 8) :
    ((s.channelReset ch x).1.chan ch).outstanding = (s.chan ch).outstanding := by
  unfold State.channelReset
  split
  · rfl
  · dsimp only
    rw [setChan_chan]
    split
    · rename_i he
      subst he
      simp [ChannelRecord.resetBy]
    · rfl

theorem channelSet_outstanding (s : State) (ch : Chan) (x : BitVec 8) (c : OwnerClass) (q : Bool) :
    ((s.channelSet x c q).1.chan ch).outstanding = (s.chan ch).outstanding := by
  unfold State.channelSet
  split
  · rfl
  · simp only [State.setChannel]
    repeat' split
    all_goals first
      | rfl
      | (dsimp only; rw [setChan_chan]; split <;> simp_all)

/-! ## SOFT_RESET -/

theorem State.ChannelsSound.takeSoftReset {s : State} (h : s.ChannelsSound) {ch : Chan}
    (hq : s.claim .ci ch = some .softReset) : (s.takeSoftReset ch).ChannelsSound := by
  obtain ⟨out, hout, he⟩ := State.claim_outstanding hq
  unfold State.takeSoftReset
  split
  · refine ⟨h.1, h.2.1, ?_⟩
    change (s.chan ch).outstanding.map Outstanding.request = _
    rw [hout, Option.map_some, he]
  · exact h

theorem State.ChannelsSound.beginClearing {s : State} (h : s.ChannelsSound) {ch : Chan} (b : Bool)
    (hc : s.clearingFor = some ch) : (s.beginClearing ch b).ChannelsSound := by
  have hci : (s.beginClearing ch b).ci = { s.ci.faultsCleared with softReset := .clearing ch b } := by
    unfold State.beginClearing
    dsimp only
    split <;> rfl
  have hchan : ∀ k, (s.beginClearing ch b).chan k = (s.chan k).faultCleared := by
    intro k
    simp [State.chan, hci, Ci.faultsCleared]
  refine ⟨fun k => ?_, ?_, ?_⟩
  · rw [hchan]
    exact h.1 k
  · rw [hchan]
    exact h.2.1
  · have h3 := h.2.2
    unfold State.clearingFor at hc
    unfold State.SoftResetOutstanding at h3 ⊢
    rw [hci]
    dsimp only
    rw [hchan]
    split at hc
    · rename_i hp
      rw [hp] at h3
      split at hc
      · cases hc
        exact h3
      · cases hc
    · cases hc
    · cases hc

theorem State.ChannelsSound.endClearing {s : State} (h : s.ChannelsSound) {ch : Chan} (b : Bool)
    (hp : s.ci.softReset = .clearing ch b) : (s.endClearing ch b).ChannelsSound := by
  have h3 := h.2.2
  unfold State.SoftResetOutstanding at h3
  rw [hp] at h3
  dsimp only at h3
  obtain ⟨out, hout, he⟩ := Option.map_eq_some_iff.mp h3
  obtain ⟨hb1, hb2⟩ := h.1 ch
  have hr : (s.chan ch).reserved = 1 := by
    unfold ChannelRecord.reserved
    rw [hout]
    dsimp only
    rw [he]
    rfl
  have hchan : ∀ k, (s.endClearing ch b).chan k =
      if k = ch then (s.chan ch).complete (.plain .ok []) else s.chan k := by
    intro k
    unfold State.endClearing State.complete
    rw [setChan_chan]
    cases b <;> rfl
  have hphase : (s.endClearing ch b).ci.softReset = .idle := by
    cases b <;> rfl
  have howner : ((s.chan ch).complete (.plain .ok [])).ownerClass = (s.chan ch).ownerClass := by
    unfold ChannelRecord.complete
    split <;> rfl
  refine ⟨fun k => ?_, ?_, ?_⟩
  · rw [hchan]
    split
    · unfold ChannelRecord.Bounded ChannelRecord.reserved ChannelRecord.complete
      rw [hout]
      dsimp only
      refine ⟨hb1, ?_⟩
      split
      · omega
      · simp only [List.length_append, List.length_singleton]
        omega
    · exact h.1 k
  · rw [hchan]
    split
    · rename_i h7
      rw [howner, ← h7]
      exact h.2.1
    · exact h.2.1
  · unfold State.SoftResetOutstanding
    rw [hphase]
    trivial

end Sys2Proof.Machine
end

