-- ==== Sys2Proof/Laws/DeadlineOrder.lean ====
section
/-! SUPPORT. The grant deadline list stays in order under every operation, and under an advance of the count (R70, R174). -/

namespace Sys2Proof.Machine

/-- R70: the listed records are REQUESTED, in nondecreasing order of the seconds remaining, none above 255. -/
structure State.Ordered (s : State) : Prop where
  requested : ∀ i ∈ s.stc.deadlines, (s.sub i).grant.isRequested = true
  order : s.stc.deadlines.Pairwise fun i j => s.remainingOf i ≤ s.remainingOf j
  bound : ∀ i ∈ s.stc.deadlines, s.remainingOf i ≤ 255

variable {s t u : State}

theorem remainingOf_congr {i : SubIx} (hg : (t.sub i).grant = (s.sub i).grant) (hc : t.al.count = s.al.count) :
    t.remainingOf i = s.remainingOf i := by
  simp only [State.remainingOf, State.remaining, hg, hc]

/-- A shorter list of records whose grant states stand. -/
theorem State.Ordered.sublist (h : s.Ordered) (hl : t.stc.deadlines.Sublist s.stc.deadlines)
    (hg : ∀ i ∈ t.stc.deadlines, (t.sub i).grant = (s.sub i).grant) (hc : t.al.count = s.al.count) : t.Ordered := by
  refine ⟨fun i hi => ?_, ?_, fun i hi => ?_⟩
  · rw [hg i hi]
    exact h.requested i (hl.subset hi)
  · refine (h.order.sublist hl).imp_of_mem fun {a b} ha hb hab => ?_
    rw [remainingOf_congr (hg a ha) hc, remainingOf_congr (hg b hb) hc]
    exact hab
  · rw [remainingOf_congr (hg i hi) hc]
    exact h.bound i (hl.subset hi)

/-- The list, the grant states and the count are as they were. -/
theorem State.Ordered.keep (h : s.Ordered) (hl : t.stc.deadlines = s.stc.deadlines)
    (hg : ∀ i, (t.sub i).grant = (s.sub i).grant) (hc : t.al.count = s.al.count) : t.Ordered :=
  h.sublist (by rw [hl]) (fun i _ => hg i) hc

theorem setSub_grant (s : State) {i : SubIx} {r : SubRecord} (hr : r.grant = (s.sub i).grant) (j : SubIx) :
    ((s.setSub i r).sub j).grant = (s.sub j).grant := by
  rw [setSub_sub]
  split
  · rename_i hj
    rw [hj, hr]
  · rfl

theorem State.Ordered.setSub {i : SubIx} {r : SubRecord} (h : s.Ordered) (hr : r.grant = (s.sub i).grant) :
    (s.setSub i r).Ordered := h.keep rfl (setSub_grant s hr) rfl

/-- A record that is not on the list is written. -/
theorem State.Ordered.setSub_absent {i : SubIx} {r : SubRecord} (h : s.Ordered) (hi : i ∉ s.stc.deadlines) :
    (s.setSub i r).Ordered := by
  refine h.sublist (List.Sublist.refl _) (fun j hj => ?_) rfl
  rw [setSub_sub_ne]
  rintro rfl
  exact hi hj

theorem State.Ordered.absent {i : SubIx} (h : s.Ordered) (hg : (s.sub i).grant.isRequested = false) :
    i ∉ s.stc.deadlines := fun hi => by
  rw [h.requested i hi] at hg
  cases hg

/-- A record leaves the list as its grant state is written. -/
theorem State.Ordered.leave {i : SubIx} {r : SubRecord} (h : s.Ordered) :
    ((s.setSub i r).leaveDeadlines i).Ordered := by
  refine h.sublist List.filter_sublist (fun j hj => ?_) rfl
  have hne : j ≠ i := by
    have := (List.mem_filter.mp hj).2
    simpa using this
  show ((s.setSub i r).sub j).grant = _
  rw [setSub_sub_ne _ _ hne]

/-! ## Credit -/

theorem State.Ordered.enterRequested (h : s.Ordered) {i : SubIx} {n : Nat} (hn : n ≤ 255) (hg : (s.sub i).grant = .none) :
    (s.enterRequested i n).Ordered := by
  have hi : i ∉ s.stc.deadlines := h.absent (by rw [hg]; rfl)
  have hx : (s.setSub i { s.sub i with grant := .requested (s.after n) }).Ordered := h.setSub_absent hi
  have hreq : ((s.setSub i { s.sub i with grant := .requested (s.after n) }).sub i).grant =
      .requested (s.after n) := by rw [setSub_sub_same]
  have hrem : (s.setSub i { s.sub i with grant := .requested (s.after n) }).remainingOf i = n := by
    unfold State.remainingOf
    rw [hreq]
    show (s.al.count + BitVec.ofNat 32 n - s.al.count).toNat = n
    have h1 := s.al.count.isLt
    rw [BitVec.toNat_sub, BitVec.toNat_add, BitVec.toNat_ofNat]
    omega
  have hd : (s.setSub i { s.sub i with grant := .requested (s.after n) }).stc.deadlines = s.stc.deadlines := rfl
  unfold State.enterRequested
  dsimp only
  generalize s.setSub i { s.sub i with grant := .requested (s.after n) } = x at hx hreq hrem hd
  obtain ⟨a, b, h1, h2, h3, h4⟩ := insertDeadline_spec x i x.stc.deadlines
  have hsub : ∀ j, ((({ x with stc := { x.stc with deadlines := x.insertDeadline i x.stc.deadlines } } : State).raise
      (.subscriber i) .grantNeeded).remainingOf j) = x.remainingOf j := fun _ => rfl
  have hmem : ∀ j, j ∈ a ++ i :: b → j = i ∨ j ∈ x.stc.deadlines := by
    intro j hj
    rw [h1]
    simp only [List.mem_append, List.mem_cons] at hj ⊢
    rcases hj with hj | hj | hj
    · exact .inr (.inl hj)
    · exact .inl hj
    · exact .inr (.inr hj)
  have hord := hx.order
  rw [h1] at hord
  obtain ⟨oa, ob, oab⟩ := List.pairwise_append.mp hord
  refine ⟨fun j hj => ?_, ?_, fun j hj => ?_⟩
  · change j ∈ x.insertDeadline i x.stc.deadlines at hj
    change (x.sub j).grant.isRequested = true
    rw [h2] at hj
    rcases hmem j hj with e | e
    · rw [e, hreq]
      rfl
    · exact hx.requested j e
  · change List.Pairwise (fun j k => x.remainingOf j ≤ x.remainingOf k) (x.insertDeadline i x.stc.deadlines)
    rw [h2]
    refine List.pairwise_append.mpr ⟨oa, List.pairwise_cons.mpr ⟨fun j hj => ?_, ob⟩, fun j hj k hk => ?_⟩
    · cases b with
      | nil => cases hj
      | cons y rest =>
        have hy := h4 y rfl
        rcases List.mem_cons.mp hj with e | e
        · rw [e]
          omega
        · have := (List.pairwise_cons.mp ob).1 j e
          omega
    · rcases List.mem_cons.mp hk with e | e
      · rw [e]
        exact h3 j hj
      · exact oab j hj k e
  · change j ∈ x.insertDeadline i x.stc.deadlines at hj
    change x.remainingOf j ≤ 255
    rw [h2] at hj
    rcases hmem j hj with e | e
    · rw [e, hrem]
      exact hn
    · exact hx.bound j e

theorem State.Ordered.lowCredit (h : s.Ordered) (i : SubIx) : (s.lowCredit i).Ordered := by
  unfold State.lowCredit
  split
  · rename_i k hk
    obtain ⟨_, hg, _⟩ := askingTariff_spec hk
    dsimp only
    split
    · refine State.Ordered.enterRequested h ?_ hg
      have := (s.tariff k).terms.timeout.isLt
      omega
    · exact h
  · exact h

theorem rechecked_grant (s : State) (r : SubRecord) : (s.rechecked r).grant = r.grant := by
  obtain ⟨_, _, _, _, _, h⟩ := rechecked_fields s r
  rw [h]

theorem State.Ordered.recheck (h : s.Ordered) (i : SubIx) : (s.recheck i).Ordered := by
  unfold State.recheck
  dsimp only
  refine State.Ordered.lowCredit ?_ i
  have h1 : (s.setSub i (s.rechecked (s.sub i))).Ordered := h.setSub (rechecked_grant ..)
  exact h1.keep (by simp) (fun _ => by simp) (by simp)

theorem State.Ordered.chargeSub (h : s.Ordered) (i : SubIx) (m n : Nat) : (s.chargeSub i m n).Ordered := by
  unfold State.chargeSub
  dsimp only
  refine State.Ordered.lowCredit ?_ i
  have h1 : (s.setSub i ((s.sub i).charge m n)).Ordered := h.setSub rfl
  split
  · exact h1.keep rfl (fun _ => rfl) rfl
  · exact h1

theorem State.Ordered.closeUsage (h : s.Ordered) (i : SubIx) : (s.closeUsage i).Ordered := by
  have h0 : (s.sub i).closeCurrent.grant = (s.sub i).grant := by
    unfold SubRecord.closeCurrent
    split <;> rfl
  have h1 : (s.setSub i (s.sub i).closeCurrent).Ordered := h.setSub h0
  unfold State.closeUsage
  dsimp only
  split
  · exact h1.keep rfl (fun _ => rfl) rfl
  · exact h1

theorem State.Ordered.bringUpToDate (h : s.Ordered) (i : SubIx) : (s.bringUpToDate i).Ordered := by
  unfold State.bringUpToDate
  refine State.Ordered.recheck (h.setSub ?_) i
  rfl

theorem State.Ordered.lazy (h : s.Ordered) (i : SubIx) : (s.lazy i).Ordered := by
  unfold State.lazy
  split
  · exact h
  · unfold State.holdClose
    have h1 : (s.setSub i { s.sub i with closeHeld := true }).Ordered := h.setSub rfl
    exact h1.keep rfl (fun _ => rfl) rfl
  · exact (h.closeUsage i).bringUpToDate i
  · exact State.Ordered.recheck (h.setSub (r := { s.sub i with policyEpoch := s.zas.policyEpoch }) rfl) i
  · exact h

theorem State.Ordered.touch (h : s.Ordered) (i : SubIx) : (s.touch i).Ordered := by
  unfold State.touch
  exact State.Ordered.lazy (h.setSub (r := { s.sub i with mark := s.tw.currentMark }) rfl) i

theorem State.Ordered.applyGrantTo (h : s.Ordered) (i : SubIx) (m n : Word) : (s.applyGrantTo i m n).Ordered := by
  unfold State.applyGrantTo
  exact h.leave.lowCredit i

theorem State.Ordered.expireGrant (h : s.Ordered) (i : SubIx) : (s.expireGrant i).Ordered := by
  unfold State.expireGrant
  exact State.Ordered.keep (s := (s.setSub i (s.overdrawn { s.sub i with grant := .timedOut })).leaveDeadlines i)
    h.leave rfl (fun _ => rfl) rfl

theorem State.Ordered.settleParts (h : s.Ordered) (i : SubIx) (c d : Option ClosedSlot) :
    (s.settleParts i c d).Ordered := by
  have h1 : (s.setSub i ((s.sub i).settled c d)).Ordered := h.setSub rfl
  have h2 : (if c.isSome = true then (s.setSub i ((s.sub i).settled c d)).dropClosed 1
      else s.setSub i ((s.sub i).settled c d)).Ordered := by
    split
    · exact h1.keep rfl (fun _ => rfl) rfl
    · exact h1
  unfold State.settleParts
  dsimp only
  generalize (if c.isSome = true then (s.setSub i ((s.sub i).settled c d)).dropClosed 1
    else s.setSub i ((s.sub i).settled c d)) = x at h2 ⊢
  split
  · unfold State.deferredClose
    exact ((h2.setSub (r := { x.sub i with closeHeld := false }) rfl).closeUsage i).bringUpToDate i
  · exact h2

/-- A record that is not REQUESTED is freed. -/
theorem State.Ordered.free (h : s.Ordered) {i : SubIx} (hg : (s.sub i).grant.isRequested = false) :
    (s.free i).Ordered := by
  unfold State.free
  have h1 : (s.setSub i (s.sub i).vacated).Ordered := h.setSub_absent (h.absent hg)
  exact h1.keep rfl (fun _ => rfl) rfl

/-- R11, R68: a record that is neither ATTACHED nor ROAM_BARRED is not REQUESTED. -/
theorem State.SubsExact.notRequested (h : s.SubsExact) {i : SubIx} (ha : ¬(s.sub i).state.admitted) :
    (s.sub i).grant.isRequested = false := by
  by_contra hx
  exact ha ((h.1 i).2.1 (by simpa using hx))

theorem State.Ordered.freeIfSettled (h : s.Ordered) (hs : s.SubsExact) (i : SubIx) : (s.freeIfSettled i).Ordered := by
  unfold State.freeIfSettled
  split
  · rename_i hc
    simp only [Bool.and_eq_true, beq_iff_eq] at hc
    refine h.free (hs.notRequested ?_)
    rw [hc.1]
    rintro (e | e) <;> cases e
  · exact h

theorem State.Ordered.postUsage (h : s.Ordered) (i : SubIx) (c : FlowClass) (m n : Word) :
    (s.postUsage i c m n).Ordered := by
  have h1 := h.touch i
  unfold State.postUsage
  dsimp only
  generalize s.touch i = x at h1
  split
  · refine State.Ordered.chargeSub ?_ ..
    unfold State.markMixed
    split
    · exact h1.setSub rfl
    · exact h1
  · exact h1

theorem State.Ordered.enterDetaching (h : s.Ordered) (i : SubIx) : (s.enterDetaching i).Ordered := by
  unfold State.enterDetaching
  exact State.Ordered.keep (s := (s.setSub i { s.sub i with state := .detaching, grant := .none }).leaveDeadlines i)
    h.leave rfl (fun _ => rfl) rfl

theorem State.Ordered.ageSub (h : s.Ordered) (i : SubIx) : (s.ageSub i).Ordered := by
  have key : ∀ x : State, x.Ordered → (x.remark i).Ordered := fun x hx => hx.setSub rfl
  unfold State.ageSub
  split
  · split
    · exact key _ (h.enterDetaching i)
    · exact key _ h
  · exact h

theorem State.Ordered.lazyVisit (h : s.Ordered) (i : SubIx) : (s.lazyVisit i).Ordered := by
  unfold State.lazyVisit
  split
  · exact h.lazy i
  · exact h

theorem State.Ordered.createSub (h : s.Ordered) (hs : s.SubsExact) {i : SubIx} (hv : (s.sub i).state = .vacant)
    (r : SubRecord) : (s.createSub i r).Ordered := by
  unfold State.createSub
  refine State.Ordered.recheck (h.setSub_absent (h.absent (hs.notRequested ?_))) i
  rw [hv]
  rintro (e | e) <;> cases e

theorem State.Ordered.revive (h : s.Ordered) (i : SubIx) (p : Bool) (home : Operator) : (s.revive i p home).Ordered := by
  have h1 : (s.reviveStart i p home).Ordered := by
    unfold State.reviveStart
    have h0 : (s.setSub i { s.sub i with home := home, permanent := p, state := .attached }).Ordered := h.setSub rfl
    exact h0.keep rfl (fun _ => rfl) rfl
  unfold State.revive
  dsimp only
  generalize s.reviveStart i p home = x at h1
  refine State.Ordered.lowCredit ?_ i
  split
  · exact h1.touch i
  · exact (h1.touch i).recheck i

theorem State.Ordered.endUnwinding (h : s.Ordered) (hs : s.SubsExact) {i : SubIx} (hx : s.unwindDone = some i) :
    (s.endUnwinding i).Ordered := by
  obtain ⟨rest, hq, _⟩ := State.unwindDone_spec hx
  have hd : (s.sub i).state = .detaching := (hs.2.1.2 i).mp (by rw [hq]; simp)
  have hg : (s.sub i).grant.isRequested = false := hs.notRequested (by
    rw [hd]
    rintro (e | e) <;> cases e)
  have h1 : ({ s with stc := { s.stc with unwind := s.stc.unwind.tail } } : State).Ordered :=
    h.keep rfl (fun _ => rfl) rfl
  unfold State.endUnwinding
  dsimp only
  split
  · refine State.Ordered.keep (s := State.setSub { s with stc := { s.stc with unwind := s.stc.unwind.tail } } i _)
      (h1.setSub ?_) rfl (fun _ => rfl) rfl
    rfl
  · exact h1.free hg

/-! ## Flows -/

theorem retire_grant (s : State) (i : FlowIx) (j : SubIx) : ((s.retire i).sub j).grant = (s.sub j).grant := by
  rw [retire_sub]
  split <;> rfl

theorem State.Ordered.retire (h : s.Ordered) (i : FlowIx) : (s.retire i).Ordered :=
  h.keep (by simp) (retire_grant s i) (by simp)

theorem State.Ordered.retireSome (h : s.Ordered) (v : Option FlowIx) : (s.retireSome v).Ordered := by
  cases v with
  | none => exact h
  | some i => exact h.retire i

theorem State.Ordered.createFlow (h : s.Ordered) (i : FlowIx) (k : FlowKey) (c : FlowClass) (o : SubHandle) :
    (s.createFlow i k c o).Ordered := by
  refine h.keep (by simp) (fun j => ?_) (by simp)
  rw [(createFlow_parts s i k c o).2.1]
  split <;> rfl

theorem State.Ordered.useFlow (h : s.Ordered) (i : FlowIx) : (s.useFlow i).Ordered := by
  unfold State.useFlow
  have h1 : ((s.touchFlow i).useWay i).Ordered := h.keep rfl (fun _ => rfl) rfl
  exact h1.touch _

theorem State.Ordered.repinFlow (h : s.Ordered) (i : FlowIx) (p : Option LinkId) : (s.repinFlow i p).Ordered :=
  h.keep (by simp) (fun j => by simp) (by simp)

theorem State.Ordered.chargeBurst (h : s.Ordered) (i : SubIx) (c : FlowClass) (m n : Nat) :
    (s.chargeBurst i c m n).Ordered := by
  unfold State.chargeBurst
  split
  · exact h.chargeSub ..
  · exact h

theorem State.Ordered.judge (h : s.Ordered) (i : FlowIx) (m n : Nat) : (s.judge i m n).1.Ordered := by
  unfold State.judge
  dsimp only
  split
  · exact h
  · unfold State.linkStep
    dsimp only
    split
    · exact h.chargeBurst ..
    · split
      · exact (h.repinFlow i _).chargeBurst ..
      · exact h.repinFlow i _

/-! ## Whole requests -/

theorem State.Ordered.attach (h : s.Ordered) (hs : s.SubsExact) (tag : Tag) (code : BitVec 2) (p : Bool)
    (k : TariffIx) (home : Operator) : (s.attach tag code p k home).1.Ordered := by
  unfold State.attach
  split
  · exact h
  · split
    · exact h
    · unfold State.attachChecked
      split
      · rename_i i hi
        unfold State.attachFound
        split
        · exact h.touch i
        · exact h.touch i
        · exact h
        · split
          · exact h
          · exact h.revive i p home
        · exact h
      · split
        · exact h
        · rename_i i hi
          exact h.createSub hs (vacantSub_state hi) _

theorem State.Ordered.detach (h : s.Ordered) (x : SubHandle) (g : Option SubGuard) : (s.detach x g).1.Ordered := by
  unfold State.detach
  split
  · exact h
  · split
    · exact h
    · split
      · exact h.enterDetaching _
      · exact h.enterDetaching _
      · exact h
      · exact h
      · exact h

theorem State.Ordered.subFind (h : s.Ordered) (tag : Tag) : (s.subFind tag).1.Ordered := by
  unfold State.subFind
  split
  · exact h
  · exact h.touch _

theorem State.Ordered.subUpdate (h : s.Ordered) (x : SubHandle) (g : Option SubGuard) (f : SubField) (a : UpdateAction)
    (v : Word) : (s.subUpdate x g f a v).1.Ordered := by
  unfold State.subUpdate
  split
  · exact h
  · split
    · exact h
    · rename_i r hr
      obtain ⟨rfl, _, _⟩ := live_of_subOf hr
      split
      · exact h
      · obtain ⟨w, p, o, he⟩ := SubField.update_parts f a v (s.sub x.index)
        dsimp only
        rw [he]
        exact h.setSub rfl

theorem State.Ordered.grantCredit (h : s.Ordered) (x : SubHandle) (g : Option SubGuard) (m n : Word) :
    (s.grantCredit x g m n).1.Ordered := by
  unfold State.grantCredit
  split
  · exact h
  · split
    · exact h
    · split
      · exact h.applyGrantTo ..
      · exact h.applyGrantTo ..
      · exact h
      · exact h
      · exact h

theorem State.Ordered.settle (h : s.Ordered) (hr : s.RecordsExact) (x : SubHandle) (g : Option SubGuard)
    (p : SettlePart) : (s.settle x g p).1.Ordered := by
  unfold State.settle
  split
  · exact h
  · rename_i r hs
    obtain ⟨rfl, hl, _⟩ := live_of_subOf hs
    split
    · exact h
    · split
      · exact h
      · refine (h.settleParts ..).freeIfSettled (hr.1.settleParts hl _ _ fun hc => ?_) _
        unfold SettlePart.closedOf at hc
        split at hc
        · exact hc
        · exact hc
        · cases hc

theorem State.Ordered.usagePost (h : s.Ordered) (x : SubHandle) (code : BitVec 3) (m n : Word) :
    (s.usagePost x code m n).1.Ordered := by
  unfold State.usagePost
  split
  · exact h
  · split
    · exact h
    · exact h.postUsage ..

theorem State.Ordered.flowOpen (h : s.Ordered) (o : SubHandle) (k : FlowKey) (code : BitVec 3) (r : Bool) :
    (s.flowOpen o k code r).1.Ordered := by
  have after : ∀ (x : State) (c : FlowClass) (a b : Option FlowIx), x.Ordered →
      (x.openAfterReclaim k c o a b).1.Ordered := by
    intro x c a b hx
    unfold State.openAfterReclaim
    dsimp only
    split
    · exact hx
    · exact ((hx.retireSome a).retireSome b).createFlow ..
  have touched : ∀ c, ((s.touch o.index).openTouched k c o r).1.Ordered := by
    intro c
    have hx := h.touch o.index
    generalize s.touch o.index = x at hx
    unfold State.openTouched
    split
    · exact hx.keep rfl (fun _ => rfl) rfl
    · unfold State.openNew
      dsimp only
      split
      · exact hx
      · split
        · exact hx
        · exact after x c _ _ hx
        · exact after x c _ _ hx
      · split
        · exact hx
        · exact after x c _ _ hx
        · exact after x c _ _ hx
  unfold State.flowOpen
  split
  · exact h
  · split
    · exact h
    · split
      · exact h
      · exact h
      · exact touched _
      · exact touched _
      · exact h

theorem State.Ordered.flowClose (h : s.Ordered) (x : FlowHandle) (g : Option FlowGuard) :
    (s.flowClose x g).1.Ordered := by
  unfold State.flowClose
  split
  · exact h
  · split
    · exact h
    · exact h.retire _

theorem State.Ordered.flowFind (h : s.Ordered) (k : FlowKey) : (s.flowFind k).1.Ordered := by
  unfold State.flowFind
  split
  · exact h
  · exact h.useFlow _

theorem State.Ordered.flowUpdate (h : s.Ordered) (x : FlowHandle) (g : Option FlowGuard) (f : FlowField)
    (a : UpdateAction) (v : Word) : (s.flowUpdate x g f a v).1.Ordered := by
  unfold State.flowUpdate
  split
  · exact h
  · split
    · exact h
    · split
      · exact h
      · exact h.keep rfl (fun _ => rfl) rfl

theorem State.Ordered.chargeFlow (h : s.Ordered) (x : FlowHandle) (m : BitVec 16) (n : BitVec 8) :
    (s.chargeFlow x m n).1.Ordered := by
  unfold State.chargeFlow
  split
  · exact h
  · split
    · exact h
    · exact (h.useFlow _).judge ..

/-! ## The advance of the count -/

/-- R174: where the head of the list is not due, every entry comes one second nearer. -/
theorem State.Ordered.advance (h : s.Ordered) (hd : s.expiringGrant = none) : s.advanceCount.Ordered := by
  have hpos : ∀ i ∈ s.stc.deadlines, 0 < s.remainingOf i := by
    intro i hi
    unfold State.expiringGrant at hd
    cases hl : s.stc.deadlines with
    | nil =>
      rw [hl] at hi
      cases hi
    | cons j rest =>
      rw [hl] at hd hi
      dsimp only at hd
      split at hd
      · cases hd
      · rename_i hne
        have hj : 0 < s.remainingOf j := by
          have hr := h.requested j (by rw [hl]; simp)
          cases hg : (s.sub j).grant with
          | none => rw [hg] at hr; cases hr
          | timedOut => rw [hg] at hr; cases hr
          | requested d =>
            simp only [State.remainingOf, hg, State.remaining]
            have : d ≠ s.al.count := fun e => hne (by rw [hg, e])
            have h1 := d.isLt
            have h2 := s.al.count.isLt
            have h3 : d.toNat ≠ s.al.count.toNat := fun e => this (BitVec.eq_of_toNat_eq e)
            rw [BitVec.toNat_sub]
            omega
        rcases List.mem_cons.mp hi with e | e
        · rw [e]
          exact hj
        · have ho := h.order
          rw [hl] at ho
          have := (List.pairwise_cons.mp ho).1 i e
          omega
  have hrem : ∀ i ∈ s.stc.deadlines, s.advanceCount.remainingOf i = s.remainingOf i - 1 := by
    intro i hi
    have hr := h.requested i hi
    have hp := hpos i hi
    cases hg : (s.sub i).grant with
    | none => rw [hg] at hr; cases hr
    | timedOut => rw [hg] at hr; cases hr
    | requested d =>
      have hg' : (s.advanceCount.sub i).grant = .requested d := hg
      simp only [State.remainingOf, hg, hg', State.remaining] at hp ⊢
      have hc : s.advanceCount.al.count = s.al.count + 1 := rfl
      rw [hc]
      have h1 := d.isLt
      have h2 := s.al.count.isLt
      rw [BitVec.toNat_sub] at hp ⊢
      rw [BitVec.toNat_sub, BitVec.toNat_add]
      have h3 : (1 : Second).toNat = 1 := rfl
      omega
  refine ⟨fun i hi => h.requested i hi, ?_, fun i hi => ?_⟩
  · refine h.order.imp_of_mem fun {a b} ha hb hab => ?_
    rw [hrem a ha, hrem b hb]
    omega
  · rw [hrem i hi]
    have := h.bound i hi
    omega

end Sys2Proof.Machine
end

