-- ==== Sys2Proof/Laws/LinkRecords.lean ====
section
/-! SUPPORT. Every link record stays sound (R106, R118, R123) under the operations of the link monitor. -/

namespace Sys2Proof.Machine

theorem State.LinksSound.setLink {s : State} {l : LinkId} {r : LinkRecord} (h : s.LinksSound) (hr : r.SoundAt l) :
    (s.setLink l r).LinksSound := by
  intro m
  rw [setLink_link]
  split
  · rename_i hm
    exact hm ▸ hr
  · exact h m

/-- Soundness is read from the link records alone. -/
theorem State.LinksSound.of_links {s t : State} (h : s.LinksSound) (hl : t.lm.links = s.lm.links) : t.LinksSound := by
  intro l
  have : t.link l = s.link l := by simp [State.link, hl]
  rw [this]
  exact h l

theorem State.LinksSound.raiseEntry {s : State} (h : s.LinksSound) (l : LinkId) (e : LinkState) :
    (s.raiseEntry l e).LinksSound := h.of_links (by simp)

theorem LinkRecord.SoundAt.classified {r : LinkRecord} {l : LinkId} (h : r.SoundAt l) (k : ReportClass) :
    (r.classified k).SoundAt l := by
  cases k <;> exact h

theorem State.LinksSound.restart {s : State} (h : s.LinksSound) {l : LinkId} (hw : (s.link l).state.watched = true) :
    (s.restartDeadline l).LinksSound :=
  h.setLink ⟨(h l).1, by simpa using hw.symm, (h l).2.2⟩

theorem State.LinksSound.becomeLost {s : State} (h : s.LinksSound) (l : LinkId) (hu : (s.link l).state = .up) :
    (s.becomeLost l).LinksSound := by
  have hd : (s.link l).deadline.isSome = true := by rw [(h l).2.1, hu]; rfl
  have hs : (s.setLink l
      { s.link l with state := .lost, badRun := 0, goodRun := 0, congested := false }).LinksSound :=
    h.setLink ⟨(h l).1, hd, by simp⟩
  exact hs.of_links (by simp [State.becomeLost])

theorem State.LinksSound.becomeUp {s : State} (h : s.LinksSound) (l : LinkId) (hw : (s.link l).state.watched = true) :
    (s.becomeUp l).LinksSound := by
  have hd : (s.link l).deadline.isSome = true := by rw [(h l).2.1, hw]
  have hs : (s.setLink l { s.link l with state := .up, badRun := 0, goodRun := 0 }).LinksSound :=
    h.setLink ⟨(h l).1, hd, by simp⟩
  exact hs.of_links (by simp [State.becomeUp])

/-- A window is completed from UP, PROBING or LOST alone (R110). -/
theorem windowResult_cases (r : LinkRecord) :
    (r.windowResult = .becomesLost → r.state = .up) ∧ (r.windowResult = .becomesUp → r.state.watched = true) := by
  unfold LinkRecord.windowResult
  split <;> rename_i hr <;> (try split) <;> simp [hr, LinkState.watched]

theorem State.LinksSound.testWindows {s : State} (h : s.LinksSound) (l : LinkId) : (s.testWindows l).LinksSound := by
  unfold State.testWindows
  split
  · rename_i hw
    exact h.becomeLost l ((windowResult_cases _).1 hw)
  · rename_i hw
    exact h.becomeUp l ((windowResult_cases _).2 hw)
  · exact h

theorem State.LinksSound.classify {s : State} (h : s.LinksSound) (l : LinkId) (k : ReportClass) :
    (s.classify l k).LinksSound := by
  have h1 : (s.setLink l ((s.link l).classified k)).LinksSound := h.setLink ((h l).classified k)
  simp only [State.classify]
  split
  · exact (h1.of_links (by simp)).testWindows l
  · exact h1.testWindows l

theorem State.LinksSound.evaluateCongestion {s : State} (h : s.LinksSound) (l : LinkId) (o : BitVec 8) :
    (s.evaluateCongestion l o).LinksSound := by
  simp only [State.evaluateCongestion]
  split
  · rename_i hu
    have hset (b : Bool) : (s.setLink l { s.link l with congested := b }).LinksSound :=
      h.setLink ⟨(h l).1, (h l).2.1, fun _ => hu⟩
    split
    · exact (hset true).of_links (by simp)
    · split
      · exact (hset false).of_links (by simp)
      · exact hset false
    · exact h
  · exact h

theorem State.LinksSound.report {s : State} (h : s.LinksSound) (l : LinkId) (q : BitVec 6) (o : BitVec 8) :
    (s.report l q o).1.LinksSound := by
  have h1 : (s.setLink l ((s.link l).measured q o)).LinksSound := h.setLink (h l)
  simp only [State.report]
  split
  · rename_i hw
    have h2 : ((s.setLink l ((s.link l).measured q o)).restartDeadline l).LinksSound :=
      h1.restart (by simpa [LinkRecord.measured] using hw)
    exact (h2.classify l _).evaluateCongestion l o
  · exact h1

theorem State.LinksSound.enableLink {s : State} (h : s.LinksSound) (l : LinkId) : (s.enableLink l).1.LinksSound := by
  simp only [State.enableLink]
  split
  · exact h
  · have h1 : ((s.setLink l (s.link l).enabled).restartDeadline l).LinksSound := by
      intro m
      simp only [State.restartDeadline, setLink_link]
      split
      · rename_i hm
        subst hm
        simp only [if_true]
        exact ⟨(h m).1, rfl, by simp [LinkRecord.enabled]⟩
      · exact h m
    exact h1.of_links (by simp)

theorem State.LinksSound.leaveService {s : State} (h : s.LinksSound) (l : LinkId) {e : LinkState} (he : e.watched = false) :
    (s.leaveService l e).LinksSound :=
  (h.setLink (r := (s.link l).leftService e)
    ⟨(h l).1, by simp [LinkRecord.leftService, he], by simp [LinkRecord.leftService]⟩).of_links
    (by simp [State.leaveService])

theorem State.LinksSound.disableLink {s : State} (h : s.LinksSound) (l : LinkId) : (s.disableLink l).1.LinksSound := by
  simp only [State.disableLink]
  split
  · exact h
  · exact (h.leaveService l (e := .offline) rfl).of_links (by simp)

theorem drainTarget_unwatched (s : State) (l : LinkId) : (s.drainTarget l).watched = false := by
  unfold State.drainTarget
  split <;> rfl

theorem State.LinksSound.drainLink {s : State} (h : s.LinksSound) (l : LinkId) : (s.drainLink l).1.LinksSound := by
  have hleave := (h.leaveService l (drainTarget_unwatched s l)).of_links
    (t := ((s.leaveService l (s.drainTarget l)).requestRepin l)) (by simp)
  unfold State.drainLink
  split
  · exact h
  · exact h
  all_goals exact hleave

theorem State.LinksSound.injectLink {s : State} (h : s.LinksSound) (l : LinkId) : (s.injectLink l).1.LinksSound := by
  simp only [State.injectLink]
  split
  · exact h.classify l .bad
  · exact h

theorem State.LinksSound.takeSnapshot {s : State} (h : s.LinksSound) (l : LinkId) : (s.takeSnapshot l).LinksSound :=
  h.setLink (h l)

theorem State.LinksSound.expireStale {s : State} (h : s.LinksSound) {l : LinkId} (hd : s.staleDue l = true) :
    (s.expireStale l).LinksSound := by
  have hw : (s.link l).state.watched = true := by
    simp only [State.staleDue, Bool.and_eq_true] at hd
    exact hd.1
  exact (h.restart hw).classify l .bad

theorem State.LinksSound.takeDrained {s : State} (h : s.LinksSound) (l : LinkId) : (s.takeDrained l).LinksSound := by
  have h1 : (s.setDrained l false).LinksSound := h.of_links (by simp)
  simp only [State.takeDrained]
  split
  · rename_i hd
    have hs := h1 l
    have h2 : ((s.setDrained l false).setLink l
        { (s.setDrained l false).link l with state := .offline }).LinksSound := by
      refine h1.setLink ⟨hs.1, ?_, fun hc => ?_⟩
      · have h3 : ((s.setDrained l false).link l).deadline.isSome = false := by
          rw [hs.2.1, hd.1]
          rfl
        exact h3
      · exact absurd (hs.2.2 hc) (by rw [hd.1]; decide)
    exact h2.of_links (by simp)
  · exact h1

theorem State.LinksSound.endRepin {s : State} (h : s.LinksSound) (l : LinkId) (m n : Nat) (b : Bool) :
    (s.endRepin l m n b).LinksSound := by
  have h1 : (s.setLink l
      { s.link l with repin := { moved := m, held := n, aborted := b, completed := s.al.count } }).LinksSound :=
    h.setLink (h l)
  exact h1.of_links (by simp [State.endRepin])

/-- A configuration in range for the code that came with it is in range whatever the code (R123). -/
theorem LinkConfig.inRange_code {c : LinkConfig} {l : LinkId} {f : BitVec 4} (h : c.inRange l f = true) :
    c.inRange l 8 = true := by
  simp only [LinkConfig.inRange, Bool.and_eq_true, decide_eq_true_eq] at h ⊢
  exact ⟨⟨h.1.1, by decide⟩, h.2⟩

theorem State.LinksSound.linkConfig {s : State} (h : s.LinksSound) (code : BitVec 4) (c : LinkConfig) (f : BitVec 4) :
    (s.linkConfig code c f).1.LinksSound := by
  unfold State.linkConfig
  split
  · exact h
  · rename_i l hl
    split
    · exact h
    · rename_i hr
      split
      · exact h
      · exact h.setLink ⟨LinkConfig.inRange_code (by simpa using hr), (h l).2⟩

theorem LinkRecord.SoundAt.afterClearing {r : LinkRecord} {l : LinkId} (h : r.SoundAt l) (n : Second) :
    (r.afterClearing n).SoundAt l := by
  obtain ⟨h1, h2, h3⟩ := h
  unfold LinkRecord.afterClearing
  split <;> rename_i hr <;> simp_all [LinkRecord.SoundAt, LinkState.watched]

theorem State.LinksSound.resume {s : State} (h : s.LinksSound) : s.resume.LinksSound := by
  intro l
  have hl : s.resume.link l = (s.link l).afterClearing s.al.count := by
    simp [State.resume, State.link, State.setPhase]
  rw [hl]
  exact (h l).afterClearing _

theorem State.LinksSound.endClearing {s : State} (h : s.LinksSound) (ch : Chan) (b : Bool) :
    (s.endClearing ch b).LinksSound := by
  simp only [State.endClearing]
  split
  · exact h.resume.of_links (by simp)
  · exact (h.of_links (t := s.emptyList) (by simp)).resume.of_links (by simp)

theorem State.LinksSound.finish {t : Taken} (h : t.1.LinksSound) (ch : Chan) : (t.finish ch).LinksSound :=
  h.of_links (by simp [Taken.finish])

theorem State.LinksSound.linkReport {s : State} (h : s.LinksSound) (code : BitVec 4) (q o : BitVec 8) :
    (s.linkReport code q o).1.LinksSound := by
  unfold State.linkReport
  split
  · exact h
  · split
    · exact h
    · exact h.report _ _ _

theorem State.LinksSound.enable {s : State} (h : s.LinksSound) (code : BitVec 4) : (s.enable code).1.LinksSound := by
  unfold State.enable
  split
  · exact h
  · exact h.enableLink _

theorem State.LinksSound.disable {s : State} (h : s.LinksSound) (code : BitVec 4) : (s.disable code).1.LinksSound := by
  unfold State.disable
  split
  · exact h
  · exact h.disableLink _

theorem State.LinksSound.drain {s : State} (h : s.LinksSound) (code : BitVec 4) : (s.drain code).1.LinksSound := by
  unfold State.drain
  split
  · exact h
  · exact h.drainLink _

theorem State.LinksSound.inject {s : State} (h : s.LinksSound) (code : BitVec 4) : (s.inject code).1.LinksSound := by
  unfold State.inject
  split
  · exact h
  · exact h.injectLink _

theorem State.LinksSound.snapshot {s : State} (h : s.LinksSound) (code : BitVec 4) : (s.snapshot code).1.LinksSound := by
  unfold State.snapshot
  split
  · exact h
  · exact h.takeSnapshot _

theorem State.LinksSound.abortWalks {s : State} (h : s.LinksSound) (x : LinkSelector) :
    (s.abortWalks x).1.LinksSound := by
  simp only [State.abortWalks]
  split
  · exact h
  · cases hw : s.abortedWalk x with
    | none => exact h.of_links (by simp)
    | some p => exact (h.endRepin p.1 p.2.counts.moved p.2.counts.flowsHeld true).of_links (by simp)

theorem State.LinksSound.walkAbort {s : State} (h : s.LinksSound) (k : WalkKind) (c : BitVec 8) :
    (s.walkAbort k c).1.LinksSound := by
  unfold State.walkAbort
  split
  · exact h
  · split
    · exact h.abortWalks _
    all_goals exact h

end Sys2Proof.Machine
end

