-- ==== Sys2Proof/Laws/Placed.lean ====
section
/-! SUPPORT. Tags and keys stay in their buckets and unique, no subscriber gets more than 64 flows, and zone epochs stay
bounded (R1, R3, R25, R27, R30, R104), under what carries and under the two creations. -/

namespace Sys2Proof.Machine

variable {s t u : State}

/-! ## Under what carries -/

theorem State.TagsPlaced.carried (h : s.TagsPlaced) (k : s.Carries t) : t.TagsPlaced := by
  refine ⟨fun i hl => ?_, fun i j hi hj he => ?_⟩
  · obtain ⟨k1, k2, _⟩ := k.subs i hl
    rw [k2]
    exact h.1 i k1
  · obtain ⟨k1, k2, _⟩ := k.subs i hi
    obtain ⟨m1, m2, _⟩ := k.subs j hj
    rw [k2, m2] at he
    exact h.2 i j k1 m1 he

theorem State.KeysPlaced.carried (h : s.KeysPlaced) (k : s.Carries t) : t.KeysPlaced := by
  obtain ⟨h1, h2, h3⟩ := h
  refine ⟨fun i hl => ?_, fun i j hi hj he => ?_, fun i hl => ?_⟩
  · obtain ⟨k1, k2, _⟩ := k.flows i hl
    rw [k2]
    exact h1 i k1
  · obtain ⟨k1, k2, _⟩ := k.flows i hi
    obtain ⟨m1, m2, _⟩ := k.flows j hj
    rw [k2, m2] at he
    exact h2 i j k1 m1 he
  · obtain ⟨k1, k2, k3⟩ := k.flows i hl
    rw [k2, k3]
    exact h3 i k1

theorem State.FlowCountsBounded.carried (h : s.FlowCountsBounded) (k : s.Carries t) : t.FlowCountsBounded :=
  fun i => (k.lists i).trans (h i)

/-- The walk that is ahead of a record stays ahead of it where the queue and the walk keep their ZONE entries. -/
theorem State.ZoneEpochsBounded.carried (h : s.ZoneEpochsBounded) (k : s.Carries t)
    (ha : ∀ i, (t.sub i).live = true → (t.sub i).closeHeld = false → (t.sub i).zoneEpoch ≠ s.zas.zoneEpoch →
      s.ZoneWalkAhead i → t.ZoneWalkAhead i)
    (hw : ∀ w, t.tw.walk = some w → w.entry = .zone → WalkEntry.zone ∉ t.tw.queue) : t.ZoneEpochsBounded := by
  refine ⟨fun i hl hc => ?_, hw⟩
  obtain ⟨k1, _, k3⟩ := k.subs i hl
  rw [k.epoch]
  rcases k3 hc with e | ⟨c, e⟩
  · exact .inl e
  · by_cases he : (t.sub i).zoneEpoch = s.zas.zoneEpoch
    · exact .inl he
    · rcases h.1 i k1 c with z | ⟨z1, z2⟩
      · exact .inl (e.trans z)
      · exact .inr ⟨by rw [e]; exact z1, ha i hl hc he z2⟩

/-- The walker and its queue are as they were. -/
theorem State.ZoneEpochsBounded.carried_tw (h : s.ZoneEpochsBounded) (k : s.Carries t) (ht : t.tw = s.tw) :
    t.ZoneEpochsBounded := by
  refine h.carried k (fun i _ _ _ => ?_) ?_
  · unfold State.ZoneWalkAhead
    rw [ht]
    exact id
  · rw [ht]
    exact h.2

/-! ## Lookups that find nothing -/

theorem findTag_none {tag : Tag} (h : s.findTag tag = none) (w : BitVec 2)
    (hl : (s.sub (subWay (subBucket tag) w)).live = true) : (s.sub (subWay (subBucket tag) w)).tag ≠ tag := by
  have := List.find?_eq_none.mp h _ (List.mem_map.mpr ⟨w, ways_all w, rfl⟩)
  intro he
  exact this (by simp [hl, he])

theorem findKey_none {k : FlowKey} (h : s.findKey k = none) (w : BitVec 2)
    (hl : (s.flow (flowWay (flowBucket k) w)).live = true) : (s.flow (flowWay (flowBucket k) w)).key ≠ k := by
  have := List.find?_eq_none.mp h _ (List.mem_map.mpr ⟨w, ways_all w, rfl⟩)
  intro he
  exact this (by simp [hl, he])

theorem vacantSub_way {tag : Tag} {i : SubIx} (h : s.vacantSub tag = some i) :
    ∃ w, i = subWay (subBucket tag) w := by
  obtain ⟨w, _, hw⟩ := List.mem_map.mp (List.mem_of_find?_eq_some h)
  exact ⟨w, hw.symm⟩

theorem vacantFlow_way {k : FlowKey} {i : FlowIx} (h : s.vacantFlow k = some i) :
    ∃ w, i = flowWay (flowBucket k) w := by
  obtain ⟨w, _, hw⟩ := List.mem_map.mp (List.mem_of_find?_eq_some h)
  exact ⟨w, hw.symm⟩

/-! ## ATTACH -/

/-- The record that a creation leaves: the tag named, the device zone epoch, no flow. -/
theorem createSub_record (s : State) (i : SubIx) (tag : Tag) (cls : SubClass) (p : Bool) (k : TariffIx)
    (home : Operator) : ((s.createSub i (s.newRecord i tag cls p k home)).sub i).tag = tag ∧
      ((s.createSub i (s.newRecord i tag cls p k home)).sub i).zoneEpoch = s.zas.zoneEpoch ∧
      ((s.createSub i (s.newRecord i tag cls p k home)).sub i).flowList = [] ∧
      ∀ j, j ≠ i → (s.createSub i (s.newRecord i tag cls p k home)).sub j = s.sub j := by
  unfold State.createSub
  obtain ⟨r, hr⟩ := recheck_sub (s.setSub i (s.newRecord i tag cls p k home)) i
  refine ⟨?_, ?_, ?_, fun j hj => ?_⟩
  · rw [hr, if_pos rfl, setSub_sub_same]
    rfl
  · rw [hr, if_pos rfl, setSub_sub_same]
    rfl
  · rw [hr, if_pos rfl, setSub_sub_same]
    rfl
  · rw [hr, if_neg hj, setSub_sub_ne _ _ hj]

theorem attach_carriesOrCreates (s : State) (tag : Tag) (code : BitVec 2) (p : Bool) (k : TariffIx)
    (home : Operator) : s.Carries (s.attach tag code p k home).1 ∨ ∃ i cls, s.findTag tag = none ∧
      s.vacantSub tag = some i ∧
      (s.attach tag code p k home).1 = s.createSub i (s.newRecord i tag cls p k home) := by
  unfold State.attach
  split
  · exact .inl (.refl _)
  · split
    · exact .inl (.refl _)
    · unfold State.attachChecked
      split
      · rename_i i hi
        refine .inl ?_
        unfold State.attachFound
        split
        · exact touch_carries s i
        · exact touch_carries s i
        · exact .refl _
        · split
          · exact .refl _
          · exact revive_carries (findTag_live hi) p home
        · exact .refl _
      · rename_i hn
        split
        · exact .inl (.refl _)
        · rename_i i hi
          exact .inr ⟨i, _, hn, hi, rfl⟩

theorem State.TagsPlaced.attach (h : s.TagsPlaced) (tag : Tag) (code : BitVec 2) (p : Bool) (k : TariffIx)
    (home : Operator) : (s.attach tag code p k home).1.TagsPlaced := by
  rcases attach_carriesOrCreates s tag code p k home with hc | ⟨i, cls, hn, hv, he⟩
  · exact h.carried hc
  · rw [he]
    obtain ⟨e1, _, _, ho⟩ := createSub_record s i tag cls p k home
    have hother : ∀ j, j ≠ i → ((s.createSub i (s.newRecord i tag cls p k home)).sub j).live = true →
        ((s.createSub i (s.newRecord i tag cls p k home)).sub j).tag ≠ tag := by
      intro j hj hl
      rw [ho j hj] at hl ⊢
      intro hx
      obtain ⟨w, hw⟩ := h.1 j hl
      rw [hx] at hw
      subst hw
      exact findTag_none hn w hl hx
    refine ⟨fun j hl => ?_, fun j m hj hm hx => ?_⟩
    · by_cases hj : j = i
      · subst hj
        rw [e1]
        exact vacantSub_way hv
      · rw [ho j hj] at hl ⊢
        exact h.1 j hl
    · by_cases h1 : j = i <;> by_cases h2 : m = i
      · rw [h1, h2]
      · rw [h1, e1] at hx
        exact absurd hx.symm (hother m h2 hm)
      · rw [h2, e1] at hx
        exact absurd hx (hother j h1 hj)
      · rw [ho j h1] at hj hx
        rw [ho m h2] at hm hx
        exact h.2 j m hj hm hx

theorem State.KeysPlaced.of_flow (h : s.KeysPlaced) (hf : ∀ i, t.flow i = s.flow i) : t.KeysPlaced := by
  obtain ⟨h1, h2, h3⟩ := h
  refine ⟨fun i => ?_, fun i j => ?_, fun i => ?_⟩
  · rw [hf]
    exact h1 i
  · rw [hf, hf]
    exact h2 i j
  · rw [hf]
    exact h3 i

theorem State.FlowCountsBounded.attach (h : s.FlowCountsBounded) (tag : Tag) (code : BitVec 2) (p : Bool)
    (k : TariffIx) (home : Operator) : (s.attach tag code p k home).1.FlowCountsBounded := by
  rcases attach_carriesOrCreates s tag code p k home with hc | ⟨i, cls, _, _, he⟩
  · exact h.carried hc
  · rw [he]
    obtain ⟨_, _, e3, ho⟩ := createSub_record s i tag cls p k home
    intro j
    by_cases hj : j = i
    · subst hj
      rw [e3]
      exact Nat.zero_le _
    · rw [ho j hj]
      exact h j

theorem State.ZoneEpochsBounded.attach (h : s.ZoneEpochsBounded) (tag : Tag) (code : BitVec 2) (p : Bool)
    (k : TariffIx) (home : Operator) : (s.attach tag code p k home).1.ZoneEpochsBounded := by
  have ht : (s.attach tag code p k home).1.tw = s.tw := by simp
  rcases attach_carriesOrCreates s tag code p k home with hc | ⟨i, cls, _, _, he⟩
  · exact h.carried_tw hc ht
  · rw [he] at ht ⊢
    obtain ⟨_, e2, _, ho⟩ := createSub_record s i tag cls p k home
    have hz : (s.createSub i (s.newRecord i tag cls p k home)).zas = s.zas := by simp
    refine ⟨fun j hl hc => ?_, by rw [ht]; exact h.2⟩
    rw [hz]
    by_cases hj : j = i
    · subst hj
      exact .inl e2
    · rw [ho j hj] at hl hc ⊢
      unfold State.ZoneWalkAhead
      rw [ht]
      exact h.1 j hl hc

/-! ## FLOW_OPEN -/

/-- The state `t` is `x` with a flow of key `k` created, a key that no live flow of `x` holds, after the reclaims of R32. -/
def State.CreatesFlow (x : State) (o : SubHandle) (k : FlowKey) (r : Bool) (t : State) : Prop :=
  ∃ i c limit bucket, x.findKey k = none ∧ x.limitReclaim (x.sub o.index) r = limit ∧ limit ≠ .refuse ∧
    ((x.retireSome limit.index).retireSome bucket).vacantFlow k = some i ∧
    t = ((x.retireSome limit.index).retireSome bucket).createFlow i k c o

theorem openAfterReclaim_carriesOrCreates (x : State) (o : SubHandle) (k : FlowKey) (c : FlowClass) (r : Bool)
    (limit : Reclaim) (bucket : Option FlowIx) (h1 : x.findKey k = none)
    (h2 : x.limitReclaim (x.sub o.index) r = limit) (h3 : limit ≠ .refuse) :
    x.Carries (x.openAfterReclaim k c o limit.index bucket).1 ∨
      x.CreatesFlow o k r (x.openAfterReclaim k c o limit.index bucket).1 := by
  unfold State.openAfterReclaim
  dsimp only
  split
  · exact .inl (.refl _)
  · rename_i i hi
    exact .inr ⟨i, c, limit, bucket, h1, h2, h3, hi, rfl⟩

theorem openTouched_carriesOrCreates (x : State) (o : SubHandle) (k : FlowKey) (c : FlowClass) (r : Bool) :
    x.Carries (x.openTouched k c o r).1 ∨ x.CreatesFlow o k r (x.openTouched k c o r).1 := by
  unfold State.openTouched
  split
  · exact .inl (touchFlow_carries x _)
  · rename_i hn
    unfold State.openNew
    dsimp only
    split
    · exact .inl (.refl _)
    · rename_i hl
      split
      · exact .inl (.refl _)
      · exact openAfterReclaim_carriesOrCreates x o k c r _ _ hn rfl (by rw [hl]; simp)
      · exact openAfterReclaim_carriesOrCreates x o k c r _ _ hn rfl (by rw [hl]; simp)
    · rename_i hl
      split
      · exact .inl (.refl _)
      · exact openAfterReclaim_carriesOrCreates x o k c r _ _ hn rfl (by rw [hl]; simp)
      · exact openAfterReclaim_carriesOrCreates x o k c r _ _ hn rfl (by rw [hl]; simp)

/-- FLOW_OPEN carries, or it creates a flow after the touch of its subscriber. -/
theorem flowOpen_carriesOrCreates (s : State) (o : SubHandle) (k : FlowKey) (code : BitVec 3) (r : Bool) :
    s.Carries (s.flowOpen o k code r).1 ∨ (s.touch o.index).CreatesFlow o k r (s.flowOpen o k code r).1 := by
  have key : ∀ c, s.Carries ((s.touch o.index).openTouched k c o r).1 ∨
      (s.touch o.index).CreatesFlow o k r ((s.touch o.index).openTouched k c o r).1 := fun c =>
    (openTouched_carriesOrCreates (s.touch o.index) o k c r).imp (touch_carries s o.index).trans id
  unfold State.flowOpen
  split
  · exact .inl (.refl _)
  · split
    · exact .inl (.refl _)
    · split
      · exact .inl (.refl _)
      · exact .inl (.refl _)
      · exact key _
      · exact key _
      · exact .inl (.refl _)

theorem State.TagsPlaced.of_sub (h : s.TagsPlaced)
    (hs : ∀ i, (t.sub i).live = (s.sub i).live ∧ (t.sub i).tag = (s.sub i).tag) : t.TagsPlaced := by
  refine ⟨fun i => ?_, fun i j => ?_⟩
  · rw [(hs i).1, (hs i).2]
    exact h.1 i
  · rw [(hs i).1, (hs i).2, (hs j).1, (hs j).2]
    exact h.2 i j

/-- The subscribers' side of a creation: its owner's flow list grows by one. -/
theorem createFlow_subs (s : State) (i : FlowIx) (k : FlowKey) (c : FlowClass) (o : SubHandle) (j : SubIx) :
    (s.createFlow i k c o).sub j = { s.sub j with flowList := ((s.createFlow i k c o).sub j).flowList } ∧
      ((s.createFlow i k c o).sub j).flowList.length = (s.sub j).flowList.length + if j = o.index then 1 else 0 := by
  obtain ⟨_, h2, _⟩ := createFlow_parts s i k c o
  rw [h2]
  split
  · exact ⟨rfl, by simp⟩
  · exact ⟨rfl, rfl⟩

theorem State.TagsPlaced.flowOpen (h : s.TagsPlaced) (o : SubHandle) (k : FlowKey) (code : BitVec 3) (r : Bool) :
    (s.flowOpen o k code r).1.TagsPlaced := by
  rcases flowOpen_carriesOrCreates s o k code r with hc | ⟨i, c, limit, bucket, _, _, _, _, he⟩
  · exact h.carried hc
  · rw [he]
    have h1 := h.carried (((touch_carries s o.index).trans (retireSome_carries _ limit.index)).trans
      (retireSome_carries _ bucket))
    refine h1.of_sub fun j => ?_
    rw [(createFlow_subs _ i k c o j).1]
    exact ⟨rfl, rfl⟩

theorem State.KeysPlaced.flowOpen (h : s.KeysPlaced) (o : SubHandle) (k : FlowKey) (code : BitVec 3) (r : Bool)
    (hk : k.subscriber = o.index) : (s.flowOpen o k code r).1.KeysPlaced := by
  rcases flowOpen_carriesOrCreates s o k code r with hc | ⟨i, c, limit, bucket, hn, _, _, hv, he⟩
  · exact h.carried hc
  · rw [he]
    have hx : (s.touch o.index).KeysPlaced := h.carried (touch_carries s o.index)
    have hcar : (s.touch o.index).Carries (((s.touch o.index).retireSome limit.index).retireSome bucket) :=
      (retireSome_carries _ limit.index).trans (retireSome_carries _ bucket)
    generalize s.touch o.index = x at hn hv hx hcar ⊢
    generalize (x.retireSome limit.index).retireSome bucket = y at hv hcar ⊢
    have hy := hx.carried hcar
    have hfree : ∀ j, (y.flow j).live = true → (y.flow j).key ≠ k := by
      intro j hl hj
      obtain ⟨k1, k2, _⟩ := hcar.flows j hl
      rw [k2] at hj
      obtain ⟨w, hw⟩ := hx.1 j k1
      rw [hj] at hw
      subst hw
      exact findKey_none hn w k1 hj
    obtain ⟨hf, _, _⟩ := createFlow_parts y i k c o
    have hi : (y.createFlow i k c o).flow i = y.newFlow i k c o (y.selectLink c none) := by rw [hf, if_pos rfl]
    have ho : ∀ j, j ≠ i → (y.createFlow i k c o).flow j = y.flow j := fun j hj => by rw [hf, if_neg hj]
    have hkey : ((y.createFlow i k c o).flow i).key = k := by
      rw [hi]
      rfl
    refine ⟨fun j hl => ?_, fun j m hj hm hx => ?_, fun j hl => ?_⟩
    · by_cases hj : j = i
      · subst hj
        rw [hkey]
        exact vacantFlow_way hv
      · rw [ho j hj] at hl ⊢
        exact hy.1 j hl
    · by_cases h1 : j = i <;> by_cases h2 : m = i
      · rw [h1, h2]
      · rw [h1, hkey, ho m h2] at hx
        rw [ho m h2] at hm
        exact absurd hx.symm (hfree m hm)
      · rw [h2, hkey, ho j h1] at hx
        rw [ho j h1] at hj
        exact absurd hx (hfree j hj)
      · rw [ho j h1] at hj hx
        rw [ho m h2] at hm hx
        exact hy.2.1 j m hj hm hx
    · by_cases hj : j = i
      · subst hj
        rw [hi]
        exact hk.symm
      · rw [ho j hj] at hl ⊢
        exact hy.2.2 j hl

theorem flowLimit_le (h : s.TermsSound) (r : SubRecord) : s.flowLimit r ≤ 64 := by
  unfold State.flowLimit
  split
  · rename_i k _
    have := h.2.2.2.2 k
    simp only [TariffTerms.inRange, Bool.and_eq_true, decide_eq_true_eq] at this
    exact this.2
  · exact le_rfl

/-- R32: the limit's reclaim leaves room for one flow. -/
theorem limitReclaim_room (hx : u.FlowsExact) (ht : u.TermsSound) (hb : u.FlowCountsBounded) {i : SubIx} {r : Bool}
    {limit : Reclaim} (he : u.limitReclaim (u.sub i) r = limit) (hr : limit ≠ .refuse) :
    ((u.retireSome limit.index).sub i).flowList.length < 64 := by
  unfold State.limitReclaim at he
  split at he
  · rename_i hlt
    subst he
    exact lt_of_lt_of_le hlt (flowLimit_le ht _)
  · split at he
    · exact absurd he.symm hr
    · split at he
      · rename_i x hf
        subst he
        have hm := List.mem_of_find?_eq_some hf
        obtain ⟨_, h2, h3⟩ := (hx.2.2.2.1 i).2 x hm
        show ((u.retire x.index).sub i).flowList.length < 64
        rw [retire_sub, if_pos h3.symm]
        have hxe : ({ index := x.index, stamp := (u.flow x.index).stamp } : FlowHandle) = x := by rw [h2]
        show ((u.sub i).flowList.erase _).length < 64
        rw [hxe, List.length_erase_of_mem hm]
        have h64 := hb i
        have hpos : 0 < (u.sub i).flowList.length := List.length_pos_of_mem hm
        omega
      · exact absurd he.symm hr

theorem State.FlowCountsBounded.flowOpen (h : s.FlowCountsBounded) (hf : s.FlowsExact) (ht : s.TermsSound)
    (o : SubHandle) (k : FlowKey) (code : BitVec 3) (r : Bool) : (s.flowOpen o k code r).1.FlowCountsBounded := by
  rcases flowOpen_carriesOrCreates s o k code r with hc | ⟨i, c, limit, bucket, _, hlim, hr, _, he⟩
  · exact h.carried hc
  · rw [he]
    have hx : (s.touch o.index).FlowCountsBounded := h.carried (touch_carries s o.index)
    have hxf : (s.touch o.index).FlowsExact := hf.followAt (touch_follows s o.index) (by simp)
    have hxt : (s.touch o.index).TermsSound := by
      have hz : (s.touch o.index).zas = s.zas := by simp
      unfold State.TermsSound State.NamesDefined at ht ⊢
      simp only [State.zone, State.tariff, hz] at ht ⊢
      exact ht
    generalize s.touch o.index = x at hlim hx hxf hxt ⊢
    have hroom := limitReclaim_room hxf hxt hx hlim hr
    have hy : (x.retireSome limit.index).FlowCountsBounded := hx.carried (retireSome_carries _ _)
    generalize x.retireSome limit.index = y at hroom hy ⊢
    have hcar := retireSome_carries y bucket
    have hz := hy.carried hcar
    have hroom' := lt_of_le_of_lt (hcar.lists o.index) hroom
    intro j
    rw [(createFlow_subs _ i k c o j).2]
    have := hz j
    split
    · rename_i hj
      subst hj
      omega
    · exact this

theorem State.ZoneEpochsBounded.flowOpen (h : s.ZoneEpochsBounded) (o : SubHandle) (k : FlowKey) (code : BitVec 3)
    (r : Bool) : (s.flowOpen o k code r).1.ZoneEpochsBounded := by
  have ht : (s.flowOpen o k code r).1.tw = s.tw := by simp
  have hz : (s.flowOpen o k code r).1.zas = s.zas := by simp
  rcases flowOpen_carriesOrCreates s o k code r with hc | ⟨i, c, limit, bucket, _, _, _, _, he⟩
  · exact h.carried_tw hc ht
  · rw [he] at ht hz ⊢
    have hcar := ((touch_carries s o.index).trans (retireSome_carries _ limit.index)).trans
      (retireSome_carries _ bucket)
    have h1 := h.carried_tw hcar (by simp)
    generalize ((s.touch o.index).retireSome limit.index).retireSome bucket = y at *
    refine ⟨fun j hl hx => ?_, by rw [ht]; exact h.2⟩
    have hj := (createFlow_subs y i k c o j).1
    rw [hj] at hl hx ⊢
    have h2 := h1.1 j hl hx
    rw [hz]
    rw [hcar.epoch] at h2
    unfold State.ZoneWalkAhead at h2 ⊢
    rw [ht]
    have hyt : y.tw = s.tw := by
      have : (y.createFlow i k c o).tw = y.tw := by simp
      rw [← this, ht]
    rw [hyt] at h2
    exact h2

/-! ## A cleared state -/

/-- Every record is VACANT, no flow is listed. -/
theorem placed_of_vacant (hs : ∀ i, (s.sub i).live = false) (hf : ∀ i, (s.flow i).live = false) :
    s.TagsPlaced ∧ s.KeysPlaced :=
  ⟨⟨fun i hl => absurd hl (by simp [hs]), fun i _ hl => absurd hl (by simp [hs])⟩,
    fun i hl => absurd hl (by simp [hf]), fun i _ hl => absurd hl (by simp [hf]),
    fun i hl => absurd hl (by simp [hf])⟩

theorem zoneEpochsBounded_of_vacant (hs : ∀ i, (s.sub i).live = false) (hw : s.tw.walk = none) :
    s.ZoneEpochsBounded :=
  ⟨fun i hl => absurd hl (by simp [hs]), fun w hx => by rw [hw] at hx; cases hx⟩

end Sys2Proof.Machine
end

