-- ==== Sys2Proof/Laws/WindowBytes.lean ====
section
/-! SUPPORT. Bytes of the request areas: what a stored byte changes, and submissions and releases channel by channel. -/

namespace Sys2Proof.Machine

theorem byte_setByte (w : Word) (b : Byte) {k j : Nat} (hk : k < 4) (hj : j < 4) :
    Word.byte (Word.setByte w k b) j = if j = k then b else Word.byte w j := by
  have h : ∀ (k j : Fin 4), Word.byte (Word.setByte w k.val b) j.val = if j = k then b else Word.byte w j.val := by
    intro k j
    unfold Word.byte Word.setByte
    fin_cases k <;> fin_cases j <;>
      (apply BitVec.eq_of_getLsbD_eq
       intro i hi
       have : i = 0 ∨ i = 1 ∨ i = 2 ∨ i = 3 ∨ i = 4 ∨ i = 5 ∨ i = 6 ∨ i = 7 := by omega
       rcases this with h | h | h | h | h | h | h | h <;> subst h <;>
         simp)
  have := h ⟨k, hk⟩ ⟨j, hj⟩
  simpa [Fin.ext_iff] using this

theorem placeOf_request {off : Nat} (h : off < 512) :
    placeOf off = .request (Fin.ofNat 8 (off / 64)) (Fin.ofNat 16 (off / 4)) := by
  unfold placeOf
  rw [if_pos (by omega)]

theorem placeOf_not_request {off : Nat} (h : 512 ≤ off) (ch : Chan) (k : Fin 16) : placeOf off ≠ .request ch k := by
  unfold placeOf
  rw [if_neg (by omega)]
  split <;> simp

/-- One stored byte, as the request areas read. -/
theorem storeByte_readByte (s : State) (b : Host.Cell) {off : Nat} (h : off < 512) :
    (s.storeByte b).readByte off = if b.1 = off then b.2 else s.readByte off := by
  by_cases hb : b.1 < 512
  · unfold State.storeByte State.readByte
    rw [placeOf_request hb, placeOf_request h]
    dsimp only
    rw [setChan_chan]
    by_cases hc : Fin.ofNat 8 (off / 64) = Fin.ofNat 8 (b.1 / 64)
    · rw [if_pos hc, ← hc]
      simp only [ChannelRecord.storeByte]
      by_cases hw : Fin.ofNat 16 (off / 4) = Fin.ofNat 16 (b.1 / 4)
      · rw [← hw]
        simp only [Fin.getElem_fin, Vector.getElem_set_self]
        rw [byte_setByte _ _ (by omega) (by omega)]
        simp only [Fin.ofNat, Fin.mk.injEq] at hc hw
        by_cases he : b.1 = off
        · rw [if_pos (by omega), if_pos he]
        · rw [if_neg (by omega), if_neg he]
      · have hne : (Fin.ofNat 16 (b.1 / 4)).val ≠ (Fin.ofNat 16 (off / 4)).val := fun e => hw (Fin.ext e.symm)
        simp only [Fin.getElem_fin, Vector.getElem_set_ne _ _ hne]
        rw [if_neg]
        rintro rfl
        exact hw rfl
    · rw [if_neg hc, if_neg]
      rintro rfl
      exact hc rfl
  · have hs : s.storeByte b = s := by
      unfold State.storeByte
      have hne := placeOf_not_request (off := b.1) (by omega)
      split
      · rename_i ch w he
        exact absurd he (hne ch w)
      · rfl
      · rfl
    rw [hs, if_neg (by omega)]

/-- R179: where an offset is written more than once, the last byte stands. -/
theorem storeBytes_stores (s : State) (bytes : List Host.Cell) : s.Stores bytes (s.storeBytes bytes) := by
  intro off h
  induction bytes generalizing s with
  | nil => rfl
  | cons b rest ih =>
    have hi := ih (s.storeByte b)
    simp only [State.storeBytes, List.foldl_cons, List.reverse_cons, List.find?_append] at hi ⊢
    rw [hi]
    cases hf : rest.reverse.find? fun b => b.1 == off with
    | some x => simp
    | none =>
      rw [storeByte_readByte s b h]
      by_cases hb : b.1 = off <;> simp [hb]

/-- Storing bytes changes staging words alone. -/
theorem storeBytes_chan (s : State) (bytes : List Host.Cell) (ch : Chan) :
    (s.storeBytes bytes).chan ch = { s.chan ch with staging := ((s.storeBytes bytes).chan ch).staging } := by
  induction bytes generalizing s with
  | nil => rfl
  | cons b rest ih =>
    have h1 : (s.storeByte b).chan ch = { s.chan ch with staging := ((s.storeByte b).chan ch).staging } := by
      unfold State.storeByte
      split
      · rename_i c w _
        rw [setChan_chan]
        split
        · rename_i hc
          subst hc
          rfl
        · rfl
      · rfl
      · rfl
    have h2 := ih (s.storeByte b)
    simp only [State.storeBytes, List.foldl_cons] at h2 ⊢
    rw [h2, h1]

/-- The request areas read from the staging words alone. -/
theorem readByte_of_staging {s t : State} {off : Nat} (h : off < 512)
    (hs : ∀ ch, (t.chan ch).staging = (s.chan ch).staging) : t.readByte off = s.readByte off := by
  unfold State.readByte
  rw [placeOf_request h]
  dsimp only
  simp only [hs]

/-! ## Releases -/

theorem releases_chan (s : State) (x : List Host.Cell) (cs : List Chan) (hn : cs.Nodup) (ch : Chan) :
    (cs.foldl (fun t c => if releasesOn x c then t.release c else t) s).chan ch =
      if ch ∈ cs ∧ releasesOn x ch = true then { s.chan ch with responses := (s.chan ch).responses.tail }
      else s.chan ch := by
  induction cs generalizing s with
  | nil => simp
  | cons c rest ih =>
    obtain ⟨hc, hr⟩ := List.nodup_cons.mp hn
    simp only [List.foldl_cons]
    rw [ih _ hr]
    by_cases hx : releasesOn x c = true
    · rw [if_pos hx]
      by_cases he : ch = c
      · subst he
        simp [hc, hx, State.release]
      · simp [State.release, setChan_chan, he]
    · rw [if_neg hx]
      by_cases he : ch = c
      · subst he
        simp [hc, hx]
      · simp [he]

theorem releaseAll_chan (s : State) (x : List Host.Cell) (ch : Chan) :
    (s.releaseAll x).chan ch =
      if releasesOn x ch = true then { s.chan ch with responses := (s.chan ch).responses.tail } else s.chan ch := by
  have := releases_chan s x channels (List.nodup_finRange 8) ch
  simpa [State.releaseAll, channels] using this

/-! ## Submissions -/

/-- The channel after a submission (R156, R157). -/
def ChannelRecord.submitted (c : ChannelRecord) : ChannelRecord :=
  if c.requests.length < Config.fifoDepth then { c with requests := c.requests ++ [c.message] }
  else { c with overrun := true }

/-- The AL/TB after a discarded message of channel `ch` (R157, R173). -/
def Al.overrunOn (b : Al) (ch : Chan) : Al :=
  { b with overrunBitmap := b.overrunBitmap ||| BitVec.twoPow 8 ch.val, list := raiseIn b.list .device .channelOverrun }

theorem submit_chan (s : State) (c ch : Chan) :
    (s.submit c).chan ch = if ch = c then (s.chan c).submitted else s.chan ch := by
  unfold State.submit ChannelRecord.submitted State.discardMessage
  split
  · rw [setChan_chan]
  · show (s.setChan c { s.chan c with overrun := true }).chan ch = _
    rw [setChan_chan]

theorem submit_al (s : State) (c : Chan) :
    (s.submit c).al = if (s.chan c).requests.length < Config.fifoDepth then s.al else s.al.overrunOn c := by
  unfold State.submit State.discardMessage
  split <;> rfl

theorem submits_chan (s : State) (x : List Host.Cell) (cs : List Chan) (hn : cs.Nodup) (ch : Chan) :
    (cs.foldl (fun t c => if submitsOn x c then t.submit c else t) s).chan ch =
      if ch ∈ cs ∧ submitsOn x ch = true then (s.chan ch).submitted else s.chan ch := by
  induction cs generalizing s with
  | nil => simp
  | cons c rest ih =>
    obtain ⟨hc, hr⟩ := List.nodup_cons.mp hn
    simp only [List.foldl_cons]
    rw [ih _ hr]
    by_cases hx : submitsOn x c = true
    · rw [if_pos hx]
      by_cases he : ch = c
      · subst he
        simp [hc, hx, submit_chan]
      · simp [submit_chan, he]
    · rw [if_neg hx]
      by_cases he : ch = c
      · subst he
        simp [hc, hx]
      · simp [he]

theorem submitAll_chan (s : State) (x : List Host.Cell) (ch : Chan) :
    (s.submitAll x).chan ch = if submitsOn x ch = true then (s.chan ch).submitted else s.chan ch := by
  have := submits_chan s x channels (List.nodup_finRange 8) ch
  simpa [State.submitAll, channels] using this

theorem raiseIn_again (l : List AttnEntry) (r : AttnRecord) (c : Cause) :
    raiseIn (raiseIn l r c) r c = raiseIn l r c := by
  induction l with
  | nil => simp [raiseIn]
  | cons e rest ih =>
    unfold raiseIn
    by_cases h : e.record = r
    · simp [h, raiseIn, BitVec.or_assoc]
    · simp [h, raiseIn, ih]

/-- A message submitted on the channel would overrun it. -/
def State.overruns (s : State) (x : List Host.Cell) (ch : Chan) : Bool :=
  submitsOn x ch && decide (Config.fifoDepth ≤ (s.chan ch).requests.length)

theorem submits_al (s : State) (x : List Host.Cell) (cs : List Chan) (hn : cs.Nodup) :
    (∀ ch : Chan, (cs.foldl (fun t c => if submitsOn x c then t.submit c else t) s).al.overrunBitmap.getLsbD ch.val =
      (s.al.overrunBitmap.getLsbD ch.val || (decide (ch ∈ cs) && s.overruns x ch))) ∧
    (cs.foldl (fun t c => if submitsOn x c then t.submit c else t) s).al.list =
      if ∃ ch ∈ cs, s.overruns x ch = true then raiseIn s.al.list .device .channelOverrun else s.al.list := by
  induction cs generalizing s with
  | nil => simp
  | cons c rest ih =>
    obtain ⟨hc, hr⟩ := List.nodup_cons.mp hn
    simp only [List.foldl_cons]
    obtain ⟨h1, h2⟩ := ih (if submitsOn x c then s.submit c else s) hr
    have hov : ∀ ch ∈ rest, State.overruns (if submitsOn x c then s.submit c else s) x ch = s.overruns x ch := by
      intro ch hm
      have hne : ch ≠ c := fun e => hc (e ▸ hm)
      unfold State.overruns
      split
      · rw [submit_chan, if_neg hne]
      · rfl
    by_cases ho : s.overruns x c = true
    · have hx : submitsOn x c = true := by
        unfold State.overruns at ho
        simp only [Bool.and_eq_true] at ho
        exact ho.1
      have hf : ¬ (s.chan c).requests.length < Config.fifoDepth := by
        unfold State.overruns at ho
        simp only [Bool.and_eq_true, decide_eq_true_eq] at ho
        omega
      rw [if_pos hx] at h1 h2 hov ⊢
      have hal : (s.submit c).al = s.al.overrunOn c := by rw [submit_al, if_neg hf]
      constructor
      · intro ch
        rw [h1 ch, hal]
        by_cases hm : ch ∈ rest
        · rw [hov ch hm]
          have hne : ch ≠ c := fun e => hc (e ▸ hm)
          have hne' : ¬ ch.val = c.val := fun e => hne (Fin.ext e)
          simp [Al.overrunOn, hm, hne']
        · by_cases he : ch = c
          · subst he
            simp [Al.overrunOn, hm, ho]
          · have hne' : ¬ ch.val = c.val := fun e => he (Fin.ext e)
            simp [Al.overrunOn, hm, he, hne']
      · have hp : ∃ ch ∈ c :: rest, s.overruns x ch = true := ⟨c, List.mem_cons_self, ho⟩
        rw [h2, hal, if_pos hp]
        split
        · exact raiseIn_again _ _ _
        · rfl
    · have hal : (if submitsOn x c then s.submit c else s).al = s.al := by
        split
        · rename_i hx
          rw [submit_al, if_pos]
          unfold State.overruns at ho
          simp only [hx, Bool.true_and, decide_eq_true_eq] at ho
          omega
        · rfl
      constructor
      · intro ch
        rw [h1 ch, hal]
        by_cases hm : ch ∈ rest
        · rw [hov ch hm]
          simp [hm]
        · by_cases he : ch = c
          · subst he
            simp [hm, ho]
          · simp [hm, he]
      · rw [h2, hal]
        have hiff : (∃ ch ∈ rest, State.overruns (if submitsOn x c then s.submit c else s) x ch = true) ↔
            ∃ ch ∈ c :: rest, s.overruns x ch = true := by
          constructor
          · rintro ⟨ch, hm, he⟩
            exact ⟨ch, List.mem_cons_of_mem _ hm, by rw [← hov ch hm]; exact he⟩
          · rintro ⟨ch, hm, he⟩
            rcases List.mem_cons.mp hm with rfl | hm
            · exact absurd he ho
            · exact ⟨ch, hm, by rw [hov ch hm]; exact he⟩
        by_cases hp : ∃ ch ∈ c :: rest, s.overruns x ch = true
        · rw [if_pos (hiff.mpr hp), if_pos hp]
        · rw [if_neg fun h => hp (hiff.mp h), if_neg hp]

end Sys2Proof.Machine
end

