-- ==== Sys2Proof/Laws/ZoneQueue.lean ====
section
/-! SUPPORT. Only a ZONE_CHANGE queues a ZONE walk, and only its start takes one from the queue (R96, R97, R128, R142). -/

namespace Sys2Proof.Machine

@[simp] theorem addWalk_zoneQueued (s : State) (e : WalkEntry) (he : e ≠ .zone) :
    WalkEntry.zone ∈ (s.addWalk e).tw.queue ↔ WalkEntry.zone ∈ s.tw.queue := by
  unfold State.addWalk
  split
  · exact Iff.rfl
  · simp [he.symm]

@[simp] theorem abortWalks_zoneQueued (s : State) (x : LinkSelector) :
    WalkEntry.zone ∈ (s.abortWalks x).1.tw.queue ↔ WalkEntry.zone ∈ s.tw.queue := by
  simp only [State.abortWalks]
  split
  · exact Iff.rfl
  · show WalkEntry.zone ∈ s.tw.queue.filter _ ↔ _
    simp [LinkSelector.selects]

@[simp] theorem becomeLost_zoneQueued (s : State) (l : LinkId) :
    WalkEntry.zone ∈ (s.becomeLost l).tw.queue ↔ WalkEntry.zone ∈ s.tw.queue := by
  simp [State.becomeLost]

@[simp] theorem testWindows_zoneQueued (s : State) (l : LinkId) :
    WalkEntry.zone ∈ (s.testWindows l).tw.queue ↔ WalkEntry.zone ∈ s.tw.queue := by
  unfold State.testWindows
  split <;> simp

@[simp] theorem classify_zoneQueued (s : State) (l : LinkId) (k : ReportClass) :
    WalkEntry.zone ∈ (s.classify l k).tw.queue ↔ WalkEntry.zone ∈ s.tw.queue := by
  simp only [State.classify]
  split <;> simp

@[simp] theorem requestRepin_zoneQueued (s : State) (l : LinkId) :
    WalkEntry.zone ∈ (s.requestRepin l).tw.queue ↔ WalkEntry.zone ∈ s.tw.queue := by
  unfold State.requestRepin
  split <;> simp

@[simp] theorem expireStale_zoneQueued (s : State) (l : LinkId) :
    WalkEntry.zone ∈ (s.expireStale l).tw.queue ↔ WalkEntry.zone ∈ s.tw.queue := by
  simp [State.expireStale]

@[simp] theorem advancePolicy_zoneQueued (s : State) :
    WalkEntry.zone ∈ s.advancePolicy.tw.queue ↔ WalkEntry.zone ∈ s.tw.queue := by
  simp [State.advancePolicy]

@[simp] theorem advancePolicyIf_zoneQueued (s : State) (b : Bool) :
    WalkEntry.zone ∈ (s.advancePolicyIf b).tw.queue ↔ WalkEntry.zone ∈ s.tw.queue := by
  unfold State.advancePolicyIf
  split <;> simp

@[simp] theorem expireAge_zoneQueued (s : State) :
    WalkEntry.zone ∈ s.expireAge.tw.queue ↔ WalkEntry.zone ∈ s.tw.queue := by
  simp [State.expireAge]

@[simp] theorem report_zoneQueued (s : State) (l : LinkId) (q : BitVec 6) (o : BitVec 8) :
    WalkEntry.zone ∈ (s.report l q o).1.tw.queue ↔ WalkEntry.zone ∈ s.tw.queue := by
  unfold State.report
  split <;> simp

@[simp] theorem linkReport_zoneQueued (s : State) (c : BitVec 4) (q o : BitVec 8) :
    WalkEntry.zone ∈ (s.linkReport c q o).1.tw.queue ↔ WalkEntry.zone ∈ s.tw.queue := by
  unfold State.linkReport
  repeat' split
  all_goals simp

@[simp] theorem disableLink_zoneQueued (s : State) (l : LinkId) :
    WalkEntry.zone ∈ (s.disableLink l).1.tw.queue ↔ WalkEntry.zone ∈ s.tw.queue := by
  unfold State.disableLink
  split <;> simp

@[simp] theorem disable_zoneQueued (s : State) (c : BitVec 4) :
    WalkEntry.zone ∈ (s.disable c).1.tw.queue ↔ WalkEntry.zone ∈ s.tw.queue := by
  simp only [State.disable, State.noLink]
  repeat' split
  all_goals simp

@[simp] theorem drainLink_zoneQueued (s : State) (l : LinkId) :
    WalkEntry.zone ∈ (s.drainLink l).1.tw.queue ↔ WalkEntry.zone ∈ s.tw.queue := by
  unfold State.drainLink
  split <;> simp

@[simp] theorem drain_zoneQueued (s : State) (c : BitVec 4) :
    WalkEntry.zone ∈ (s.drain c).1.tw.queue ↔ WalkEntry.zone ∈ s.tw.queue := by
  simp only [State.drain, State.noLink]
  repeat' split
  all_goals simp

@[simp] theorem injectLink_zoneQueued (s : State) (l : LinkId) :
    WalkEntry.zone ∈ (s.injectLink l).1.tw.queue ↔ WalkEntry.zone ∈ s.tw.queue := by
  unfold State.injectLink
  split <;> simp

@[simp] theorem inject_zoneQueued (s : State) (c : BitVec 4) :
    WalkEntry.zone ∈ (s.inject c).1.tw.queue ↔ WalkEntry.zone ∈ s.tw.queue := by
  simp only [State.inject, State.noLink]
  repeat' split
  all_goals simp

@[simp] theorem defineZone_zoneQueued (s : State) (k : ZoneIx) (r : ZoneRecord) :
    WalkEntry.zone ∈ (s.defineZone k r).1.tw.queue ↔ WalkEntry.zone ∈ s.tw.queue := by
  unfold State.defineZone
  repeat' split
  all_goals simp

@[simp] theorem zoneDefine_zoneQueued (s : State) (x : BitVec 8) (y : BitVec 2) (c : BitVec 8) :
    WalkEntry.zone ∈ (s.zoneDefine x y c).1.tw.queue ↔ WalkEntry.zone ∈ s.tw.queue := by
  unfold State.zoneDefine
  split <;> simp

@[simp] theorem writeAgreement_zoneQueued (s : State) (a : Agreement) (l : List Agreement) (b : Bool) :
    WalkEntry.zone ∈ (s.writeAgreement a l b).1.tw.queue ↔ WalkEntry.zone ∈ s.tw.queue := by
  simp [State.writeAgreement]

@[simp] theorem setAgreement_zoneQueued (s : State) (a : Agreement) :
    WalkEntry.zone ∈ (s.setAgreement a).1.tw.queue ↔ WalkEntry.zone ∈ s.tw.queue := by
  unfold State.setAgreement
  repeat' split
  all_goals simp

@[simp] theorem agreementSet_zoneQueued (s : State) (o : Operator) (x : BitVec 2) (a b c d : BitVec 8) :
    WalkEntry.zone ∈ (s.agreementSet o x a b c d).1.tw.queue ↔ WalkEntry.zone ∈ s.tw.queue := by
  unfold State.agreementSet
  split <;> simp

@[simp] theorem agreementRemove_zoneQueued (s : State) (o : Operator) :
    WalkEntry.zone ∈ (s.agreementRemove o).1.tw.queue ↔ WalkEntry.zone ∈ s.tw.queue := by
  unfold State.agreementRemove
  split <;> simp

@[simp] theorem writeTariff_zoneQueued (s : State) (i : TariffIx) (x : TariffTerms) :
    WalkEntry.zone ∈ (s.writeTariff i x).1.tw.queue ↔ WalkEntry.zone ∈ s.tw.queue := by
  simp only [State.writeTariff]
  split <;> simp

@[simp] theorem tariffSet_zoneQueued (s : State) (c : BitVec 8) (x : TariffTerms) :
    WalkEntry.zone ∈ (s.tariffSet c x).1.tw.queue ↔ WalkEntry.zone ∈ s.tw.queue := by
  unfold State.tariffSet
  repeat' split
  all_goals simp

@[simp] theorem ageRequest_zoneQueued (s : State) :
    WalkEntry.zone ∈ s.ageRequest.1.tw.queue ↔ WalkEntry.zone ∈ s.tw.queue := by
  simp [State.ageRequest]

@[simp] theorem walkAbort_zoneQueued (s : State) (k : WalkKind) (c : BitVec 8) :
    WalkEntry.zone ∈ (s.walkAbort k c).1.tw.queue ↔ WalkEntry.zone ∈ s.tw.queue := by
  unfold State.walkAbort
  repeat' split
  all_goals simp

end Sys2Proof.Machine
end

