-- ==== Sys2Proof/Laws/ZoneWalks.lean ====
section
/-! SUPPORT. The zone epochs stay bounded (R104): a ZONE_CHANGE queues a ZONE walk, each of its visits brings its record
up to date or holds its close, and it ends when every record has been visited. -/

namespace Sys2Proof.Machine

variable {s t : State}

/-- No ZONE walk is in progress. -/
def State.NotZoning (s : State) : Prop := ∀ w, s.tw.walk = some w → w.entry ≠ .zone

/-- Another walk starts, goes on or ends. -/
theorem State.ZoneEpochsBounded.of_other (h : s.ZoneEpochsBounded) (k : s.Carries t) (hs : s.NotZoning)
    (ht : t.NotZoning) (hq : WalkEntry.zone ∈ s.tw.queue → WalkEntry.zone ∈ t.tw.queue) : t.ZoneEpochsBounded := by
  refine h.carried k (fun i _ _ _ hx => ?_) fun w hw he => absurd he (ht w hw)
  rcases hx with hx | ⟨w, hw, he, _⟩
  · exact .inl (hq hx)
  · exact absurd he (hs w hw)

/-- No ZONE walk is ahead of any record while none is queued or in progress. -/
theorem State.ZoneEpochsBounded.settled (h : s.ZoneEpochsBounded) (hq : WalkEntry.zone ∉ s.tw.queue)
    (hs : s.NotZoning) {i : SubIx} (hl : (s.sub i).live = true) (hc : (s.sub i).closeHeld = false) :
    (s.sub i).zoneEpoch = s.zas.zoneEpoch := by
  rcases h.1 i hl hc with e | ⟨_, e | ⟨w, hw, he, _⟩⟩
  · exact e
  · exact absurd e hq
  · exact absurd he (hs w hw)

theorem walkPending_false (h : s.walkPending = false) : WalkEntry.zone ∉ s.tw.queue ∧ s.NotZoning := by
  unfold State.walkPending at h
  simp only [Bool.or_eq_false_iff, List.any_eq_false] at h
  refine ⟨fun hz => h.1 _ hz rfl, fun w hw he => ?_⟩
  have := h.2
  rw [hw] at this
  simp [he, WalkEntry.blocksZoneChange] at this

/-- R97. -/
theorem State.ZoneEpochsBounded.enterZone (h : s.ZoneEpochsBounded) (hp : s.walkPending = false) (z : ZoneIx) :
    (s.enterZone z).ZoneEpochsBounded := by
  obtain ⟨hq, hs⟩ := walkPending_false hp
  have hz : WalkEntry.zone ∈ (s.enterZone z).tw.queue := by simp [State.enterZone, State.addWalk, hq]
  have he : (s.enterZone z).zas.zoneEpoch = s.zas.zoneEpoch + 1 := by simp [State.enterZone]
  have hw : (s.enterZone z).tw.walk = s.tw.walk := by simp [State.enterZone]
  have hsub : ∀ i, (s.enterZone z).sub i = s.sub i := fun i => by simp [State.sub, State.enterZone]
  refine ⟨fun i hl hc => .inr ⟨?_, .inl hz⟩, fun w hx hx' => ?_⟩
  · rw [hsub] at hl hc ⊢
    rw [he, h.settled hq hs hl hc]
  · rw [hw] at hx
    exact absurd hx' (hs w hx)

theorem State.ZoneEpochsBounded.zoneChange (h : s.ZoneEpochsBounded) (code : BitVec 8) (force : Bool) :
    (s.zoneChange code force).1.ZoneEpochsBounded := by
  unfold State.zoneChange
  split
  · exact h
  · rename_i z _
    dsimp only
    split
    · rename_i hok
      refine h.enterZone ?_ z
      unfold State.zoneChangeStatus at hok
      split at hok
      · cases hok
      · split at hok
        · cases hok
        · split at hok
          · cases hok
          · simpa using ‹¬s.walkPending = true›
    · exact h

/-- R137: a ZONE visit. -/
theorem State.ZoneEpochsBounded.zoneVisit {w : Walk} (h : s.ZoneEpochsBounded) (hp : s.zoneWalk = some w) :
    (s.zoneVisit w).ZoneEpochsBounded := by
  unfold State.zoneWalk at hp
  obtain ⟨hw, hc⟩ := Option.filter_eq_some_iff.mp hp
  simp only [Bool.and_eq_true, beq_iff_eq, Walk.visiting, decide_eq_true_eq] at hc
  obtain ⟨he, hlt⟩ := hc
  have hsize : w.size = 4096 := by
    unfold Walk.size
    rw [he]
    rfl
  rw [hsize] at hlt
  have hw' := State.walking_eq hw
  have hq := h.2 w hw' he
  have k : s.Carries (s.zoneVisit w) :=
    (lazyVisit_carries s w.subAt).of_eq rfl rfl rfl
  obtain ⟨counts, hwalk⟩ : ∃ counts, (s.zoneVisit w).tw.walk = some (w.advance counts) := ⟨_, rfl⟩
  have hsub : ∀ i, (s.zoneVisit w).sub i = (s.lazyVisit w.subAt).sub i := fun _ => rfl
  refine h.carried k (fun i hl hc hne hx => ?_) fun v hv hv' => ?_
  · refine .inr ⟨_, hwalk, he, ?_⟩
    rcases hx with hx | ⟨v, hv, _, hle⟩
    · exact absurd hx hq
    · rw [hw'] at hv
      cases hv
      show w.cursor + 1 ≤ i.toNat
      refine Nat.lt_of_le_of_ne hle fun hi => hne ?_
      have hix : i = w.subAt := BitVec.eq_of_toNat_eq (by rw [← hi, subAt_toNat hlt])
      rw [hsub] at hl hc ⊢
      subst hix
      unfold State.lazyVisit at hl hc ⊢
      split
      · rename_i hlive
        rw [if_pos hlive] at hc
        exact lazy_settles s _ hc
      · rename_i hlive
        rw [if_neg hlive] at hl
        exact absurd hl hlive
  · have : (s.zoneVisit w).tw.queue = s.tw.queue := by simp [State.zoneVisit]
    rw [this]
    exact hq

/-- R137: the end of a ZONE walk, when every record has been visited. -/
theorem State.ZoneEpochsBounded.zoneEnd {w : Walk} (h : s.ZoneEpochsBounded) (hp : s.endingWalk = some w)
    (he : w.entry = .zone) : (s.zoneEnd w).ZoneEpochsBounded := by
  unfold State.endingWalk at hp
  obtain ⟨hw, hc⟩ := Option.filter_eq_some_iff.mp hp
  simp only [Bool.and_eq_true, Walk.visiting, Walk.size, he, Bool.not_eq_true', decide_eq_false_iff_not] at hc
  have hw' := State.walking_eq hw
  have k : s.Carries (s.zoneEnd w) := (State.Carries.refl s).of_eq rfl rfl rfl
  refine h.carried k (fun i _ _ _ hx => ?_) fun v hv _ => by cases hv
  rcases hx with hx | ⟨v, hv, _, hle⟩
  · exact absurd hx (h.2 w hw' he)
  · rw [hw'] at hv
    cases hv
    exact absurd (Nat.lt_of_le_of_lt hle i.isLt) hc.1

/-- R130: the start of a walk from the head of the queue. -/
theorem State.ZoneEpochsBounded.startWalk {e : WalkEntry} {rest : List WalkEntry} (h : s.ZoneEpochsBounded)
    (hd : s.WalkQueueDistinct) (hw : s.tw.walk = none) (hq : s.tw.queue = e :: rest) :
    ((s.setQueue rest).startWalk e).ZoneEpochsBounded := by
  have hs : s.NotZoning := fun w hx => by rw [hw] at hx; cases hx
  have k : s.Carries ((s.setQueue rest).startWalk e) := by
    refine (State.Carries.refl s).of_eq ?_ ?_ ?_ <;> cases e <;> simp [State.startWalk] <;> split <;> rfl
  by_cases he : e = .zone
  · subst he
    have hn : WalkEntry.zone ∉ rest := by
      have := hd
      rw [State.WalkQueueDistinct, hq] at this
      exact (List.nodup_cons.mp this).1
    refine h.carried k (fun i _ _ _ _ => .inr ⟨_, rfl, rfl, Nat.zero_le _⟩) fun _ _ _ => hn
  · refine h.of_other k hs (fun w hx => ?_) fun hx => ?_
    · cases e with
      | age => cases hx; simp [State.newWalk]
      | zone => exact absurd rfl he
      | recheck => cases hx; simp [State.newWalk]
      | repin l =>
        unfold State.startWalk at hx
        dsimp only at hx
        split at hx
        · cases hx
        · cases hx
          simp [State.newWalk]
    · rw [hq] at hx
      have hr : WalkEntry.zone ∈ rest := by
        rcases List.mem_cons.mp hx with hx | hx
        · exact absurd hx.symm he
        · exact hx
      have : ((s.setQueue rest).startWalk e).tw.queue = rest := by
        cases e with
        | age => rfl
        | zone => rfl
        | recheck => rfl
        | repin l =>
          unfold State.startWalk
          dsimp only
          split <;> rfl
      rw [this]
      exact hr

end Sys2Proof.Machine
end

