-- ==== Sys2Proof/WellFormed.lean ====
section
/-! DEFINITION. Which commands are well formed: the four write rows name transactions of their own kind; every other
command is well formed by its type. -/

namespace Sys2Proof

open Machine

/-- A write row's transaction writes some byte and is that row's (R156, R158, R179; log 10). -/
def wellFormedWrite (row : WriteRow) (bytes : List Host.Cell) : Bool :=
  !bytes.isEmpty && writeRow bytes == row

def Instr.wellFormed : Instr → Bool
  | .stagingWrite bytes => wellFormedWrite .staging bytes
  | .requestSubmit bytes => wellFormedWrite .submit bytes
  | .responseRelease bytes => wellFormedWrite .release bytes
  | .ignoredWrite bytes => wellFormedWrite .ignored bytes
  | .powerOnReset | .initializationComplete | .dispatch _ | .attach _ | .detach _ | .subFind _ | .subRead _
  | .subUpdate _ | .grant _ | .settle _ | .usagePost _ | .flowOpen _ | .flowClose _ | .flowFind _ | .charge _
  | .flowRead _ | .flowUpdate _ | .linkReport _ | .enable _ | .disable _ | .drain _ | .inject _ | .snapshot _
  | .linkConfig _ | .linkRead _ | .drainedNotice _ | .zoneChange _ | .zoneDefine _ | .zoneRead _
  | .agreementSet _ | .agreementRemove _ | .agreementFind _ | .tariffSet _ | .tariffRead _ | .age _
  | .walkStatus _ | .walkAbort _ | .noticeFetch _ | .deviceStatus _ | .deviceConfig _ | .channelStatus _
  | .clearFault _ | .channelSet _ | .channelReset _ | .softReset _ | .softResetClearing _ | .softResetComplete
  | .shipSecondAdvance | .grantDeadlineExpiry | .staleExpiry _ | .autoSnapshot _ | .ageExpiry | .walkStart
  | .agePass1Visit | .agePass2Visit | .ageWalkEnd | .zoneVisit | .zoneWalkEnd | .recheckVisit | .recheckWalkEnd
  | .repinVisit | .repinWalkEnd | .unwindStep | .endOfUnwinding | .resetNRelease => true

end Sys2Proof
end

