-- ==== Sys2Proof/Tests/Slice0.lean ====
section
/-! SUPPORT. Checks of the model on words and states written out from the manual, and for each statement a state and
operands that meet its hypotheses. -/

namespace Sys2Proof.Machine

/-! ## Well-formed commands -/

/-- An empty transaction, and transactions of another row, are refused for each of the four write rows. -/
theorem test_wellFormed_stagingWrite : (Instr.stagingWrite []).wellFormed = false ∧
    (Instr.stagingWrite [(0x000, 1)]).wellFormed = false ∧ (Instr.stagingWrite [(0x004, 1)]).wellFormed = true := by
  decide

theorem test_wellFormed_requestSubmit : (Instr.requestSubmit []).wellFormed = false ∧
    (Instr.requestSubmit [(0x204, 1)]).wellFormed = false ∧ (Instr.requestSubmit [(0x1C3, 1)]).wellFormed = true := by
  decide

theorem test_wellFormed_responseRelease : (Instr.responseRelease []).wellFormed = false ∧
    (Instr.responseRelease [(0x204, 1)]).wellFormed = false ∧
    (Instr.responseRelease [(0x3C0, 1)]).wellFormed = true := by
  decide

theorem test_wellFormed_ignoredWrite : (Instr.ignoredWrite []).wellFormed = false ∧
    (Instr.ignoredWrite [(0x200, 1)]).wellFormed = false ∧
    (Instr.ignoredWrite [(0x204, 1), (0x400, 2)]).wellFormed = true := by
  decide

/-! ## The manual's examples -/

/-- Chapter 1: tag 0x2000000000400803 lies in bucket 7. -/
theorem test_subBucket : subBucket 0x2000000000400803 = 7 := by
  decide

/-- Section 2.3: the key worked there lies in bucket 3381. -/
theorem test_flowBucket : flowBucket ⟨77, 0x0A000005, 443, 50000, 6⟩ = 3381 := by
  decide

/-! ## Request messages, their words written out from R180 -/

theorem test_message_attach :
    (Message.mk [0xBEEF0501, 0x89ABCDEF, 0x01234567, 0x00002A11, 0x00C0FFEE] false).request =
      some (.attach 0x0123456789ABCDEF 1 true 42 0xC0FFEE) := by
  decide

theorem test_message_detach :
    (Message.mk [0xBEEF0202, 0x005D0ABC] false).request =
      some (.detach { index := 0xABC, stamp := 0x5D } none) := by
  decide

theorem test_message_detach_guarded :
    (Message.mk [0xBEEF2402, 0x00008408, 0xF0F0F0F0, 0x005D0ABC] false).request =
      some (.detach { index := 0xABC, stamp := 0x5D } (some ⟨.userWord, .anyBits, true, 0xF0F0F0F0⟩)) := by
  decide

theorem test_message_subFind :
    (Message.mk [0xBEEF0303, 0x00000001, 0x00000002] false).request =
      some (.subFind 0x0000000200000001) := by
  decide

theorem test_message_subRead :
    (Message.mk [0xBEEF0304, 0x005D0ABC, 0x00003F02] false).request =
      some (.subRead { index := 0xABC, stamp := 0x5D } none .flows 63) := by
  decide

theorem test_message_subUpdate :
    (Message.mk [0xBEEF0405, 0x005D0ABC, 0x00000010, 0x12345678] false).request =
      some (.subUpdate { index := 0xABC, stamp := 0x5D } none .userWord .addSat 0x12345678) := by
  decide

theorem test_message_grant :
    (Message.mk [0xBEEF0406, 0x005D0ABC, 0x00000007, 0x00000009] false).request =
      some (.grant { index := 0xABC, stamp := 0x5D } none 7 9) := by
  decide

theorem test_message_settle :
    (Message.mk [0xBEEF0307, 0x005D0ABC, 0x00000003] false).request =
      some (.settle { index := 0xABC, stamp := 0x5D } none .both) := by
  decide

theorem test_message_usagePost :
    (Message.mk [0xBEEF0508, 0x005D0ABC, 0x00000003, 0xFFFFFFFF, 0x00000005] false).request =
      some (.usagePost { index := 0xABC, stamp := 0x5D } 3 0xFFFFFFFF 5) := by
  decide

theorem test_message_flowOpen :
    (Message.mk [0xBEEF0810, 0x005D0ABC, 0x0A000005, 0x00000000, 0x00000000, 0x20010DB8, 0xC35001BB, 0x00010206] false).request =
      some (.flowOpen { index := 0xABC, stamp := 0x5D } 0x20010DB800000000000000000A000005 443 50000 6 2 true) := by
  decide

theorem test_message_flowClose :
    (Message.mk [0xBEEF0211, 0x005D2ABC] false).request =
      some (.flowClose { index := 0x2ABC, stamp := 0x5D } none) := by
  decide

theorem test_message_flowFind :
    (Message.mk [0xBEEF0812, 0x00000ABC, 0x0A000005, 0x00000000, 0x00000000, 0x00000000, 0xC35001BB, 0x00000006] false).request =
      some (.flowFind ⟨0xABC, 0x0A000005, 443, 50000, 6⟩) := by
  decide

theorem test_message_charge :
    (Message.mk [0xBEEF0313, 0x005D2ABC, 0x000305DC] false).request =
      some (.charge { index := 0x2ABC, stamp := 0x5D } 1500 3) := by
  decide

theorem test_message_flowRead_guarded :
    (Message.mk [0xBEEF2414, 0x00000002, 0x00000008, 0x005D2ABC] false).request =
      some (.flowRead { index := 0x2ABC, stamp := 0x5D } (some ⟨.pin, .eq, false, 8⟩)) := by
  decide

theorem test_message_flowUpdate :
    (Message.mk [0xBEEF0415, 0x005D2ABC, 0x00000001, 0x00000002] false).request =
      some (.flowUpdate { index := 0x2ABC, stamp := 0x5D } none .cls .set 2) := by
  decide

theorem test_message_linkReport :
    (Message.mk [0xBEEF0220, 0x00C03F07] false).request =
      some (.linkReport 7 63 192) := by
  decide

theorem test_message_linkAdmin :
    (Message.mk [0xBEEF0221, 0x00000403] false).request =
      some (.linkAdmin 3 .snapshot) := by
  decide

theorem test_message_linkConfig :
    (Message.mk [0xBEEF0522, 0x00000005, 0x3C401F3F, 0x00A540C8, 0x00000702] false).request =
      some (.linkConfig 5 ⟨63, 15, .steady, 64, 60, 200, 64, true, false, true, 10, some 2, .all, .both, .auto⟩ 2) := by
  decide

theorem test_message_linkRead :
    (Message.mk [0xBEEF0223, 0x0000000F] false).request =
      some (.linkRead 15) := by
  decide

theorem test_message_zoneChange :
    (Message.mk [0xBEEF0230, 0x0001001F] false).request =
      some (.zoneChange 31 true) := by
  decide

theorem test_message_zoneDefine :
    (Message.mk [0xBEEF0231, 0x00030105] false).request =
      some (.zoneDefine 5 1 3) := by
  decide

theorem test_message_zoneRead :
    (Message.mk [0xBEEF0232, 0x000000FF] false).request =
      some (.zoneRead 255) := by
  decide

theorem test_message_agreementSet :
    (Message.mk [0xBEEF0333, 0x01ABCDEF, 0xFF3F0201] false).request =
      some (.agreementSet 0xABCDEF 1 1 2 63 255) := by
  decide

theorem test_message_agreementRemove :
    (Message.mk [0xBEEF0234, 0x00ABCDEF] false).request =
      some (.agreementRemove 0xABCDEF) := by
  decide

theorem test_message_agreementFind :
    (Message.mk [0xBEEF0235, 0x01ABCDEF] false).request =
      some (.agreementFind 0xABCDEF true) := by
  decide

theorem test_message_tariffSet :
    (Message.mk [0xBEEF0836, 0x401E0505, 0x00000001, 0x00000002, 0x00000003, 0x00000004, 0x00000005, 0x00000006] false).request =
      some (.tariffSet 5 ⟨1, 2, .redirect, 30, .block, 3, 4, true, 5, 6, 64⟩) := by
  decide

theorem test_message_tariffRead :
    (Message.mk [0xBEEF0237, 0x00000040] false).request =
      some (.tariffRead 64) := by
  decide

theorem test_message_age :
    (Message.mk [0xBEEF0140] false).request =
      some .age := by
  decide

theorem test_message_walkStatus :
    (Message.mk [0xBEEF0241, 0x00000001] false).request =
      some (.walkStatus .summaries) := by
  decide

theorem test_message_walkAbort :
    (Message.mk [0xBEEF0242, 0x0000FF03] false).request =
      some (.walkAbort .repin 255) := by
  decide

theorem test_message_noticeFetch :
    (Message.mk [0xBEEF0250, 0x00000004] false).request =
      some (.noticeFetch .any) := by
  decide

theorem test_message_deviceStatus :
    (Message.mk [0xBEEF0151] false).request =
      some .deviceStatus := by
  decide

theorem test_message_deviceConfig :
    (Message.mk [0xBEEF0352, 0x00015180, 0x00000001] false).request =
      some (.deviceConfig 86400 true) := by
  decide

theorem test_message_channelStatus :
    (Message.mk [0xBEEF0260, 0x00000008] false).request =
      some (.channelStatus 8) := by
  decide

theorem test_message_clearFault :
    (Message.mk [0xBEEF0161] false).request =
      some .clearFault := by
  decide

theorem test_message_channelSet :
    (Message.mk [0xBEEF0262, 0x00010306] false).request =
      some (.channelSet 6 .billing true) := by
  decide

theorem test_message_channelReset :
    (Message.mk [0xBEEF0263, 0x00000007] false).request =
      some (.channelReset 7) := by
  decide

theorem test_message_softReset :
    (Message.mk [0xBEEF0164] false).request =
      some .softReset := by
  decide

/-- R161: an unknown kind, a count that does not fit, a reserved bit, a guard where none is taken, a guard of four
missing words, a code without a name, and an unfitting count are MALFORMED. -/
theorem test_message_malformed :
    (Message.mk [0x00000109] false).request = none ∧ (Message.mk [0x00000340, 0, 0] false).request = none ∧
      (Message.mk [0x00004140] false).request = none ∧ (Message.mk [0x00000202, 0x00001000] false).request = none ∧
      (Message.mk [0x00002513, 0, 0, 0, 0x00000001] false).request = none ∧
      (Message.mk [0x00002202, 0x00000000] false).request = none ∧
      (Message.mk [0x00000307, 0, 0] false).request = none ∧ (Message.mk [0x00000150] true).request = none ∧
      (Message.mk [0x00002402, 0x00000009, 0, 0] false).request = none ∧
      (Message.mk [0x00002402, 0x00000500, 0, 0] false).request = none := by
  decide

/-! ## Answers, their words written out from R181 -/

/-- The part after reset, released and READY. -/
def up : State := { State.reset with resetHeld := false, al := { State.reset.al with ready := true } }

/-- Request `r` is outstanding on channel `ch`, with tag 7. -/
def State.asks (s : State) (ch : Chan) (r : Request) : State :=
  s.setChan ch { s.chan ch with outstanding := some { tag := 7, request := r, discard := false } }

/-- A live passenger with tariff 0 and no credit. -/
def passenger : SubRecord :=
  { SubRecord.powerOn with tag := 0x2000000000400803, state := .attached, tariff := some 0, stamp := 17 }

theorem test_answer_header_and_status :
    (Answer.mk 0x36 0xBEEF ⟨.late, ⟨true, false, true, false⟩, { forced := true, definedNew := true }, [5, 6]⟩).words =
      [0xBEEF0436, 0x00480501, 5, 6] := by
  decide

theorem test_answer_status_flags :
    (Answer.mk 0x61 1 ⟨.nothing, ⟨false, true, false, true⟩, ⟨true, true, true, false, true, true, false⟩, []⟩).words =
      [0x00010261, 0x00370A12] := by
  decide

def charged30 : SubRecord :=
  { passenger with
    current := { bytes := 0x1234567890, seconds := 7, mixed := true }
    closed := some { zone := 21, usage := { bytes := 0xAB00000001, seconds := 8, mixed := true } }
    closeHeld := true, overdraftUsed := true, exhaustedNoted := false, so := true, byteAllowance := 11
    secondsAllowance := 12, byteOverrun := 13, secondsOverrun := 14, grant := .requested 99, ratingZone := 25 }

theorem test_answer_subRead_charging :
    (up.setSub 30 charged30).chargingBody 30 =
      [0x0011001E, 0x000B1571, 0x34567890, 0x12, 7, 0x00000001, 0xAB, 8, 11, 12, 13, 14, 99] := by
  decide

theorem test_answer_settle :
    settleBody ⟨30, 17⟩ .unsettled charged30.closed (some { zone := 25, usage := charged30.current }) =
      [0x0011001E, 0x39350304, 0x00000001, 0xAB, 8, 0x34567890, 0x12, 7] := by
  decide

def linkSample : LinkRecord :=
  { LinkRecord.powerOn 5 with
    config := ⟨63, 15, .steady, 64, 60, 200, 64, true, false, true, 10, some 2, .all, .onset, .auto⟩
    state := .lost, badRun := 3, goodRun := 250, lastQuality := 42, lastOccupancy := 17, deadline := some 77
    degrade := 1000, saturated := true, peak := 99
    snapshot := { degrade := 2000, saturated := true, peak := 98, taken := 55 }
    repin := { moved := 300, held := 400, aborted := true, completed := 66 } }

theorem test_answer_linkRead :
    ((((up.setLink 5 linkSample).setPinned 5 12).raise (.link 5) .state).raise (.link 5) .repinDone).linkReadBody 5 =
      [0x3C401F3F, 0x00A540C8, 0x00000502, 0x2AFA03E3, 0x00626311, 0x07D003E8, 77, 55, 0x0190012C, 66, 0x00000900,
        12] := by
  decide

def walkSample (e : WalkEntry) (pass : Bool) : State :=
  { up with
    tw := { up.tw with
      queue := [.age, .repin 6, .zone, .recheck, .repin 0]
      walk := some {
        entry := e, flowPass := pass, cursor := 4095, started := 50, zone := 0, zoneEpoch := 0, policyEpoch := 0
        counts := ⟨1, 2, 3, 4, 5, 6, 7, 8, 9⟩ } }
    al := { up.al with ageInterval := 60, ageDeadline := some 70 } }

theorem test_answer_walker_age :
    (walkSample .age true).walkerBody =
      [0x05180803, 4095, 50, 0x00020001, 0, 0x82816380, 0x00000003, 0, 60, 70] := by
  decide

theorem test_answer_walker_zone :
    (walkSample .zone false).walkerBody =
      [0x05180811, 4095, 50, 0x00040003, 5, 0x82816380, 0x00000003, 0, 60, 70] := by
  decide

theorem test_answer_walker_recheck :
    (walkSample .recheck false).walkerBody =
      [0x05180821, 4095, 50, 0x00050006, 0x00040007, 0x82816380, 0x00000003, 0, 60, 70] := by
  decide

theorem test_answer_walker_repin :
    (walkSample (.repin 3) false).walkerBody =
      [0x05180331, 4095, 50, 0x00090008, 0, 0x82816380, 0x00000003, 0, 60, 70] := by
  decide

def summarySample : State :=
  { up with tw := { up.tw with
    ageSummary := ⟨1, 2, 3, 4⟩, zoneSummary := ⟨5, 6, 7, 8, 9, 10⟩, recheckSummary := ⟨11, 12, 13, 14, 15, 16⟩ } }

theorem test_answer_summaries :
    summarySample.summariesBody =
      [0x00020001, 3, 4, 0x00060005, 0x00080007, 9, 10, 11, 0x000D000C, 0x000F000E, 16] := by
  decide

def noticeSample : State :=
  let s : State := (((up.setSub 30 charged30).raise (.subscriber 30) .closeHeld).raise (.link 5) .congestion).raise
    .walker .ageDone
  { s.raise .device .channelOverrun with
    al := { (s.raise .device .channelOverrun).al with
      overrunBitmap := 0x81, interruptEnable := true, count := 1000, ageInterval := 60, ageDeadline := some 1060 }
    stc := { s.stc with unwind := [1, 2], deadlines := [30], closedCount := 3 } }

theorem test_answer_notice_subscriber :
    noticeSample.noticeBody ⟨.subscriber 30, Cause.closeHeld.mask⟩ 3 =
      [0x00000010, 0x0011001E, 0x00000040, 0x00030000] := by
  decide

theorem test_answer_notice_device :
    noticeSample.noticeBody ⟨.device, Cause.channelOverrun.mask⟩ 4096 =
      [0x00000003, 0, 0x02000000, 0x10000081] := by
  decide

theorem test_answer_deviceStatus :
    noticeSample.deviceStatusBody =
      [1000, 0x00008103, 60, 1060, 0x00010004, 0x00000301, 0x02000000, 3, 0x00010002] := by
  decide

theorem test_answer_tariffRead :
    (TariffRecord.mk true ⟨1, 2, .redirect, 30, .overdraft, 3, 4, false, 5, 6, 64⟩).words =
      [0x401E0301, 1, 2, 3, 4, 5, 6] := by
  decide

def flowSample : FlowRecord :=
  { FlowRecord.powerOn with
    key := ⟨30, 0x20010DB800000000000000000A000005, 443, 50000, 6⟩, stamp := 9, state := .opened 5
    cls := .interactive, owner := ⟨30, 17⟩, mark := 2, userWord := 0xFEED }

theorem test_answer_flowFind :
    (up.setFlow 13524 flowSample).flowFindBody 13524 =
      [0x000934D4, 0x00000521, 0x0011001E] := by
  decide

theorem test_answer_flowRead :
    flowSample.readBody =
      [30, 0x0A000005, 0, 0, 0x20010DB8, 0xC35001BB, 6, 1, 2, 0x0011001E, 5, 2, 0xFEED] := by
  decide

theorem test_answer_flowOpen :
    (up.setFlow 13524 flowSample).openedBody 13524 (some ⟨7, 1⟩) (some ⟨8, 2⟩) =
      [0x000934D4, 0x00220501, 0x00010007, 0x00020008] := by
  decide

theorem test_answer_zoneChange :
    State.zoneChangeBody { up with zas := { up.zas with currentZone := 31, zoneEpoch := 4, policyEpoch := 5 } } 6 =
      [31, 0x00050004, 6] := by
  decide

theorem test_answer_causes :
    [Cause.grantNeeded, .grantTimeout, .exhausted, .unsettled, .roamBarred, .roamCleared, .closeHeld, .state,
      .congestion, .counterSaturated, .repinDone, .ageDone, .zoneDone, .recheckDone, .ready,
      .channelOverrun].map Cause.mask =
      [0x00000001, 0x00000002, 0x00000004, 0x00000008, 0x00000010, 0x00000020, 0x00000040, 0x00000100, 0x00000200,
        0x00000400, 0x00000800, 0x00010000, 0x00020000, 0x00040000, 0x01000000, 0x02000000] := by
  decide

/-! ## States and operands that meet the hypotheses of the statements, clause by clause -/

def h30 : SubHandle := ⟨30, 17⟩
def h77 : SubHandle := ⟨77, 4⟩
def f24 : FlowHandle := ⟨13524, 9⟩
def tag30 : Tag := 0x2000000000400803
def key77 : FlowKey := ⟨77, 0x0A000005, 443, 50000, 6⟩

/-- Record 30, in bucket 7. -/
def has30 (r : SubRecord) : State := up.setSub 30 r

theorem witness_StepRunsTheFrontCommand :
    ({ up with pending := [.age 5, .walkStart] } : State).pending = .age 5 :: [.walkStart] ∧ up.pending = [] := by
  decide

/-- Channels 2 and 5 wait at the STC, and channel 3 was granted last: channel 5 is granted. -/
theorem witness_ClaimsComeAboutInRotation :
    let s : State := ((up.asks 5 (.subFind 0)).asks 2 (.subFind 1)).grantTo .stc 3
    s.claim .stc 5 = some (.subFind 0) ∧ s.claim .stc 2 = none ∧ s.claim .ftc 5 = none ∧
      ({ s with resetHeld := true } : State).claim .stc 5 = none := by
  decide

theorem witness_StartUp :
    let s : State := { State.reset with resetHeld := false }
    s.resetHeld = false ∧ s.al.ready = false := by
  decide

theorem witness_NothingElseHappensInInit :
    (State.reset.resetHeld = true ∨ State.reset.al.ready = false) ∧
      (∀ ch b, State.reset.ci.softReset ≠ .clearing ch b) ∧
      ((State.reset.releaseReset.asks 4 .age).resetHeld = true ∨
        (State.reset.releaseReset.asks 4 .age).al.ready = false) ∧
      ∀ ch b, (State.reset.releaseReset.asks 4 .age).ci.softReset ≠ .clearing ch b := by
  decide

/-- Does the transaction cover a byte of word 0 of channel `ch`'s area, in the window at `base`? -/
def covers (base : Nat) (bytes : List Host.Cell) (ch : Chan) : Bool :=
  bytes.any fun b => decide (base + 0x040 * ch.val ≤ b.1 ∧ b.1 ≤ base + 0x040 * ch.val + 3)

/-- The last byte of a response word 0 and the bytes on both sides of it; the ends of the windows. -/
theorem witness_WritesThatSubmitNothing :
    let none (base : Nat) (bytes : List Host.Cell) : Prop := ∀ ch, covers base bytes ch = false
    State.reset.resetHeld = true ∧ up.resetHeld = false ∧
    (none 0 [(0x004, 1), (0x1FF, 2)] ∧ none 0x200 [(0x004, 1), (0x1FF, 2)] ∧ 0x1FF < 0x200) ∧
    (none 0 [(0x03F, 1), (0x3C3, 2)] ∧ covers 0x200 [(0x03F, 1), (0x3C3, 2)] 7 = true) ∧
    (none 0 [(0x204, 1), (0x3C4, 2), (0x400, 3)] ∧ none 0x200 [(0x204, 1), (0x3C4, 2), (0x400, 3)]) := by
  decide

/-- A submission to a FIFO of 15 and to one of 16, by the last byte of channel 7's word 0; headers of count 0, 1, 16
and 17. -/
theorem witness_SubmissionsJoinOrOverrun :
    let full (n : Nat) : State :=
      up.setChan 7 { up.chan 7 with requests := List.replicate n { words := [0], unfitting := true } }
    let count (w : Word) : Nat := (({ up.chan 0 with staging := (up.chan 0).staging.set 0 w } :
      ChannelRecord).staging[0].extractLsb' 8 5).toNat
    State.reset.resetHeld = true ∧ (full 15).resetHeld = false ∧ (full 16).resetHeld = false ∧
      covers 0 [(0x1C3, 1)] 7 = true ∧ ((full 15).chan 7).requests.length < 16 ∧
      16 ≤ ((full 16).chan 7).requests.length ∧
      count 0x0000 = 0 ∧ count 0x0100 = 1 ∧ count 0x1000 = 16 ∧ count 0x1100 = 17 := by
  decide

/-- One message waits on channel `ch`. -/
def posts (ch : Chan) (words : List Word) : State :=
  up.setChan ch { up.chan ch with requests := [{ words := words, unfitting := false }] }

def State.ready (s : State) (ch : Chan) (words : List Word) : Bool :=
  !s.resetHeld && s.al.ready && s.ci.softReset == .idle && (s.chan ch).outstanding == none &&
    (s.chan ch).requests == [{ words := words, unfitting := false }] &&
    (({ words := words, unfitting := false } : Message).kind == 0x08 || decide ((s.chan ch).responses.length < 16))

/-- A message that passes, one of bad form, one not permitted, one held back by a fault, and posted ones with a full
response FIFO. -/
theorem witness_DispatchMakesTheCiChecks :
    let m (words : List Word) : Message := { words := words, unfitting := false }
    let fault (s : State) (ch : Chan) : State :=
      s.setChan ch { s.chan ch with pendingFault := some ⟨.staleHandle, 0x08, 1⟩ }
    let filled (s : State) (ch : Chan) : State :=
      s.setChan ch { s.chan ch with responses := List.replicate 16 ⟨0x40, 1, .plain .ok []⟩ }
    ((posts 4 [0x00000140]).ready 4 [0x00000140] = true ∧ ((posts 4 [0x00000140]).chan 4).pendingFault = none ∧
      (m [0x00000140]).request = some .age ∧ permitted ((posts 4 [0x00000140]).chan 4).ownerClass 4 .age = true) ∧
    ((m [0x0000017F]).request = none ∧ (posts 4 [0x0000017F]).ready 4 [0x0000017F] = true) ∧
    (permitted ((posts 0 [0x00000140]).chan 0).ownerClass 0 .age = false ∧
      (posts 0 [0x00000140]).ready 0 [0x00000140] = true) ∧
    ((fault (posts 0 [0x00000123, 0]) 0).ready 0 [0x00000123, 0] = true ∧ (m [0x00000123, 0]).kind ≠ 0x60) ∧
    ((fault (posts 0 [0x00000161]) 0).ready 0 [0x00000161] = true ∧ (m [0x00000161]).kind = 0x61) ∧
    ((filled (posts 0 [0x00000108]) 0).ready 0 [0x00000108] = true ∧ (m [0x00000108]).kind = 0x08) := by
  refine ⟨⟨?_, ?_, ?_, ?_⟩, ⟨?_, ?_⟩, ⟨?_, ?_⟩, ⟨?_, ?_⟩, ⟨?_, ?_⟩, ?_, ?_⟩ <;> decide

theorem witness_PostedFailuresAreHeldOrCounted :
    let c := up.chan 0
    let busy (discard : Bool) : ChannelRecord :=
      { c with outstanding := some { tag := 1, request := .usagePost h30 3 1 1, discard := discard } }
    (c.quiet = false ∧ c.pendingFault = none) ∧ ({ c with quiet := true } : ChannelRecord).quiet = true ∧
      ({ c with pendingFault := some ⟨.malformed, 8, 1⟩ } : ChannelRecord).pendingFault ≠ none ∧
      (busy true).outstanding.map Outstanding.discard = some true ∧
      (busy false).outstanding.map Outstanding.discard = some false := by
  decide

theorem witness_ChannelAdministration :
    (up.asks 7 .clearFault).claim .ci 7 = some .clearFault ∧
    ((up.asks 7 (.channelSet 7 .supervisor true)).claim .ci 7 = some (.channelSet 7 .supervisor true) ∧
      (7 : BitVec 8).toNat = (7 : Chan).val ∧ (up.chan 7).quiet ≠ true) ∧
    ((up.asks 7 (.channelSet 0 .cell false)).claim .ci 7 = some (.channelSet 0 .cell false) ∧
      (up.chan 0).ownerClass ≠ .cell) ∧
    (up.asks 7 (.channelReset 7)).claim .ci 7 = some (.channelReset 7) ∧
    (up.asks 7 (.channelReset 0)).claim .ci 7 = some (.channelReset 0) ∧
    ((up.asks 7 (.channelSet 8 .cell false)).claim .ci 7 = some (.channelSet 8 .cell false) ∧
      8 ≤ (8 : BitVec 8).toNat) ∧
    (up.asks 7 (.channelSet 7 .cell false)).claim .ci 7 = some (.channelSet 7 .cell false) ∧
    ((up.asks 7 (.channelSet 6 .billing false)).claim .ci 7 = some (.channelSet 6 .billing false) ∧
      (up.chan 6).ownerClass = .billing ∧ (up.chan 6).quiet = false) ∧
    (up.asks 7 (.channelReset 255)).claim .ci 7 = some (.channelReset 255) := by
  decide

theorem witness_SoftResetClearsTheTables :
    let s := up.asks 7 .softReset
    (s.claim .ci 7 = some .softReset ∧ s.ci.softReset = .idle) ∧
    (let t := (s.asks 4 .age).setPhase (.waiting 7);
      t.ci.softReset ≠ .idle ∧ t.ci.softReset = .waiting 7 ∧
        (t.chan 4).outstanding.map Outstanding.request = some .age) ∧
    (let t := s.setPhase (.waiting 7);
      t.TablesCanonical ∧ t.resetHeld = false ∧ t.al.ready = true ∧ t.ci.softReset = .waiting 7 ∧
        ∀ c : Chan, ∀ out ∈ (t.chan c).outstanding, out.request = .softReset) ∧
    (let t := s.setPhase (.clearing 7 true);
      t.ci.softReset = .clearing 7 true ∧ (t.chan 7).outstanding.map Outstanding.request = some .softReset) := by
  unfold State.TablesCanonical
  decide

/-- Every guardable request but the reads, with a stale handle of a VACANT record and of another stamp, and with a false
guard. -/
theorem witness_HandleAndGuardStopARequest :
    let g : SubGuard := ⟨.state, .eq, false, 2⟩
    let fg : FlowGuard := ⟨.pin, .eq, false, 8⟩
    let f : State := up.setFlow 13524 flowSample
    let asked (s : State) (o : Owner) (q : Request) : Prop := (s.asks 7 q).claim o 7 = some q
    ((up.sub 30).state = .vacant ∧ ((has30 passenger).sub 30).stamp ≠ 18 ∧ ((has30 passenger).sub 30).state ≠ .vacant ∧
      ((has30 passenger).sub 30).stamp = h30.stamp ∧ g.passes (g.field.value ((has30 passenger).sub 30)) = false) ∧
    (∀ q ∈ [Request.detach h30 (some g), .grant h30 (some g) 1 1, .settle h30 (some g) .both,
      .subUpdate h30 (some g) .permanent .set 1], asked (has30 passenger) .stc q ∧ asked up .stc q) ∧
    asked (has30 passenger) .stc (.detach ⟨30, 18⟩ none) ∧
    SubField.accepts .permanent .set 1 = true ∧ FlowField.accepts .cls .set 3 = true ∧
    ((up.flow 13524).state = .vacant ∧ (f.flow 13524).state ≠ .vacant ∧ (f.flow 13524).stamp = f24.stamp ∧
      fg.passes (fg.field.value (f.flow 13524)) = false) ∧
    ∀ q ∈ [Request.flowClose f24 (some fg), .flowUpdate f24 (some fg) .cls .set 3],
      asked f .ftc q ∧ asked up .ftc q := by
  decide

/-- A charge of the whole allowance, and one of a byte more. -/
theorem witness_ChargingArithmetic :
    let r := { passenger with byteAllowance := 100, secondsAllowance := 0 }
    100 ≤ r.byteAllowance.toNat ∧ r.byteAllowance.toNat < 101 ∧ 0 ≤ r.secondsAllowance.toNat ∧
      r.secondsAllowance.toNat < 1 := by
  decide

/-- One byte below the threshold; both allowances at their thresholds; and the three other ways of not asking. -/
theorem witness_LowCreditCheck :
    let low := { passenger with byteAllowance := 1048575, secondsAllowance := 60 }
    let level := { passenger with byteAllowance := 1048576, secondsAllowance := 60 }
    let terms (r : SubRecord) := (((has30 r).tariff 0).terms.lowBytes, ((has30 r).tariff 0).terms.lowSeconds)
    (low.state = .attached ∧ low.tariff = some 0 ∧ low.grant = .none ∧
      low.byteAllowance.toNat < (terms low).1.toNat) ∧
    ((terms level).1.toNat ≤ level.byteAllowance.toNat ∧ (terms level).2.toNat ≤ level.secondsAllowance.toNat) ∧
    { passenger with state := .roamBarred }.state ≠ .attached ∧ { passenger with tariff := none }.tariff = none ∧
    { passenger with grant := .timedOut }.grant ≠ .none := by
  decide

/-- A subscriber in each state, named by its handle. -/
theorem witness_states : ∀ x ∈ [SubState.attached, .roamBarred, .detaching, .unsettled],
    (has30 { passenger with state := x }).subOf h30 = some { passenger with state := x } := by
  decide

def noGuard : SubGuard := ⟨.state, .eq, false, 0⟩

/-- A GRANT in each state of a record, and one whose guard is false. -/
theorem witness_GrantAddsCredit : (∀ x ∈ [SubState.attached, .roamBarred, .detaching, .unsettled],
    let r := { passenger with state := x }
    ((has30 r).asks 6 (.grant h30 none 5 6)).claim .stc 6 = some (.grant h30 none 5 6) ∧
      ((has30 r).asks 6 (.grant h30 none 5 6)).subOf h30 = some r ∧ subGuardPasses none r = true) ∧
    (let s := (has30 passenger).asks 6 (.grant h30 (some noGuard) 5 6);
      s.claim .stc 6 = some (.grant h30 (some noGuard) 5 6) ∧ s.subOf h30 = some passenger ∧
        subGuardPasses (some noGuard) passenger = false) := by
  decide

/-- Empty parts; an occupied slot of a close-held record; the last usage of an UNSETTLED record. -/
theorem witness_SettleHandsUsageOver :
    let used : Usage := { bytes := 1, seconds := 0, mixed := false }
    let held := { passenger with closed := some { zone := 3, usage := used }, current := used, closeHeld := true }
    let last := { passenger with state := .unsettled, current := used }
    let meets (r : SubRecord) (p : SettlePart) : Prop :=
      ((has30 r).asks 6 (.settle h30 none p)).claim .stc 6 = some (.settle h30 none p) ∧
        ((has30 r).asks 6 (.settle h30 none p)).subOf h30 = some r ∧ subGuardPasses none r = true
    (meets passenger .both ∧ passenger.closed = none ∧ passenger.current.bytes = 0 ∧ passenger.current.seconds = 0) ∧
    (meets held .closed ∧ held.closed ≠ none) ∧ (meets last .current ∧ last.current.bytes ≠ 0) := by
  decide

/-- USAGE_POST of the highest class, of a class one above it, and with a stale handle. -/
theorem witness_UsagePostChargesOrIsRecorded :
    let s (code : BitVec 3) : State := (has30 passenger).asks 0 (.usagePost h30 code 1 1)
    ((s 3).claim .stc 0 = some (.usagePost h30 3 1 1) ∧ (s 3).subOf h30 = some passenger ∧
      flowClass 3 = some .bulk) ∧
    ((s 4).claim .stc 0 = some (.usagePost h30 4 1 1) ∧ ((s 4).sub 30).state ≠ .vacant ∧
      ((s 4).sub 30).stamp = h30.stamp ∧ 4 ≤ (4 : BitVec 3).toNat) ∧
    ((up.asks 0 (.usagePost h30 3 1 1)).claim .stc 0 = some (.usagePost h30 3 1 1) ∧ (up.sub 30).state = .vacant) := by
  decide

/-- An expiry under a BLOCK tariff, an OVERDRAFT tariff, and with the overdraft used. -/
theorem witness_GrantDeadlineExpiryTimesOut :
    let due (r : SubRecord) (a : NoAnswerAction) : State :=
      let s := (has30 { r with grant := .requested 0 }).setTariff 0
        { defined := true, terms := { TariffTerms.powerOn with noAnswer := a } }
      { s with stc := { s.stc with deadlines := [30] } }
    ∀ a ∈ [NoAnswerAction.block, .overdraft], ∀ u ∈ [false, true],
      (due { passenger with overdraftUsed := u } a).running = true ∧
      (due { passenger with overdraftUsed := u } a).stc.deadlines = [30] ∧
      ((due { passenger with overdraftUsed := u } a).sub 30).grant =
        .requested (due { passenger with overdraftUsed := u } a).al.count ∧
      ((due { passenger with overdraftUsed := u } a).tariff 0).terms.noAnswer = a := by
  decide

/-- Lookups find the record of the manual's bucket, and the first VACANT way. -/
theorem witness_LookupsSearchOneBucket :
    (has30 passenger).findTag tag30 = some 30 ∧ (has30 passenger).vacantSub tag30 = some 28 ∧
      up.findTag tag30 = none ∧ (up.setFlow 13526 { flowSample with key := key77 }).findKey key77 = some 13526 ∧
      (up.setFlow 13524 flowSample).vacantFlow key77 = some 13525 := by
  decide

/-- Tariff `k` under every zone class for operator `code`. -/
def agreement (code : Operator) (active : Bool) (k : TariffIx) : Agreement :=
  { code := code, active := active, tariff0 := some k, tariff1 := some k, tariff2 := some k, tariff3 := some k }

def agreed (l : List Agreement) : State := up.setAgreements l

theorem witness_RecheckDecidesRoaming :
    let l := [agreement 5 false 0, agreement 6 true 1]
    (∀ a ∈ (agreed l).zas.agreements, a.code ≠ 7) ∧
    ((agreed l).zas.agreements = [agreement 5 false 0] ++ agreement 6 true 1 :: [] ∧
      (∀ b ∈ [agreement 5 false 0], b.code ≠ 6)) ∧
    ((agreed l).zas.agreements = [] ++ agreement 5 false 0 :: [agreement 6 true 1]) ∧
    (agreed l).currentClass = 0 ∧ (agreed l).outcome 6 = some 1 ∧ passenger.tariff ≠ some 1 ∧
    ((up.setTariff 1 { defined := true, terms := { TariffTerms.powerOn with carry := false } }).tariff
      1).terms.carry = false := by
  decide

/-- The five branches of lazy processing. -/
theorem witness_LazyProcessingByEpochs :
    let s : State := { up with zas := { up.zas with zoneEpoch := 1, policyEpoch := 1 } }
    let slot : ClosedSlot := { zone := 0, usage := .zero }
    { passenger with closeHeld := true }.closeHeld = true ∧
    (passenger.closeHeld = false ∧ passenger.zoneEpoch ≠ s.zas.zoneEpoch ∧
      { passenger with closed := some slot }.closed ≠ none ∧ passenger.closed = none) ∧
    ({ passenger with zoneEpoch := 1 }.zoneEpoch = s.zas.zoneEpoch ∧ passenger.policyEpoch ≠ s.zas.policyEpoch) ∧
    { passenger with policyEpoch := 1 }.policyEpoch = s.zas.policyEpoch := by
  decide

theorem witness_AttachCreatesARecord :
    let r : Request := .attach tag30 1 false 0 9
    (up.asks 4 r).claim .stc 4 = some r ∧ subClass 1 = some .crew ∧ ((up.asks 4 r).tariff 0).defined = true ∧
      (up.asks 4 r).findTag tag30 = none ∧ (up.asks 4 r).vacantSub tag30 = some 28 := by
  decide

/-- Bucket 7 with four live records of other tags. -/
def fullBucket : State :=
  (((up.setSub 28 { passenger with tag := 1 }).setSub 29 { passenger with tag := 2 }).setSub 30
    { passenger with tag := 3 }).setSub 31 { passenger with tag := 4 }

theorem witness_AttachWithoutCreation :
    let r : Request := .attach tag30 0 false 0 9
    let crew : Request := .attach tag30 1 false 63 9
    (∀ x ∈ [SubState.attached, .roamBarred, .detaching, .unsettled],
      ((has30 { passenger with state := x }).asks 4 r).claim .stc 4 = some r ∧
      ((has30 { passenger with state := x }).asks 4 r).findTag tag30 = some 30 ∧
      (((has30 { passenger with state := x }).asks 4 r).sub 30).state = x) ∧
    subClass 0 = some .passenger ∧ SubClass.crew ≠ passenger.cls ∧
    (passenger.closeHeld = false ∧ passenger.zoneEpoch = up.zas.zoneEpoch ∧
      { passenger with policyEpoch := 5 }.policyEpoch ≠ up.zas.policyEpoch) ∧
    (up.asks 4 (.attach tag30 3 false 0 9)).claim .stc 4 = some (.attach tag30 3 false 0 9) ∧
    ((up.asks 4 crew).claim .stc 4 = some crew ∧ (up.tariff 63).defined = false) ∧
    ((fullBucket.asks 4 r).claim .stc 4 = some r ∧ (fullBucket.asks 4 r).findTag tag30 = none ∧
      (fullBucket.asks 4 r).vacantSub tag30 = none) := by
  decide

theorem witness_DetachStartsTheUnwinding : ∀ x ∈ [SubState.attached, .roamBarred, .detaching, .unsettled],
    let r := { passenger with state := x }
    let s := (has30 r).asks 4 (.detach h30 none)
    s.claim .stc 4 = some (.detach h30 none) ∧ s.subOf h30 = some r ∧ subGuardPasses none r = true := by
  decide

/-- A DETACHING head with a flow, with none and unsettled usage, and with nothing. -/
theorem witness_UnwindingStepsAndEnd :
    let s (r : SubRecord) : State := { has30 r with stc := { (has30 r).stc with unwind := [30] } }
    let r := { passenger with state := .detaching }
    let used := { r with current := { bytes := 1, seconds := 0, mixed := false } }
    (s r).running = true ∧ (s r).stc.unwind = [30] ∧ ((s r).sub 30).flowList = [] ∧
      ((s { r with flowList := [f24] }).sub 30).flowList = f24 :: [] ∧ ((s used).sub 30).current.bytes ≠ 0 ∧
      ((s r).sub 30).current.seconds = 0 ∧ ((s r).sub 30).closed = none := by
  decide

theorem witness_FindsTouchWhatTheyFind :
    let s := (has30 passenger).asks 0 (.subFind tag30)
    let f := (up.setFlow 13524 { flowSample with key := key77 }).asks 0 (.flowFind key77)
    (s.claim .stc 0 = some (.subFind tag30) ∧ s.findTag tag30 = some 30) ∧
    ((up.asks 0 (.subFind tag30)).claim .stc 0 = some (.subFind tag30) ∧
      (up.asks 0 (.subFind tag30)).findTag tag30 = none) ∧
    (f.claim .ftc 0 = some (.flowFind key77) ∧ f.findKey key77 = some 13524) ∧
    ((up.asks 0 (.flowFind key77)).claim .ftc 0 = some (.flowFind key77) ∧
      (up.asks 0 (.flowFind key77)).findKey key77 = none) := by
  decide

theorem witness_UpdatesWriteOneField :
    let meets (f : SubField) (a : UpdateAction) (v : Word) : Prop :=
      ((has30 passenger).asks 7 (.subUpdate h30 none f a v)).claim .stc 7 = some (.subUpdate h30 none f a v) ∧
        ((has30 passenger).asks 7 (.subUpdate h30 none f a v)).subOf h30 = some passenger
    let flows := up.setFlow 13524 flowSample
    let meetsFlow (f : FlowField) (a : UpdateAction) (v : Word) : Prop :=
      (flows.asks 7 (.flowUpdate f24 none f a v)).claim .ftc 7 = some (.flowUpdate f24 none f a v) ∧
        (flows.asks 7 (.flowUpdate f24 none f a v)).flowOf f24 = some flowSample
    (meets .userWord .addSat 1 ∧ SubField.accepts .userWord .addSat 1 = true) ∧
    (meets .permanent .set 1 ∧ SubField.accepts .permanent .set 1 = true) ∧
    (meets .permanent .set 2 ∧ SubField.accepts .permanent .set 2 = false) ∧
    (meets .so .clearBits 1 ∧ SubField.accepts .so .clearBits 1 = true) ∧
    (meetsFlow .userWord .setBits 1 ∧ FlowField.accepts .userWord .setBits 1 = true) ∧
    (meetsFlow .cls .set 3 ∧ FlowField.accepts .cls .set 3 = true ∧ (3 : Word).toNat = FlowClass.bulk.code) ∧
    (meetsFlow .cls .set 4 ∧ FlowField.accepts .cls .set 4 = false) := by
  decide

/-! ### Flows, links and verdicts -/

def owner77 : SubRecord :=
  { passenger with stamp := 4, flowList := [f24], byteAllowance := 2000000, secondsAllowance := 100 }

def flow77 (c : FlowClass) (st : FlowState) : FlowRecord :=
  { FlowRecord.powerOn with key := key77, stamp := 9, state := st, cls := c, owner := h77 }

/-- Subscriber 77 with one flow, and link 0 UP. Passengers of operator 0 hold tariff 0. -/
def withFlow (r : SubRecord) (f : FlowRecord) : State :=
  ((((agreed [agreement 0 true 0]).setSub 77 r).setFlow 13524 f).setPinned 0 1).setLink 0
    { LinkRecord.powerOn 0 with state := .up }

/-- Below, at the flow limit with and without a victim; a bucket with a VACANT way, and a full one. -/
theorem witness_PseudoLruBitsAndReclaimVictims :
    let limited (n : BitVec 8) (s : State) : State :=
      s.setTariff 0 { defined := true, terms := { TariffTerms.powerOn with flowLimit := n } }
    let two := limited 2 (withFlow owner77 (flow77 .bulk (.opened 0)))
    let one := limited 1 (withFlow owner77 (flow77 .bulk (.opened 0)))
    let urgent := limited 1 (withFlow owner77 (flow77 .emergency (.opened 0)))
    let full (c : FlowClass) : State := (((up.setFlow 13524 (flow77 c .held)).setFlow 13525 (flow77 c .held)).setFlow
      13526 (flow77 c .held)).setFlow 13527 (flow77 c .held)
    owner77.flowList.length < two.flowLimit owner77 ∧ one.flowLimit owner77 ≤ owner77.flowList.length ∧
    (owner77.flowList = [] ++ f24 :: [] ∧ (one.flow f24.index).cls ≠ .emergency) ∧
    (∀ h ∈ owner77.flowList, (urgent.flow h.index).cls = .emergency) ∧
    (∃ w, (one.flow (flowWay 3381 w)).state = .vacant) ∧
    (∀ w, ((full .bulk).flow (flowWay 3381 w)).state ≠ .vacant) ∧
    ((full .bulk).flow (flowWay 3381 ((full .bulk).plru 3381).victim)).cls ≠ .emergency ∧
    ((full .emergency).flow (flowWay 3381 ((full .emergency).plru 3381).victim)).cls = .emergency := by
  decide

theorem witness_RetirementAndFlowClose :
    let f := flow77 .bulk (.opened 0)
    let s := (withFlow owner77 f).asks 0 (.flowClose f24 none)
    s.claim .ftc 0 = some (.flowClose f24 none) ∧ s.flowOf f24 = some f ∧ flowGuardPasses none f = true ∧
      (s.flow 13524).state = .opened 0 ∧ (s.flow 13524).state ≠ .opened 1 := by
  decide

/-- Links 0 and 1 UP with ranks 0 and 1; link 0 congested in the second state; both in the third. -/
theorem witness_LinkSelectionPicksTheLowestRank :
    let linked (x y : Bool) : State := (up.setLink 0 { LinkRecord.powerOn 0 with state := .up, congested := x }).setLink
      1 { LinkRecord.powerOn 1 with state := .up, congested := y }
    let free (s : State) (l : LinkId) : Prop := s.eligible .bulk l = true ∧ (s.link l).congested = false
    let ahead (s : State) (l k : LinkId) : Prop := (s.link l).config.rank < (s.link k).config.rank ∨
      ((s.link l).config.rank = (s.link k).config.rank ∧ l ≤ k)
    let falls := (linked true false).setLink 0
      { LinkRecord.powerOn 0 with config := { LinkConfig.powerOn 0 with fallback := some 1 } }
    ((falls.link 0).config.fallback = some 1 ∧ free falls 1) ∧
    (free (linked false false) 0 ∧ ∀ k, free (linked false false) k → ahead (linked false false) 0 k) ∧
    (free (linked true false) 1 ∧ ∀ k, free (linked true false) k → ahead (linked true false) 1 k) ∧
    ((∀ l, ¬free (linked true true) l) ∧ (linked true true).eligible .bulk 0 = true ∧
      ∀ k, (linked true true).eligible .bulk k = true → ahead (linked true true) 0 k) ∧
    ∀ l, up.eligible .bulk l = false := by
  decide

/-- A FLOW_OPEN into a free way; one at a flow limit of 1, with a victim and refused. -/
theorem witness_FlowOpenCreatesAFlow :
    let r (reclaim : Bool) : Request := .flowOpen h77 0x0A000006 443 50000 6 3 reclaim
    let k : FlowKey := { key77 with address := 0x0A000006 }
    let s (reclaim : Bool) : State := (withFlow owner77 (flow77 .bulk (.opened 0))).asks 0 (r reclaim)
    let tight (reclaim : Bool) : State :=
      (s reclaim).setTariff 0 { defined := true, terms := { TariffTerms.powerOn with flowLimit := 1 } }
    let s1 (x : State) : State := (x.grantTo .ftc 0).touch 77
    ((s false).claim .ftc 0 = some (r false) ∧ flowClass 3 = some .bulk ∧ (s false).subOf h77 = some owner77 ∧
      owner77.state = .attached ∧ (s false).findKey k = none ∧
      (s1 (s false)).limitReclaim ((s1 (s false)).sub 77) false = .clear ∧
      (s1 (s false)).bucketReclaim (flowBucket k) none false = .clear) ∧
    ((tight true).claim .ftc 0 = some (r true) ∧ (tight true).subOf h77 = some owner77 ∧
      (s1 (tight true)).limitReclaim ((s1 (tight true)).sub 77) true = .victim 13524 ∧
      (s1 (tight true)).bucketReclaim (flowBucket k) (some 13524) true = .clear) ∧
    ((tight false).claim .ftc 0 = some (r false) ∧ (tight false).findKey k = none ∧
      (s1 (tight false)).limitReclaim ((s1 (tight false)).sub 77) false = .refuse) := by
  decide

/-- A FLOW_OPEN into a full bucket with a bucket victim, and one with a limit victim of another bucket besides. -/
theorem witness_FlowOpenReclaims :
    let r : Request := .flowOpen h77 0x0A000005 443 50000 6 3 true
    let other : FlowRecord := { flow77 .bulk .held with key := { key77 with protocol := 17 } }
    let full (o : SubRecord) : State :=
      ((((up.setSub 77 o).setFlow 13524 other).setFlow 13525 other).setFlow 13526 other).setFlow 13527 other
    let s : State := (full { owner77 with flowList := [] }).asks 0 r
    let twice : State := (((full { owner77 with flowList := [⟨0, 9⟩] }).setFlow 0 (flow77 .bulk .held)).setTariff 0
      { defined := true, terms := { TariffTerms.powerOn with flowLimit := 1 } }).asks 0 r
    let s1 (x : State) : State := (x.grantTo .ftc 0).touch 77
    (s.claim .ftc 0 = some r ∧ s.subOf h77 = some { owner77 with flowList := [] } ∧ s.findKey key77 = none ∧
      (s1 s).limitReclaim ((s1 s).sub 77) true = .clear ∧
      (s1 s).bucketReclaim (flowBucket key77) none true = .victim 13524) ∧
    (twice.claim .ftc 0 = some r ∧ twice.subOf h77 = some { owner77 with flowList := [⟨0, 9⟩] } ∧
      twice.findKey key77 = none ∧ (s1 twice).limitReclaim ((s1 twice).sub 77) true = .victim 0 ∧
      (s1 twice).bucketReclaim (flowBucket key77) (some 0) true = .victim 13524) := by
  decide

/-- The other FLOW_OPEN requests that create nothing: a class of 4, a stale handle, an owner's state, the flow's own
key, a full bucket. -/
theorem witness_FlowOpenWithoutCreation :
    let r (code : BitVec 3) : Request := .flowOpen h77 0x0A000005 443 50000 6 code false
    let asked (o : SubRecord) (code : BitVec 3) : State := (withFlow o (flow77 .bulk (.opened 0))).asks 0 (r code)
    let other : FlowRecord := { flow77 .bulk .held with key := { key77 with protocol := 17 } }
    let full : State := ((((up.setSub 77 { owner77 with flowList := [] }).setFlow 13524 other).setFlow 13525
      other).setFlow 13526 other).setFlow 13527 other
    ((asked owner77 4).claim .ftc 0 = some (r 4) ∧ 4 ≤ (4 : BitVec 3).toNat) ∧
    ((up.asks 0 (r 3)).claim .ftc 0 = some (r 3) ∧ (3 : BitVec 3).toNat < 4 ∧ (up.asks 0 (r 3)).subOf h77 = none) ∧
    (∀ x ∈ [SubState.attached, .roamBarred, .detaching, .unsettled],
      (asked { owner77 with state := x } 3).claim .ftc 0 = some (r 3) ∧
      (asked { owner77 with state := x } 3).subOf h77 = some { owner77 with state := x }) ∧
    (asked owner77 3).findKey key77 = some 13524 ∧
    ((full.asks 0 (r 3)).claim .ftc 0 = some (r 3) ∧
      (full.asks 0 (r 3)).subOf h77 = some { owner77 with flowList := [] } ∧ (full.asks 0 (r 3)).findKey key77 = none ∧
      (let s1 := ((full.asks 0 (r 3)).grantTo .ftc 0).touch 77;
      s1.limitReclaim (s1.sub 77) false = .clear ∧ s1.bucketReclaim 3381 none false = .refuse)) := by
  decide

/-- The state after the touch of a CHARGE of flow 13524. -/
def chargeTouched (r : SubRecord) (f : FlowRecord) : State :=
  let s := (withFlow r f).asks 0 (.charge f24 1 0)
  (((s.grantTo .ftc 0).setFlow 13524 { f with mark := s.tw.currentMark }).useWay 13524).touch 77

theorem witness_ChargeGivesTheVerdict :
    let f := flow77 .bulk (.opened 0)
    let s := (withFlow owner77 f).asks 0 (.charge f24 1 0)
    ((up.asks 0 (.charge f24 1 0)).claim .ftc 0 = some (.charge f24 1 0) ∧
      (up.asks 0 (.charge f24 1 0)).flowOf f24 = none) ∧
    (((withFlow owner77 f).asks 0 (.charge f24 0 0)).claim .ftc 0 = some (.charge f24 0 0) ∧
      ((withFlow owner77 f).asks 0 (.charge f24 0 0)).flowOf f24 ≠ none) ∧
    (s.claim .ftc 0 = some (.charge f24 1 0) ∧ s.flowOf f24 = some f ∧ (1 : BitVec 16) ≠ 0) ∧
    ((chargeTouched { owner77 with state := .detaching } f).sub 77).state = .detaching ∧
    ((chargeTouched { owner77 with closeHeld := true } f).sub 77).closeHeld = true ∧
    ((chargeTouched { owner77 with state := .roamBarred } f).sub 77).state = .roamBarred ∧
    ((chargeTouched { owner77 with byteAllowance := 0 } f).sub 77).byteAllowance = 0 ∧
    ((chargeTouched { owner77 with secondsAllowance := 0 } (flow77 .voice .held)).sub 77).secondsAllowance = 0 ∧
    (let r := (chargeTouched owner77 f).sub 77;
      r.state = .attached ∧ r.closeHeld = false ∧ r.cls ≠ .shipSystem ∧ r.byteAllowance ≠ 0 ∧ r.tariff = some 0) ∧
    s.eligible .bulk 0 = true ∧ s.eligible .bulk 1 = false ∧ s.selectLink .bulk none = some 0 ∧
    up.selectLink .bulk (some 0) = none := by
  decide

/-- The report that completes the declare window, one short of it, and the same for the clear window. -/
theorem witness_ClassificationsMoveTheLink :
    let r := LinkRecord.powerOn 3
    let bad (n : BitVec 8) : LinkRecord := { r with state := .up, badRun := n }
    let good (n : BitVec 8) : LinkRecord := { r with state := .lost, goodRun := n }
    (r.config.declareWindow.reports ≤ (satAdd (bad 2).badRun 1).toNat ∧
      (satAdd (bad 1).badRun 1).toNat < r.config.declareWindow.reports) ∧
    (r.config.clearWindow.toNat ≤ (satAdd (good 7).goodRun 1).toNat ∧
      (satAdd (good 6).goodRun 1).toNat < r.config.clearWindow.toNat) ∧
    (20 : BitVec 6).toNat = r.config.threshold.toNat ∧ r.config.threshold.toNat + r.config.hysteresis.toNat = 24 := by
  decide

/-- Reports on link 7 and on link 8, of quality 63 and 64, in each state. -/
theorem witness_LinkReportsAreTaken :
    let s (code : BitVec 4) (q : BitVec 8) (x : LinkState) : State :=
      (up.setLink 7 { LinkRecord.powerOn 7 with state := x }).asks 5 (.linkReport code q 0)
    (∀ x ∈ [LinkState.offline, .probing, .up, .lost, .draining],
      (s 7 63 x).claim .lm 5 = some (.linkReport 7 63 0) ∧ ((s 7 63 x).link 7).state = x) ∧
    (7 : BitVec 4).toNat = (7 : LinkId).val ∧ (63 : BitVec 8).toNat ≤ 63 ∧
    ((s 8 63 .up).claim .lm 5 = some (.linkReport 8 63 0) ∧ 8 ≤ (8 : BitVec 4).toNat) ∧
    ((s 7 64 .up).claim .lm 5 = some (.linkReport 7 64 0) ∧ 63 < (64 : BitVec 8).toNat) := by
  decide

/-- Link 3 in state `x`, with its report deadline at the present count. -/
def linkIn (x : LinkState) : State := up.setLink 3 { LinkRecord.powerOn 3 with state := x, deadline := some 0 }

theorem witness_ExpiriesAndInjectionsAreBad :
    (∀ x ∈ [LinkState.probing, .up, .lost], (linkIn x).running = true ∧ ((linkIn x).link 3).state = x ∧
      ((linkIn x).link 3).deadline = some (linkIn x).al.count) ∧
    (∀ x ∈ [LinkState.offline, .probing, .up, .lost, .draining],
      ((linkIn x).asks 5 (.linkAdmin 3 .inject)).claim .lm 5 = some (.linkAdmin 3 .inject)) ∧
    ((up.asks 5 (.linkAdmin 8 .inject)).claim .lm 5 = some (.linkAdmin 8 .inject) ∧ 8 ≤ (8 : BitVec 4).toNat) := by
  decide

/-- The three commands in each state, with and without a pinned flow, and on link 8. -/
theorem witness_LinkAdministration :
    (∀ c ∈ [LinkCommand.enable, .disable, .drain], ∀ n ∈ [0, 1],
      ∀ x ∈ [LinkState.offline, .probing, .up, .lost, .draining],
        (((linkIn x).setPinned 3 n).asks 7 (.linkAdmin 3 c)).claim .lm 7 = some (.linkAdmin 3 c) ∧
        (((linkIn x).setPinned 3 n).asks 7 (.linkAdmin 3 c)).pinnedCount 3 = n ∧
        ((((linkIn x).setPinned 3 n).asks 7 (.linkAdmin 3 c)).link 3).state = x) ∧
    ∀ c ∈ [LinkCommand.enable, .disable, .drain], (up.asks 7 (.linkAdmin 8 c)).claim .lm 7 = some (.linkAdmin 8 c) := by
  decide

theorem witness_SnapshotsCopyAndClear :
    (up.asks 7 (.linkAdmin 7 .snapshot)).claim .lm 7 = some (.linkAdmin 7 .snapshot) ∧
    (up.asks 7 (.linkAdmin 8 .snapshot)).claim .lm 7 = some (.linkAdmin 8 .snapshot) ∧
    (up.setAutoDue 2 true).running = true ∧ (up.setAutoDue 2 true).autoSnapshotDue 2 = true := by
  decide

/-- A configuration at the ends of its ranges that differs from the one held, the one held, one out of range, and a link
out of range; a notice that ends a drain and one that is set aside. -/
theorem witness_ConfigurationAndDrainedNotices :
    let c : LinkConfig := { LinkConfig.powerOn 3 with
      threshold := 62, hysteresis := 1, clearWindow := 64, staleInterval := 60, lowWater := 254, highWater := 255 }
    let asked (code : BitVec 4) (x : LinkConfig) (f : BitVec 4) : State := up.asks 7 (.linkConfig code x f)
    ((asked 3 c 8).claim .lm 7 = some (.linkConfig 3 c 8) ∧ c.threshold.toNat + c.hysteresis.toNat ≤ 63 ∧
      c.clearWindow.toNat ≤ 64 ∧ c.staleInterval.toNat ≤ 60 ∧ c.lowWater.toNat < c.highWater.toNat ∧
      (8 : BitVec 4).toNat ≤ 8 ∧ c.fallback ≠ some 3 ∧ (up.link 3).config ≠ c) ∧
    ((asked 3 (.powerOn 3) 8).claim .lm 7 = some (.linkConfig 3 (.powerOn 3) 8) ∧
      (up.link 3).config = .powerOn 3) ∧
    ((asked 3 c 9).claim .lm 7 = some (.linkConfig 3 c 9) ∧ ¬(9 : BitVec 4).toNat ≤ 8) ∧
    (asked 8 c 8).claim .lm 7 = some (.linkConfig 8 c 8) ∧
    ((let s := (linkIn .draining).setDrained 3 true;
      s.running = true ∧ s.drainedWaiting 3 = true ∧ (s.link 3).state = .draining ∧ s.pinnedCount 3 = 0)) ∧
    (let s := ((linkIn .draining).setDrained 3 true).setPinned 3 1;
    s.drainedWaiting 3 = true ∧ 0 < s.pinnedCount 3) := by
  decide

/-! ### Reads, zones, agreements, tariffs, walks, notices -/

def noFlowGuard : FlowGuard := ⟨.pin, .eq, false, 8⟩

def readsSub (g : Option SubGuard) (p : SubSection) (n : BitVec 8) : State :=
  (has30 passenger).asks 7 (.subRead h30 g p n)

def readsFlow (g : Option FlowGuard) : State := (up.setFlow 13524 flowSample).asks 7 (.flowRead f24 g)

/-- The ACTIVE agreements of operators 5 and 7, all under tariff 0. -/
def listed : State := agreed [agreement 5 true 0, agreement 7 true 0]

theorem witness_ReadsOnlyAnswer :
    (∀ p ∈ [SubSection.identity, .charging, .flows], (readsSub none p 63).claim .stc 7 = some (.subRead h30 none p 63) ∧
      (readsSub none p 63).subOf h30 = some passenger) ∧
    (readsSub none .flows 64).claim .stc 7 = some (.subRead h30 none .flows 64) ∧
    ((up.asks 7 (.subRead h30 none .charging 0)).claim .stc 7 = some (.subRead h30 none .charging 0) ∧
      (up.asks 7 (.subRead h30 none .charging 0)).subOf h30 = none) ∧
    ((readsSub (some noGuard) .identity 0).claim .stc 7 = some (.subRead h30 (some noGuard) .identity 0) ∧
      subGuardPasses (some noGuard) passenger = false) ∧
    ((readsFlow none).claim .ftc 7 = some (.flowRead f24 none) ∧ (readsFlow none).flowOf f24 = some flowSample) ∧
    ((readsFlow (some noFlowGuard)).claim .ftc 7 = some (.flowRead f24 (some noFlowGuard)) ∧
      flowGuardPasses (some noFlowGuard) flowSample = false) ∧
    ((up.asks 7 (.flowRead f24 none)).claim .ftc 7 = some (.flowRead f24 none) ∧
      (up.asks 7 (.flowRead f24 none)).flowOf f24 = none) ∧
    (∀ c ∈ [(7 : BitVec 4), 8], (up.asks 7 (.linkRead c)).claim .lm 7 = some (.linkRead c)) ∧
    (∀ c ∈ [(31 : BitVec 8), 32], (up.asks 7 (.zoneRead c)).claim .zas 7 = some (.zoneRead c)) ∧
    (∀ c ∈ [(63 : BitVec 8), 64], (up.asks 7 (.tariffRead c)).claim .zas 7 = some (.tariffRead c)) ∧
    (∀ c ∈ [(7 : BitVec 8), 8], (up.asks 7 (.channelStatus c)).claim .ci 7 = some (.channelStatus c)) ∧
    (∀ c n, (listed.asks 7 (.agreementFind c n)).claim .zas 7 = some (.agreementFind c n)) ∧
    (listed.zas.agreements = [agreement 5 true 0] ++ agreement 7 true 0 :: [] ∧
      (∀ b ∈ [agreement 5 true 0], b.code < 6) ∧ (6 : Operator) ≤ 7) ∧
    (∀ a ∈ listed.zas.agreements, a.code ≠ 8 ∧ a.code < 8) ∧
    (∀ p ∈ [WalkSection.walker, .summaries], (up.asks 7 (.walkStatus p)).claim .tw 7 = some (.walkStatus p)) ∧
    (up.asks 7 .deviceStatus).claim .al 7 = some .deviceStatus := by
  refine ⟨?_, ?_, ?_, ?_, ?_, ?_, ?_, ?_, ?_, ?_, ?_, fun _ _ => rfl, ?_, ?_, ?_, ?_⟩ <;> decide

/-- Zone 31 DEFINED, and one of the conditions of ZONE_CHANGE not met. -/
theorem witness_ZoneChangeEntersTheZone :
    let s (code : BitVec 8) (force : Bool) (n : Nat) (q : List WalkEntry) : State :=
      let x := (up.setZone 31 { defined := true, cls := 3 }).asks 7 (.zoneChange code force)
      { x with stc := { x.stc with closedCount := n }, tw := { x.tw with queue := q } }
    (∀ force ∈ [false, true], ∀ n ∈ [0, 1], ∀ q ∈ [[], [WalkEntry.age], [.zone], [.recheck]],
      (s 31 force n q).claim .zas 7 = some (.zoneChange 31 force) ∧ ((s 31 force n q).zone 31).defined = true ∧
      (31 : ZoneIx) ≠ (s 31 force n q).zas.currentZone ∧ (s 31 force n q).tw.walk = none) ∧
    ((s 32 false 0 []).claim .zas 7 = some (.zoneChange 32 false) ∧ 32 ≤ (32 : BitVec 8).toNat) ∧
    ((s 30 false 0 []).claim .zas 7 = some (.zoneChange 30 false) ∧ ((s 30 false 0 []).zone 30).defined = false) ∧
    ((s 0 false 0 []).claim .zas 7 = some (.zoneChange 0 false) ∧ ((s 0 false 0 []).zone 0).defined = true ∧
      (0 : ZoneIx) = (s 0 false 0 []).zas.currentZone) := by
  decide

def definesZone (z : BitVec 8) (x : BitVec 2) (c : BitVec 8) : State := up.asks 7 (.zoneDefine z x c)

def timed (n m : BitVec 8) : TariffTerms := { TariffTerms.powerOn with timeout := n, flowLimit := m }

def setsTariff (s : State) (k : BitVec 8) (x : TariffTerms) : State := s.asks 7 (.tariffSet k x)

/-- ZONE_DEFINE and TARIFF_SET at and beyond the ends of their ranges, on what is held and on what is not. -/
theorem witness_ZonesAndTariffsAreDefined :
    (∀ z ∈ [(0 : BitVec 8), 31, 32], ∀ x ∈ [(0 : BitVec 2), 1, 2], ∀ c ∈ [(0 : BitVec 8), 3, 4],
      (definesZone z x c).claim .zas 7 = some (.zoneDefine z x c)) ∧
    (up.zone 0 = { defined := true, cls := 0 } ∧ up.zas.currentZone = 0) ∧
    (∀ k ∈ [(0 : BitVec 8), 63, 64], ∀ n ∈ [(0 : BitVec 8), 1], ∀ m ∈ [(0 : BitVec 8), 1, 64, 65],
      (setsTariff up k (timed n m)).claim .zas 7 = some (.tariffSet k (timed n m))) ∧
    ((up.tariff 0).defined = true ∧ (up.tariff 0).terms = .powerOn ∧
      (setsTariff up 0 .powerOn).claim .zas 7 = some (.tariffSet 0 .powerOn)) ∧
    ((setsTariff listed 0 (timed 1 64)).claim .zas 7 = some (.tariffSet 0 (timed 1 64)) ∧
      agreement 5 true 0 ∈ (setsTariff listed 0 (timed 1 64)).zas.agreements ∧
      (agreement 5 true 0).active = true ∧ (agreement 5 true 0).tariffFor (up.zone up.zas.currentZone).cls = some 0) := by
  refine ⟨?_, ?_, ?_, ?_, ?_⟩ <;> decide

def sets (s : State) (c : Operator) (x : BitVec 2) (k : BitVec 8) : State := s.asks 6 (.agreementSet c x k k k k)

/-- The agreements of operators 0 to 255. -/
def allOperators : List Agreement := (List.range 256).map fun n => agreement (BitVec.ofNat 24 n) true 0

/-- A new agreement between two, one that replaces, one that is held already, a list of 256; a removal. -/
theorem witness_TheAgreementListIsWritten :
    (∀ c x k, (sets listed c x k).claim .zas 6 = some (.agreementSet c x k k k k)) ∧
    ((up.tariff 0).defined = true ∧ (up.tariff 1).defined = false) ∧
    (listed.zas.agreements.length < 256 ∧ listed.zas.agreements = [agreement 5 true 0] ++ [agreement 7 true 0] ∧
      (∀ b ∈ [agreement 5 true 0], b.code < 6) ∧ ∀ b ∈ [agreement 7 true 0], 6 < b.code) ∧
    (listed.zas.agreements = [agreement 5 true 0] ++ agreement 7 true 0 :: [] ∧ ∀ b ∈ [agreement 5 true 0], b.code ≠ 7) ∧
    ((sets (agreed allOperators) 300 1 0).claim .zas 6 = some (.agreementSet 300 1 0 0 0 0) ∧
      256 ≤ allOperators.length ∧ ∀ b ∈ allOperators, b.code ≠ 300) ∧
    (∀ c, (listed.asks 6 (.agreementRemove c)).claim .zas 6 = some (.agreementRemove c)) ∧
    ((∀ a ∈ listed.zas.agreements, a.code ≠ 6) ∧ ∀ b ∈ [agreement 5 true 0] ++ [], b.code ≠ 7) := by
  have h : ∀ b ∈ allOperators, b.code ≠ 300 := by
    intro b hb
    obtain ⟨n, hn, rfl⟩ := List.mem_map.mp hb
    intro h
    have h' := congrArg BitVec.toNat h
    simp only [agreement, BitVec.toNat_ofNat] at h'
    have h300 : (300 : BitVec 24).toNat = 300 := rfl
    have := List.mem_range.mp hn
    omega
  have len : 256 ≤ allOperators.length := by
    rw [allOperators, List.length_map, List.length_range]
  refine ⟨fun _ _ _ => rfl, ?_, ?_, ?_, ⟨rfl, len, h⟩, fun _ => rfl, ?_⟩ <;> decide

/-- The walk `w` is in progress, with the queue `q`. -/
def walks (w : Option Walk) (q : List WalkEntry) : State := { up with tw := { up.tw with walk := w, queue := q } }

def walkOf (e : WalkEntry) (pass : Bool) (cursor : Nat) : Walk :=
  { up.newWalk e with flowPass := pass, cursor := cursor }

theorem witness_AgeAndAbortChangeTheQueue :
    let abort (w : Option Walk) (q : List WalkEntry) (k : WalkKind) (x : BitVec 8) : State :=
      (walks w q).asks 7 (.walkAbort k x)
    ((walks none [.zone]).asks 7 .age).claim .tw 7 = some .age ∧
    (((walks none [.zone, .age]).asks 7 .age).claim .tw 7 = some .age ∧
      [WalkEntry.zone, .age] = [.zone] ++ .age :: [] ∧ WalkEntry.age ∉ [WalkEntry.zone]) ∧
    (let s : State := { up with al := { up.al with ageInterval := 60, ageDeadline := some 0 } };
      s.running = true ∧ s.al.ageDeadline = some s.al.count) ∧
    (∀ k ∈ [WalkKind.age, .zone, .recheck, .repin], ∀ x ∈ [(7 : BitVec 8), 8, 254, 255],
      (abort none [] k x).claim .tw 7 = some (.walkAbort k x)) ∧
    ((abort none [.repin 7] .repin 7).claim .tw 7 = some (.walkAbort .repin 7) ∧
      (abort none [.repin 7] .repin 7).tw.walk = none) ∧
    ((abort (some (walkOf (.repin 7) false 5)) [.repin 7] .repin 255).claim .tw 7 = some (.walkAbort .repin 255) ∧
      (abort (some (walkOf (.repin 7) false 5)) [.repin 7] .repin 255).tw.walk = some (walkOf (.repin 7) false 5)) := by
  decide

/-- Each kind at the head of the queue, with an UP and a lost target; each walk at its end. -/
theorem witness_WalksStartAndEnd :
    (∀ e ∈ [WalkEntry.age, .zone, .recheck, .repin 3], (walks none [e, .age]).running = true ∧
      (walks none [e, .age]).tw.walk = none ∧ (walks none [e, .age]).tw.queue = e :: [.age]) ∧
    ((linkIn .up).link 3).state = .up ∧ ((linkIn .lost).link 3).state ≠ .up ∧
    (State.reset.running = false ∧ (walks (some (walkOf .age false 0)) []).tw.walk ≠ none ∧ up.tw.queue = []) ∧
    ((walks (some (walkOf .age true 16384)) []).running = true ∧ (walkOf .age true 16384).flowPass = true ∧
      16384 ≤ (walkOf .age true 16384).cursor ∧ 4096 ≤ (walkOf .zone false 4096).cursor ∧
      4096 ≤ (walkOf .recheck false 4096).cursor ∧ 16384 ≤ (walkOf (.repin 3) false 16384).cursor) := by
  decide

/-- Visits to the first and the last record of each pass; a doomed record that retires, and one that is permanent. -/
theorem witness_AgeVisitsRetireTheDoomed :
    (∀ c ∈ [0, 4095], (walks (some (walkOf .age false c)) []).running = true ∧
      (walks (some (walkOf .age false c)) []).tw.walk = some (walkOf .age false c) ∧
      (walkOf .age false c).cursor = (BitVec.ofNat 12 c : SubIx).toNat) ∧
    (∀ c ∈ [0, 16383], (walkOf .age true c).flowPass = true ∧
      (walkOf .age true c).cursor = (BitVec.ofNat 14 c : FlowIx).toNat) ∧
    (let r := { passenger with mark := 1 };
      r.state ≠ .vacant ∧ r.mark = up.tw.thirdMark ∧ r.permanent = false ∧ r.closeHeld = false ∧
        { r with permanent := true }.permanent = true ∧ passenger.mark ≠ up.tw.thirdMark) ∧
    ({ flowSample with mark := 1 }.state ≠ .vacant ∧ { flowSample with mark := 1 }.mark = up.tw.thirdMark ∧
      flowSample.mark ≠ up.tw.thirdMark) := by
  decide

theorem witness_OtherVisitsProcessTheRecord :
    (∀ e ∈ [WalkEntry.zone, .recheck], ∀ c ∈ [0, 4095],
      (walks (some (walkOf e false c)) []).running = true ∧
      (walks (some (walkOf e false c)) []).tw.walk = some (walkOf e false c) ∧
      (walkOf e false c).cursor = (BitVec.ofNat 12 c : SubIx).toNat) ∧
    (∀ c ∈ [0, 16383], (walkOf (.repin 5) false c).cursor = (BitVec.ofNat 14 c : FlowIx).toNat) ∧
    (flowSample.state = .opened 5 ∧ (up.link 5).state ≠ .up ∧ up.selectLink .interactive (some 5) = none ∧
      (up.setLink 1 { LinkRecord.powerOn 1 with state := .up }).selectLink .interactive (some 5) = some 1 ∧
      (up.setFlow 0 flowSample).flow 1 = .powerOn) := by
  decide

/-- A list with an entry of each kind, asked with a filter that admits the first, the last and none. -/
theorem witness_NoticeFetchTakesTheOldest :
    (∀ f : NoticeFilter, (noticeSample.asks 6 (.noticeFetch f)).claim .al 6 = some (.noticeFetch f)) ∧
    ((up.asks 6 (.noticeFetch .any)).claim .al 6 = some (.noticeFetch .any) ∧ up.al.list = []) ∧
    ((noticeSample.asks 6 (.noticeFetch .device)).al.list =
        noticeSample.al.list.take 3 ++ ⟨.device, Cause.channelOverrun.mask⟩ :: [] ∧
      (∀ x ∈ noticeSample.al.list.take 3, NoticeFilter.device.admits x.record = false) ∧
      (∀ x ∈ noticeSample.al.list.take 3 ++ [], x.record ≠ .device) ∧ NoticeFilter.device.admits .device = true) ∧
    noticeSample.al.list.map AttnEntry.record = [.subscriber 30, .link 5, .walker, .device] ∧
    ((∀ e ∈ noticeSample.al.list, e.record ≠ .link 6) ∧
      noticeSample.al.list = [] ++ ⟨.subscriber 30, Cause.closeHeld.mask⟩ :: noticeSample.al.list.tail ∧
      (∀ x ∈ [] ++ noticeSample.al.list.tail, x.record ≠ .subscriber 30) ∧
      Cause.closeHeld.mask &&& ~~~BitVec.twoPow 32 6 = 0 ∧ Cause.closeHeld.mask &&& ~~~BitVec.twoPow 32 3 ≠ 0) := by
  exact ⟨fun _ => rfl, by decide, ⟨rfl, by decide, by decide, rfl⟩, rfl, by decide, rfl, by decide, by decide, by decide⟩

/-- DEVICE_CONFIG of every value with no expiry due and with one; an advance with nothing due, and one that waits. -/
theorem witness_TheTimebaseIsSetAndAdvances :
    (∀ n b, (up.asks 7 (.deviceConfig n b)).claim .al 7 = some (.deviceConfig n b)) ∧
    (let s : State := { up with al := { up.al with ageInterval := 60, ageDeadline := some 0 } };
      (s.asks 7 (.deviceConfig 0 true)).claim .al 7 = some (.deviceConfig 0 true) ∧
        s.al.ageDeadline = some s.al.count) ∧
    (up.resetHeld = false ∧ up.al.ready = true ∧ up.stc.deadlines = [] ∧ up.al.ageDeadline = none ∧
      (∀ l, (up.link l).deadline = none ∧ up.autoSnapshotDue l = false) ∧ up.ci.softReset = .idle) ∧
    ((linkIn .up).link 3).deadline = some (linkIn .up).al.count ∧
    (up.setPhase (.clearing 7 true)).ci.softReset = .clearing 7 true := by
  exact ⟨fun _ _ => rfl, by decide, by decide, by decide, by decide⟩

/-- A state that meets every invariant, with a step that answers a next state. -/
theorem witness_invariants :
    let s : State := { up with pending := [.walkStart] }
    step s = .next up ∧ s.TablesCanonical ∧ s.WalkQueueDistinct ∧ s.AttentionExact ∧ s.LinksSound ∧ s.TermsSound ∧
      s.ChannelsSound ∧ s.RecordsExact ∧ s.MarksSound ∧ s.TagsPlaced ∧ s.KeysPlaced ∧ s.DeadlinesInOrder ∧
      s.FlowCountsBounded ∧ s.ZoneEpochsBounded := by
  refine ⟨rfl, ⟨rfl, rfl, rfl⟩, List.nodup_nil, ⟨List.nodup_nil, fun e he => by cases he⟩, ?_, ?_, ?_, ?_, ?_,
    (placed_of_vacant (fun _ => rfl) fun _ => rfl).1, (placed_of_vacant (fun _ => rfl) fun _ => rfl).2,
    ⟨List.Pairwise.nil, (fun i hi => by cases hi), fun _ _ h => by cases h⟩, fun _ => Nat.zero_le _,
    zoneEpochsBounded_of_vacant (fun _ => rfl) rfl⟩
  · have h : ∀ l, (up.link l).SoundAt l := by
      unfold LinkRecord.SoundAt
      decide
    exact h
  · have h : up.TermsSound := ⟨by decide, by decide, by decide, fun a ha => (by cases ha), by decide⟩
    exact h
  · have h : up.ChannelsSound := by
      refine ⟨fun ch => ?_, by decide, trivial⟩
      unfold ChannelRecord.Bounded
      revert ch
      decide
    exact h
  · exact recordsExact_of_vacant (fun _ => ⟨0, rfl⟩) (fun _ => ⟨0, rfl⟩) rfl rfl rfl (by decide)
  · exact marksSound_of_vacant (fun _ => rfl) (fun _ => rfl) rfl rfl rfl rfl

/-- A live record in a way of its bucket, one zone epoch behind a queued ZONE walk. -/
theorem witness_invariants_live :
    let s : State := { has30 passenger with
      zas := { up.zas with zoneEpoch := 1 }, tw := { up.tw with queue := [.zone] } }
    s.TagsPlaced ∧ s.ZoneEpochsBounded ∧ (s.sub 30).live = true ∧ (s.sub 30).zoneEpoch ≠ s.zas.zoneEpoch := by
  intro s
  have key : ∀ i, (s.sub i).live = true → i = 30 := by
    intro i hl
    by_contra hn
    have h : s.sub i = up.sub i := setSub_sub_ne up passenger hn
    rw [h] at hl
    cases hl
  refine ⟨⟨fun i hl => ?_, fun i j hi hj _ => (key i hi).trans (key j hj).symm⟩, ⟨fun i hl _ => ?_, ?_⟩, rfl, by decide⟩
  · rw [key i hl]
    exact ⟨2, by decide⟩
  · rw [key i hl]
    exact .inr ⟨by decide, .inl (by decide)⟩
  · rintro w hw
    cases hw

end Sys2Proof.Machine
end

section
/-! PROOFS. The moves of the machine: what a step can do to the state, and under which condition. The invariants are
proved over the moves, once each. -/

namespace Sys2Proof.Machine

/-- The meaning of a request that its owner answers in the claim itself; none for one that is posted (USAGE_POST), waits
(DEVICE_CONFIG) or is answered later (SOFT_RESET). -/
def State.served (s : State) (ch : Chan) : Request → Option Taken
  | .attach tag cls permanent tariff home => some (s.attach tag cls permanent tariff home)
  | .detach h g => some (s.detach h g)
  | .subFind tag => some (s.subFind tag)
  | .subRead h g part start => some (s, s.subRead h g part start)
  | .subUpdate h g f a v => some (s.subUpdate h g f a v)
  | .grant h g bytes seconds => some (s.grantCredit h g bytes seconds)
  | .settle h g p => some (s.settle h g p)
  | .usagePost .. => none
  | .flowOpen h address remotePort localPort protocol code reclaim =>
    some (s.flowOpen h
      { subscriber := h.index, address := address, remotePort := remotePort, localPort := localPort,
        protocol := protocol } code reclaim)
  | .flowClose h g => some (s.flowClose h g)
  | .flowFind k => some (s.flowFind k)
  | .charge h bytes seconds => some (s.chargeFlow h bytes seconds)
  | .flowRead h g => some (s, s.flowRead h g)
  | .flowUpdate h g f a v => some (s.flowUpdate h g f a v)
  | .linkReport code quality occupancy => some (s.linkReport code quality occupancy)
  | .linkAdmin code .enable => some (s.enable code)
  | .linkAdmin code .disable => some (s.disable code)
  | .linkAdmin code .drain => some (s.drain code)
  | .linkAdmin code .inject => some (s.inject code)
  | .linkAdmin code .snapshot => some (s.snapshot code)
  | .linkConfig code c fallbackCode => some (s.linkConfig code c fallbackCode)
  | .linkRead code => some (s, s.linkRead code)
  | .zoneChange code force => some (s.zoneChange code force)
  | .zoneDefine zone state cls => some (s.zoneDefine zone state cls)
  | .zoneRead code => some (s, s.zoneRead code)
  | .agreementSet code state t0 t1 t2 t3 => some (s.agreementSet code state t0 t1 t2 t3)
  | .agreementRemove code => some (s.agreementRemove code)
  | .agreementFind code next => some (s, s.agreementFind code next)
  | .tariffSet code terms => some (s.tariffSet code terms)
  | .tariffRead code => some (s, s.tariffRead code)
  | .age => some s.ageRequest
  | .walkStatus part => some (s, s.walkStatus part)
  | .walkAbort kind selector => some (s.walkAbort kind selector)
  | .noticeFetch f => some (s.noticeFetch f)
  | .deviceStatus => some (s, .plain .ok s.deviceStatusBody)
  | .deviceConfig .. => none
  | .channelStatus code => some (s, s.channelStatus code)
  | .clearFault => some (s.clearFault ch)
  | .channelSet code cls quiet => some (s.channelSet code cls quiet)
  | .channelReset code => some (s.channelReset ch code)
  | .softReset => none

/-- What one command can do to the state, with the condition under which it does it: one case for the answered claims
together, and one for each other event. -/
inductive State.Moves (s : State) : State → Prop
  | stay : s.Moves s
  | served {o : Owner} {ch : Chan} {q : Request} {k : Taken} (hq : s.claim o ch = some q)
      (hk : (s.grantTo o ch).served ch q = some k) : s.Moves (k.finish ch)
  | posted {ch : Chan} {h : SubHandle} {code : BitVec 3} {bytes seconds : Word}
      (hq : s.claim .stc ch = some (.usagePost h code bytes seconds)) :
      s.Moves (((s.grantTo .stc ch).usagePost h code bytes seconds).1.completePosted ch
        ((s.grantTo .stc ch).usagePost h code bytes seconds).2)
  | configured {ch : Chan} {interval : Word} {enable : Bool}
      (hq : s.claim .al ch = some (.deviceConfig interval enable)) (hd : s.ageDue = false) :
      s.Moves ((s.deviceConfig interval enable).finish ch)
  | softResetTaken {ch : Chan} (hq : s.claim .ci ch = some .softReset) : s.Moves (s.takeSoftReset ch)
  | clearingBegun {ch : Chan} {b : Bool} (hc : s.clearingFor = some ch) : s.Moves (s.beginClearing ch b)
  | clearingEnded {ch : Chan} {b : Bool} (hp : s.ci.softReset = .clearing ch b) : s.Moves (s.endClearing ch b)
  | powerOn : s.Moves s.powerOn
  | resetReleased : s.Moves s.releaseReset
  | initialized (hr : s.resetHeld = false) (hi : s.al.ready = false) : s.Moves s.becomeReady
  | stored {bytes : List Host.Cell} (hr : s.resetHeld = false) : s.Moves (s.storeBytes bytes)
  | submitted {bytes : List Host.Cell} (hr : s.resetHeld = false) :
      s.Moves (((s.storeBytes bytes).submitAll bytes).releaseAll bytes)
  | released {bytes : List Host.Cell} (hr : s.resetHeld = false) : s.Moves ((s.storeBytes bytes).releaseAll bytes)
  | dispatched {ch : Chan} {m : Message} (hd : s.dispatchable ch = some m) : s.Moves (s.dispatch ch m)
  | advanced (hr : s.resetHeld = false) (hi : s.al.ready = true) (hd : s.clearing = true ∨ s.expiryDue = false) :
      s.Moves s.advanceCount
  | grantExpired {i : SubIx} (hr : s.running = true) (hi : s.expiringGrant = some i) : s.Moves (s.expireGrant i)
  | staleExpired {l : LinkId} (hr : s.running = true) (hd : s.staleDue l = true) : s.Moves (s.expireStale l)
  | snapshotTaken {l : LinkId} (hr : s.running = true) (hd : s.autoSnapshotDue l = true) :
      s.Moves ((s.takeSnapshot l).setAutoDue l false)
  | drained {l : LinkId} (hr : s.running = true) (hd : s.drainedWaiting l = true) : s.Moves (s.takeDrained l)
  | ageExpired (hr : s.running = true) (hd : s.ageDue = true) : s.Moves s.expireAge
  | walkStarted {e : WalkEntry} (hr : s.running = true) (he : s.startable = some e) :
      s.Moves ((s.setQueue s.tw.queue.tail).startWalk e)
  | pass1Visited {w : Walk} (hw : s.pass1Walk = some w) : s.Moves (s.pass1Visit w)
  | pass2Visited {w : Walk} (hw : s.pass2Walk = some w) : s.Moves (s.pass2Visit w)
  | zoneVisited {w : Walk} (hw : s.zoneWalk = some w) : s.Moves (s.zoneVisit w)
  | recheckVisited {w : Walk} (hw : s.recheckWalk = some w) : s.Moves (s.recheckVisit w)
  | repinVisited {l : LinkId} {w : Walk} (hw : s.repinWalk = some (l, w)) : s.Moves (s.repinVisit l w)
  | ageEnded {w : Walk} (hw : s.endingWalk = some w) (he : w.entry = .age) : s.Moves (s.ageEnd w)
  | zoneEnded {w : Walk} (hw : s.endingWalk = some w) (he : w.entry = .zone) : s.Moves (s.zoneEnd w)
  | recheckEnded {w : Walk} (hw : s.endingWalk = some w) (he : w.entry = .recheck) : s.Moves (s.recheckEnd w)
  | repinEnded {l : LinkId} {w : Walk} (hw : s.endingWalk = some w) (he : w.entry.target = some l) :
      s.Moves (s.endRepin l w.counts.moved w.counts.flowsHeld false)
  | unwound {h : FlowHandle} (hr : s.running = true) (hx : s.unwindFlow = some h) : s.Moves (s.retire h.index)
  | unwindEnded {i : SubIx} (hr : s.running = true) (hx : s.unwindDone = some i) : s.Moves (s.endUnwinding i)

theorem resetHeld_of_accepts {s : State} {row : WriteRow} {bytes : List Host.Cell} (h : s.accepts row bytes = true) :
    s.resetHeld = false := by
  simp only [State.accepts, Bool.and_eq_true, Bool.not_eq_true'] at h
  exact h.1

theorem exec_moves {c : Instr} {s t : State} (h : exec c s = .next t) : s.Moves t := by
  cases c <;> injection h with h <;> subst h
  case powerOnReset => exact .powerOn
  case resetNRelease => exact .resetReleased
  case attach | detach | subFind | subRead | subUpdate | grant | settle | flowOpen | flowClose | flowFind | charge
    | flowRead | flowUpdate | linkReport | enable | disable | drain | inject | snapshot | linkConfig | linkRead
    | zoneChange | zoneDefine | zoneRead | agreementSet | agreementRemove | agreementFind | tariffSet | tariffRead | age
    | walkStatus | walkAbort | noticeFetch | deviceStatus | channelStatus | clearFault | channelSet | channelReset =>
    split; exacts [.served ‹_› rfl, .stay]
  case deviceConfig =>
    split
    · split; exacts [.stay, .configured ‹_› (Bool.eq_false_of_not_eq_true ‹_›)]
    · exact .stay
  case initializationComplete =>
    split
    · rename_i hg
      simp only [Bool.and_eq_true, Bool.not_eq_true'] at hg
      exact .initialized hg.1 hg.2
    · exact .stay
  case shipSecondAdvance =>
    split
    · rename_i hg
      simp only [Bool.and_eq_true, Bool.or_eq_true, Bool.not_eq_true'] at hg
      exact .advanced hg.1.1 hg.1.2 hg.2
    · exact .stay
  case usagePost => split; exacts [.posted ‹_›, .stay]
  case softReset => split; exacts [.softResetTaken ‹_›, .stay]
  case softResetClearing => split; exacts [.clearingBegun ‹_›, .stay]
  case softResetComplete => split; exacts [.clearingEnded ‹_›, .stay, .stay]
  case dispatch => split; exacts [.dispatched ‹_›, .stay]
  case stagingWrite | ignoredWrite => split; exacts [.stored (resetHeld_of_accepts ‹_›), .stay]
  case requestSubmit => split; exacts [.submitted (resetHeld_of_accepts ‹_›), .stay]
  case responseRelease => split; exacts [.released (resetHeld_of_accepts ‹_›), .stay]
  case staleExpiry => split; exacts [.staleExpired (Bool.and_elim_left ‹_›) (Bool.and_elim_right ‹_›), .stay]
  case autoSnapshot => split; exacts [.snapshotTaken (Bool.and_elim_left ‹_›) (Bool.and_elim_right ‹_›), .stay]
  case drainedNotice => split; exacts [.drained (Bool.and_elim_left ‹_›) (Bool.and_elim_right ‹_›), .stay]
  case ageExpiry => split; exacts [.ageExpired (Bool.and_elim_left ‹_›) (Bool.and_elim_right ‹_›), .stay]
  case grantDeadlineExpiry => split; exacts [.grantExpired ‹_› ‹_›, .stay]
  case walkStart => split; exacts [.walkStarted ‹_› ‹_›, .stay]
  case unwindStep => split; exacts [.unwound ‹_› ‹_›, .stay]
  case endOfUnwinding => split; exacts [.unwindEnded ‹_› ‹_›, .stay]
  case agePass1Visit => split; exacts [.pass1Visited ‹_›, .stay]
  case agePass2Visit => split; exacts [.pass2Visited ‹_›, .stay]
  case zoneVisit => split; exacts [.zoneVisited ‹_›, .stay]
  case recheckVisit => split; exacts [.recheckVisited ‹_›, .stay]
  case repinVisit => split; exacts [.repinVisited ‹_›, .stay]
  case ageWalkEnd =>
    split
    · split; exacts [.ageEnded ‹_› ‹_›, .stay]
    · exact .stay
  case zoneWalkEnd =>
    split
    · split; exacts [.zoneEnded ‹_› ‹_›, .stay]
    · exact .stay
  case recheckWalkEnd =>
    split
    · split; exacts [.recheckEnded ‹_› ‹_›, .stay]
    · exact .stay
  case repinWalkEnd =>
    split
    · split; exacts [.repinEnded ‹_› ‹_›, .stay]
    · exact .stay

/-- A step idles, or it is one of the moves on the state with the command taken from its queue. -/
theorem step_moves {s t : State} (h : step s = .next t) :
    t = s ∨ ∃ rest : List Instr, State.Moves { s with pending := rest } t := by
  unfold step at h
  split at h
  · injection h with h
    exact .inl h.symm
  · exact .inr ⟨_, exec_moves h⟩

@[simp] theorem finish_frame (k : Taken) (ch : Chan) :
    (k.finish ch).stc = k.1.stc ∧ (k.finish ch).ftc = k.1.ftc ∧ (k.finish ch).lm = k.1.lm ∧
    (k.finish ch).zas = k.1.zas ∧ (k.finish ch).tw = k.1.tw ∧ (k.finish ch).al = k.1.al ∧
    (k.finish ch).ci.softReset = k.1.ci.softReset ∧ (k.finish ch).resetHeld = k.1.resetHeld := by
  simp [Taken.finish]

@[simp] theorem releaseReset_frame (s : State) :
    s.releaseReset.stc = s.stc ∧ s.releaseReset.ftc = s.ftc ∧ s.releaseReset.lm = s.lm ∧ s.releaseReset.zas = s.zas ∧
    s.releaseReset.tw = s.tw ∧ s.releaseReset.al = s.al ∧ s.releaseReset.ci = s.ci := by
  simp [State.releaseReset]

@[simp] theorem powerOn_blocks (s : State) :
    s.powerOn.stc = .powerOn ∧ s.powerOn.ftc = .powerOn ∧ s.powerOn.lm = .powerOn ∧ s.powerOn.zas = .powerOn ∧
    s.powerOn.tw = .powerOn ∧ s.powerOn.al = .powerOn ∧ s.powerOn.ci = .powerOn := by
  simp [State.powerOn, State.reset]

end Sys2Proof.Machine
end

section
/-! PROOFS. The tables stay canonical, the walk queue without equal entries, the attention list exact (O55). -/

namespace Sys2Proof.Machine

/-! ## The walk queue -/

theorem State.served_keepsQueue {s : State} {ch : Chan} {q : Request} {k : Taken} (hk : s.served ch q = some k)
    (h : s.tw.queue.Nodup) : k.1.tw.queue.Nodup := by
  unfold State.served at hk
  split at hk <;> cases hk <;> simp [h]

theorem State.Moves.keepsQueue {s t : State} (hm : s.Moves t) (h : s.tw.queue.Nodup) : t.tw.queue.Nodup := by
  cases hm
  case served hk => simpa using State.served_keepsQueue hk (by simpa using h)
  case walkStarted => simpa using h.sublist (List.tail_sublist _)
  case powerOn => simp [Tw.powerOn]
  all_goals simp [h]

/-! ## The attention list -/

theorem State.served_keepsList {s : State} {ch : Chan} {q : Request} {k : Taken} (hk : s.served ch q = some k)
    (h : ListExact s.al.list) : ListExact k.1.al.list := by
  unfold State.served at hk
  split at hk <;> cases hk <;> simp [h]

theorem State.Moves.keepsList {s t : State} (hm : s.Moves t) (h : ListExact s.al.list) : ListExact t.al.list := by
  cases hm
  case served hk => simpa using State.served_keepsList hk (by simpa using h)
  case powerOn => simp [Al.powerOn]
  all_goals simp [h]

/-! ## The tables -/

theorem State.served_keepsTables {s : State} {ch : Chan} {q : Request} {k : Taken} (hk : s.served ch q = some k)
    (h : s.TablesCanonical) : k.1.TablesCanonical := by
  obtain ⟨hsubs, hflows, hplru⟩ := h
  unfold State.served at hk
  split at hk <;> cases hk <;> simp [State.TablesCanonical, hsubs, hflows, hplru]

theorem powerOn_tablesCanonical (s : State) : s.powerOn.TablesCanonical := ⟨rfl, rfl, rfl⟩

theorem State.Moves.keepsTables {s t : State} (hm : s.Moves t) (h : s.TablesCanonical) : t.TablesCanonical := by
  cases hm
  case served hk =>
    simpa [State.TablesCanonical] using State.served_keepsTables hk (by simpa [State.TablesCanonical] using h)
  case powerOn => exact powerOn_tablesCanonical s
  all_goals
    obtain ⟨hsubs, hflows, hplru⟩ := h
    simp [State.TablesCanonical, hsubs, hflows, hplru]

/-- Settles O55: no move breaks any of the three, and a step is a move on the state with its command taken, whose
tables, queue and list are those of the state. -/
theorem tablesQueueAndListStayExact : Obligations.TablesQueueAndListStayExact := by
  rintro s t hstep ⟨htables, hqueue, hlist⟩
  obtain rfl | ⟨rest, hm⟩ := step_moves hstep
  · exact ⟨htables, hqueue, hlist⟩
  · exact ⟨hm.keepsTables htables, hm.keepsQueue hqueue, hm.keepsList hlist⟩

end Sys2Proof.Machine
end

section
/-! PROOFS. The invariants of the records over the moves (O58, O59). What leaves every record, list and count as it was
is dealt with once (`SameRecords`, `Elsewhere`); each other move is settled by the lemmas about its operation. -/

namespace Sys2Proof.Machine

variable {s t u : State}

/-! ## Nothing of the records changes -/

/-- Tables, lists, counts and the time that the record invariants read are as they were, and no clearing begins. -/
structure State.SameRecords (s t : State) : Prop where
  subs : t.stc.subs = s.stc.subs
  unwind : t.stc.unwind = s.stc.unwind
  deadlines : t.stc.deadlines = s.stc.deadlines
  closed : t.stc.closedCount = s.stc.closedCount
  flows : t.ftc.flows = s.ftc.flows
  pinned : t.ftc.pinned = s.ftc.pinned
  count : t.al.count = s.al.count
  phase : ∀ ch b, t.ci.softReset = .clearing ch b → s.ci.softReset = .clearing ch b

theorem State.SameRecords.sub (h : s.SameRecords t) (i : SubIx) : t.sub i = s.sub i := by simp [State.sub, h.subs]

theorem State.SameRecords.flow (h : s.SameRecords t) (i : FlowIx) : t.flow i = s.flow i := by
  simp [State.flow, h.flows]

theorem State.SameRecords.exact (h : s.SameRecords t) (hr : s.RecordsExact) : t.RecordsExact :=
  hr.of_eq h.subs h.unwind h.deadlines h.closed h.flows h.pinned

theorem State.SameRecords.inOrder (h : s.SameRecords t) (hd : s.DeadlinesInOrder) : t.DeadlinesInOrder := by
  have hrem : t.remainingOf = s.remainingOf :=
    funext fun i => remainingOf_congr (by rw [h.sub]) h.count
  obtain ⟨horder, hbound, hclear⟩ := hd
  unfold State.DeadlinesInOrder
  rw [h.deadlines, hrem]
  exact ⟨horder, hbound, fun ch b hp => hclear ch b (h.phase ch b hp)⟩

theorem State.SameRecords.noNew (h : s.SameRecords t) (d : Mark) : s.NoNew d t :=
  (State.NoNew.refl d s).of_eq h.subs h.flows

/-- The walker's event is no visit, start or end of an AGE or a ZONE walk. -/
def State.SameWalks (s t : State) : Prop :=
  t.tw.walk = s.tw.walk ∨ s.NotAging ∧ s.NotZoning ∧ t.NotAging ∧ t.NotZoning

/-- Nothing that an invariant of the records reads is touched. -/
structure State.Elsewhere (s t : State) : Prop extends s.SameRecords t where
  epoch : t.zas.zoneEpoch = s.zas.zoneEpoch
  current : t.tw.currentMark = s.tw.currentMark
  previous : t.tw.previousMark = s.tw.previousMark
  third : t.tw.thirdMark = s.tw.thirdMark
  queued : WalkEntry.zone ∈ t.tw.queue ↔ WalkEntry.zone ∈ s.tw.queue
  walks : s.SameWalks t

theorem State.Elsewhere.carries (h : s.Elsewhere t) : s.Carries t :=
  (State.Carries.refl s).of_eq h.subs h.flows h.epoch

theorem State.Elsewhere.zones (h : s.Elsewhere t) (hz : s.ZoneEpochsBounded) : t.ZoneEpochsBounded := by
  obtain hw | ⟨_, hs, _, ht⟩ := h.walks
  · refine hz.carried h.carries (fun i _ _ _ ha => ?_) fun w htw he => ?_
    · simpa only [State.ZoneWalkAhead, hw, h.queued] using ha
    · rw [h.queued]
      exact hz.2 w (hw ▸ htw) he
  · exact hz.of_other h.carries hs ht h.queued.mpr

theorem State.Elsewhere.marks (h : s.Elsewhere t) (hm : s.MarksSound) : t.MarksSound := by
  have hn : s.NoNew s.tw.thirdMark t := h.noNew _
  obtain hw | ⟨hs, _, ht, _⟩ := h.walks
  · exact hm.of_tw hn h.current h.previous h.third hw
  · exact hm.of_noNew hn h.current h.previous h.third (fun _ => hs) fun w hw he => absurd he (ht w hw)

/-! ## What a move keeps of the records -/

/-- The record invariants, as one move keeps them. -/
structure State.KeepsRecords (s t : State) : Prop where
  exact : t.RecordsExact
  tags : s.TagsPlaced → t.TagsPlaced
  keys : s.KeysPlaced → t.KeysPlaced
  order : s.DeadlinesInOrder → t.DeadlinesInOrder
  counts : s.TermsSound → s.FlowCountsBounded → t.FlowCountsBounded
  zones : s.WalkQueueDistinct → s.ZoneEpochsBounded → t.ZoneEpochsBounded
  marks : s.MarksSound → t.MarksSound

theorem State.KeepsRecords.of_same (h : s.SameRecords t) (hr : s.RecordsExact)
    (hz : s.WalkQueueDistinct → s.ZoneEpochsBounded → t.ZoneEpochsBounded) (hm : s.MarksSound → t.MarksSound) :
    s.KeepsRecords t where
  exact := h.exact hr
  tags k := k.of_sub fun i => by simp [h.sub]
  keys k := k.of_flow h.flow
  order := h.inOrder
  counts _ k i := by simpa [h.sub] using k i
  zones := hz
  marks := hm

theorem State.KeepsRecords.of_elsewhere (h : s.Elsewhere t) (hr : s.RecordsExact) : s.KeepsRecords t :=
  .of_same h.toSameRecords hr (fun _ => h.zones) h.marks

theorem State.KeepsRecords.of_carries (hr : t.RecordsExact) (k : s.Carries t)
    (ho : s.DeadlinesInOrder → t.DeadlinesInOrder) (hz : s.ZoneEpochsBounded → t.ZoneEpochsBounded)
    (hm : s.MarksSound → t.MarksSound) : s.KeepsRecords t where
  exact := hr
  tags h := h.carried k
  keys h := h.carried k
  order := ho
  counts _ h := h.carried k
  zones _ := hz
  marks := hm

/-! ## The deadline list outside a clearing -/

theorem State.DeadlinesInOrder.ordered (h : s.DeadlinesInOrder) (hr : s.RecordsExact) : s.Ordered where
  requested i hi := (hr.1.2.2.1.2 i).mp hi
  order := h.1
  bound := h.2.1

theorem State.Ordered.inOrder (h : s.Ordered) (hc : s.clearing = false) : s.DeadlinesInOrder :=
  ⟨h.order, h.bound, fun ch b hp => by simp [State.clearing, hp] at hc⟩

theorem clearing_of_running (h : s.running = true) : s.clearing = false := by
  unfold State.running at h
  unfold State.clearing
  split
  · rename_i hp
    simp [hp] at h
  · rfl
  · rfl

theorem State.clearing_congr (h : t.ci.softReset = s.ci.softReset) : t.clearing = s.clearing := by
  simp [State.clearing, h]

/-- An operation of a running device on ordered deadlines. -/
theorem State.DeadlinesInOrder.running (hr : s.RecordsExact) (hc : s.clearing = false)
    (hp : t.ci.softReset = s.ci.softReset) (ho : s.Ordered → t.Ordered) (h : s.DeadlinesInOrder) :
    t.DeadlinesInOrder :=
  (ho (h.ordered hr)).inOrder ((State.clearing_congr hp).trans hc)

/-! ## The requests -/

theorem State.KeepsRecords.trans (h : s.KeepsRecords u) (k : u.KeepsRecords t) (hz : u.zas = s.zas)
    (hq : u.tw.queue = s.tw.queue) : s.KeepsRecords t where
  exact := k.exact
  tags x := k.tags (h.tags x)
  keys x := k.keys (h.keys x)
  order x := k.order (h.order x)
  counts ht x := k.counts (ht.of_zas (by rw [hz]) (by rw [hz]) (by rw [hz]) (by rw [hz])) (h.counts ht x)
  zones hd x := k.zones (by simpa only [State.WalkQueueDistinct, hq] using hd) (h.zones hd x)
  marks x := k.marks (h.marks x)

theorem grantTo_elsewhere (s : State) (o : Owner) (ch : Chan) : s.Elsewhere (s.grantTo o ch) := by
  constructor
  · constructor <;> simp
  all_goals simp [State.SameWalks]

theorem finish_elsewhere (k : Taken) (ch : Chan) : k.1.Elsewhere (k.finish ch) := by
  constructor
  · constructor <;> simp
  all_goals simp [State.SameWalks]

theorem State.KeepsRecords.then_elsewhere (h : s.KeepsRecords u) (k : u.Elsewhere t) : s.KeepsRecords t :=
  have hk : u.KeepsRecords t := .of_elsewhere k h.exact
  { exact := hk.exact
    tags := fun x => hk.tags (h.tags x)
    keys := fun x => hk.keys (h.keys x)
    order := fun x => hk.order (h.order x)
    counts := fun ht x i => by simpa [k.sub] using h.counts ht x i
    zones := fun hd x => k.zones (h.zones hd x)
    marks := fun x => hk.marks (h.marks x) }

/-- A claim: its arbiter first, then the request's operation, then the end of the request. -/
theorem State.KeepsRecords.claimed {o : Owner} {ch : Chan} (hr : s.RecordsExact)
    (h : (s.grantTo o ch).KeepsRecords u) (k : u.Elsewhere t) : s.KeepsRecords t :=
  have hg : s.KeepsRecords (s.grantTo o ch) := .of_elsewhere (grantTo_elsewhere s o ch) hr
  (hg.trans h (by simp) (by simp)).then_elsewhere k

/-- An operation of the STC or the FTC on records alone, on a running device. -/
theorem State.KeepsRecords.operation (hr : s.RecordsExact) (hc : s.clearing = false) (hx : t.RecordsExact)
    (k : s.Carries t) (ho : s.Ordered → t.Ordered)
    (hn : s.tw.currentMark ≠ s.tw.thirdMark → s.NoNew s.tw.thirdMark t) (ht : t.tw = s.tw)
    (hp : t.ci.softReset = s.ci.softReset) : s.KeepsRecords t :=
  .of_carries hx k (.running hr hc hp ho) (fun hz => hz.carried_tw k ht) fun hm =>
    hm.of_tw (hn hm.1.2.2) (by rw [ht]) (by rw [ht]) (by rw [ht]) (by rw [ht])

theorem attach_keepsRecords (hr : s.RecordsExact) (hc : s.clearing = false) (tag : Tag) (code : BitVec 2) (p : Bool)
    (tariff : TariffIx) (home : Operator) : s.KeepsRecords (s.attach tag code p tariff home).1 where
  exact := hr.attach ..
  tags h := h.attach ..
  keys h := h.of_flow fun i => by simp [State.flow]
  order := .running hr hc (by simp) fun ho => ho.attach hr.1 ..
  counts _ h := h.attach tag code p tariff home
  zones _ h := h.attach ..
  marks h := h.of_tw (attach_noNew h.1.2.2 ..) (by simp) (by simp) (by simp) (by simp)

theorem flowOpen_keepsRecords (hr : s.RecordsExact) (hc : s.clearing = false) (o : SubHandle) (k : FlowKey)
    (code : BitVec 3) (r : Bool) (hk : k.subscriber = o.index) : s.KeepsRecords (s.flowOpen o k code r).1 where
  exact := hr.flowOpen ..
  tags h := h.flowOpen ..
  keys h := h.flowOpen o k code r hk
  order := .running hr hc (by simp) fun ho => ho.flowOpen ..
  counts ht h := h.flowOpen hr.2 ht o k code r
  zones _ h := h.flowOpen ..
  marks h := h.of_tw (flowOpen_noNew h.1.2.2 ..) (by simp) (by simp) (by simp) (by simp)

theorem zoneChange_keepsRecords (hr : s.RecordsExact) (code : BitVec 8) (force : Bool) :
    s.KeepsRecords (s.zoneChange code force).1 := by
  have hsame : s.SameRecords (s.zoneChange code force).1 := by constructor <;> simp
  refine .of_same hsame hr (fun _ h => h.zoneChange code force) fun h => ?_
  exact h.of_tw (hsame.noNew _) (by simp) (by simp) (by simp) (by simp)

/-- R142: the walk that a WALK_ABORT ends is a REPIN. -/
theorem abortedWalk_sameWalks {x : LinkSelector} {l : LinkId} {w : Walk} (h : s.abortedWalk x = some (l, w))
    (ht : t.tw.walk = none) : s.SameWalks t := by
  unfold State.abortedWalk at h
  split at h
  · cases h
  · rename_i v hv
    split at h
    · obtain ⟨k, hk, -⟩ := Option.map_eq_some_iff.mp h
      have hrepin : v.entry ≠ .age ∧ v.entry ≠ .zone := by
        constructor <;> intro he <;> rw [he] at hk <;> cases hk
      refine .inr ⟨fun u hu => ?_, fun u hu => ?_, by simp [State.NotAging, ht], by simp [State.NotZoning, ht]⟩
      · cases hv.symm.trans hu
        exact hrepin.1
      · cases hv.symm.trans hu
        exact hrepin.2
    · cases h

theorem walkAbort_sameWalks (s : State) (kind : WalkKind) (selector : BitVec 8) :
    s.SameWalks (s.walkAbort kind selector).1 := by
  unfold State.walkAbort
  split
  · exact .inl rfl
  · rename_i x _
    split
    · unfold State.abortWalks
      cases hx : s.abortedWalk x with
      | none => dsimp only; split <;> exact .inl rfl
      | some p => exact abortedWalk_sameWalks hx rfl
    all_goals exact .inl rfl

theorem walkAbort_elsewhere (s : State) (kind : WalkKind) (selector : BitVec 8) :
    s.Elsewhere (s.walkAbort kind selector).1 := by
  constructor
  case walks => exact walkAbort_sameWalks ..
  · constructor <;> simp
  all_goals simp

theorem linkAdmin_elsewhere {ch : Chan} {code : BitVec 4} {a : LinkCommand} {k : Taken}
    (hk : s.served ch (.linkAdmin code a) = some k) : s.Elsewhere k.1 := by
  cases a <;> obtain rfl := Option.some.inj hk
  all_goals
    constructor
    · constructor <;> simp
    all_goals simp [State.SameWalks]

theorem served_keepsRecords {ch : Chan} {q : Request} {k : Taken} (hk : s.served ch q = some k)
    (hr : s.RecordsExact) (hc : s.clearing = false) : s.KeepsRecords k.1 := by
  cases q
  case usagePost | deviceConfig | softReset => cases hk
  case linkAdmin => exact .of_elsewhere (linkAdmin_elsewhere hk) hr
  all_goals obtain rfl := Option.some.inj hk
  case attach => exact attach_keepsRecords hr hc ..
  case detach =>
    exact .operation hr hc (hr.detach ..) (detach_carries ..) (·.detach ..) (fun _ => detach_noNew ..)
      (by simp) (by simp)
  case subFind =>
    exact .operation hr hc (hr.subFind ..) (subFind_carries ..) (·.subFind ..) (subFind_noNew · ..)
      (by simp) (by simp)
  case subUpdate =>
    exact .operation hr hc (hr.subUpdate ..) (subUpdate_carries ..) (·.subUpdate ..) (fun _ => subUpdate_noNew ..)
      (by simp) (by simp)
  case grant =>
    exact .operation hr hc (hr.grantCredit ..) (grantCredit_carries ..) (·.grantCredit ..)
      (fun _ => grantCredit_noNew ..) (by simp) (by simp)
  case settle =>
    exact .operation hr hc (hr.settle ..) (settle_carries ..) (·.settle hr ..) (fun _ => settle_noNew ..)
      (by simp) (by simp)
  case flowOpen => exact flowOpen_keepsRecords hr hc _ _ _ _ rfl
  case flowClose =>
    exact .operation hr hc (hr.flowClose ..) (flowClose_carries ..) (·.flowClose ..) (fun _ => flowClose_noNew ..)
      (by simp) (by simp)
  case flowFind =>
    exact .operation hr hc (hr.flowFind ..) (flowFind_carries ..) (·.flowFind ..) (flowFind_noNew · ..)
      (by simp) (by simp)
  case flowUpdate =>
    exact .operation hr hc (hr.flowUpdate ..) (flowUpdate_carries ..) (·.flowUpdate ..) (fun _ => flowUpdate_noNew ..)
      (by simp) (by simp)
  case charge =>
    exact .operation hr hc (hr.chargeFlow ..) (chargeFlow_carries ..) (·.chargeFlow ..) (chargeFlow_noNew · ..)
      (by simp) (by simp)
  case zoneChange => exact zoneChange_keepsRecords hr ..
  case walkAbort => exact .of_elsewhere (walkAbort_elsewhere ..) hr
  all_goals
    refine .of_elsewhere ?_ hr
    constructor
    · constructor <;> simp
    all_goals simp [State.SameWalks]

theorem usagePost_keepsRecords (hr : s.RecordsExact) (hc : s.clearing = false) (h : SubHandle) (code : BitVec 3)
    (bytes seconds : Word) : s.KeepsRecords (s.usagePost h code bytes seconds).1 :=
  .operation hr hc (hr.usagePost ..) (usagePost_carries ..) (·.usagePost ..) (usagePost_noNew · ..) (by simp) (by simp)

theorem completePosted_elsewhere (s : State) (ch : Chan) (f : Option Status) : s.Elsewhere (s.completePosted ch f) := by
  constructor
  · constructor <;> simp
  all_goals simp [State.SameWalks]

/-! ## Every record VACANT -/

theorem State.KeepsRecords.of_vacant (hr : t.RecordsExact)
    (hs : ∀ i, ∃ n, t.sub i = { SubRecord.powerOn with stamp := n })
    (hf : ∀ i, ∃ n, t.flow i = { FlowRecord.powerOn with stamp := n }) (hd : t.stc.deadlines = [])
    (hw : t.tw.walk = none) (hm : t.MarksSound) : s.KeepsRecords t := by
  have hsub : ∀ i, (t.sub i).live = false := fun i => by
    obtain ⟨n, hn⟩ := hs i
    rw [hn]
    rfl
  have hflow : ∀ i, (t.flow i).live = false := fun i => by
    obtain ⟨n, hn⟩ := hf i
    rw [hn]
    rfl
  obtain ⟨htags, hkeys⟩ := placed_of_vacant hsub hflow
  exact {
    exact := hr
    tags := fun _ => htags
    keys := fun _ => hkeys
    order := fun _ => by simp [State.DeadlinesInOrder, hd]
    counts := fun _ _ i => by
      obtain ⟨n, hn⟩ := hs i
      simp [hn, SubRecord.powerOn]
    zones := fun _ _ => zoneEpochsBounded_of_vacant hsub hw
    marks := fun _ => hm }

theorem beginClearing_keepsRecords (hr : s.RecordsExact) (hc : s.TablesCanonical) (ch : Chan) (b : Bool) :
    s.KeepsRecords (s.beginClearing ch b) := by
  obtain ⟨hsub, hflow⟩ := beginClearing_records s hc ch b
  refine .of_vacant (hr.beginClearing hc ch b) (fun i => ?_) (fun i => ?_) ?_ (by simp)
    (beginClearing_marksSound s hc ch b)
  · rw [hsub]
    exact SubRecord.cleared_eq (hr.1.1 i).2.2
  · rw [hflow]
    exact FlowRecord.cleared_eq (hr.2.1 i)
  · rw [(beginClearing_blocks s ch b).1]
    rfl

theorem powerOn_keepsRecords (s : State) : s.KeepsRecords s.powerOn :=
  .of_vacant (reset_recordsExact s) (fun _ => ⟨0, rfl⟩) (fun _ => ⟨0, rfl⟩) rfl rfl
    (marksSound_of_vacant (fun _ => rfl) (fun _ => rfl) rfl rfl rfl rfl)

/-! ## The count -/

theorem advanceCount_keepsRecords (hr : s.RecordsExact) (hd : s.clearing = true ∨ s.expiryDue = false) :
    s.KeepsRecords s.advanceCount := by
  have hcarries : s.Carries s.advanceCount := (State.Carries.refl s).of_eq rfl rfl rfl
  refine .of_carries (hr.of_tables rfl rfl) hcarries (fun h => ?_) (fun h => h.carried_tw hcarries rfl) fun h =>
    h.of_tw ((State.NoNew.refl _ s).of_eq rfl rfl) rfl rfl rfl rfl
  cases hc : s.clearing with
  | true =>
    obtain ⟨ch, b, hp⟩ : ∃ ch b, s.ci.softReset = .clearing ch b := by
      unfold State.clearing at hc
      split at hc <;> simp_all
    have hnil : s.stc.deadlines = [] := h.2.2 ch b hp
    simp [State.DeadlinesInOrder, hnil]
  | false =>
    have hdue : s.expiringGrant = none := by
      simp only [hc, Bool.false_eq_true, false_or, State.expiryDue, Bool.or_eq_false_iff] at hd
      simpa using hd.1.1
    exact ((h.ordered hr).advance hdue).inOrder hc

/-! ## Timers and unwinding -/

theorem expiringGrant_requested {i : SubIx} (h : s.expiringGrant = some i) :
    (s.sub i).grant.isRequested = true := by
  unfold State.expiringGrant at h
  split at h
  · cases h
  · split at h
    · rename_i hg
      cases h
      rw [hg]
      rfl
    · cases h

theorem expireGrant_keepsRecords (hr : s.RecordsExact) (hc : s.clearing = false) {i : SubIx}
    (hi : s.expiringGrant = some i) : s.KeepsRecords (s.expireGrant i) :=
  .operation hr hc (hr.expireGrant (expiringGrant_requested hi)) (expireGrant_carries ..) (·.expireGrant ..)
    (fun _ => expireGrant_noNew ..) (by simp) (by simp)

theorem retire_keepsRecords (hr : s.RecordsExact) (hc : s.clearing = false) {i : FlowIx}
    (hl : (s.flow i).live = true) : s.KeepsRecords (s.retire i) :=
  .operation hr hc (hr.retire hl) (retire_carries ..) (·.retire ..) (fun _ => retire_noNew ..) (by simp) (by simp)

theorem unwindDone_live (hr : s.RecordsExact) {i : SubIx} (hx : s.unwindDone = some i) : (s.sub i).live = true := by
  unfold State.unwindDone at hx
  split at hx
  · cases hx
  · rename_i k rest hk
    split at hx
    · cases hx
      have hmem : i ∈ s.stc.unwind := by simp [hk]
      simp [SubRecord.live, (hr.1.2.1.2 i).mp hmem]
    · cases hx

theorem endUnwinding_keepsRecords (hr : s.RecordsExact) (hc : s.clearing = false) {i : SubIx}
    (hx : s.unwindDone = some i) : s.KeepsRecords (s.endUnwinding i) :=
  .operation hr hc (hr.endUnwinding hx) (endUnwinding_carries (unwindDone_live hr hx)) (·.endUnwinding hr.1 hx)
    (fun _ => endUnwinding_noNew (unwindDone_live hr hx)) (by simp) (by simp)

/-! ## Walks -/

theorem notAging_of_walk {w : Walk} (h : s.tw.walk = some w) (he : w.entry ≠ .age) : s.NotAging :=
  fun v hv => by
    cases h.symm.trans hv
    exact he

theorem notZoning_of_walk {w : Walk} (h : s.tw.walk = some w) (he : w.entry ≠ .zone) : s.NotZoning :=
  fun v hv => by
    cases h.symm.trans hv
    exact he

theorem running_of_walking {w : Walk} (h : s.walking = some w) : s.running = true := by
  unfold State.walking at h
  split at h
  · assumption
  · cases h

/-- A visit: an operation on the record at the cursor, then the cursor. -/
theorem State.KeepsRecords.visit {w : Walk} {v : Option Walk} (hr : s.RecordsExact) (hw : s.walking = some w)
    (hx : u.RecordsExact) (k : s.Carries u) (ho : s.Ordered → u.Ordered) (hp : u.ci.softReset = s.ci.softReset)
    (hz : s.ZoneEpochsBounded → (u.setWalk v).ZoneEpochsBounded) (hm : s.MarksSound → (u.setWalk v).MarksSound) :
    s.KeepsRecords (u.setWalk v) :=
  .of_carries (hx.of_tables rfl rfl) (k.of_eq rfl rfl rfl)
    (.running hr (clearing_of_running (running_of_walking hw)) hp fun o => (ho o).keep rfl (fun _ => rfl) rfl) hz hm

theorem pass1Visit_keepsRecords (hr : s.RecordsExact) {w : Walk} (hw : s.pass1Walk = some w) :
    s.KeepsRecords (s.pass1Visit w) := by
  obtain ⟨hwalk, hc⟩ := Option.filter_eq_some_iff.mp hw
  simp only [Bool.and_eq_true, beq_iff_eq] at hc
  have hs : s.NotZoning := notZoning_of_walk (State.walking_eq hwalk) (by simp [hc.1.1])
  refine .visit hr hwalk (hr.ageSub _) (ageSub_carries ..) (·.ageSub _) (by simp) (fun h => ?_) (·.pass1Visit hw)
  refine h.of_other ((ageSub_carries s w.subAt).of_eq rfl rfl rfl) hs (fun v hv => ?_) (by simp)
  cases hv
  unfold Walk.advancePass1
  split <;> simp [Walk.advance, hc.1.1]

theorem pass2Visit_keepsRecords (hr : s.RecordsExact) {w : Walk} (hw : s.pass2Walk = some w) :
    s.KeepsRecords (s.pass2Visit w) := by
  obtain ⟨hwalk, hc⟩ := Option.filter_eq_some_iff.mp hw
  simp only [Bool.and_eq_true, beq_iff_eq] at hc
  have hs : s.NotZoning := notZoning_of_walk (State.walking_eq hwalk) (by simp [hc.1.1])
  have hz : ∀ u : State, s.Carries u → u.tw = s.tw → s.ZoneEpochsBounded →
      ∀ counts, (u.setWalk (some (w.advance counts))).ZoneEpochsBounded := fun u k ht h counts => by
    refine h.of_other (k.of_eq rfl rfl rfl) hs (fun v hv => ?_) (by simp [ht])
    cases hv
    simp [Walk.advance, hc.1.1]
  have hm : s.MarksSound → (s.pass2Visit w).MarksSound := (·.pass2Visit hw)
  unfold State.pass2Visit at hm ⊢
  dsimp only at hm ⊢
  split at hm
  · rename_i hdoomed
    have hl : (s.flow w.flowAt).live = true := Bool.and_elim_left hdoomed
    rw [if_pos hdoomed]
    exact .visit hr hwalk (hr.retire hl) (retire_carries ..) (·.retire _) (by simp)
      (fun h => hz _ (retire_carries ..) (by simp) h _) hm
  · rename_i hdoomed
    rw [if_neg hdoomed]
    exact .visit hr hwalk hr (.refl s) id rfl (fun h => hz _ (.refl s) rfl h _) hm

theorem lazyVisit_noNew {d : Mark} (s : State) (i : SubIx) : s.NoNew d (s.lazyVisit i) := by
  unfold State.lazyVisit
  split
  · exact lazy_noNew s i
  · exact .refl d s

theorem zoneVisit_keepsRecords (hr : s.RecordsExact) {w : Walk} (hw : s.zoneWalk = some w) :
    s.KeepsRecords (s.zoneVisit w) := by
  obtain ⟨hwalk, hc⟩ := Option.filter_eq_some_iff.mp hw
  simp only [Bool.and_eq_true, beq_iff_eq] at hc
  refine .visit hr hwalk (hr.lazyVisit _) (lazyVisit_carries ..) (·.lazyVisit _) (by simp) (·.zoneVisit hw) fun h => ?_
  have hn : s.NoNew s.tw.thirdMark (s.zoneVisit w) := (lazyVisit_noNew s w.subAt).of_eq rfl rfl
  refine h.of_other hn (by simp) (by simp) (by simp) (State.walking_eq hwalk) (by simp [hc.1]) fun v hv => ?_
  cases hv
  simp [Walk.advance, hc.1]

/-- A visit of a RECHECK or a REPIN walk. -/
theorem State.KeepsRecords.otherVisit {w v : Walk} (hr : s.RecordsExact) (hw : s.walking = some w)
    (ha : w.entry ≠ .age) (hz : w.entry ≠ .zone) (hv : v.entry = w.entry) (hx : u.RecordsExact) (k : s.Carries u)
    (ho : s.Ordered → u.Ordered) (hn : s.NoNew s.tw.thirdMark u) (ht : u.tw = s.tw)
    (hp : u.ci.softReset = s.ci.softReset) : s.KeepsRecords (u.setWalk (some v)) := by
  have hw' := State.walking_eq hw
  have hage : (u.setWalk (some v)).NotAging := notAging_of_walk rfl (hv ▸ ha)
  have hzone : (u.setWalk (some v)).NotZoning := notZoning_of_walk rfl (hv ▸ hz)
  refine .visit hr hw hx k ho hp (fun h => ?_) fun h => ?_
  · exact h.of_other (k.of_eq rfl rfl rfl) (notZoning_of_walk hw' hz) hzone (by simp [ht])
  · exact h.of_other (hn.of_eq rfl rfl) (by simp [ht]) (by simp [ht]) (by simp [ht]) hw' ha hage

theorem recheckVisit_keepsRecords (hr : s.RecordsExact) {w : Walk} (hw : s.recheckWalk = some w) :
    s.KeepsRecords (s.recheckVisit w) := by
  obtain ⟨hwalk, hc⟩ := Option.filter_eq_some_iff.mp hw
  simp only [Bool.and_eq_true, beq_iff_eq] at hc
  exact .otherVisit hr hwalk (by simp [hc.1]) (by simp [hc.1]) rfl (hr.lazyVisit _) (lazyVisit_carries ..)
    (·.lazyVisit _) (lazyVisit_noNew ..) (by simp) (by simp)

theorem repinWalk_spec {l : LinkId} {w : Walk} (h : s.repinWalk = some (l, w)) :
    s.walking = some w ∧ w.entry = .repin l := by
  unfold State.repinWalk at h
  split at h
  · cases h
  · rename_i v hv
    split at h
    · obtain ⟨k, hk, he⟩ := Option.map_eq_some_iff.mp h
      cases he
      refine ⟨hv, ?_⟩
      cases hentry : w.entry <;> rw [hentry] at hk <;> cases hk
      rfl
    · cases h

theorem repins_live {l : LinkId} {i : FlowIx} (h : s.repins l i = true) : (s.flow i).live = true := by
  unfold State.repins at h
  have hpin := pin_eq_some.mp (beq_iff_eq.mp (Bool.and_elim_left h))
  simp [FlowRecord.live, hpin]

theorem repinVisit_keepsRecords (hr : s.RecordsExact) {l : LinkId} {w : Walk} (hw : s.repinWalk = some (l, w)) :
    s.KeepsRecords (s.repinVisit l w) := by
  obtain ⟨hwalk, he⟩ := repinWalk_spec hw
  unfold State.repinVisit
  dsimp only
  split
  · rename_i hpin
    have hl : (s.flow w.flowAt).live = true := repins_live hpin
    exact .otherVisit hr hwalk (by simp [he]) (by simp [he]) rfl (hr.repinFlow hl _) (repinFlow_carries s hl _)
      (·.repinFlow ..) (repinFlow_noNew s hl _) (by simp) (by simp)
  · exact .otherVisit hr hwalk (by simp [he]) (by simp [he]) rfl hr (.refl s) id (.refl _ s) rfl rfl

/-- R130: a start leaves the walker IDLE, or at the first record of a walk of the entry's kind. -/
theorem startWalk_walk (s : State) (e : WalkEntry) :
    (s.startWalk e).tw.walk = none ∨ ∃ w, (s.startWalk e).tw.walk = some w ∧ w.entry = e := by
  cases e with
  | repin l =>
    simp only [State.startWalk]
    split
    · exact .inl rfl
    · exact .inr ⟨_, rfl, rfl⟩
  | _ => exact .inr ⟨_, rfl, rfl⟩

theorem startWalk_notAging {e : WalkEntry} (he : e ≠ .age) : (s.startWalk e).NotAging := by
  obtain h | ⟨w, h, hw⟩ := startWalk_walk s e
  · simp [State.NotAging, h]
  · exact notAging_of_walk h (hw ▸ he)

theorem startWalk_marks {e : WalkEntry} (he : e ≠ .age) :
    (s.startWalk e).tw.currentMark = s.tw.currentMark ∧ (s.startWalk e).tw.previousMark = s.tw.previousMark ∧
      (s.startWalk e).tw.thirdMark = s.tw.thirdMark := by
  cases e with
  | age => exact absurd rfl he
  | repin l =>
    simp only [State.startWalk]
    split <;> simp
  | _ => exact ⟨rfl, rfl, rfl⟩

theorem startable_spec {e : WalkEntry} (he : s.startable = some e) :
    s.tw.walk = none ∧ s.tw.queue = e :: s.tw.queue.tail := by
  unfold State.startable at he
  split at he
  · cases he
  · rename_i hw
    exact ⟨hw, List.eq_cons_of_mem_head? he⟩

theorem startWalk_keepsRecords (hr : s.RecordsExact) {e : WalkEntry} (he : s.startable = some e) :
    s.KeepsRecords ((s.setQueue s.tw.queue.tail).startWalk e) := by
  obtain ⟨hw, hq⟩ := startable_spec he
  have hsame : s.SameRecords ((s.setQueue s.tw.queue.tail).startWalk e) := by constructor <;> simp
  refine .of_same hsame hr (fun hd h => h.startWalk hd hw hq) fun h => ?_
  by_cases hage : e = .age
  · rw [hage]
    exact h.startAge
  · obtain ⟨hcurrent, hprevious, hthird⟩ := startWalk_marks (s := s.setQueue s.tw.queue.tail) hage
    exact h.of_idle (hsame.noNew _) hcurrent hprevious hthird hw (startWalk_notAging hage)

theorem walking_of_ending {w : Walk} (h : s.endingWalk = some w) : s.tw.walk = some w :=
  State.walking_eq (Option.filter_eq_some_iff.mp h).1

theorem ageEnd_keepsRecords (hr : s.RecordsExact) {w : Walk} (hw : s.endingWalk = some w) (he : w.entry = .age) :
    s.KeepsRecords (s.ageEnd w) := by
  have hsame : s.SameRecords (s.ageEnd w) := by constructor <;> simp
  have hs : s.NotZoning := notZoning_of_walk (walking_of_ending hw) (by simp [he])
  refine .of_same hsame hr (fun _ h => ?_) (·.ageEnd hw he)
  exact h.of_other ((State.Carries.refl s).of_eq hsame.subs hsame.flows (by simp)) hs
    (by simp [State.NotZoning, State.ageEnd]) (by simp)

theorem zoneEnd_keepsRecords (hr : s.RecordsExact) {w : Walk} (hw : s.endingWalk = some w) (he : w.entry = .zone) :
    s.KeepsRecords (s.zoneEnd w) := by
  have hsame : s.SameRecords (s.zoneEnd w) := by constructor <;> simp
  refine .of_same hsame hr (fun _ h => h.zoneEnd hw he) fun h => ?_
  exact h.of_other (hsame.noNew _) (by simp) (by simp) (by simp) (walking_of_ending hw) (by simp [he])
    (by simp [State.NotAging, State.zoneEnd])

/-- The end of a RECHECK or a REPIN walk. -/
theorem sameWalks_of_ended {w : Walk} (hw : s.endingWalk = some w) (ha : w.entry ≠ .age) (hz : w.entry ≠ .zone)
    (ht : t.tw.walk = none) : s.SameWalks t :=
  .inr ⟨notAging_of_walk (walking_of_ending hw) ha, notZoning_of_walk (walking_of_ending hw) hz,
    by simp [State.NotAging, ht], by simp [State.NotZoning, ht]⟩

theorem recheckEnd_elsewhere {w : Walk} (hw : s.endingWalk = some w) (he : w.entry = .recheck) :
    s.Elsewhere (s.recheckEnd w) := by
  constructor
  case walks => exact sameWalks_of_ended hw (by simp [he]) (by simp [he]) rfl
  · constructor <;> simp
  all_goals simp

theorem endRepin_elsewhere {w : Walk} {l : LinkId} (hw : s.endingWalk = some w) (he : w.entry.target = some l)
    (m n : Nat) (b : Bool) : s.Elsewhere (s.endRepin l m n b) := by
  constructor
  case walks =>
    have hage : w.entry ≠ .age := fun h => by
      rw [h] at he
      cases he
    have hzone : w.entry ≠ .zone := fun h => by
      rw [h] at he
      cases he
    exact sameWalks_of_ended hw hage hzone rfl
  · constructor <;> simp
  all_goals simp

/-! ## Every move -/

theorem takeSoftReset_phase {ch c : Chan} {b : Bool} (h : (s.takeSoftReset ch).ci.softReset = .clearing c b) :
    s.ci.softReset = .clearing c b := by
  unfold State.takeSoftReset at h
  split at h
  · cases h
  · exact h

theorem takeSoftReset_elsewhere (s : State) (ch : Chan) : s.Elsewhere (s.takeSoftReset ch) := by
  constructor
  · constructor
    case phase => exact fun c b => takeSoftReset_phase
    all_goals simp
  all_goals simp [State.SameWalks]

theorem endClearing_phase (s : State) (ch : Chan) (b : Bool) : (s.endClearing ch b).ci.softReset = .idle := by
  simp [State.endClearing, State.resume]

theorem endClearing_elsewhere (s : State) (ch : Chan) (b : Bool) : s.Elsewhere (s.endClearing ch b) := by
  constructor
  · constructor
    case phase => simp [endClearing_phase]
    all_goals simp
  all_goals simp [State.SameWalks]

theorem State.Moves.keepsRecords (hm : s.Moves t) (hc : s.TablesCanonical) (hr : s.RecordsExact) :
    s.KeepsRecords t := by
  cases hm
  case served hq hk =>
    refine .claimed hr (served_keepsRecords hk (hr.grantTo ..) ?_) (finish_elsewhere ..)
    exact (State.clearing_congr (by simp)).trans (clearing_of_running (State.claim_running hq))
  case posted hq =>
    refine .claimed hr (usagePost_keepsRecords (hr.grantTo ..) ?_ ..) (completePosted_elsewhere ..)
    exact (State.clearing_congr (by simp)).trans (clearing_of_running (State.claim_running hq))
  case clearingBegun => exact beginClearing_keepsRecords hr hc ..
  case powerOn => exact powerOn_keepsRecords s
  case advanced hd => exact advanceCount_keepsRecords hr hd
  case grantExpired hrun hi => exact expireGrant_keepsRecords hr (clearing_of_running hrun) hi
  case unwound hrun hx => exact retire_keepsRecords hr (clearing_of_running hrun) (State.unwindFlow_live hr.2 hx)
  case unwindEnded hrun hx => exact endUnwinding_keepsRecords hr (clearing_of_running hrun) hx
  case walkStarted he => exact startWalk_keepsRecords hr he
  case pass1Visited hw => exact pass1Visit_keepsRecords hr hw
  case pass2Visited hw => exact pass2Visit_keepsRecords hr hw
  case zoneVisited hw => exact zoneVisit_keepsRecords hr hw
  case recheckVisited hw => exact recheckVisit_keepsRecords hr hw
  case repinVisited hw => exact repinVisit_keepsRecords hr hw
  case ageEnded hw he => exact ageEnd_keepsRecords hr hw he
  case zoneEnded hw he => exact zoneEnd_keepsRecords hr hw he
  case recheckEnded hw he => exact .of_elsewhere (recheckEnd_elsewhere hw he) hr
  case repinEnded hw he => exact .of_elsewhere (endRepin_elsewhere hw he ..) hr
  case clearingEnded => exact .of_elsewhere (endClearing_elsewhere ..) hr
  case softResetTaken => exact .of_elsewhere (takeSoftReset_elsewhere ..) hr
  all_goals
    refine .of_elsewhere ?_ hr
    constructor
    · constructor <;> simp
    all_goals simp [State.SameWalks]

/-- Settles O58: the step is idle, or a move on the state with its command taken, whose records are the same. -/
theorem recordsStayExact : Obligations.RecordsStayExact := by
  intro s t hstep hc hr
  obtain rfl | ⟨rest, hm⟩ := step_moves hstep
  · exact ⟨hr, id, id, id, fun _ => id, fun _ => id⟩
  · obtain ⟨hexact, htags, hkeys, horder, hcounts, hzones, -⟩ := hm.keepsRecords hc hr
    exact ⟨hexact, htags, hkeys, horder, hcounts, hzones⟩

/-- Settles O59: the marks are kept with the records, move by move. -/
theorem theEmptyMarkStaysUnused : Obligations.TheEmptyMarkStaysUnused := by
  intro s t hstep hc hr hmarks
  obtain rfl | ⟨rest, hm⟩ := step_moves hstep
  · exact hmarks
  · exact (hm.keepsRecords hc hr).marks hmarks

end Sys2Proof.Machine
end

section
/-! PROOFS. When a claim comes about (O3), what the device does in INIT (O6), and the reset values (O4). -/

namespace Sys2Proof.Machine

/-! ## Claims -/

/-- R2, R26: rotation as a least distance past the last channel granted. -/
theorem nextGranted_eq_some_iff {last ch : Chan} {waits : Chan → Bool} :
    nextGranted last waits = some ch ↔
      waits ch = true ∧ ∀ c, waits c = true → (ch - (last + 1)).val ≤ (c - (last + 1)).val := by
  have hmap : nextGranted last waits = (Fin.find? fun k => waits (last + 1 + k)).map (last + 1 + ·) := by
    rw [nextGranted, List.find?_map, Fin.find?_eq_find?_finRange]
    rfl
  rw [hmap, Option.map_eq_some_iff]
  constructor
  · rintro ⟨k, hk, rfl⟩
    obtain ⟨hwaits, hleast⟩ := Fin.find?_eq_some_iff.mp hk
    refine ⟨hwaits, fun c hc => ?_⟩
    by_contra hlt
    have hfalse := hleast (c - (last + 1)) (by simpa using hlt)
    rw [add_sub_cancel, hc] at hfalse
    cases hfalse
  · rintro ⟨hwaits, hleast⟩
    refine ⟨ch - (last + 1), Fin.find?_eq_some_iff.mpr ⟨by simpa using hwaits, fun j hj => ?_⟩, by simp⟩
    by_contra hj'
    have hle := hleast (last + 1 + j) (by simpa using hj')
    rw [add_sub_cancel_left] at hle
    exact absurd hj (Nat.not_lt.mpr hle)

theorem State.handed_eq_some_iff {s : State} {o : Owner} {ch : Chan} {r : Request} :
    s.handed o ch = some r ↔ (s.chan ch).outstanding.map Outstanding.request = some r ∧ r.owner = o := by
  unfold State.handed
  cases (s.chan ch).outstanding with
  | none => simp
  | some out =>
    simp only [Option.map_some, Option.some.injEq, Option.ite_none_right_eq_some]
    constructor
    · rintro ⟨ho, rfl⟩
      exact ⟨rfl, ho⟩
    · rintro ⟨rfl, ho⟩
      exact ⟨ho, rfl⟩

theorem State.handed_isSome {s : State} {o : Owner} {c : Chan} :
    (s.handed o c).isSome = true ↔ ∃ out, (s.chan c).outstanding = some out ∧ out.request.owner = o := by
  simp [Option.isSome_iff_exists, State.handed_eq_some_iff]

theorem State.running_iff {s : State} :
    s.running = true ↔ s.resetHeld = false ∧ s.al.ready = true ∧ ∀ c b, s.ci.softReset ≠ .clearing c b := by
  unfold State.running
  cases s.ci.softReset <;> simp

/-- R2, R26: the arbiters of the STC and the FTC decide; the other owners take any request handed to them. -/
theorem State.grants_iff {s : State} {o : Owner} {ch : Chan} {r : Request} (h : s.handed o ch = some r) :
    s.grants o ch = true ↔
      (o = .stc → ∀ c out, (s.chan c).outstanding = some out → out.request.owner = .stc →
        (ch - (s.stc.lastGranted + 1)).val ≤ (c - (s.stc.lastGranted + 1)).val) ∧
      (o = .ftc → ∀ c out, (s.chan c).outstanding = some out → out.request.owner = .ftc →
        (ch - (s.ftc.lastGranted + 1)).val ≤ (c - (s.ftc.lastGranted + 1)).val) := by
  cases o <;> simp [State.grants, nextGranted_eq_some_iff, State.handed_isSome, h]

/-- Settles O3: a claim is a running device, a request handed over and the arbiter's grant; each has its equivalence. -/
theorem claimsComeAboutInRotation : Obligations.ClaimsComeAboutInRotation := by
  intro s o ch r
  have hclaim : s.claim o ch = some r ↔ s.running = true ∧ s.handed o ch = some r ∧ s.grants o ch = true := by
    simp only [State.claim, Bool.and_eq_true, Option.ite_none_right_eq_some]
    tauto
  rw [hclaim, State.running_iff]
  constructor
  · rintro ⟨⟨hreset, hready, hphase⟩, hhanded, hgrants⟩
    obtain ⟨hout, howner⟩ := State.handed_eq_some_iff.mp hhanded
    exact ⟨hreset, hready, hphase, hout, howner, (State.grants_iff hhanded).mp hgrants⟩
  · rintro ⟨hreset, hready, hphase, hout, howner, hrotation⟩
    have hhanded := State.handed_eq_some_iff.mpr ⟨hout, howner⟩
    exact ⟨⟨hreset, hready, hphase⟩, hhanded, (State.grants_iff hhanded).mpr hrotation⟩

/-! ## INIT -/

theorem State.claim_of_not_running {s : State} (h : s.running = false) (o : Owner) (ch : Chan) :
    s.claim o ch = none := by
  simp [State.claim, h]

/-- Settles O6: without a running device no claim, timer, walk or unwinding comes about. -/
theorem nothingElseHappensInInit : Obligations.NothingElseHappensInInit := by
  intro c s hinit hc hphase
  have hrun : s.running = false := by
    rw [Bool.eq_false_iff, ne_eq, State.running_iff]
    rintro ⟨hreset, hready, -⟩
    simp [hreset, hready] at hinit
  have hclaim := State.claim_of_not_running hrun
  have hwalk : s.walking = none := by simp [State.walking, hrun]
  cases c
  case powerOnReset | resetNRelease | initializationComplete | stagingWrite | requestSubmit | responseRelease
    | ignoredWrite => exact hc.elim
  all_goals refine congrArg Host.Outcome.next ?_
  case softResetClearing =>
    have hclear : s.clearingFor = none := by
      unfold State.clearingFor
      split <;> simp [hrun]
    rw [hclear]
  case softResetComplete =>
    split
    · rename_i hp
      exact absurd hp (hphase _ _)
    all_goals rfl
  case dispatch ch =>
    have hnone : s.dispatchable ch = none := by simp [State.dispatchable, hrun]
    rw [hnone]
  case shipSecondAdvance =>
    have hoff : (!s.resetHeld && s.al.ready) = false := by
      obtain h | h := hinit <;> simp [h]
    simp [hoff]
  case agePass1Visit => simp [State.pass1Walk, hwalk]
  case agePass2Visit => simp [State.pass2Walk, hwalk]
  case zoneVisit => simp [State.zoneWalk, hwalk]
  case recheckVisit => simp [State.recheckWalk, hwalk]
  case repinVisit => simp [State.repinWalk, hwalk]
  case ageWalkEnd | zoneWalkEnd | recheckWalkEnd | repinWalkEnd => simp [State.endingWalk, hwalk]
  case drainedNotice | grantDeadlineExpiry | staleExpiry | autoSnapshot | ageExpiry | walkStart | unwindStep
    | endOfUnwinding => simp [hrun]
  all_goals rw [hclaim]

/-! ## Power-on reset -/

theorem reset_zone (z : ZoneIx) : State.reset.zone z = { defined := z == 0, cls := 0 } := by
  have hvalue : State.reset.zone z =
      ((Vector.replicate 32 .powerOn).set 0 ({ defined := true, cls := 0 } : ZoneRecord))[z.toNat]'z.isLt := rfl
  rw [hvalue, Vector.getElem_set]
  by_cases h : z = 0
  · simp [h]
  · have hne : 0 ≠ z.toNat := fun h0 => h (BitVec.eq_of_toNat_eq h0.symm)
    simpa [hne, ZoneRecord.powerOn] using h

theorem reset_tariff (t : TariffIx) : State.reset.tariff t = { defined := t == 0, terms := .powerOn } := by
  have hvalue : State.reset.tariff t = ((Vector.replicate 64 { defined := false, terms := .powerOn }).set 0
      ({ defined := true, terms := .powerOn } : TariffRecord))[t.toNat]'t.isLt := rfl
  rw [hvalue, Vector.getElem_set]
  by_cases h : t = 0
  · simp [h]
  · have hne : 0 ≠ t.toNat := fun h0 => h (BitVec.eq_of_toNat_eq h0.symm)
    simpa [hne] using h

/-- Settles O4: each value is read off the reset state; those of the links and the channels, one by one. -/
theorem resetValues : Obligations.ResetValues := by
  refine ⟨fun i => rfl, fun i => rfl, fun b => rfl, ?_, rfl, rfl, rfl, rfl, rfl, ?_, reset_zone, rfl,
    rfl, rfl, rfl, reset_tariff, rfl, rfl, rfl, rfl, rfl, rfl, rfl, rfl, rfl, ?_, rfl, rfl, rfl⟩
  · decide
  · decide
  · decide

end Sys2Proof.Machine
end

section
/-! PROOFS. What a claim that is answered in itself executes: the instruction of a request, and its outcome. -/

namespace Sys2Proof.Machine

/-- The command that takes a request from channel `ch`. -/
def Request.instr (ch : Chan) : Request → Instr
  | .attach .. => .attach ch
  | .detach .. => .detach ch
  | .subFind .. => .subFind ch
  | .subRead .. => .subRead ch
  | .subUpdate .. => .subUpdate ch
  | .grant .. => .grant ch
  | .settle .. => .settle ch
  | .usagePost .. => .usagePost ch
  | .flowOpen .. => .flowOpen ch
  | .flowClose .. => .flowClose ch
  | .flowFind .. => .flowFind ch
  | .charge .. => .charge ch
  | .flowRead .. => .flowRead ch
  | .flowUpdate .. => .flowUpdate ch
  | .linkReport .. => .linkReport ch
  | .linkAdmin _ .enable => .enable ch
  | .linkAdmin _ .disable => .disable ch
  | .linkAdmin _ .drain => .drain ch
  | .linkAdmin _ .inject => .inject ch
  | .linkAdmin _ .snapshot => .snapshot ch
  | .linkConfig .. => .linkConfig ch
  | .linkRead .. => .linkRead ch
  | .zoneChange .. => .zoneChange ch
  | .zoneDefine .. => .zoneDefine ch
  | .zoneRead .. => .zoneRead ch
  | .agreementSet .. => .agreementSet ch
  | .agreementRemove .. => .agreementRemove ch
  | .agreementFind .. => .agreementFind ch
  | .tariffSet .. => .tariffSet ch
  | .tariffRead .. => .tariffRead ch
  | .age => .age ch
  | .walkStatus .. => .walkStatus ch
  | .walkAbort .. => .walkAbort ch
  | .noticeFetch .. => .noticeFetch ch
  | .deviceStatus => .deviceStatus ch
  | .deviceConfig .. => .deviceConfig ch
  | .channelStatus .. => .channelStatus ch
  | .clearFault => .clearFault ch
  | .channelSet .. => .channelSet ch
  | .channelReset .. => .channelReset ch
  | .softReset => .softReset ch

/-- A claim on a request that is answered in the claim: the arbiter's grant, the operation, the completion. -/
theorem exec_of_claim {s : State} {o : Owner} {ch : Chan} {q : Request} {k : Taken} (hq : s.claim o ch = some q)
    (hk : (s.grantTo o ch).served ch q = some k) : exec (q.instr ch) s = .next (k.finish ch) := by
  have ho := State.claim_owner hq
  cases q
  case usagePost | deviceConfig | softReset => cases hk
  case linkAdmin code a =>
    cases a
    all_goals
      obtain rfl := Option.some.inj hk
      simp only [Request.owner] at ho
      subst ho
      refine congrArg Host.Outcome.next ?_
      rw [hq]
      rfl
  all_goals
    obtain rfl := Option.some.inj hk
    simp only [Request.owner] at ho
    subst ho
    refine congrArg Host.Outcome.next ?_
    rw [hq]
  all_goals rfl

/-- A request answered with nothing changed. -/
theorem exec_onlyAnswers {s : State} {o : Owner} {ch : Chan} {q : Request} {r : Reply} (hq : s.claim o ch = some q)
    (hk : (s.grantTo o ch).served ch q = some (s.grantTo o ch, r)) :
    ∃ t, exec (q.instr ch) s = .next t ∧ s.OnlyAnswers o ch r t :=
  ⟨_, exec_of_claim hq hk, Taken.finish_onlyAnswers r hq⟩

/-- A request whose operation leaves the CI alone: it completes with its reply. -/
theorem exec_answers {s u : State} {o : Owner} {ch : Chan} {q : Request} {r : Reply} (hq : s.claim o ch = some q)
    (hk : (s.grantTo o ch).served ch q = some (u, r)) (hu : s.SameCi u) :
    exec (q.instr ch) s = .next (u.complete ch r) ∧ s.Answers ch r (u.complete ch r) :=
  ⟨exec_of_claim hq hk, Taken.finish_answers (k := (u, r)) hq hu.1 hu.2.1 hu.2.2⟩

theorem complete_sameTerms {s u : State} (ch : Chan) (r : Reply) (h : s.SameTerms u) :
    s.SameTerms (u.complete ch r) := by
  simpa [State.SameTerms] using h

end Sys2Proof.Machine
end

section
/-! PROOFS. Condition nibbles (O14), and the requests that a stale handle or a false guard stops (O15). -/

namespace Sys2Proof.Machine

/-! ## Nibbles -/

theorem guardedNibble_eq (v o : Word) (so : Bool) :
    guardedNibble v o so =
      { lt := decide (v.toNat < o.toNat), gt := decide (o.toNat < v.toNat), eq := decide (v = o), so := so } := by
  simp [guardedNibble, BitVec.lt_def, Bool.beq_eq_decide_eq]

theorem subNibble_spec (s : State) (i : SubIx) :
    ((s.subNibble i).lt = true ↔
        ∃ k, (s.sub i).tariff = some k ∧ (s.sub i).byteAllowance.toNat < (s.tariff k).terms.lowBytes.toNat) ∧
      ((s.subNibble i).eq = true ↔ (s.sub i).byteAllowance = 0) ∧
      ((s.subNibble i).gt = true ↔ (s.sub i).closed ≠ none) ∧ (s.subNibble i).so = (s.sub i).so := by
  unfold State.subNibble State.nibbleOf
  refine ⟨?_, by simp, by simp [Option.isSome_iff_ne_none], rfl⟩
  cases (s.sub i).tariff <;> simp [BitVec.lt_def]

/-- Settles O14: the field values by the codes of each enumeration, the nibbles by their definitions. -/
theorem conditionNibbles : Obligations.ConditionNibbles := by
  refine ⟨fun r => ⟨?_, ?_, rfl, rfl, rfl, ?_, ?_, rfl, rfl⟩, fun f => ⟨?_, ?_, fun l hl => ?_, fun hh => ?_, rfl⟩,
    guardedNibble_eq, fun s i g before => rfl, fun s i before => rfl, fun s i g before => rfl, fun s i before => rfl,
    subNibble_spec⟩
  · rw [SubGuardField.value]
    cases r.state <;> rfl
  · rw [SubGuardField.value]
    cases r.cls <;> rfl
  · rw [SubGuardField.value]
    cases r.grant <;> rfl
  · rw [SubGuardField.value]
    cases r.closed <;> rfl
  · rw [FlowGuardField.value]
    cases f.state <;> rfl
  · rw [FlowGuardField.value]
    cases f.cls <;> rfl
  · simp [FlowGuardField.value, FlowRecord.pin, hl, linkCode]
  · simp [FlowGuardField.value, FlowRecord.pin, hh, linkCode]

/-! ## A stale handle -/

section
variable {u : State} {h : SubHandle} (hs : u.subOf h = none)
include hs

theorem detach_stale (g : Option SubGuard) : u.detach h g = (u, .plain .staleHandle []) := by
  simp [State.detach, hs]

theorem grantCredit_stale (g : Option SubGuard) (b n : Word) :
    u.grantCredit h g b n = (u, .plain .staleHandle (blank 7)) := by
  simp [State.grantCredit, hs]

theorem settle_stale (g : Option SubGuard) (p : SettlePart) :
    u.settle h g p = (u, .plain .staleHandle (blank 8)) := by
  simp [State.settle, hs]

theorem subUpdate_stale (g : Option SubGuard) {f : SubField} {a : UpdateAction} {v : Word}
    (ha : f.accepts a v = true) : u.subUpdate h g f a v = (u, .plain .staleHandle (blank 3)) := by
  simp [State.subUpdate, hs, ha]

end

section
variable {u : State} {h : FlowHandle} (hs : u.flowOf h = none)
include hs

theorem flowClose_stale (g : Option FlowGuard) : u.flowClose h g = (u, .plain .staleHandle []) := by
  simp [State.flowClose, hs]

theorem flowUpdate_stale (g : Option FlowGuard) {f : FlowField} {a : UpdateAction} {v : Word}
    (ha : f.accepts a v = true) : u.flowUpdate h g f a v = (u, .plain .staleHandle (blank 3)) := by
  simp [State.flowUpdate, hs, ha]

end

/-! ## A false guard -/

section
variable {u : State} {h : SubHandle} {g : Option SubGuard} {x : SubGuard} (hg : g = some x)
  (hs : u.subOf h = some (u.sub h.index))
  (hx : x.passes (x.field.value (u.sub h.index)) = false)
include hg hs hx

theorem detach_guardFalse : u.detach h g =
    (u, .of .guardFalse (u.nibbleAfter h.index (some x) (u.sub h.index)) []) := by
  simp [State.detach, hs, subGuardPasses, hg, hx]

theorem grantCredit_guardFalse (b n : Word) : u.grantCredit h g b n =
    (u, .of .guardFalse (u.nibbleAfter h.index (some x) (u.sub h.index)) (u.grantBody h.index)) := by
  simp [State.grantCredit, hs, subGuardPasses, hg, hx]

theorem settle_guardFalse (p : SettlePart) : u.settle h g p =
    (u, .of .guardFalse (u.nibbleAfter h.index (some x) (u.sub h.index))
      (settleBody h (u.sub h.index).state none none)) := by
  simp [State.settle, hs, subGuardPasses, hg, hx]

theorem subUpdate_guardFalse {f : SubField} {a : UpdateAction} {v : Word} (ha : f.accepts a v = true) :
    u.subUpdate h g f a v =
      (u, .of .guardFalse (u.nibbleAfter h.index (some x) (u.sub h.index)) (blank 3)) := by
  simp [State.subUpdate, hs, ha, subGuardPasses, hg, hx]

end

section
variable {u : State} {h : FlowHandle} {g : Option FlowGuard} {x : FlowGuard} (hg : g = some x)
  (hs : u.flowOf h = some (u.flow h.index))
  (hx : x.passes (x.field.value (u.flow h.index)) = false)
include hg hs hx

theorem flowClose_guardFalse : u.flowClose h g =
    (u, .of .guardFalse (u.flowNibbleAfter (u.flow h.index).owner.index (some x) (u.flow h.index)) []) := by
  simp [State.flowClose, hs, flowGuardPasses, hg, hx]

theorem flowUpdate_guardFalse {f : FlowField} {a : UpdateAction} {v : Word} (ha : f.accepts a v = true) :
    u.flowUpdate h g f a v =
      (u, .of .guardFalse (u.flowNibbleAfter (u.flow h.index).owner.index (some x) (u.flow h.index)) (blank 3)) := by
  simp [State.flowUpdate, hs, ha, flowGuardPasses, hg, hx]

end

/-- GRANT under GUARD_FALSE gives the record's credit as it stands. -/
theorem grantBody_eq {u : State} {h : SubHandle} (hs : (u.sub h.index).stamp = h.stamp) :
    u.grantBody h.index = [h.word, put 0 (u.sub h.index).grant.code,
      (match (u.sub h.index).grant with
        | .requested d => d
        | .none => 0
        | .timedOut => 0),
      (u.sub h.index).byteAllowance, (u.sub h.index).secondsAllowance, (u.sub h.index).byteOverrun,
      (u.sub h.index).secondsOverrun] := by
  have hword : u.subHandle h.index = h := by simp [State.subHandle, hs]
  rw [State.grantBody, hword]
  cases (u.sub h.index).grant <;> rfl

theorem settleBody_none (h : SubHandle) (x : SubState) :
    settleBody h x none none = [h.word, put 0 x.code, 0, 0, 0, 0, 0, 0] := by
  cases x <;> rfl

/-- What R4 and R146 say of a request on a subscriber handle: answered with nothing changed. -/
def State.SubStops (s : State) (ch : Chan) (h : SubHandle) (g : Option SubGuard) (c : Instr)
    (stale refused : List Word) : Prop :=
  ((s.sub h.index).state = .vacant ∨ (s.sub h.index).stamp ≠ h.stamp →
    ∃ t, exec c s = .next t ∧ s.OnlyAnswers .stc ch (.plain .staleHandle stale) t) ∧
  ((s.sub h.index).state ≠ .vacant → (s.sub h.index).stamp = h.stamp → ∀ x, g = some x →
    x.passes (x.field.value (s.sub h.index)) = false →
      ∃ t, exec c s = .next t ∧ s.OnlyAnswers .stc ch
        (.of .guardFalse (guardedNibble (x.field.value (s.sub h.index)) x.operand (s.sub h.index).so) refused) t)

/-- A request stops where its operation on the granted state answers alone. -/
theorem State.subStops_of {s : State} {ch : Chan} {h : SubHandle} {g : Option SubGuard} {q : Request}
    {stale : List Word} {refused : State → List Word} (op : State → Taken) (hq : s.claim .stc ch = some q)
    (hop : ∀ u : State, u.served ch q = some (op u))
    (hstale : ∀ u : State, u.subOf h = none → op u = (u, .plain .staleHandle stale))
    (hguard : ∀ (u : State) (x : SubGuard), g = some x → u.subOf h = some (u.sub h.index) →
      x.passes (x.field.value (u.sub h.index)) = false →
      op u = (u, .of .guardFalse (u.nibbleAfter h.index (some x) (u.sub h.index)) (refused u))) :
    s.SubStops ch h g (q.instr ch) stale (refused (s.grantTo .stc ch)) := by
  refine ⟨fun hs => exec_onlyAnswers hq ?_, fun hlive hstamp x hx hpass => exec_onlyAnswers hq ?_⟩
  · rw [hop, hstale _ (by simpa using State.subOf_none hs)]
  · rw [hop, hguard _ x hx (by simpa using State.subOf_some hlive hstamp) (by simpa using hpass)]
    simp [State.nibbleAfter]

theorem State.flowStops_of {s : State} {ch : Chan} {h : FlowHandle} {g : Option FlowGuard} {q : Request}
    {zeros : List Word} (op : State → Taken) (hq : s.claim .ftc ch = some q)
    (hop : ∀ u : State, u.served ch q = some (op u))
    (hstale : ∀ u : State, u.flowOf h = none → op u = (u, .plain .staleHandle zeros))
    (hguard : ∀ (u : State) (x : FlowGuard), g = some x → u.flowOf h = some (u.flow h.index) →
      x.passes (x.field.value (u.flow h.index)) = false →
      op u = (u, .of .guardFalse
        (u.flowNibbleAfter (u.flow h.index).owner.index (some x) (u.flow h.index)) zeros)) :
    ((s.flow h.index).state = .vacant ∨ (s.flow h.index).stamp ≠ h.stamp →
      ∃ t, exec (q.instr ch) s = .next t ∧ s.OnlyAnswers .ftc ch (.plain .staleHandle zeros) t) ∧
    ((s.flow h.index).state ≠ .vacant → (s.flow h.index).stamp = h.stamp → ∀ x, g = some x →
      x.passes (x.field.value (s.flow h.index)) = false →
        ∃ t, exec (q.instr ch) s = .next t ∧ s.OnlyAnswers .ftc ch
          (.of .guardFalse (guardedNibble (x.field.value (s.flow h.index)) x.operand
            (s.sub (s.flow h.index).owner.index).so) zeros) t) := by
  refine ⟨fun hs => exec_onlyAnswers hq ?_, fun hlive hstamp x hx hpass => exec_onlyAnswers hq ?_⟩
  · rw [hop, hstale _ (by simpa using State.flowOf_none hs)]
  · rw [hop, hguard _ x hx (by simpa using State.flowOf_some hlive hstamp) (by simpa using hpass)]
    simp [State.flowNibbleAfter]

/-- Settles O15: each request's operation on the granted state, whose records are those of the state. -/
theorem handleAndGuardStopARequest : Obligations.HandleAndGuardStopARequest := by
  refine ⟨fun s ch h g c q stale refused hq => ?_, fun s ch h g c q zeros hq => ?_⟩
  · dsimp only
    rintro (⟨rfl, rfl, rfl, rfl⟩ | ⟨b, n, rfl, rfl, rfl, rfl⟩ | ⟨p, rfl, rfl, rfl, rfl⟩ |
      ⟨f, a, v, rfl, rfl, ha, rfl, rfl⟩)
    · exact State.subStops_of (·.detach h g) hq (fun _ => rfl) (fun u hs => detach_stale hs g)
        fun u x hx hs hpass => detach_guardFalse hx hs hpass
    · have hstops := State.subStops_of (·.grantCredit h g b n) hq (fun _ => rfl)
          (fun u hs => grantCredit_stale hs g b n)
        fun u x hx hs hpass => grantCredit_guardFalse hx hs hpass b n
      refine ⟨hstops.1, fun hlive hstamp => ?_⟩
      have hbody := grantBody_eq (u := s.grantTo .stc ch) (h := h) (by simpa using hstamp)
      simp only [grantTo_frame] at hbody
      exact hbody ▸ hstops.2 hlive hstamp
    · have hstops := State.subStops_of (·.settle h g p) hq (fun _ => rfl) (fun u hs => settle_stale hs g p)
        fun u x hx hs hpass => settle_guardFalse hx hs hpass p
      simp only [settleBody_none, grantTo_frame] at hstops
      exact hstops
    · exact State.subStops_of (·.subUpdate h g f a v) hq (fun _ => rfl) (fun u hs => subUpdate_stale hs g ha)
        fun u x hx hs hpass => subUpdate_guardFalse hx hs hpass ha
  · dsimp only
    rintro (⟨rfl, rfl, rfl⟩ | ⟨f, a, v, rfl, rfl, ha, rfl⟩)
    · exact State.flowStops_of (·.flowClose h g) hq (fun _ => rfl) (fun u hs => flowClose_stale hs g)
        fun u x hx hs hpass => flowClose_guardFalse hx hs hpass
    · exact State.flowStops_of (·.flowUpdate h g f a v) hq (fun _ => rfl) (fun u hs => flowUpdate_stale hs g ha)
        fun u x hx hs hpass => flowUpdate_guardFalse hx hs hpass ha

end Sys2Proof.Machine
end

section
/-! PROOFS. SOFT_RESET: taken, its clearing, and its end (O12). -/

namespace Sys2Proof.Machine

variable {s : State}

theorem takeSoftReset_of_not_idle (h : s.ci.softReset ≠ .idle) (ch : Chan) : s.takeSoftReset ch = s := by
  simp [State.takeSoftReset, h]

theorem exec_softReset_of_not_idle (h : s.ci.softReset ≠ .idle) (ch : Chan) : exec (.softReset ch) s = .next s := by
  refine congrArg Host.Outcome.next ?_
  split
  · exact takeSoftReset_of_not_idle h ch
  · rfl

theorem exec_dispatch_of_not_idle (h : s.ci.softReset ≠ .idle) (ch : Chan) : exec (.dispatch ch) s = .next s := by
  have hnone : s.dispatchable ch = none := by simp [State.dispatchable, h]
  refine congrArg Host.Outcome.next ?_
  rw [hnone]

theorem ChannelRecord.quiescent_iff (c : ChannelRecord) :
    c.quiescent = true ↔ ∀ out, c.outstanding = some out → out.request = .softReset := by
  unfold ChannelRecord.quiescent
  cases c.outstanding <;> simp

theorem clearingFor_eq_some {ch : Chan} (hp : s.ci.softReset = .waiting ch) (hr : s.resetHeld = false)
    (hi : s.al.ready = true)
    (hq : ∀ c out, (s.chan c).outstanding = some out → out.request = .softReset) : s.clearingFor = some ch := by
  have hall : channels.all (fun c => (s.chan c).quiescent) = true :=
    List.all_eq_true.mpr fun c _ => (ChannelRecord.quiescent_iff _).mpr (hq c)
  simp [State.clearingFor, hp, State.running, hr, hi, hall]

theorem clearingFor_eq_none {ch c : Chan} {out : Outstanding} (hp : s.ci.softReset = .waiting ch)
    (ho : (s.chan c).outstanding = some out) (hne : out.request ≠ .softReset) : s.clearingFor = none := by
  have hall : channels.all (fun c => (s.chan c).quiescent) = false := by
    rw [Bool.eq_false_iff, ne_eq, List.all_eq_true]
    exact fun h => hne ((ChannelRecord.quiescent_iff _).mp (h c (by simp [channels])) out ho)
  simp [State.clearingFor, hp, hall]

theorem beginClearing_chan (s : State) (ch c : Chan) (b : Bool) :
    (s.beginClearing ch b).chan c = { s.chan c with pendingFault := none, faultOverflow := 0 } := by
  have h : (s.beginClearing ch b).chan c = (s.ci.channels.map ChannelRecord.faultCleared)[c] := by
    unfold State.beginClearing
    dsimp only
    split <;> rfl
  rw [h]
  simp [ChannelRecord.faultCleared, State.chan]

theorem beginClearing_al (s : State) (ch : Chan) (b : Bool) :
    (s.beginClearing ch b).al = { s.al with
      list := if b then [] else s.al.list, overrunBitmap := if b then 0 else s.al.overrunBitmap } := by
  cases b <;> rfl

/-- The blocks that do not turn on whether the list is emptied now. -/
theorem beginClearing_rest (s : State) (ch : Chan) (b : Bool) :
    (s.beginClearing ch b).lm = s.lm.cleared ∧ (s.beginClearing ch b).zas = s.zas ∧
      (s.beginClearing ch b).tw = s.tw.cleared ∧ (s.beginClearing ch b).ci.softReset = .clearing ch b ∧
      (s.beginClearing ch b).resetHeld = s.resetHeld ∧ (s.beginClearing ch b).pending = s.pending := by
  cases b <;> exact ⟨rfl, rfl, rfl, rfl, rfl, rfl⟩

theorem SubRecord.cleared_of_state (r : SubRecord) :
    r.cleared = if r.state = .vacant then r else { SubRecord.powerOn with stamp := r.stamp + 1 } := by
  by_cases h : r.state = .vacant <;> simp [SubRecord.cleared, SubRecord.live, SubRecord.vacated, h]

theorem FlowRecord.cleared_of_state (f : FlowRecord) :
    f.cleared = if f.state = .vacant then f else { FlowRecord.powerOn with stamp := f.stamp + 1 } := by
  by_cases h : f.state = .vacant <;> simp [FlowRecord.cleared, FlowRecord.live, FlowRecord.vacated, h]

theorem LinkRecord.afterClearing_eq (r : LinkRecord) (n : Second) :
    r.afterClearing n = { r with
      deadline := if r.state = .probing ∨ r.state = .up ∨ r.state = .lost
        then some (n + r.config.staleInterval.setWidth 32) else r.deadline } := by
  rw [← BitVec.ofNat_toNat]
  unfold LinkRecord.afterClearing
  split <;> rename_i h
  · rw [if_pos (.inl h)]
  · rw [if_pos (.inr (.inl h))]
  · rw [if_pos (.inr (.inr h))]
  · rw [if_neg (by simp [h])]
  · rw [if_neg (by simp [h])]

theorem endClearing_link (s : State) (ch : Chan) (b : Bool) (l : LinkId) :
    (s.endClearing ch b).link l = { s.link l with
      deadline := if (s.link l).state = .probing ∨ (s.link l).state = .up ∨ (s.link l).state = .lost
        then some (s.al.count + (s.link l).config.staleInterval.setWidth 32) else (s.link l).deadline } := by
  rw [← LinkRecord.afterClearing_eq]
  cases b <;> simp [State.endClearing, State.resume, State.link, State.emptyList]

theorem endClearing_al (s : State) (ch : Chan) (b : Bool) :
    (s.endClearing ch b).al = { s.al with
      list := if b then s.al.list else [], overrunBitmap := if b then s.al.overrunBitmap else 0
      ageDeadline := if s.al.ageInterval = 0 then s.al.ageDeadline else some (s.al.count + s.al.ageInterval) } := by
  cases b <;> simp [State.endClearing, State.resume, Al.afterClearing, State.emptyList]

theorem endClearing_answers {ch : Chan} {o : Outstanding} (ho : (s.chan ch).outstanding = some o) (b : Bool) :
    State.Answers { s with ci := { s.ci with softReset := .idle } } ch (.plain .ok []) (s.endClearing ch b) := by
  cases b with
  | false =>
    have houtstanding : (s.emptyList.resume.chan ch).outstanding = some o := ho
    exact (State.complete_answers _ houtstanding).of_ci rfl rfl rfl
  | true =>
    have houtstanding : (s.resume.chan ch).outstanding = some o := ho
    exact (State.complete_answers _ houtstanding).of_ci rfl rfl rfl

/-- Settles O12: the clearing block by block, and its end. -/
theorem softResetClearsTheTables : Obligations.SoftResetClearsTheTables := by
  refine ⟨fun s ch hq hidle => ?_, fun s ch h => ⟨exec_softReset_of_not_idle h ch, exec_dispatch_of_not_idle h ch⟩,
    fun s ch c b out hp ho hne => ?_, fun s ch b htables hr hi hp hq => ?_, fun s ch b o hp ho hreq => ?_⟩
  · refine congrArg Host.Outcome.next ?_
    rw [hq]
    simp [State.takeSoftReset, hidle, State.setPhase]
  · refine congrArg Host.Outcome.next ?_
    rw [clearingFor_eq_none hp ho hne]
  · have hexec : exec (.softResetClearing b) s = .next (s.beginClearing ch b) := by
      refine congrArg Host.Outcome.next ?_
      rw [clearingFor_eq_some hp hr hi hq]
    obtain ⟨hsub, hflow⟩ := beginClearing_records s htables ch b
    obtain ⟨hstc, hftc⟩ := beginClearing_blocks s ch b
    obtain ⟨hlm, hzas, htw, hphase, hreset, hpending⟩ := beginClearing_rest s ch b
    refine ⟨_, hexec, fun i => ?_, ?_, ?_, ?_, ?_, fun i => ?_, fun k => ?_, fun l => ?_, ?_, ?_, fun l => ?_,
      fun l => ?_, hzas, htw, beginClearing_al s ch b, fun c => beginClearing_chan s ch c b, hphase, hreset, hpending⟩
    · rw [hsub, SubRecord.cleared_of_state]
    · rw [hstc]; rfl
    · rw [hstc]; rfl
    · rw [hstc]; rfl
    · rw [hstc]; rfl
    · rw [hflow, FlowRecord.cleared_of_state]
    · rw [State.plru, hftc]; rfl
    · simp [State.pinnedCount, hftc, Ftc.cleared]
    · rw [hftc]; rfl
    · rw [hlm]; rfl
    · simp [State.drainedWaiting, hlm, Lm.cleared]
    · simp [State.autoSnapshotDue, hlm, Lm.cleared]
  · have hexec : exec .softResetComplete s = .next (s.endClearing ch b) := by
      refine congrArg Host.Outcome.next ?_
      rw [hp]
    exact ⟨_, hexec, endClearing_answers ho b, endClearing_link s ch b, by simp, by simp, endClearing_al s ch b,
      by simp, by simp, by simp, by simp⟩

end Sys2Proof.Machine
end

section
/-! PROOFS. GRANT of a live record (O19) and DETACH (O28), by the record's state. -/

namespace Sys2Proof.Machine

variable {s : State}

theorem subGuardPasses_false {g : Option SubGuard} {r : SubRecord} (h : subGuardPasses g r = false) :
    ∃ x, g = some x ∧ x.passes (x.field.value r) = false := by
  cases g with
  | none => cases h
  | some x => exact ⟨x, rfl, h⟩

/-! ## GRANT -/

section
variable {u : State} {h : SubHandle} {r : SubRecord} {g : Option SubGuard} (hs : u.subOf h = some r)
include hs

theorem grantCredit_guarded (hg : subGuardPasses g r = false) (b n : Word) : u.grantCredit h g b n =
    (u, .of .guardFalse (u.nibbleAfter h.index g r) (u.grantBody h.index)) := by
  simp [State.grantCredit, hs, hg]

theorem grantCredit_served (hg : subGuardPasses g r = true) (hr : r.state = .attached ∨ r.state = .roamBarred)
    (b n : Word) : u.grantCredit h g b n = (u.applyGrantTo h.index b n, .of (grantStatus r.grant)
      ((u.applyGrantTo h.index b n).nibbleAfter h.index g r) ((u.applyGrantTo h.index b n).grantBody h.index)) := by
  rcases hr with hr | hr <;> simp [State.grantCredit, hs, hg, hr]

theorem grantCredit_refused (hg : subGuardPasses g r = true) (hr : r.state = .detaching ∨ r.state = .unsettled)
    (b n : Word) : u.grantCredit h g b n = (u, .of (if r.state = .detaching then .detaching else .notAttached)
      (u.nibbleAfter h.index g r) (u.grantBody h.index)) := by
  rcases hr with hr | hr <;> simp [State.grantCredit, hs, hg, hr]

end

theorem grantStatus_eq (x : GrantState) : grantStatus x = if x = .timedOut then .late else .ok := by
  cases x <;> rfl

/-- Settles O19: GRANT's three outcomes, by the guard and the record's state. -/
theorem grantAddsCredit : Obligations.GrantAddsCredit := by
  intro s ch h g b n r hq hs deadline stands
  obtain ⟨rfl, hlive, hstamp⟩ := State.subOf_spec hs
  have hstands : s.grantBody h.index = stands := grantBody_eq hstamp
  have hu : (s.grantTo .stc ch).subOf h = some (s.sub h.index) := by simpa using hs
  have hbody : (s.grantTo .stc ch).grantBody h.index = stands := by
    rw [← hstands]
    simp [State.grantBody, State.subHandle]
  refine ⟨fun hg => exec_onlyAnswers hq ?_, fun hg hr => ?_, fun hg hr => exec_onlyAnswers hq ?_⟩
  · exact congrArg some ((grantCredit_guarded hu hg b n).trans (by rw [hbody, grantTo_nibbleAfter]))
  · intro s1 s2
    have hs2 : (s.grantTo .stc ch).applyGrantTo h.index b n = s2 := by
      simp only [State.applyGrantTo, grantTo_frame, SubRecord.granted, State.leaveDeadlines]
      rfl
    have hstamp2 : (s2.sub h.index).stamp = h.stamp := by
      rw [← hs2, (applyGrantTo_follows ..).self.stamp]
      simpa using hstamp
    have hk : ((s.grantTo .stc ch).served ch (.grant h g b n)) = some (s2, .of (grantStatus (s.sub h.index).grant)
        (s2.nibbleAfter h.index g (s.sub h.index)) (s2.grantBody h.index)) := by
      rw [← hs2]
      exact congrArg some (grantCredit_served hu hg hr b n)
    have hci : s.SameCi s2 := by simp [← hs2, State.SameCi]
    have hterms : s.SameTerms s2 := by simp [← hs2, State.SameTerms]
    have hftc : s2.ftc = s.ftc := by simp [← hs2]
    have hword : s2.subHandle h.index = h := by simp [State.subHandle, hstamp2]
    obtain ⟨hexec, hanswers⟩ := exec_answers hq hk hci
    refine ⟨_, hexec, ?_, by simp, by simp, by simp [hftc], complete_sameTerms ch _ hterms⟩
    simpa [State.grantBody, hword, grantStatus_eq] using hanswers
  · exact congrArg some ((grantCredit_refused hu hg hr b n).trans (by rw [hbody, grantTo_nibbleAfter]))

/-! ## DETACH -/

section
variable {u : State} {h : SubHandle} {r : SubRecord} {g : Option SubGuard} (hs : u.subOf h = some r)
  (hg : subGuardPasses g r = true)
include hs hg

theorem detach_served (hr : r.state = .attached ∨ r.state = .roamBarred) : u.detach h g =
    (u.enterDetaching h.index, .of .ok ((u.enterDetaching h.index).nibbleAfter h.index g r) []) := by
  rcases hr with hr | hr <;> simp [State.detach, hs, hg, hr]

theorem detach_refused (hr : r.state = .detaching ∨ r.state = .unsettled) : u.detach h g =
    (u, .of (if r.state = .detaching then .already else .notAttached) (u.nibbleAfter h.index g r) []) := by
  rcases hr with hr | hr <;> simp [State.detach, hs, hg, hr]

end

theorem enterDetaching_sub (u : State) (i j : SubIx) : (u.enterDetaching i).sub j =
    if j = i then { u.sub i with state := .detaching, grant := .none } else u.sub j := by
  show (u.setSub i _).sub j = _
  rw [setSub_sub]

/-- Settles O28: DETACH on a record that may leave, and on one that already does. -/
theorem detachStartsTheUnwinding : Obligations.DetachStartsTheUnwinding := by
  intro s ch h g r hq hs hg
  obtain ⟨rfl, -, -⟩ := State.subOf_spec hs
  have hu : (s.grantTo .stc ch).subOf h = some (s.sub h.index) := by simpa using hs
  refine ⟨fun hr => ?_, fun hr => exec_onlyAnswers hq ?_⟩
  · have hci : s.SameCi ((s.grantTo .stc ch).enterDetaching h.index) := by simp [State.SameCi]
    have hterms : s.SameTerms ((s.grantTo .stc ch).enterDetaching h.index) := by simp [State.SameTerms]
    obtain ⟨hexec, hanswers⟩ := exec_answers hq (congrArg some (detach_served hu hg hr)) hci
    refine ⟨_, hexec, by simpa using hanswers, ?_, fun j hj => ?_, ?_, ?_, ?_, ?_, by simp,
      complete_sameTerms ch _ hterms, by simp⟩
    · simp [enterDetaching_sub]
    · simp [enterDetaching_sub, hj]
    all_goals simp [State.enterDetaching, State.leaveDeadlines, State.grantTo]
  · exact congrArg some ((detach_refused hu hg hr).trans (by rw [grantTo_nibbleAfter]))

end Sys2Proof.Machine
end

section
/-! PROOFS. Lazy processing, branch by branch (O25). -/

namespace Sys2Proof.Machine

variable {s : State} {i : SubIx}

/-! ## The branch -/

section
variable {r : SubRecord}

theorem lazyBranch_eq_alreadyHeld (h : r.closeHeld = true) : s.lazyBranch r = .alreadyHeld := by
  simp [State.lazyBranch, h]

theorem lazyBranch_eq_hold (h : r.closeHeld = false) (hz : r.zoneEpoch ≠ s.zas.zoneEpoch) (hc : r.closed ≠ none) :
    s.lazyBranch r = .hold := by
  simp [State.lazyBranch, h, hz, Option.isSome_iff_ne_none.mpr hc]

theorem lazyBranch_eq_zone (h : r.closeHeld = false) (hz : r.zoneEpoch ≠ s.zas.zoneEpoch) (hc : r.closed = none) :
    s.lazyBranch r = .zone := by
  simp [State.lazyBranch, h, hz, hc]

theorem lazyBranch_eq_policy (h : r.closeHeld = false) (hz : r.zoneEpoch = s.zas.zoneEpoch)
    (hp : r.policyEpoch ≠ s.zas.policyEpoch) : s.lazyBranch r = .policy := by
  simp [State.lazyBranch, h, hz, hp]

theorem lazyBranch_eq_nothing (h : r.closeHeld = false) (hz : r.zoneEpoch = s.zas.zoneEpoch)
    (hp : r.policyEpoch = s.zas.policyEpoch) : s.lazyBranch r = .nothing := by
  simp [State.lazyBranch, h, hz, hp]

end

/-! ## What each branch does -/

theorem lazy_of_alreadyHeld (h : s.lazyBranch (s.sub i) = .alreadyHeld) : s.lazy i = s := by
  simp [State.lazy, h]

theorem lazy_of_hold (h : s.lazyBranch (s.sub i) = .hold) : s.lazy i = s.holdClose i := by
  simp [State.lazy, h]

theorem lazy_of_zone (h : s.lazyBranch (s.sub i) = .zone) : s.lazy i = (s.closeUsage i).bringUpToDate i := by
  simp [State.lazy, h]

theorem lazy_of_policy (h : s.lazyBranch (s.sub i) = .policy) :
    s.lazy i = (s.setSub i { s.sub i with policyEpoch := s.zas.policyEpoch }).recheck i := by
  simp [State.lazy, h]

theorem lazy_of_nothing (h : s.lazyBranch (s.sub i) = .nothing) : s.lazy i = s := by
  simp [State.lazy, h]

/-- R77 to R80, R99: usage closed and the record brought up to date, as one write and one count. -/
theorem closeUsage_bringUpToDate (s : State) {i : SubIx} (hc : (s.sub i).closed = none) :
    let r := s.sub i
    let nonzero : Bool := decide (r.current.bytes ≠ 0 ∨ r.current.seconds ≠ 0)
    let s1 : State := s.setSub i { r with
      closed := if nonzero then some { zone := r.ratingZone, usage := r.current } else none
      current := if nonzero then { bytes := 0, seconds := 0, mixed := false } else r.current
      ratingZone := s.zas.currentZone, zoneEpoch := s.zas.zoneEpoch, policyEpoch := s.zas.policyEpoch }
    (s.closeUsage i).bringUpToDate i = State.recheck { s1 with stc := { s1.stc with
      closedCount := s.stc.closedCount + if nonzero then 1 else 0 } } i := by
  dsimp only
  have hnonzero := Usage.nonzero_eq (s.sub i).current
  rw [← hnonzero]
  refine congrArg (State.recheck · i) ?_
  cases hn : (s.sub i).current.nonzero
  · simp only [State.closeUsage, SubRecord.closeCurrent, hn, Bool.false_eq_true, if_false, setSub_sub_same, setSub_zas,
      setSub_setSub]
    rw [hc]
    rfl
  · simp only [State.closeUsage, SubRecord.closeCurrent, hn, if_true, addClosed_sub, addClosed_zas,
      setSub_sub_same, setSub_zas]
    rw [State.addClosed, setClosedCount_setSub, setSub_setSub]
    rfl

/-- Settles O25: the branch that each condition gives, and what it does. -/
theorem lazyProcessingByEpochs : Obligations.LazyProcessingByEpochs := by
  intro s i r nonzero
  refine ⟨rfl, fun hheld => ?_, fun hheld hz hc => ?_, fun hheld hz hc => ?_, fun hheld hz hp => ?_, fun hz hp => ?_⟩
  · exact lazy_of_alreadyHeld (lazyBranch_eq_alreadyHeld hheld)
  · exact lazy_of_hold (lazyBranch_eq_hold hheld hz hc)
  · exact (lazy_of_zone (lazyBranch_eq_zone hheld hz hc)).trans (closeUsage_bringUpToDate s hc)
  · exact lazy_of_policy (lazyBranch_eq_policy hheld hz hp)
  · cases hheld : (s.sub i).closeHeld with
    | true => exact lazy_of_alreadyHeld (lazyBranch_eq_alreadyHeld hheld)
    | false => exact lazy_of_nothing (lazyBranch_eq_nothing hheld hz hp)

end Sys2Proof.Machine
end

section
/-! PROOFS. The unwinder (O29): steps of the head of the queue, and its end. -/

namespace Sys2Proof.Machine

variable {s : State} {i : SubIx} {rest : List SubIx}

theorem unwindFlow_of_cons (hq : s.stc.unwind = i :: rest) : s.unwindFlow = (s.sub i).flowList.head? := by
  simp [State.unwindFlow, hq]

theorem unwindDone_of_cons (hq : s.stc.unwind = i :: rest) (hf : (s.sub i).flowList = []) :
    s.unwindDone = some i := by
  simp [State.unwindDone, hq, hf]

theorem unsettledUsage_iff (r : SubRecord) :
    r.unsettledUsage = true ↔ r.current.bytes ≠ 0 ∨ r.current.seconds ≠ 0 ∨ r.closed ≠ none := by
  simp [SubRecord.unsettledUsage, Usage.nonzero_eq, Option.isSome_iff_ne_none, or_assoc]

/-- R14: the queue without its head. -/
def State.unwindNext (s : State) : State := { s with stc := { s.stc with unwind := s.stc.unwind.tail } }

theorem endUnwinding_of_usage (h : (s.sub i).unsettledUsage = true) : s.endUnwinding i =
    (s.unwindNext.setSub i { s.sub i with state := .unsettled }).raise (.subscriber i) .unsettled :=
  if_pos h

theorem endUnwinding_of_no_usage (h : (s.sub i).unsettledUsage = false) :
    s.endUnwinding i = s.unwindNext.free i :=
  if_neg (Bool.eq_false_iff.mp h)

theorem endUnwinding_sub (s : State) (i j : SubIx) : (s.endUnwinding i).sub j =
    if j = i then
      if (s.sub i).unsettledUsage then { s.sub i with state := .unsettled } else (s.sub i).vacated
    else s.sub j := by
  have hnext : ∀ k, s.unwindNext.sub k = s.sub k := fun _ => rfl
  cases h : (s.sub i).unsettledUsage with
  | true => rw [endUnwinding_of_usage h]; simp [setSub_sub, hnext]
  | false => rw [endUnwinding_of_no_usage h]; simp [free_sub, hnext]

theorem endUnwinding_unwind (s : State) (i : SubIx) : (s.endUnwinding i).stc.unwind = s.stc.unwind.tail := by
  cases h : (s.sub i).unsettledUsage with
  | true => rw [endUnwinding_of_usage h]; simp [State.unwindNext]
  | false => rw [endUnwinding_of_no_usage h]; simp [State.unwindNext]

/-- Settles O29: a step takes the first flow of the list; with none left, the end goes by the usage unsettled. -/
theorem unwindingStepsAndEnd : Obligations.UnwindingStepsAndEnd := by
  intro s i rest hrun hq
  refine ⟨fun h later hf => ?_, fun hf => ?_⟩
  · refine congrArg Host.Outcome.next ?_
    rw [hrun, unwindFlow_of_cons hq, hf]
    rfl
  · intro usage
    have hexec : exec .endOfUnwinding s = .next (s.endUnwinding i) := by
      refine congrArg Host.Outcome.next ?_
      rw [hrun, unwindDone_of_cons hq hf]
    refine ⟨_, hexec, fun j hj => by simp [endUnwinding_sub, hj], fun hu => ?_, fun hu => ?_,
      by simp [endUnwinding_unwind, hq], by simp, by simp, by simp, by simp, by simp [State.SameTerms],
      by simp [State.SameCi]⟩
    · have husage : (s.sub i).unsettledUsage = true := (unsettledUsage_iff _).mpr hu
      refine ⟨by simp [endUnwinding_sub, husage], ?_⟩
      rw [endUnwinding_of_usage husage]
      rfl
    · have husage : (s.sub i).unsettledUsage = false := by
        rw [Bool.eq_false_iff, ne_eq, unsettledUsage_iff]
        exact hu
      refine ⟨by simp [endUnwinding_sub, husage, SubRecord.vacated], ?_⟩
      rw [endUnwinding_of_no_usage husage]
      rfl

end Sys2Proof.Machine
end

section
/-! PROOFS. ATTACH by what the bucket holds (O26, O27), and the finds (O30). -/

namespace Sys2Proof.Machine

variable {s u : State}

/-! ## An arbiter's grant leaves every lookup as it is -/

theorem grantTo_findTag (s : State) (o : Owner) (ch : Chan) (tag : Tag) :
    (s.grantTo o ch).findTag tag = s.findTag tag := by simp [State.findTag]

theorem grantTo_vacantSub (s : State) (o : Owner) (ch : Chan) (tag : Tag) :
    (s.grantTo o ch).vacantSub tag = s.vacantSub tag := by simp [State.vacantSub]

theorem grantTo_findKey (s : State) (o : Owner) (ch : Chan) (k : FlowKey) :
    (s.grantTo o ch).findKey k = s.findKey k := by simp [State.findKey]

/-! ## ATTACH by its checks -/

theorem subClass_eq_none {code : BitVec 2} : subClass code = none ↔ code = 3 := by
  revert code
  decide

theorem subClass_eq_crew {code : BitVec 2} : subClass code = some .crew ↔ code = 1 := by
  revert code
  decide

theorem attach_outOfRange {tag : Tag} {code : BitVec 2} {permanent : Bool} {tariff : TariffIx} {home : Operator}
    (h : code = 3 ∨ (code = 1 ∧ (u.tariff tariff).defined = false)) :
    u.attach tag code permanent tariff home = (u, .plain .outOfRange (blank 2)) := by
  rcases h with h | ⟨h, hd⟩
  · simp [State.attach, subClass_eq_none.mpr h]
  · simp [State.attach, subClass_eq_crew.mpr h, hd]

section
variable {tag : Tag} {code : BitVec 2} {permanent : Bool} {tariff : TariffIx} {home : Operator} {cls : SubClass}
  (hcls : subClass code = some cls) (hcrew : cls = .crew → (u.tariff tariff).defined = true)
include hcls hcrew

theorem attach_checked : u.attach tag code permanent tariff home = u.attachChecked tag cls permanent tariff home := by
  have hpass : ¬(cls = .crew ∧ (u.tariff tariff).defined = false) := by
    rintro ⟨hc, hd⟩
    rw [hcrew hc] at hd
    cases hd
  simp only [State.attach, hcls, if_neg hpass]

theorem attach_found {i : SubIx} (hi : u.findTag tag = some i) :
    u.attach tag code permanent tariff home = u.attachFound i cls permanent tariff home := by
  simp only [attach_checked hcls hcrew, State.attachChecked, hi]

theorem attach_created {i : SubIx} (hn : u.findTag tag = none) (hv : u.vacantSub tag = some i) :
    u.attach tag code permanent tariff home =
      (u.createSub i (u.newRecord i tag cls permanent tariff home),
        (u.createSub i (u.newRecord i tag cls permanent tariff home)).attachReply i .ok false) := by
  simp only [attach_checked hcls hcrew, State.attachChecked, hn, hv]

theorem attach_full (hn : u.findTag tag = none) (hv : u.vacantSub tag = none) :
    u.attach tag code permanent tariff home = (u, .plain .bucketFull (blank 2)) := by
  simp only [attach_checked hcls hcrew, State.attachChecked, hn, hv]

end

/-- The answer of an ATTACH that names record `i`, whose stamp is the one it had before. -/
theorem attachReply_eq {v : State} {i : SubIx} {n : BitVec 8} (hstamp : (v.sub i).stamp = n) (status : Status)
    (revived : Bool) : v.attachReply i status revived =
      { status := status, nibble := v.subNibble i, flags := { revived := revived }
        body := [SubHandle.word { index := i, stamp := n }, put 0 (v.sub i).state.code] } := by
  simp [State.attachReply, State.attachBody, State.subHandle, hstamp]

/-- An ATTACH that works on record `i` and leaves `v` answers with the record as `v` holds it. -/
theorem attach_answers {v : State} {ch : Chan} {tag : Tag} {code : BitVec 2} {permanent : Bool} {tariff : TariffIx}
    {home : Operator} {i : SubIx} {status : Status} {revived : Bool}
    (hq : s.claim .stc ch = some (.attach tag code permanent tariff home))
    (hk : (s.grantTo .stc ch).attach tag code permanent tariff home = (v, v.attachReply i status revived))
    (hstamp : (v.sub i).stamp = (s.sub i).stamp) (hci : s.SameCi v) (hterms : s.SameTerms v) (hftc : v.ftc = s.ftc) :
    ∃ t, exec (.attach ch) s = .next t ∧
      s.Answers ch { status := status, nibble := t.subNibble i, flags := { revived := revived }
                     body := [SubHandle.word { index := i, stamp := (s.sub i).stamp },
                       put 0 (t.sub i).state.code] } t ∧
      t.stc = v.stc ∧ t.al = v.al ∧ t.ftc = s.ftc ∧ s.SameTerms t := by
  obtain ⟨hexec, hanswers⟩ := exec_answers hq (congrArg some hk) hci
  refine ⟨_, hexec, ?_, by simp, by simp, by simp [hftc], complete_sameTerms ch _ hterms⟩
  simpa [attachReply_eq hstamp] using hanswers

theorem createSub_stamp (s : State) (i : SubIx) (r : SubRecord) : ((s.createSub i r).sub i).stamp = r.stamp := by
  rw [State.createSub, (recheck_follows ..).self.stamp, setSub_sub_same]

/-- Settles O26: no live record holds the tag and a way is vacant, so ATTACH creates the record there. -/
theorem attachCreatesARecord : Obligations.AttachCreatesARecord := by
  intro s ch tag code permanent tariff home cls i hq hcls hcrew hn hv s1
  have hk := attach_created (u := s.grantTo .stc ch) (permanent := permanent) (home := home) hcls (by simpa using hcrew)
    ((grantTo_findTag ..).trans hn) ((grantTo_vacantSub ..).trans hv)
  refine attach_answers (v := s1) hq hk (createSub_stamp ..) ?_ ?_ ?_
  · show s.SameCi (State.createSub _ _ _)
    simp [State.SameCi]
  · show s.SameTerms (State.createSub _ _ _)
    simp [State.SameTerms]
  · show (State.createSub _ _ _).ftc = s.ftc
    simp

/-! ## ATTACH of a tag that a live record holds -/

section
variable {i : SubIx} {cls : SubClass} {permanent : Bool} {tariff : TariffIx} {home : Operator}

theorem attachFound_admitted (h : (u.sub i).state = .attached ∨ (u.sub i).state = .roamBarred) :
    u.attachFound i cls permanent tariff home = (u.touch i, (u.touch i).attachReply i .already false) := by
  rcases h with h | h <;> simp [State.attachFound, h]

theorem attachFound_detaching (h : (u.sub i).state = .detaching) :
    u.attachFound i cls permanent tariff home = (u, u.attachReply i .detaching false) := by
  simp [State.attachFound, h]

theorem attachFound_conflict (h : (u.sub i).state = .unsettled)
    (hc : reviveConflict (u.sub i) cls tariff = true) :
    u.attachFound i cls permanent tariff home = (u, u.attachReply i .conflict false) := by
  simp [State.attachFound, h, hc]

theorem attachFound_revived (h : (u.sub i).state = .unsettled)
    (hc : reviveConflict (u.sub i) cls tariff = false) :
    u.attachFound i cls permanent tariff home =
      (u.revive i permanent home, (u.revive i permanent home).attachReply i .ok true) := by
  simp [State.attachFound, h, hc]

theorem reviveConflict_iff {r : SubRecord} :
    reviveConflict r cls tariff = true ↔ cls ≠ r.cls ∨ (cls = .crew ∧ r.tariff ≠ some tariff) := by
  simp [reviveConflict]

end

/-- R98: the branches of lazy processing that recheck the record. -/
theorem lazyReport_rechecked (s : State) (i : SubIx) : (s.lazyReport i).rechecked = true ↔
    (s.sub i).closeHeld = false ∧ (if (s.sub i).zoneEpoch = s.zas.zoneEpoch
      then (s.sub i).policyEpoch ≠ s.zas.policyEpoch else (s.sub i).closed = none) := by
  have hreport : (s.lazyReport i).rechecked = true ↔
      s.lazyBranch (s.sub i) = .zone ∨ s.lazyBranch (s.sub i) = .policy := by
    cases h : s.lazyBranch (s.sub i) <;> simp [State.lazyReport, h]
  rw [hreport]
  unfold State.lazyBranch
  cases (s.sub i).closeHeld <;> by_cases hz : (s.sub i).zoneEpoch = s.zas.zoneEpoch <;>
    by_cases hp : (s.sub i).policyEpoch = s.zas.policyEpoch <;> cases (s.sub i).closed <;> simp [hz, hp]

theorem reviveStart_sub (s : State) (i : SubIx) (p : Bool) (home : Operator) :
    (s.reviveStart i p home).sub i = { s.sub i with home := home, permanent := p, state := .attached } := by
  simp [State.reviveStart]

/-- R8: the recheck of a revive is the touch's where that made one. -/
theorem revive_eq (s : State) (i : SubIx) (p : Bool) (home : Operator) : s.revive i p home =
    (if ((s.reviveStart i p home).lazyReport i).rechecked then (s.reviveStart i p home).touch i
      else ((s.reviveStart i p home).touch i).recheck i).lowCredit i := rfl

theorem revive_stamp (s : State) (i : SubIx) (p : Bool) (home : Operator) :
    ((s.revive i p home).sub i).stamp = (s.sub i).stamp := by
  have htouch : (((s.reviveStart i p home).touch i).sub i).stamp = (s.sub i).stamp := by
    rw [(touch_follows ..).self.stamp, reviveStart_sub]
  rw [revive_eq, (lowCredit_follows ..).self.stamp]
  split
  · exact htouch
  · rw [(recheck_follows ..).self.stamp, htouch]

theorem touch_stamp (s : State) (i : SubIx) : ((s.touch i).sub i).stamp = (s.sub i).stamp :=
  (touch_follows s i).self.stamp

/-- Settles O27: ATTACH of a tag held already, by the state of its record; then the two refusals. -/
theorem attachWithoutCreation : Obligations.AttachWithoutCreation := by
  refine ⟨fun s ch tag code permanent tariff home cls i hq hcls hcrew hi => ?_,
    fun s ch tag code permanent tariff home hq =>
    ⟨fun hx => exec_onlyAnswers hq (congrArg some ?_), fun hcode hcrew hn hv => exec_onlyAnswers hq (congrArg some ?_)⟩⟩
  · intro r s0 body conflict
    have hattach : s0.attach tag code permanent tariff home = s0.attachFound i cls permanent tariff home :=
      attach_found hcls (by simpa [s0] using hcrew) ((grantTo_findTag ..).trans hi)
    have hsub : s0.sub i = s.sub i := by simp [s0]
    have hreply : ∀ status, s0.attachReply i status false = .of status (s.subNibble i) (body s) := fun status => by
      rw [attachReply_eq (n := (s.sub i).stamp) (by rw [hsub])]
      simp [s0, body, Reply.of, r]
    refine ⟨fun hr => ?_, fun hr => exec_onlyAnswers hq ?_, fun hr hc => exec_onlyAnswers hq ?_, fun hr hc => ?_⟩
    · have hk := hattach.trans (attachFound_admitted (by rwa [hsub]))
      exact attach_answers hq hk (by rw [touch_stamp, hsub]) (by simp [State.SameCi, s0])
        (by simp [State.SameTerms, s0]) (by simp [s0])
    · refine congrArg some (hattach.trans ?_)
      rw [attachFound_detaching (by rwa [hsub]), hreply]
    · refine congrArg some (hattach.trans ?_)
      rw [attachFound_conflict (by rwa [hsub]) (reviveConflict_iff.mpr (by rwa [hsub])), hreply]
    · intro s1 byTouch
      have hconflict : reviveConflict (s0.sub i) cls tariff = false := by
        rw [Bool.eq_false_iff, ne_eq, reviveConflict_iff, hsub]
        exact hc
      have hk := hattach.trans (attachFound_revived (by rwa [hsub]) hconflict)
      have hs1 : (s0.reviveStart i permanent home).touch i = s1 := by
        rw [State.reviveStart, hsub]
      have hrechecked : ((s0.reviveStart i permanent home).lazyReport i).rechecked = true ↔ byTouch := by
        rw [lazyReport_rechecked, reviveStart_sub, hsub]
        simp [byTouch, s0, State.reviveStart, r]
      refine ⟨s0.revive i permanent home, fun hb => ?_, fun hb => ?_, ?_⟩
      · rw [revive_eq, if_pos (hrechecked.mpr hb), hs1]
      · rw [revive_eq, if_neg (mt hrechecked.mp hb), hs1]
      · exact attach_answers hq hk (by rw [revive_stamp, hsub]) (by simp [State.SameCi, s0])
          (by simp [State.SameTerms, s0]) (by simp [s0])
  · exact attach_outOfRange (by simpa using hx)
  · obtain ⟨cls, hcls⟩ := Option.ne_none_iff_exists'.mp (mt subClass_eq_none.mp hcode)
    refine attach_full hcls (fun hc => ?_) ((grantTo_findTag ..).trans hn) ((grantTo_vacantSub ..).trans hv)
    simpa using hcrew (subClass_eq_crew.mp (hc ▸ hcls))

/-! ## The finds -/

theorem subFind_none {tag : Tag} (h : u.findTag tag = none) : u.subFind tag = (u, .plain .notFound (blank 3)) := by
  simp [State.subFind, h]

theorem subFind_some {tag : Tag} {i : SubIx} (h : u.findTag tag = some i) :
    u.subFind tag = (u.touch i, .of .ok ((u.touch i).subNibble i) ((u.touch i).subFindBody i)) := by
  simp [State.subFind, h]

theorem flowFind_none {k : FlowKey} (h : u.findKey k = none) : u.flowFind k = (u, .plain .notFound (blank 3)) := by
  simp [State.flowFind, h]

theorem flowFind_some {k : FlowKey} {i : FlowIx} (h : u.findKey k = some i) : u.flowFind k =
    (u.useFlow i, .of .ok ((u.useFlow i).subNibble (u.flow i).owner.index) [(u.flowHandle i).word,
      put 0 (u.flow i).state.code ||| put 4 (u.flow i).cls.code ||| put 8 (linkCode (u.flow i).pin),
      (u.flow i).owner.word]) := by
  simp [State.flowFind, h, State.flowFindBody, State.flowHandle, useFlow_flow, FlowRecord.pin]

/-- Settles O30: each find answers from the record found once it is touched, or NOT_FOUND with nothing changed. -/
theorem findsTouchWhatTheyFind : Obligations.FindsTouchWhatTheyFind := by
  refine ⟨fun s ch tag hq => ⟨fun hn => exec_onlyAnswers hq ?_, fun i hi => ?_⟩,
    fun s ch k hq => ⟨fun hn => exec_onlyAnswers hq ?_, fun i hi => ?_⟩⟩
  · exact congrArg some (subFind_none ((grantTo_findTag ..).trans hn))
  · have hk := subFind_some ((grantTo_findTag s .stc ch tag).trans hi)
    obtain ⟨hexec, hanswers⟩ := exec_answers hq (congrArg some hk) (by simp [State.SameCi])
    refine ⟨_, hexec, ?_, by simp, by simp, by simp, complete_sameTerms ch _ (by simp [State.SameTerms])⟩
    have hfollows := (touch_follows (s.grantTo .stc ch) i).self
    simpa [State.subFindBody, State.subHandle, hfollows.stamp, hfollows.cls, hfollows.flowList, SubRecord.flowCount]
      using hanswers
  · exact congrArg some (flowFind_none ((grantTo_findKey ..).trans hn))
  · intro f s1
    have hk := flowFind_some ((grantTo_findKey s .ftc ch k).trans hi)
    have hs1 : (s.grantTo .ftc ch).useFlow i = s1 := by
      simp only [State.useFlow, State.touchFlow, grantTo_frame]
      rfl
    have hflow : (s.grantTo .ftc ch).flow i = f := by simp [f]
    have hci : s.SameCi s1 := by simp [← hs1, State.SameCi]
    have hterms : s.SameTerms s1 := by simp [← hs1, State.SameTerms]
    rw [hs1, State.flowHandle, hflow] at hk
    obtain ⟨hexec, hanswers⟩ := exec_answers hq (congrArg some hk) hci
    exact ⟨_, hexec, by simpa using hanswers, by simp, by simp, by simp, complete_sameTerms ch _ hterms⟩

end Sys2Proof.Machine
end

section
/-! PROOFS. Buckets, ways and lookups (O23). -/

namespace Sys2Proof.Machine

/-! ## Buckets -/

theorem getLsbD_foldl_xor {w : Nat} (l : List (BitVec w)) (x : BitVec w) (k : Nat) :
    (l.foldl (· ^^^ ·) x).getLsbD k = (l.map (·.getLsbD k)).foldl xor (x.getLsbD k) := by
  induction l generalizing x with
  | nil => rfl
  | cons y rest ih => simp [ih]

theorem subBucket_getLsbD (tag : Tag) {k : Nat} (hk : k < 10) : (subBucket tag).getLsbD k =
    (tag.getLsbD k ^^ tag.getLsbD (10 + k) ^^ tag.getLsbD (20 + k) ^^ tag.getLsbD (30 + k) ^^ tag.getLsbD (40 + k)
      ^^ tag.getLsbD (50 + k) ^^ (decide (k < 4) && tag.getLsbD (60 + k))) := by
  have hlast : (decide (k < 4) && tag.getLsbD (60 + k)) = tag.getLsbD (60 + k) := by
    by_cases h4 : k < 4
    · simp [h4]
    · simp [h4, BitVec.getLsbD_of_ge tag (60 + k) (by omega)]
  rw [subBucket, getLsbD_foldl_xor, hlast]
  simp [List.range_succ, hk]

theorem flowBucket_getLsbD (key : FlowKey) {k : Nat} (hk : k < 12) : (flowBucket key).getLsbD k =
    ((List.range 15).map fun g => key.bits.getLsbD (12 * g + k)).foldl xor false := by
  rw [flowBucket, getLsbD_foldl_xor, List.map_map]
  simp [Function.comp_def, hk]

/-! ## Ways -/

theorem subWay_toNat (b : BitVec 10) (w : BitVec 2) : (subWay b w).toNat = 4 * b.toNat + w.toNat := by
  have hw := w.isLt
  rw [subWay, BitVec.toNat_append, ← Nat.shiftLeft_add_eq_or_of_lt hw, Nat.shiftLeft_eq]
  omega

theorem flowWay_toNat (b : BitVec 12) (w : BitVec 2) : (flowWay b w).toNat = 4 * b.toNat + w.toNat := by
  have hw := w.isLt
  rw [flowWay, BitVec.toNat_append, ← Nat.shiftLeft_add_eq_or_of_lt hw, Nat.shiftLeft_eq]
  omega

theorem bucketOf_flowWay (b : BitVec 12) (w : BitVec 2) : bucketOf (flowWay b w) = b := by
  have hw := w.isLt
  apply BitVec.eq_of_toNat_eq
  rw [bucketOf, BitVec.extractLsb'_toNat, flowWay_toNat, Nat.shiftRight_eq_div_pow]
  omega

theorem wayOf_flowWay (b : BitVec 12) (w : BitVec 2) : wayOf (flowWay b w) = w := by
  have hw := w.isLt
  apply BitVec.eq_of_toNat_eq
  rw [wayOf, BitVec.extractLsb'_toNat, flowWay_toNat, Nat.shiftRight_eq_div_pow]
  omega

/-! ## Lookups -/

theorem ways_sorted : ways.Pairwise (· < ·) := by decide

/-- A search of the ways finds the lowest. -/
theorem find_ways_eq_some_iff {q : BitVec 2 → Bool} {w : BitVec 2} :
    ways.find? q = some w ↔ q w = true ∧ ∀ v, v < w → q v = false := by
  constructor
  · intro h
    obtain ⟨hw, before, after, hl, hbefore⟩ := List.find?_eq_some_iff_append.mp h
    refine ⟨hw, fun v hv => ?_⟩
    have hmem : v ∈ before ++ w :: after := hl ▸ ways_all v
    have hsorted : (before ++ w :: after).Pairwise (· < ·) := hl ▸ ways_sorted
    obtain ⟨-, hafter, -⟩ := List.pairwise_append.mp hsorted
    rcases List.mem_append.mp hmem with hm | hm
    · simpa using hbefore v hm
    · rcases List.mem_cons.mp hm with rfl | hm
      · exact absurd hv (BitVec.lt_irrefl v)
      · exact absurd hv (BitVec.lt_asymm ((List.pairwise_cons.mp hafter).1 v hm))
  · rintro ⟨hw, hlow⟩
    obtain ⟨before, after, hl⟩ := List.append_of_mem (ways_all w)
    have hsorted : (before ++ w :: after).Pairwise (· < ·) := hl ▸ ways_sorted
    obtain ⟨-, -, hcross⟩ := List.pairwise_append.mp hsorted
    refine List.find?_eq_some_iff_append.mpr ⟨hw, before, after, hl, fun v hv => ?_⟩
    simpa using hlow v (hcross v hv w (by simp))

theorem find_way_eq_some_iff {n : Nat} {way : BitVec 2 → BitVec n} {p : BitVec n → Bool} {i : BitVec n} :
    (ways.map way).find? p = some i ↔ ∃ w, i = way w ∧ p i = true ∧ ∀ v, v < w → p (way v) = false := by
  rw [List.find?_map, Option.map_eq_some_iff]
  constructor
  · rintro ⟨w, hw, rfl⟩
    obtain ⟨hp, hlow⟩ := find_ways_eq_some_iff.mp hw
    exact ⟨w, rfl, hp, hlow⟩
  · rintro ⟨w, rfl, hp, hlow⟩
    exact ⟨w, find_ways_eq_some_iff.mpr ⟨hp, hlow⟩, rfl⟩

/-- Settles O23: each search is a `find` over the ways of one bucket, whose result is its first way that matches. -/
theorem lookupsSearchOneBucket : Obligations.LookupsSearchOneBucket := by
  refine ⟨fun tag k hk => subBucket_getLsbD tag hk, fun key k hk => flowBucket_getLsbD key hk, subWay_toNat,
    fun b w => ⟨flowWay_toNat b w, bucketOf_flowWay b w, wayOf_flowWay b w⟩, fun s tag i => ?_, fun s tag i => ?_,
    fun s key i => ?_, fun s key i => ?_⟩
  · rw [State.findTag, find_way_eq_some_iff]
    simp [SubRecord.live]
  · rw [State.vacantSub, find_way_eq_some_iff]
    simp [SubRecord.live]
  · rw [State.findKey, find_way_eq_some_iff]
    simp [FlowRecord.live]
  · rw [State.vacantFlow, find_way_eq_some_iff]
    simp [FlowRecord.live]

end Sys2Proof.Machine
end

section
/-! PROOFS. The words of an answer, what the windows read, and the replies of SUB_READ and FLOW_READ (O45). -/

namespace Sys2Proof.Machine

/-! ## Words -/

theorem put_eq (lo n : Nat) : put lo n = BitVec.ofNat 32 (n * 2 ^ lo) := by
  apply BitVec.eq_of_toNat_eq
  simp [put, Nat.shiftLeft_eq]

theorem putFlag_eq (lo : Nat) : putFlag lo true = BitVec.ofNat 32 (2 ^ lo) ∧ putFlag lo false = 0 := by
  simp [putFlag, put_eq]

theorem put_getLsbD (lo : Nat) {w : Nat} (x : BitVec w) {k : Nat} (hk : k < 32) :
    (put lo x.toNat).getLsbD k = (decide (lo ≤ k) && x.getLsbD (k - lo)) := by
  rw [put, BitVec.ofNat_toNat, BitVec.getLsbD_shiftLeft, BitVec.getLsbD_setWidth]
  by_cases h : k < lo
  · simp [h, hk]
  · simp [h, hk, Nat.not_lt.mp h, show k - lo < 32 by omega]

/-- A handle word: the index from bit 0, the stamp from bit 16, and nothing else. -/
theorem handleWord_fields {w : Nat} (hw : w ≤ 16) (i : BitVec w) (n : BitVec 8) {mask : Word}
    (hmask : ∀ k : Fin 32, mask.getLsbD k = true → (w ≤ k.val ∧ k.val < 16) ∨ 24 ≤ k.val) :
    (put 0 i.toNat ||| put 16 n.toNat) &&& mask = 0 ∧ (put 0 i.toNat ||| put 16 n.toNat).extractLsb' 0 w = i ∧
      (put 0 i.toNat ||| put 16 n.toNat).extractLsb' 16 8 = n := by
  refine ⟨BitVec.eq_of_getLsbD_eq fun k hk => ?_, BitVec.eq_of_getLsbD_eq fun k hk => ?_,
    BitVec.eq_of_getLsbD_eq fun k hk => ?_⟩
  · cases hm : mask.getLsbD k with
    | false => simp [hm]
    | true =>
      have hi : w ≤ k → i.getLsbD k = false := BitVec.getLsbD_of_ge i k
      have hn : 8 ≤ k - 16 → n.getLsbD (k - 16) = false := BitVec.getLsbD_of_ge n (k - 16)
      simp only [BitVec.getLsbD_and, BitVec.getLsbD_or, put_getLsbD _ _ hk, hm, BitVec.ofNat_eq_ofNat,
        BitVec.getLsbD_zero, Nat.sub_zero]
      rcases hmask ⟨k, hk⟩ hm with ⟨hlow, hhigh⟩ | h24
      · simp [hi hlow, Nat.not_le.mpr hhigh]
      · simp only at h24
        simp [hi (by omega), hn (by omega)]
  · have hk32 : k < 32 := by omega
    simp [hk, put_getLsbD _ _ hk32]
    omega
  · have hi : i.getLsbD (16 + k) = false := BitVec.getLsbD_of_ge i _ (by omega)
    have hk32 : 16 + k < 32 := by omega
    simp [hk, put_getLsbD _ _ hk32, hi]

theorem subHandle_word (h : SubHandle) : h.word &&& 0xFF00F000 = 0 ∧ h.word.extractLsb' 0 12 = h.index ∧
    h.word.extractLsb' 16 8 = h.stamp :=
  handleWord_fields (by decide) h.index h.stamp (by decide)

theorem flowHandle_word (h : FlowHandle) : h.word &&& 0xFF00C000 = 0 ∧ h.word.extractLsb' 0 14 = h.index ∧
    h.word.extractLsb' 16 8 = h.stamp :=
  handleWord_fields (by decide) h.index h.stamp (by decide)

/-! ## What the windows read -/

theorem placeOf_response {off : Nat} (h : off < 512) :
    placeOf (512 + off) = .response (Fin.ofNat 8 (off / 64)) (Fin.ofNat 16 (off / 4)) := by
  have hch : Fin.ofNat 8 ((512 + off) / 64) = Fin.ofNat 8 (off / 64) := by
    apply Fin.ext
    simp only [Fin.val_ofNat]
    omega
  have hword : Fin.ofNat 16 ((512 + off) / 4) = Fin.ofNat 16 (off / 4) := by
    apply Fin.ext
    simp only [Fin.val_ofNat]
    omega
  simp only [placeOf]
  rw [if_neg (by omega), if_pos (by omega), hch, hword]

theorem placeOf_beyond {off : Nat} (h : 1024 ≤ off) : placeOf off = .beyond := by
  simp [placeOf, show ¬off < 512 by omega, show ¬off < 1024 by omega]

/-- The channel and the word of an offset of an area, and the byte in the word. -/
theorem offset_parts (ch : Chan) (k : Fin 16) (b : Fin 4) :
    let offset := 64 * ch.val + 4 * k.val + b.val
    offset < 512 ∧ Fin.ofNat 8 (offset / 64) = ch ∧ Fin.ofNat 16 (offset / 4) = k ∧ offset % 4 = b.val ∧
      (512 + offset) % 4 = b.val := by
  have hch := ch.isLt
  have hk := k.isLt
  have hb := b.isLt
  refine ⟨by omega, Fin.ext ?_, Fin.ext ?_, by omega, by omega⟩
  · simp only [Fin.val_ofNat]
    omega
  · simp only [Fin.val_ofNat]
    omega

theorem readByte_windows (s : State) (ch : Chan) (k : Fin 16) (b : Fin 4) :
    s.readByte (64 * ch.val + 4 * k.val + b.val) = (s.chan ch).staging[k].extractLsb' (8 * b.val) 8 ∧
    s.readByte (512 + (64 * ch.val + 4 * k.val + b.val)) =
      ((s.chan ch).responseWord k).extractLsb' (8 * b.val) 8 ∧
    ∀ beyond, 1024 ≤ beyond → s.readByte beyond = 0 := by
  obtain ⟨hlt, hch, hword, hbyte, hbyte'⟩ := offset_parts ch k b
  refine ⟨?_, ?_, fun beyond h => ?_⟩
  · simp only [State.readByte, placeOf_request hlt, hch, hword, hbyte, Word.byte]
  · simp only [State.readByte, placeOf_response hlt, hch, hword, hbyte', Word.byte]
  · simp only [State.readByte, placeOf_beyond h]

/-! ## An arbiter's grant leaves what the reads give as it is -/

theorem grantTo_subRead (s : State) (ch : Chan) (h : SubHandle) (g : Option SubGuard) (part : SubSection)
    (start : BitVec 8) : (s.grantTo .stc ch).subRead h g part start = s.subRead h g part start := by
  simp only [State.subRead, grantTo_subOf, grantTo_nibbleAfter, State.sectionBody, State.identityBody,
    State.chargingBody, State.flowsBody, State.subHandle, State.causesOf, grantTo_frame]

theorem grantTo_flowRead (s : State) (ch : Chan) (h : FlowHandle) (g : Option FlowGuard) :
    (s.grantTo .ftc ch).flowRead h g = s.flowRead h g := by
  simp only [State.flowRead, grantTo_flowOf, grantTo_flowNibbleAfter]

/-! ## SUB_READ -/

section
variable {s : State} {h : SubHandle} {g : Option SubGuard} {part : SubSection} {start : BitVec 8} {r : SubRecord}

theorem startOutOfRange_iff : startOutOfRange part start = true ↔ part = .flows ∧ 63 < start.toNat := by
  cases part <;> simp [startOutOfRange]

theorem subRead_outOfRange (hp : part = .flows) (hs : 63 < start.toNat) :
    s.subRead h g part start = .plain .outOfRange [] := by
  simp [State.subRead, startOutOfRange_iff.mpr ⟨hp, hs⟩]

theorem startInRange (hp : part = .flows → start.toNat ≤ 63) : startOutOfRange part start = false := by
  rw [Bool.eq_false_iff, ne_eq, startOutOfRange_iff]
  rintro ⟨hf, hs⟩
  exact absurd (hp hf) (Nat.not_le.mpr hs)

theorem subRead_stale (hp : part = .flows → start.toNat ≤ 63) (hs : s.subOf h = none) :
    s.subRead h g part start = .plain .staleHandle [] := by
  simp [State.subRead, startInRange hp, hs]

theorem subRead_guardFalse (hp : part = .flows → start.toNat ≤ 63) (hs : s.subOf h = some r)
    (hg : subGuardPasses g r = false) :
    s.subRead h g part start = .of .guardFalse (s.nibbleAfter h.index g r) [] := by
  simp [State.subRead, startInRange hp, hs, hg]

theorem subRead_ok (hp : part = .flows → start.toNat ≤ 63) (hs : s.subOf h = some r)
    (hg : subGuardPasses g r = true) : s.subRead h g part start =
      .of .ok (s.nibbleAfter h.index g r) (s.sectionBody h.index part start.toNat) := by
  simp [State.subRead, startInRange hp, hs, hg]

end

theorem deadlineWord_deadline (x : GrantState) : deadlineWord x.deadline =
    match x with
    | .requested d => d
    | .none => 0
    | .timedOut => 0 := by
  cases x <;> rfl

theorem countWords_eq (n : BitVec 40) :
    countWords n = [n.setWidth 32, (n.extractLsb' 32 8).setWidth 32] := by
  have hn := n.isLt
  rw [countWords, put_eq]
  refine congrArg (fun x => [n.setWidth 32, x]) (BitVec.eq_of_toNat_eq ?_)
  simp [Nat.shiftRight_eq_div_pow]
  omega

/-- The first lines of the CHARGING section, with the closed slot as the statement reads it. -/
theorem chargingBody_eq {s : State} {h : SubHandle} (hs : (s.sub h.index).stamp = h.stamp) :
    s.chargingBody h.index =
      (let r := s.sub h.index
      let slot := r.closed.getD { zone := 0, usage := { bytes := 0, seconds := 0, mixed := false } }
      [h.word, put 0 r.grant.code ||| putFlag 4 r.current.mixed ||| putFlag 5 r.closed.isSome |||
          putFlag 6 slot.usage.mixed ||| put 8 slot.zone.toNat ||| putFlag 16 r.closeHeld |||
          putFlag 17 r.overdraftUsed ||| putFlag 18 r.exhaustedNoted ||| putFlag 19 r.so,
        r.current.bytes.setWidth 32, (r.current.bytes.extractLsb' 32 8).setWidth 32, r.current.seconds,
        slot.usage.bytes.setWidth 32, (slot.usage.bytes.extractLsb' 32 8).setWidth 32, slot.usage.seconds,
        r.byteAllowance, r.secondsAllowance, r.byteOverrun, r.secondsOverrun, deadlineWord r.grant.deadline]) := by
  have hword : s.subHandle h.index = h := by simp [State.subHandle, hs]
  simp only [State.chargingBody, hword, countWords_eq]
  cases (s.sub h.index).closed <;> rfl

theorem put_zero_toNat {w : Nat} (x : BitVec w) : put 0 x.toNat = x.setWidth 32 := by
  simp [put]

/-! ## The section of SUB_READ as the statement lays it out -/

theorem identityBody_eq (s : State) (i : SubIx) : s.identityBody i =
    (let r := s.sub i
    [r.tag.setWidth 32, r.tag.extractLsb' 32 32, put 0 r.state.code, put 0 r.cls.code, r.home.setWidth 32,
      putFlag 0 r.permanent, put 0 r.mark.val, r.zoneEpoch.setWidth 32, r.policyEpoch.setWidth 32,
      put 0 (tariffCode r.tariff), put 0 r.ratingZone.toNat, put 0 r.flowList.length, s.causesOf (.subscriber i),
      r.userWord]) := rfl

theorem flowsBody_eq {s : State} {h : SubHandle} (hs : (s.sub h.index).stamp = h.stamp) (start : Nat) :
    s.flowsBody h.index start = h.word :: put 0 (s.sub h.index).flowList.length ::
      (((s.sub h.index).flowList.drop start).take 12).map FlowHandle.word := by
  have hword : s.subHandle h.index = h := by simp [State.subHandle, hs]
  rw [State.flowsBody, hword]
  rfl

/-! ## FLOW_READ -/

theorem ports_word (near far : BitVec 16) :
    put 0 far.toNat ||| put 16 near.toNat = near ++ far := by
  refine BitVec.eq_of_getLsbD_eq fun k hk => ?_
  rw [BitVec.getLsbD_or, put_getLsbD _ _ hk, put_getLsbD _ _ hk, BitVec.getLsbD_append]
  by_cases h : k < 16
  · simp [h]
  · simp [h, Nat.not_lt.mp h]

theorem FlowKey.words_eq (k : FlowKey) : k.words =
    [k.subscriber.setWidth 32, k.address.extractLsb' 0 32, k.address.extractLsb' 32 32, k.address.extractLsb' 64 32,
      k.address.extractLsb' 96 32, k.localPort ++ k.remotePort, k.protocol.setWidth 32] := by
  rw [FlowKey.words, ports_word, put_zero_toNat, put_zero_toNat]

theorem linkCode_pin (f : FlowRecord) : linkCode f.pin =
    match f.state with
    | .opened l => l.val
    | .held => 8
    | .vacant => 8 := by
  cases h : f.state <;> simp [FlowRecord.pin, h, linkCode]

end Sys2Proof.Machine
end

section
/-! PROOFS. The replies of the reads that name a number, a code or nothing, and the settlement of O45. -/

namespace Sys2Proof.Machine

section
variable {s : State}

theorem linkOf_eq {code : BitVec 4} {l : LinkId} (h : code.toNat = l.val) : linkOf code = some l := by
  simp [linkOf, h]

theorem linkRead_outOfRange {code : BitVec 4} (h : 8 ≤ code.toNat) :
    s.linkRead code = .plain .outOfRange (blank 12) := by
  simp [State.linkRead, linkOf, Nat.not_lt.mpr h]

theorem linkRead_ok {code : BitVec 4} {l : LinkId} (h : code.toNat = l.val) :
    s.linkRead code = .plain .ok (s.linkReadBody l) := by
  simp [State.linkRead, linkOf_eq h]

theorem zoneOf_eq {code : BitVec 8} {z : ZoneIx} (h : code.toNat = z.toNat) : zoneOf code = some z := by
  rw [zoneOf, if_pos (h ▸ z.isLt)]
  refine congrArg some (BitVec.eq_of_toNat_eq ?_)
  rw [BitVec.toNat_setWidth, h, Nat.mod_eq_of_lt z.isLt]

theorem zoneRead_outOfRange {code : BitVec 8} (h : 32 ≤ code.toNat) :
    s.zoneRead code = .plain .outOfRange (blank 5) := by
  simp [State.zoneRead, zoneOf, Nat.not_lt.mpr h]

theorem zoneRead_ok {code : BitVec 8} {z : ZoneIx} (h : code.toNat = z.toNat) :
    s.zoneRead code = .plain .ok (s.zoneReadBody z) := by
  simp [State.zoneRead, zoneOf_eq h]

theorem tariffOf_eq {code : BitVec 8} {k : TariffIx} (h : code.toNat = k.toNat) : tariffOf code = some k := by
  rw [tariffOf, if_pos (h ▸ k.isLt)]
  refine congrArg some (BitVec.eq_of_toNat_eq ?_)
  rw [BitVec.toNat_setWidth, h, Nat.mod_eq_of_lt k.isLt]

theorem tariffRead_outOfRange {code : BitVec 8} (h : 64 ≤ code.toNat) :
    s.tariffRead code = .plain .outOfRange (blank 7) := by
  simp [State.tariffRead, tariffOf, Nat.not_lt.mpr h]

theorem tariffRead_ok {code : BitVec 8} {k : TariffIx} (h : code.toNat = k.toNat) :
    s.tariffRead code = .plain .ok (s.tariff k).words := by
  simp [State.tariffRead, tariffOf_eq h]

theorem chanOf_eq {code : BitVec 8} {n : Chan} (h : code.toNat = n.val) : chanOf code = some n := by
  simp [chanOf, h]

theorem channelStatus_outOfRange {code : BitVec 8} (h : 8 ≤ code.toNat) :
    s.channelStatus code = .plain .outOfRange (blank 9) := by
  simp [State.channelStatus, chanOf, Nat.not_lt.mpr h]

theorem channelStatus_ok {code : BitVec 8} {n : Chan} (h : code.toNat = n.val) :
    s.channelStatus code = .plain .ok (s.chan n).statusBody := by
  simp [State.channelStatus, chanOf_eq h]

end

/-! ## The agreement list searched -/

theorem seekAgreement_none {l : List Agreement} {code : Operator} {next : Bool}
    (h : ∀ a ∈ l, a.code ≠ code ∧ (next = true → a.code < code)) : seekAgreement l code next = none := by
  cases next with
  | false => simpa [seekAgreement, findAgreement] using fun a ha => (h a ha).1
  | true => simpa [seekAgreement] using fun a ha => (h a ha).2 rfl

theorem seekAgreement_append {before later : List Agreement} {a : Agreement} {code : Operator} {next : Bool}
    (hlow : ∀ b ∈ before, b.code < code) (ha : a.code = code ∨ next = true ∧ code ≤ a.code) :
    seekAgreement (before ++ a :: later) code next = some a := by
  cases next with
  | false =>
    have hcode : a.code = code := by simpa using ha
    have hnone : before.find? (fun a => a.code == code) = none := by
      simpa using fun b hb => BitVec.ne_of_lt (hlow b hb)
    simp [seekAgreement, findAgreement, hnone, hcode]
  | true =>
    have hle : code ≤ a.code := ha.elim (fun h => h ▸ BitVec.le_refl _) And.right
    have hnone : before.find? (fun a => decide (code ≤ a.code)) = none := by
      simpa using hlow
    simp [seekAgreement, hnone, hle]

/-- In a list in ascending order of code, an agreement's position is the number of the agreements before it. -/
theorem positionOf_append {before later : List Agreement} {a : Agreement} (h : ∀ b ∈ before, b.code < a.code) :
    positionOf a.code (before ++ a :: later) = before.length := by
  have hnone : before.findIdx (fun b => b.code == a.code) = before.length :=
    List.findIdx_eq_length_of_false fun b hb => by simpa using BitVec.ne_of_lt (h b hb)
  simp [positionOf, List.findIdx_append, List.findIdx_cons, hnone]

theorem agreementFind_none {s : State} {code : Operator} {next : Bool}
    (h : ∀ a ∈ s.zas.agreements, a.code ≠ code ∧ (next = true → a.code < code)) :
    s.agreementFind code next = .plain .notFound (blank 4) := by
  rw [State.agreementFind, seekAgreement_none h]

theorem agreementFind_some {s : State} {code : Operator} {next : Bool} {before later : List Agreement} {a : Agreement}
    (hl : s.zas.agreements = before ++ a :: later) (hlow : ∀ b ∈ before, b.code < a.code)
    (ha : a.code = code ∨ next = true ∧ code ≤ a.code ∧ ∀ b ∈ before, b.code < code) :
    s.agreementFind code next =
      .plain .ok (a.words ++ [put 0 before.length, put 0 s.zas.agreements.length]) := by
  have hseek : seekAgreement s.zas.agreements code next = some a := by
    rw [hl]
    rcases ha with hcode | ⟨hnext, hle, hbelow⟩
    · exact seekAgreement_append (hcode ▸ hlow) (.inl hcode)
    · exact seekAgreement_append hbelow (.inr ⟨hnext, hle⟩)
  have hpos : positionOf a.code s.zas.agreements = before.length := by rw [hl, positionOf_append hlow]
  rw [State.agreementFind, hseek]
  simp only [hpos]

/-! ## WALK_STATUS -/

theorem deadlineWord_eq (d : Option Second) : deadlineWord d = d.getD 0 := by
  cases d <;> rfl

theorem WalkEntry.linkCode_target (e : WalkEntry) : linkCode e.target =
    match e with
    | .repin l => l.val
    | .age => 8
    | .zone => 8
    | .recheck => 8 := by
  cases e <;> rfl

/-- The two words of the running counts, each by the kind of the walk. -/
theorem Walk.countWords_eq (w : Walk) : w.countWords =
    [match w.entry with
      | .age => put 0 w.counts.subsRetired ||| put 16 w.counts.flowsRetired
      | .zone => put 0 w.counts.closed ||| put 16 w.counts.held
      | .recheck => put 0 w.counts.rechecked ||| put 16 w.counts.barred
      | .repin _ => put 0 w.counts.moved ||| put 16 w.counts.flowsHeld,
    match w.entry with
      | .age => 0
      | .zone => put 0 w.counts.barred
      | .recheck => put 0 w.counts.cleared ||| put 16 w.counts.held
      | .repin _ => 0] := by
  cases h : w.entry <;> simp [Walk.countWords, h]

/-! ## FLOW_READ -/

section
variable {s : State} {h : FlowHandle} {g : Option FlowGuard} {f : FlowRecord}

theorem flowRead_stale (hs : s.flowOf h = none) : s.flowRead h g = .plain .staleHandle (blank 13) := by
  simp [State.flowRead, hs]

theorem flowRead_guardFalse (hs : s.flowOf h = some f) (hg : flowGuardPasses g f = false) :
    s.flowRead h g = .of .guardFalse (s.flowNibbleAfter f.owner.index g f) [] := by
  simp [State.flowRead, hs, hg]

theorem flowRead_ok (hs : s.flowOf h = some f) (hg : flowGuardPasses g f = true) :
    s.flowRead h g = .of .ok (s.flowNibbleAfter f.owner.index g f) f.readBody := by
  simp [State.flowRead, hs, hg]

end

/-- A read of one of the sequences without an arbiter: the claim answers it from the state as it stands. -/
theorem exec_reads {s : State} {o : Owner} {ch : Chan} {q : Request} {r : Reply} (hq : s.claim o ch = some q)
    (ho : o = .lm ∨ o = .zas ∨ o = .tw ∨ o = .al ∨ o = .ci) (hk : s.served ch q = some (s, r)) :
    ∃ t, exec (q.instr ch) s = .next t ∧ s.OnlyAnswers o ch r t := by
  have hs : s.grantTo o ch = s := by
    rcases ho with rfl | rfl | rfl | rfl | rfl <;> rfl
  exact exec_onlyAnswers hq (by rw [hs, hk])

/-! ## The settlement -/

/-- Settles O45: the words by the lemmas on `put` and the layouts, the windows by the places of their offsets, and each
read by `exec_onlyAnswers`: its claim answers in itself with nothing changed, so what is left is its reply. -/
theorem readsOnlyAnswer : Obligations.ReadsOnlyAnswer := by
  unfold Obligations.ReadsOnlyAnswer
  refine ⟨⟨put_eq, putFlag_eq, subHandle_word, flowHandle_word, fun _ => rfl, rfl, fun _ => rfl, rfl, rfl, rfl,
    fun _ => ⟨rfl, rfl, rfl⟩, fun _ => ⟨rfl, rfl, rfl⟩, rfl, rfl, rfl, rfl⟩, fun _ => rfl, ?windows, ?subRead,
    ?flowRead, ?linkRead, ?zoneRead, ?agreementFind, ?tariffRead, ?walkStatus, ?deviceStatus, ?channelStatus⟩
  case windows => exact fun s ch k b => readByte_windows s ch k b
  case subRead =>
    intro s ch h g part start hq
    have only : ∃ t, exec (.subRead ch) s = .next t ∧ s.OnlyAnswers .stc ch (s.subRead h g part start) t :=
      exec_onlyAnswers hq (by rw [State.served, grantTo_subRead])
    refine ⟨fun hp hs => ?_, fun hp hs => ?_, fun r hp hs => ⟨fun hg => ?_, fun hg => ?_⟩⟩
    · rwa [subRead_outOfRange hp hs] at only
    · rwa [subRead_stale hp hs] at only
    · rwa [subRead_guardFalse hp hs hg] at only
    · rw [subRead_ok hp hs hg] at only
      obtain ⟨rfl, -, hstamp⟩ := State.subOf_spec hs
      cases part with
      | identity => exact only
      | charging =>
        simp only [State.sectionBody, chargingBody_eq hstamp, deadlineWord_deadline] at only
        exact only
      | flows =>
        simp only [State.sectionBody, flowsBody_eq hstamp] at only
        exact only
  case flowRead =>
    intro s ch h g hq
    have only : ∃ t, exec (.flowRead ch) s = .next t ∧ s.OnlyAnswers .ftc ch (s.flowRead h g) t :=
      exec_onlyAnswers hq (by rw [State.served, grantTo_flowRead])
    refine ⟨fun hs => ?_, fun f hs => ⟨fun hg => ?_, fun hg => ?_⟩⟩
    · rwa [flowRead_stale hs] at only
    · rwa [flowRead_guardFalse hs hg] at only
    · rw [flowRead_ok hs hg, FlowRecord.readBody, FlowKey.words_eq, linkCode_pin] at only
      exact only
  case linkRead =>
    intro s ch code hq
    obtain ⟨t, ht, ha⟩ := exec_reads hq (by simp) rfl
    refine ⟨t, ht, fun h => ?_, fun l h => ?_⟩
    · rwa [linkRead_outOfRange h] at ha
    · rw [linkRead_ok h, State.linkReadBody, LinkConfig.words, deadlineWord_eq] at ha
      exact ha
  case zoneRead =>
    intro s ch code hq
    obtain ⟨t, ht, ha⟩ := exec_reads hq (by simp) rfl
    refine ⟨t, ht, fun h => ?_, fun z h => ?_⟩
    · rwa [zoneRead_outOfRange h] at ha
    · rwa [zoneRead_ok h] at ha
  case agreementFind =>
    intro s ch code next hq
    obtain ⟨t, ht, ha⟩ := exec_reads hq (by simp) rfl
    refine ⟨t, ht, fun h => ?_, fun before a later hl hlow hseek => ?_⟩
    · rwa [agreementFind_none h] at ha
    · rwa [agreementFind_some hl hlow hseek] at ha
  case tariffRead =>
    intro s ch code hq
    obtain ⟨t, ht, ha⟩ := exec_reads hq (by simp) rfl
    refine ⟨t, ht, fun h => ?_, fun k h => ?_⟩
    · rwa [tariffRead_outOfRange h] at ha
    · rw [tariffRead_ok h] at ha
      exact ha
  case walkStatus =>
    intro s ch part hq
    obtain ⟨t, ht, ha⟩ := exec_reads hq (by simp) rfl
    refine ⟨t, ht, ?_⟩
    cases part with
    | walker =>
      simp only [State.walkStatus, State.walkerBody, queueWord, WalkEntry.byte, WalkEntry.linkCode_target,
        Walk.countWords_eq, deadlineWord_eq] at ha
      cases hw : s.tw.walk with
      | none =>
        rw [hw] at ha
        exact ha
      | some w =>
        rw [hw] at ha
        exact ha
    | summaries => exact ha
  case deviceStatus =>
    intro s ch hq
    exact exec_reads hq (by simp) rfl
  case channelStatus =>
    intro s ch code hq
    obtain ⟨t, ht, ha⟩ := exec_reads hq (by simp) rfl
    refine ⟨t, ht, fun h => ?_, fun n h => ?_⟩
    · rwa [channelStatus_outOfRange h] at ha
    · rw [channelStatus_ok h] at ha
      exact ha

end Sys2Proof.Machine
end

section
/-! PROOFS. The pseudo-LRU bits and the reclaim decisions (O32). -/

namespace Sys2Proof.Machine

/-! ## Pseudo-LRU bits -/

/-- A use sets the root bit away from the way's pair, so the victim is in the other pair. -/
theorem Plru.victim_use_ne (p : Plru) (w : BitVec 2) : (p.use w).victim ≠ w := by
  obtain ⟨root, first, second⟩ := p
  revert root first second w
  decide

theorem useWay_plru (s : State) (i : FlowIx) (b : BitVec 12) : (s.useWay i).plru b =
    if b = bucketOf i then (s.plru (bucketOf i)).use (wayOf i) else s.plru b :=
  setPlru_plru ..

/-! ## The limit decision -/

section
variable {s : State} {r : SubRecord} {reclaim : Bool}

theorem limitReclaim_clear (h : r.flowList.length < s.flowLimit r) : s.limitReclaim r reclaim = .clear :=
  if_pos h

/-- At the limit the reclaim flag and the oldest flow that is not EMERGENCY decide. -/
theorem limitReclaim_full (h : s.flowLimit r ≤ r.flowList.length) : s.limitReclaim r reclaim =
    if reclaim then
      ((r.flowList.find? fun x => (s.flow x.index).cls != .emergency).map fun x => Reclaim.victim x.index).getD .refuse
    else .refuse := by
  have hroom : ¬ r.flowCount < s.flowLimit r := Nat.not_lt.mpr h
  cases reclaim with
  | false => simp [State.limitReclaim, hroom]
  | true =>
    cases hf : r.flowList.find? fun x => (s.flow x.index).cls != .emergency <;>
      simp [State.limitReclaim, hroom, hf]

theorem limitReclaim_allEmergency (h : s.flowLimit r ≤ r.flowList.length)
    (ha : ∀ x ∈ r.flowList, (s.flow x.index).cls = .emergency) : s.limitReclaim r reclaim = .refuse := by
  have hnone : (r.flowList.find? fun x => (s.flow x.index).cls != .emergency) = none := by simpa using ha
  simp [limitReclaim_full h, hnone]

theorem limitReclaim_oldest (h : s.flowLimit r ≤ r.flowList.length) {before later : List FlowHandle} {x : FlowHandle}
    (hl : r.flowList = before ++ x :: later) (hb : ∀ y ∈ before, (s.flow y.index).cls = .emergency)
    (hx : (s.flow x.index).cls ≠ .emergency) : s.limitReclaim r true = .victim x.index := by
  have hfind : (r.flowList.find? fun y => (s.flow y.index).cls != .emergency) = some x :=
    List.find?_eq_some_iff_append.mpr ⟨by simpa using hx, before, later, hl, by simpa using hb⟩
  simp [limitReclaim_full h, hfind]

end

/-! ## The bucket decision -/

section
variable {s : State} {b : BitVec 12} {limit : Option FlowIx} {reclaim : Bool}

theorem bucketFull_iff : s.bucketFull b limit = true ↔
    ∀ w, (s.flow (flowWay b w)).state ≠ .vacant ∧ limit ≠ some (flowWay b w) := by
  simp only [State.bucketFull, FlowRecord.live, List.all_map, List.all_eq_true, Function.comp_apply, Bool.and_eq_true,
    bne_iff_ne, decide_eq_true_eq]
  exact ⟨fun h w => ⟨(h w (ways_all w)).1, (h w (ways_all w)).2.symm⟩, fun h w _ => ⟨(h w).1, (h w).2.symm⟩⟩

theorem bucketReclaim_clear (h : s.bucketFull b limit = false) : s.bucketReclaim b limit reclaim = .clear := by
  simp [State.bucketReclaim, h]

theorem bucketReclaim_full (h : s.bucketFull b limit = true) : s.bucketReclaim b limit reclaim =
    if reclaim = true ∧ (s.flow (flowWay b (s.plru b).victim)).cls ≠ .emergency
    then .victim (flowWay b (s.plru b).victim) else .refuse := by
  by_cases hc : (s.flow (flowWay b (s.plru b).victim)).cls = .emergency <;> cases reclaim <;>
    simp [State.bucketReclaim, h, hc]

end

/-- Settles O32: the bits by their definitions, the limit by the first flow of the list that is not EMERGENCY, the
bucket by whether a way is free. -/
theorem pseudoLruBitsAndReclaimVictims : Obligations.PseudoLruBitsAndReclaimVictims := by
  refine ⟨⟨fun _ => ⟨rfl, rfl, rfl, rfl⟩, fun _ _ => ⟨rfl, rfl, rfl, rfl⟩, Plru.victim_use_ne, fun s i =>
    ⟨by simp [useWay_plru], fun b hb => by simp [useWay_plru, hb], rfl⟩⟩, fun s r => ⟨fun ht => ?_, fun k ht => ?_⟩,
    fun s r reclaim => ⟨limitReclaim_clear, fun hfull => ⟨?_, limitReclaim_allEmergency hfull, ?_⟩⟩,
    fun s b limit reclaim => ⟨fun hfree => bucketReclaim_clear ?_, fun hfull => ?_⟩⟩
  · rw [State.flowLimit, ht]
    rfl
  · rw [State.flowLimit, ht]
  · rintro rfl
    simp [limitReclaim_full hfull]
  · rintro before x later rfl
    exact limitReclaim_oldest hfull
  · rw [Bool.eq_false_iff, ne_eq, bucketFull_iff]
    push Not
    obtain ⟨w, hw⟩ := hfree
    exact ⟨w, hw.resolve_left⟩
  · have hdecision := bucketReclaim_full (reclaim := reclaim) (bucketFull_iff.mpr hfull)
    refine ⟨fun hrefuse => hdecision.trans (if_neg ?_), fun hflag hcls => hdecision.trans (if_pos ⟨hflag, hcls⟩)⟩
    rintro ⟨hflag, hcls⟩
    rcases hrefuse with hno | hemergency
    · simp [hflag] at hno
    · exact hcls hemergency

end Sys2Proof.Machine
end

section
/-! PROOFS. A pin taken from a flow (O34), and a flow retired (O33). -/

namespace Sys2Proof.Machine

/-! ## Drained notices -/

theorem dropPin_drainedWaiting (s : State) (l k : LinkId) : (s.dropPin l).drainedWaiting k = true ↔
    s.drainedWaiting k = true ∨ (l = k ∧ s.pinnedCount k ≤ 1 ∧ (s.link k).state = .draining) := by
  have hzero : s.pinnedCount l - 1 = 0 ↔ s.pinnedCount l ≤ 1 := by omega
  simp only [State.dropPin, hzero]
  split
  · rename_i hdrained
    by_cases hk : k = l
    · subst hk
      simp [setDrained_drainedWaiting, hdrained]
    · simp [setDrained_drainedWaiting, hk, Ne.symm hk]
  · rename_i hdrained
    rw [setPinned_drainedWaiting]
    refine (or_iff_left ?_).symm
    rintro ⟨rfl, hcount, hstate⟩
    exact hdrained ⟨hcount, hstate⟩

/-- R41: a pin dropped hands a drained notice where it was the last of a DRAINING link. -/
theorem dropPinOf_drainedWaiting (s : State) (p : Option LinkId) (k : LinkId) :
    (s.dropPinOf p).drainedWaiting k = true ↔
      s.drainedWaiting k = true ∨ (p = some k ∧ s.pinnedCount k ≤ 1 ∧ (s.link k).state = .draining) := by
  cases p with
  | none => simp [State.dropPinOf]
  | some l => simpa [State.dropPinOf] using dropPin_drainedWaiting s l k

/-! ## Moving a pin -/

/-- R39: the state of a live flow with the pin given: OPEN on it, or HELD without one. -/
def FlowState.withPin : Option LinkId → FlowState
  | some l => .opened l
  | none => .held

/-- R51, R140: both outcomes of a repin as one chain of operations. -/
theorem repinFlow_eq (s : State) (i : FlowIx) (selected : Option LinkId) : s.repinFlow i selected =
    ((s.dropPinOf (s.flow i).pin).setFlow i { s.flow i with state := .withPin selected }).addPinOf selected := by
  cases selected <;> rfl

theorem repinFlow_flow (s : State) (i j : FlowIx) (selected : Option LinkId) : (s.repinFlow i selected).flow j =
    if j = i then { s.flow i with state := .withPin selected } else s.flow j := by
  simp only [repinFlow_eq, addPinOf_frame, setFlow_flow, dropPinOf_frame]

theorem repinFlow_pinnedCount (s : State) (i : FlowIx) (selected : Option LinkId) (l : LinkId) :
    (s.repinFlow i selected).pinnedCount l = s.pinnedCount l - pinsOn (s.flow i).pin l + pinsOn selected l := by
  rw [repinFlow_eq, addPinOf_pinnedCount, setFlow_pinnedCount, dropPinOf_pinnedCount]

theorem repinFlow_drainedWaiting (s : State) (i : FlowIx) (selected : Option LinkId) (l : LinkId) :
    (s.repinFlow i selected).drainedWaiting l = true ↔ s.drainedWaiting l = true ∨
      ((s.flow i).state = .opened l ∧ s.pinnedCount l ≤ 1 ∧ (s.link l).state = .draining) := by
  rw [repinFlow_eq, ← pin_eq_some, ← dropPinOf_drainedWaiting]
  simp

/-- Settles O34: the flow, the counts and the notices by the lemmas on `repinFlow`; the rest is its frame. -/
theorem movingAPin : Obligations.MovingAPin := by
  intro s i selected f t
  have hflow : ∀ j, t.flow j = _ := fun j => repinFlow_flow s i j selected
  refine ⟨(hflow i).trans (if_pos rfl), fun j hj => (hflow j).trans (if_neg hj), fun l => ?_,
    repinFlow_drainedWaiting s i selected, ?_⟩
  · simpa only [pinsOn, pin_eq_some] using repinFlow_pinnedCount s i selected l
  · simp [t, State.SameCi]

/-! ## Retirement -/

theorem retire_drainedWaiting (s : State) (i : FlowIx) (l : LinkId) :
    (s.retire i).drainedWaiting l = true ↔ s.drainedWaiting l = true ∨
      ((s.flow i).state = .opened l ∧ s.pinnedCount l ≤ 1 ∧ (s.link l).state = .draining) := by
  rw [State.retire, dropPinOf_drainedWaiting, pin_eq_some]
  simp

theorem flowClose_served {u : State} {h : FlowHandle} {g : Option FlowGuard} {f : FlowRecord}
    (hs : u.flowOf h = some f) (hg : flowGuardPasses g f = true) : u.flowClose h g =
      (u.retire h.index, .of .ok ((u.retire h.index).flowNibbleAfter f.owner.index g f) []) := by
  simp [State.flowClose, hs, hg]

/-- Settles O33: the record, the list and the pin that a retirement changes, by their lemmas; FLOW_CLOSE retires. -/
theorem retirementAndFlowClose : Obligations.RetirementAndFlowClose := by
  refine ⟨?retire, ?close⟩
  case retire =>
    intro s i f t
    have hflow : ∀ j, t.flow j = _ := retire_flow s i
    have hsub : ∀ j, t.sub j = _ := retire_sub s i
    have hcount : ∀ l, t.pinnedCount l = _ := retire_pinnedCount s i
    have hdrained : ∀ l, t.drainedWaiting l = true ↔ _ := retire_drainedWaiting s i
    refine ⟨(hflow i).trans (if_pos rfl), fun j hj => (hflow j).trans (if_neg hj), (hsub _).trans (if_pos rfl),
      fun j hj => (hsub j).trans (if_neg hj), fun l hl => ?_, fun l hl => ?_, ?_⟩
    · have hleft : t.pinnedCount l = s.pinnedCount l - 1 := by
        rw [hcount, pinsOn, if_pos (pin_eq_some.mpr hl)]
      have hzero : s.pinnedCount l - 1 = 0 ↔ s.pinnedCount l ≤ 1 := by omega
      exact ⟨hleft, by rw [hdrained, hleft, hzero, and_iff_right hl]⟩
    · refine ⟨by rw [hcount, pinsOn, if_neg (mt pin_eq_some.mp hl), Nat.sub_zero], ?_⟩
      rw [Bool.eq_iff_iff, hdrained]
      exact or_iff_left fun hopen => hl hopen.1
    · simp [t, State.SameCi, State.SameLists]
  case close =>
    intro s ch h g f hq hs hg s1
    have hu : (s.grantTo .ftc ch).flowOf h = some f := by simpa using hs
    obtain ⟨hexec, hanswers⟩ := exec_answers hq (congrArg some (flowClose_served hu hg)) (by simp [State.SameCi])
    exact ⟨_, hexec, by simpa using hanswers, by simp [s1]⟩

end Sys2Proof.Machine
end

section
/-! PROOFS. FLOW_OPEN by its checks, in the order of R31 (O36, O37). -/

namespace Sys2Proof.Machine

/-! ## The checks before the touch -/

theorem flowClass_eq_none {code : BitVec 3} : flowClass code = none ↔ 4 ≤ code.toNat := by
  revert code
  decide

section
variable {u : State} {h : SubHandle} {k : FlowKey} {code : BitVec 3} {reclaim : Bool} {c : FlowClass} {r : SubRecord}

theorem flowOpen_outOfRange (hc : flowClass code = none) :
    u.flowOpen h k code reclaim = (u, .plain .outOfRange (blank 4)) := by
  simp [State.flowOpen, hc]

theorem flowOpen_stale (hc : flowClass code = some c) (hs : u.subOf h = none) :
    u.flowOpen h k code reclaim = (u, .plain .staleHandle (blank 4)) := by
  simp [State.flowOpen, hc, hs]

theorem flowOpen_detaching (hc : flowClass code = some c) (hs : u.subOf h = some r) (hr : r.state = .detaching) :
    u.flowOpen h k code reclaim = (u, .of .detaching (u.subNibble h.index) (blank 4)) := by
  simp [State.flowOpen, hc, hs, hr]

theorem flowOpen_unsettled (hc : flowClass code = some c) (hs : u.subOf h = some r) (hr : r.state = .unsettled) :
    u.flowOpen h k code reclaim = (u, .of .notAttached (u.subNibble h.index) (blank 4)) := by
  simp [State.flowOpen, hc, hs, hr]

theorem flowOpen_touched (hc : flowClass code = some c) (hs : u.subOf h = some r)
    (hr : r.state = .attached ∨ r.state = .roamBarred) :
    u.flowOpen h k code reclaim = (u.touch h.index).openTouched k c h reclaim := by
  rcases hr with hr | hr <;> simp [State.flowOpen, hc, hs, hr]

end

theorem touch_findKey (s : State) (i : SubIx) (k : FlowKey) : (s.touch i).findKey k = s.findKey k := by
  simp [State.findKey]

/-! ## After the touch -/

section
variable {u : State} {h : SubHandle} {k : FlowKey} {reclaim : Bool} {c : FlowClass}

theorem openTouched_found {i : FlowIx} (hk : u.findKey k = some i) : u.openTouched k c h reclaim =
    (u.touchFlow i, .of .already ((u.touchFlow i).subNibble h.index) ((u.touchFlow i).existingBody i)) := by
  simp [State.openTouched, hk]

theorem openTouched_new (hk : u.findKey k = none) : u.openTouched k c h reclaim = u.openNew k c h reclaim := by
  simp [State.openTouched, hk]

/-- R31, steps 6 and 7: either decision of R32 may refuse; else the reclaims and the creation follow. -/
theorem openNew_eq (u : State) (k : FlowKey) (c : FlowClass) (h : SubHandle) (reclaim : Bool) :
    u.openNew k c h reclaim =
      let limit := u.limitReclaim (u.sub h.index) reclaim
      let bucket := u.bucketReclaim (flowBucket k) limit.index reclaim
      if limit = .refuse then (u, .of .flowLimit (u.subNibble h.index) (blank 4))
      else if bucket = .refuse then (u, .of .bucketFull (u.subNibble h.index) (blank 4))
      else u.openAfterReclaim k c h limit.index bucket.index := by
  cases hl : u.limitReclaim (u.sub h.index) reclaim with
  | refuse => simp [State.openNew, hl]
  | clear => cases hb : u.bucketReclaim (flowBucket k) Reclaim.clear.index reclaim <;> simp [State.openNew, hl, hb]
  | victim v =>
    cases hb : u.bucketReclaim (flowBucket k) (Reclaim.victim v).index reclaim <;> simp [State.openNew, hl, hb]

theorem openAfterReclaim_creates {limit bucket : Option FlowIx} {i : FlowIx}
    (hv : ((u.retireSome limit).retireSome bucket).vacantFlow k = some i) :
    u.openAfterReclaim k c h limit bucket =
      let t := ((u.retireSome limit).retireSome bucket).createFlow i k c h
      (t, .of .ok (t.subNibble h.index) (t.openedBody i (limit.map u.flowHandle) (bucket.map u.flowHandle))) := by
  simp [State.openAfterReclaim, hv]

end

/-! ## A way for the new flow -/

/-- A retirement makes its victim's way vacant and leaves vacant ways vacant. -/
theorem retireSome_vacant {u : State} {v : Option FlowIx} {i : FlowIx}
    (h : (u.flow i).state = .vacant ∨ v = some i) : ((u.retireSome v).flow i).state = .vacant := by
  by_cases hv : v = some i
  · subst hv
    rw [State.retireSome, retire_flow, if_pos rfl]
    rfl
  · rw [retireSome_others u v hv]
    exact h.resolve_right hv

theorem vacantFlow_of_way {u : State} {k : FlowKey} {w : BitVec 2}
    (h : (u.flow (flowWay (flowBucket k) w)).state = .vacant) : ∃ i, u.vacantFlow k = some i := by
  refine Option.isSome_iff_exists.mp (List.find?_isSome.mpr ⟨_, List.mem_map.mpr ⟨w, ways_all w, rfl⟩, ?_⟩)
  simp [FlowRecord.live, h]

/-- R32: a bucket decision other than a refusal leaves a way for the new flow once the victims are retired. -/
theorem vacantFlow_after_reclaim {u : State} {k : FlowKey} {limit : Option FlowIx} {reclaim : Bool}
    (hb : u.bucketReclaim (flowBucket k) limit reclaim ≠ .refuse) :
    ∃ i, ((u.retireSome limit).retireSome (u.bucketReclaim (flowBucket k) limit reclaim).index).vacantFlow k =
      some i := by
  by_cases hfull : u.bucketFull (flowBucket k) limit = true
  · rw [bucketReclaim_full hfull] at hb ⊢
    split
    · exact vacantFlow_of_way (retireSome_vacant (.inr rfl))
    · rename_i hrefused
      exact absurd (if_neg hrefused) hb
  · rw [bucketFull_iff] at hfull
    push Not at hfull
    obtain ⟨w, hw⟩ := hfull
    exact vacantFlow_of_way (w := w) (retireSome_vacant (.inl (retireSome_vacant (or_iff_not_imp_left.mpr hw))))

/-! ## The creation and its answer -/

theorem newFlow_eq (s : State) (i : FlowIx) (k : FlowKey) (c : FlowClass) (h : SubHandle) (selected : Option LinkId) :
    s.newFlow i k c h selected =
      { key := k, stamp := (s.flow i).stamp, state := .withPin selected, cls := c, owner := h,
        mark := s.tw.currentMark, userWord := 0 } := by
  cases selected <;> rfl

theorem createFlow_plru (s : State) (i : FlowIx) (k : FlowKey) (c : FlowClass) (h : SubHandle) (b : BitVec 12) :
    (s.createFlow i k c h).plru b = if b = bucketOf i then (s.plru b).use (wayOf i) else s.plru b := by
  rw [State.createFlow, useWay_plru]
  simp only [listFlow_frame, addPinOf_frame, setFlow_plru]
  exact ite_congr rfl (fun hb => by rw [hb]) fun _ => rfl

/-- R181: the answer names the limit victim before the bucket victim, each with its reason. -/
theorem openedBody_eq (t : State) (i : FlowIx) (limit bucket : Option FlowIx) (handle : FlowIx → FlowHandle) :
    let handles := limit.toList.map handle ++ bucket.toList.map handle
    t.openedBody i (limit.map handle) (bucket.map handle) = [(t.flowHandle i).word,
      put 0 (t.flow i).state.code ||| put 8 (linkCode (t.flow i).pin) ||| put 16 handles.length |||
        put 20 (if limit = none ∧ bucket ≠ none then 1 else 0) |||
        put 21 (if limit ≠ none ∧ bucket ≠ none then 1 else 0),
      (handles.map FlowHandle.word).getD 0 0, (handles.map FlowHandle.word).getD 1 0] := by
  cases limit <;> cases bucket <;> rfl

/-- Settles O36: the decisions of R32 leave a way vacant, and `createFlow` fills it. -/
theorem flowOpenCreatesAFlow : Obligations.FlowOpenCreatesAFlow := by
  intro s ch h address remotePort localPort protocol code reclaim c r hq hc hs hr k s1 limit bucket hn hl hb s2 selected
    handles
  obtain ⟨i, hi⟩ : ∃ i, s2.vacantFlow k = some i := vacantFlow_after_reclaim hb
  have hk : (s.grantTo .ftc ch).flowOpen h k code reclaim = (s2.createFlow i k c h,
      .of .ok ((s2.createFlow i k c h).subNibble h.index)
        ((s2.createFlow i k c h).openedBody i (limit.index.map s1.flowHandle) (bucket.index.map s1.flowHandle))) := by
    have hfind : s1.findKey k = none := (touch_findKey ..).trans ((grantTo_findKey ..).trans hn)
    rw [flowOpen_touched hc (by simpa using hs) hr, openTouched_new hfind, openNew_eq]
    exact (if_neg hl).trans ((if_neg hb).trans (openAfterReclaim_creates hi))
  have hci : s.SameCi s2 := by simp [State.SameCi, s2, s1]
  have hal : s2.al = s1.al := by simp [s2]
  have hzas : s2.zas = s.zas := by simp [s2, s1]
  have htw : s2.tw = s.tw := by simp [s2, s1]
  have hgranted : s2.ftc.lastGranted = ch := by
    simp only [s2, s1, retireSome_frame, touch_frame]
    rfl
  -- From here on only these facts about the state before the creation are used.
  clear_value s2 bucket limit s1
  refine ⟨i, hi, ?_⟩
  intro f
  obtain ⟨hflow, hsub, hcount⟩ := createFlow_parts s2 i k c h
  have hf : (s2.createFlow i k c h).flow i = f := by
    rw [hflow, if_pos rfl, newFlow_eq, htw]
    rfl
  have hpin : f.pin = selected := by rw [← hf, hflow, if_pos rfl, newFlow_pin]
  rw [openedBody_eq, State.flowHandle, hf, hpin] at hk
  obtain ⟨hexec, hanswers⟩ := exec_answers hq (congrArg some hk) (by simpa [State.SameCi] using hci)
  refine ⟨_, hexec, ?_, by simpa using hf, fun j hj => ?_, ?_, fun j hj => ?_, fun l => ?_, fun b => ?_, ?_⟩
  · rw [complete_subNibble]
    exact hanswers
  · simp [hflow, hj]
  · simp [hsub, f]
  · simp [hsub, hj]
  · simp [hcount, pinsOn, selected]
  · simp [createFlow_plru]
  · simp [State.SameLists, hal, hzas, htw, hgranted]

/-! ## The answers without a creation -/

/-- A FLOW_OPEN whose operation leaves the CI and the terms alone, answered with the nibble of the state it leaves. -/
theorem flowOpen_answers {s u : State} {ch : Chan} {h : SubHandle} {k : FlowKey} {code : BitVec 3} {reclaim : Bool}
    {status : Status} {body : List Word} (hindex : k.subscriber = h.index)
    (hq : s.claim .ftc ch = some (.flowOpen h k.address k.remotePort k.localPort k.protocol code reclaim))
    (hk : (s.grantTo .ftc ch).flowOpen h k code reclaim = (u, .of status (u.subNibble h.index) body))
    (hci : s.SameCi u) (hterms : s.SameTerms u) :
    ∃ t, exec (.flowOpen ch) s = .next t ∧ s.Answers ch (.of status (t.subNibble h.index) body) t ∧
      t.stc = u.stc ∧ t.ftc = u.ftc ∧ t.al = u.al ∧ s.SameTerms t := by
  have hserved : (s.grantTo .ftc ch).served ch
      (.flowOpen h k.address k.remotePort k.localPort k.protocol code reclaim) =
      some (u, .of status (u.subNibble h.index) body) := by
    have hkey : FlowKey.mk h.index k.address k.remotePort k.localPort k.protocol = k := by rw [← hindex]
    rw [State.served, hkey, hk]
  obtain ⟨hexec, hanswers⟩ := exec_answers hq hserved hci
  exact ⟨_, hexec, by simpa using hanswers, by simp, by simp, by simp, complete_sameTerms ch _ hterms⟩

/-- Settles O37: the checks of R31 in their order; from the touch on, the answer comes from the touched state. -/
theorem flowOpenWithoutCreation : Obligations.FlowOpenWithoutCreation := by
  intro s ch h address remotePort localPort protocol code reclaim hq k s1 limit only touched
  have hclass : code.toNat < 4 → ∃ c, flowClass code = some c := fun hcode =>
    Option.ne_none_iff_exists'.mp (mt flowClass_eq_none.mp (Nat.not_le.mpr hcode))
  have stops : ∀ status nibble, (s.grantTo .ftc ch).flowOpen h k code reclaim =
      (s.grantTo .ftc ch, .of status nibble (blank 4)) → only status nibble := fun status nibble hk =>
    exec_onlyAnswers hq (congrArg some hk)
  refine ⟨fun hcode => stops _ _ (flowOpen_outOfRange (flowClass_eq_none.mpr hcode)), fun hcode hs => ?_,
    fun r hcode hs => ?_⟩
  · obtain ⟨c, hc⟩ := hclass hcode
    exact stops _ _ (flowOpen_stale hc (by simpa using hs))
  obtain ⟨c, hc⟩ := hclass hcode
  have hs0 : (s.grantTo .ftc ch).subOf h = some r := by simpa using hs
  refine ⟨fun hr => stops _ _ ?_, fun hr => stops _ _ ?_, fun hr => ?_⟩
  · rw [flowOpen_detaching hc hs0 hr, grantTo_subNibble]
  · rw [flowOpen_unsettled hc hs0 hr, grantTo_subNibble]
  have hopen : (s.grantTo .ftc ch).flowOpen h k code reclaim = s1.openTouched k c h reclaim :=
    flowOpen_touched hc hs0 hr
  have hfind : s1.findKey k = s.findKey k := (touch_findKey ..).trans (grantTo_findKey ..)
  have hci : s.SameCi s1 := by simp [State.SameCi, s1]
  have hterms : s.SameTerms s1 := by simp [State.SameTerms, s1]
  refine ⟨fun i hi => ?_, fun hn hl => ?_, fun hn hl hb => ?_⟩
  · intro f
    have htouch : s1.touchFlow i = s1.setFlow i f := by simp [State.touchFlow, s1, f]
    have hbody : (s1.touchFlow i).existingBody i = [FlowHandle.word { index := i, stamp := f.stamp },
        put 0 f.state.code ||| put 4 f.cls.code ||| put 8 (linkCode f.pin), 0, 0] := by
      simp [htouch, State.existingBody, State.flowHandle]
    have hk := hopen.trans (openTouched_found (hfind.trans hi))
    rw [hbody, htouch] at hk
    obtain ⟨t, ht⟩ := flowOpen_answers (k := k) rfl hq hk (by simpa [State.SameCi] using hci)
      (by simpa [State.SameTerms] using hterms)
    exact ⟨t, by simpa using ht⟩
  · have hk := hopen.trans ((openTouched_new (hfind.trans hn)).trans ((openNew_eq ..).trans (if_pos hl)))
    exact flowOpen_answers (k := k) rfl hq hk hci hterms
  · have hk := hopen.trans ((openTouched_new (hfind.trans hn)).trans
      ((openNew_eq ..).trans ((if_neg hl).trans (if_pos hb))))
    exact flowOpen_answers (k := k) rfl hq hk hci hterms

end Sys2Proof.Machine
end

section
/-! PROOFS. Eligible links and link selection (O35). -/

namespace Sys2Proof.Machine

/-! ## Eligible links -/

/-- R48: the class admission of a link, class by class. -/
theorem admits_iff {r : LinkRecord} {c : FlowClass} : r.admits c = true ↔ c = .emergency ∨
    (c = .voice ∧ r.config.admitVoice = true) ∨ (c = .interactive ∧ r.config.admitInteractive = true) ∨
    (c = .bulk ∧ r.config.admitBulk = true) := by
  cases c <;> simp [LinkRecord.admits]

theorem eligible_iff {s : State} {c : FlowClass} {l : LinkId} :
    s.eligible c l = true ↔ (s.link l).state = .up ∧ (s.link l).admits c = true := by
  simp [State.eligible]

theorem eligible_congr {s t : State} (h : ∀ l, t.link l = s.link l) (c : FlowClass) (l : LinkId) :
    t.eligible c l = s.eligible c l := by
  simp [State.eligible, h]

/-! ## The candidate of lowest rank -/

/-- R50: link `l` comes before `k` in the choice: a lower rank, or the same rank and no higher number. -/
def State.Ahead (s : State) (l k : LinkId) : Prop :=
  (s.link l).config.rank < (s.link k).config.rank ∨
    ((s.link l).config.rank = (s.link k).config.rank ∧ l ≤ k)

/-- The choice of R50 is the library's first least element, by rank. -/
theorem lowestRank_eq_argmin (s : State) (xs : List LinkId) :
    s.lowestRank xs = xs.argmin fun l => (s.link l).config.rank.toNat := by
  have hstep : s.better = List.argAux fun l k => (s.link l).config.rank.toNat < (s.link k).config.rank.toNat := by
    funext best l
    cases best <;> simp [State.better, List.argAux, BitVec.lt_def]
  rw [State.lowestRank, hstep, List.argmin]

/-- In a list of links in order, a lower number stands at an earlier place. -/
theorem idxOf_le_idxOf {xs : List LinkId} (hsorted : xs.SortedLT) {l k : LinkId} (hl : l ∈ xs) (hk : k ∈ xs)
    (hle : l ≤ k) : xs.idxOf l ≤ xs.idxOf k :=
  (hsorted.getIso xs).symm.monotone (a := ⟨l, hl⟩) (b := ⟨k, hk⟩) hle

theorem lowestRank_eq_some {s : State} {xs : List LinkId} (hsorted : xs.SortedLT) {l : LinkId} (hl : l ∈ xs)
    (hahead : ∀ k ∈ xs, s.Ahead l k) : s.lowestRank xs = some l := by
  rw [lowestRank_eq_argmin]
  refine List.mem_argmin_iff.mpr ⟨hl, fun k hk => ?_, fun k hk hrank => ?_⟩
  · rcases hahead k hk with hlt | ⟨heq, -⟩
    · exact Nat.le_of_lt hlt
    · exact (congrArg BitVec.toNat heq).le
  · rcases hahead k hk with hlt | ⟨-, hle⟩
    · exact absurd hlt (Nat.not_lt.mpr hrank)
    · exact idxOf_le_idxOf hsorted hl hk hle

theorem lowestRank_congr {s t : State} (h : ∀ l, t.link l = s.link l) (xs : List LinkId) :
    t.lowestRank xs = s.lowestRank xs := by
  simp only [lowestRank_eq_argmin, h]

/-! ## Link selection -/

/-- R50: a link eligible for the class and not congested. -/
def State.Free (s : State) (c : FlowClass) (l : LinkId) : Prop :=
  s.eligible c l = true ∧ (s.link l).congested = false

theorem fallbackOf_eq_some {s : State} {c : FlowClass} {old : Option LinkId} {l : LinkId} :
    s.fallbackOf c old = some l ↔ ∃ o, old = some o ∧ (s.link o).config.fallback = some l ∧ s.Free c l := by
  cases old with
  | none => simp [State.fallbackOf]
  | some o =>
    cases hf : (s.link o).config.fallback with
    | none => simp [State.fallbackOf, hf]
    | some f =>
      simp only [State.fallbackOf, hf, Option.ite_none_right_eq_some, Option.some.injEq, exists_eq_left']
      rw [and_comm]
      exact and_congr_right fun hfl => by simp [State.Free, hfl]

theorem links_filter_sorted (p : LinkId → Bool) : (links.filter p).SortedLT :=
  ((List.pairwise_lt_finRange 8).filter p).sortedLT

theorem mem_links_filter {p : LinkId → Bool} {l : LinkId} : l ∈ links.filter p ↔ p l = true := by
  simp [links]

/-- R50, step 2: the first of the free links, where the old pin's fallback is not taken. -/
theorem selectLink_free {s : State} {c : FlowClass} {old : Option LinkId} {l : LinkId}
    (hfallback : s.fallbackOf c old = none) (hl : s.Free c l) (hahead : ∀ k, s.Free c k → s.Ahead l k) :
    s.selectLink c old = some l := by
  have hfirst : s.lowestRank (links.filter fun l => s.eligible c l && !(s.link l).congested) = some l :=
    lowestRank_eq_some (links_filter_sorted _) (mem_links_filter.mpr (by simpa [State.Free] using hl)) fun k hk =>
      hahead k (by simpa [State.Free] using mem_links_filter.mp hk)
  simp only [State.selectLink, hfallback, hfirst]

/-- R50, steps 3 and 4: with no free link the choice is made among the eligible links, which are all congested. -/
theorem selectLink_congested {s : State} {c : FlowClass} {old : Option LinkId}
    (hfallback : s.fallbackOf c old = none) (hnone : ∀ l, ¬s.Free c l) :
    s.selectLink c old = s.lowestRank (links.filter (s.eligible c)) := by
  have hfree : (links.filter fun l => s.eligible c l && !(s.link l).congested) = [] :=
    List.filter_eq_nil_iff.mpr fun l _ => by simpa [State.Free] using hnone l
  have hall : (fun l => s.eligible c l && (s.link l).congested) = s.eligible c := by
    funext l
    simpa [State.Free] using hnone l
  simp only [State.selectLink, hfallback, hfree, hall]
  rfl

theorem selectLink_congr {s t : State} (h : ∀ l, t.link l = s.link l) (c : FlowClass) (old : Option LinkId) :
    t.selectLink c old = s.selectLink c old := by
  simp only [State.selectLink, State.fallbackOf, lowestRank_congr h, eligible_congr h, h]

/-- Settles O35: each clause of R50 is the step of `selectLink` that its condition leads to. -/
theorem linkSelectionPicksTheLowestRank : Obligations.LinkSelectionPicksTheLowestRank := by
  refine ⟨fun s c l => eligible_iff.trans (and_congr_right fun _ => admits_iff), fun s c old => ?_⟩
  intro free ahead
  refine ⟨fun o l ho hf hl => ?_, fun hfallback => ?_⟩
  · have hfound : s.fallbackOf c old = some l := fallbackOf_eq_some.mpr ⟨o, ho, hf, hl⟩
    simp only [State.selectLink, hfound]
  have hnofallback : s.fallbackOf c old = none := Option.eq_none_iff_forall_ne_some.mpr fun l hl => by
    obtain ⟨o, ho, hf, hfree⟩ := fallbackOf_eq_some.mp hl
    exact hfallback o l ho hf hfree
  refine ⟨fun l hl hahead => selectLink_free hnofallback hl hahead, fun hnone => ?_⟩
  rw [selectLink_congested hnofallback hnone]
  refine ⟨fun l hl hahead => ?_, fun hineligible => ?_⟩
  · exact lowestRank_eq_some (links_filter_sorted _) (mem_links_filter.mpr hl) fun k hk =>
      hahead k (mem_links_filter.mp hk)
  · rw [List.filter_eq_nil_iff.mpr fun l _ => by simp [hineligible l]]
    rfl

end Sys2Proof.Machine
end

section
/-! PROOFS. CHARGE by its checks, the tests on the owner and the link step (O38). -/

namespace Sys2Proof.Machine

/-! ## The checks before the touch -/

section
variable {u : State} {h : FlowHandle} {bytes : BitVec 16} {seconds : BitVec 8} {f : FlowRecord}

theorem chargeFlow_stale (hs : u.flowOf h = none) :
    u.chargeFlow h bytes seconds = (u, .plain .staleHandle (blank 1)) := by
  simp [State.chargeFlow, hs]

theorem chargeFlow_outOfRange (hs : u.flowOf h = some f) (hb : bytes = 0) :
    u.chargeFlow h bytes seconds = (u, .plain .outOfRange (blank 1)) := by
  simp [State.chargeFlow, hs, hb]

theorem chargeFlow_judges (hs : u.flowOf h = some f) (hb : bytes ≠ 0) :
    u.chargeFlow h bytes seconds = (u.useFlow h.index).judge h.index bytes.toNat seconds.toNat := by
  simp only [State.chargeFlow, hs, if_neg hb]

/-- R45: the use of a live flow, its three operations written out. -/
theorem useFlow_of_flowOf (hs : u.flowOf h = some f) : u.useFlow h.index =
    ((u.setFlow h.index { f with mark := u.tw.currentMark }).useWay h.index).touch f.owner.index := by
  rw [State.useFlow, State.touchFlow, (State.flowOf_spec hs).1]

end

/-! ## The tests on the owner -/

theorem charged_iff {r : SubRecord} : r.charged = true ↔ r.cls ≠ .shipSystem := by
  simp [SubRecord.charged]

theorem creditExhausted_iff {r : SubRecord} {c : FlowClass} : creditExhausted r c = true ↔
    r.byteAllowance = 0 ∨ (c = .voice ∧ r.secondsAllowance = 0) := by
  simp [creditExhausted]

section
variable {x : State} {r : SubRecord} {c : FlowClass}

theorem ownerVerdict_detaching (hr : r.state = .detaching) : x.ownerVerdict r c = some .block := by
  simp [State.ownerVerdict, hr]

theorem ownerVerdict_closeHeld (hr : r.state ≠ .detaching) (hc : c ≠ .emergency) (hheld : r.closeHeld = true) :
    x.ownerVerdict r c = some .hold := by
  simp [State.ownerVerdict, hr, hc, hheld]

theorem ownerVerdict_roamBarred (hc : c ≠ .emergency) (hheld : r.closeHeld = false) (hr : r.state = .roamBarred) :
    x.ownerVerdict r c = some .block := by
  simp [State.ownerVerdict, hr, hc, hheld]

theorem ownerVerdict_exhausted (hr : r.state ≠ .detaching) (hc : c ≠ .emergency) (hheld : r.closeHeld = false)
    (hbarred : r.state ≠ .roamBarred) (hcharged : r.cls ≠ .shipSystem) (hcredit : creditExhausted r c = true) :
    x.ownerVerdict r c = some (x.exhaustVerdict r) := by
  simp [State.ownerVerdict, hr, hc, hheld, hbarred, charged_iff.mpr hcharged, hcredit]

/-- R46, R47: what the tests on the owner let pass to the link step. -/
theorem ownerVerdict_eq_none : x.ownerVerdict r c = none ↔ r.state ≠ .detaching ∧ (c = .emergency ∨
    (r.closeHeld = false ∧ r.state ≠ .roamBarred ∧
      ¬(r.cls ≠ .shipSystem ∧ (r.byteAllowance = 0 ∨ (c = .voice ∧ r.secondsAllowance = 0))))) := by
  rw [← charged_iff, ← creditExhausted_iff, ← Bool.and_eq_true]
  unfold State.ownerVerdict
  split_ifs with hdetaching hemergency hheld hbarred hexhausted
  · simp [hdetaching]
  · simp [hdetaching, hemergency]
  · simp [hdetaching, hemergency, hheld]
  · simp [hbarred, hemergency]
  · simp [hdetaching, hemergency, hheld, hbarred, hexhausted]
  · simp [hdetaching, hemergency, hheld, hbarred, hexhausted]

theorem exhaustVerdict_of_tariff {k : TariffIx} (hk : r.tariff = some k) :
    ((x.tariff k).terms.exhaust = .block → x.exhaustVerdict r = .block) ∧
      ((x.tariff k).terms.exhaust = .redirect → x.exhaustVerdict r = .redirect) := by
  constructor <;> intro he <;> simp [State.exhaustVerdict, hk, he]

end

/-! ## The verdict and the charge on a link -/

theorem linkVerdict_eq (x : State) (c : FlowClass) (l : LinkId) : x.linkVerdict c l =
    if (x.link l).congested = true ∧ c = .bulk then .pace l else .forward l := by
  simp [State.linkVerdict]

theorem chargeBurst_eq (x : State) (o : SubIx) (c : FlowClass) (m n : Nat) : x.chargeBurst o c m n =
    if (x.sub o).cls ≠ .shipSystem ∧ c ≠ .emergency then x.chargeSub o m n else x := by
  simp [State.chargeBurst, SubRecord.charged]

/-! ## The link step -/

theorem keptPin_eq_none {x : State} {f : FlowRecord} (h : ∀ l, f.state = .opened l → x.eligible f.cls l = false) :
    x.keptPin f = none := by
  cases hp : f.pin with
  | none => simp [State.keptPin, hp]
  | some l => simp [State.keptPin, hp, h l (pin_eq_some.mp hp)]

section
variable {x : State} {i : FlowIx} {f : FlowRecord} {m n : Nat} (hf : x.flow i = f)
include hf

theorem judge_of_ownerVerdict {v : Verdict} (hv : x.ownerVerdict (x.sub f.owner.index) f.cls = some v) :
    x.judge i m n = (x, x.chargeReply i v false) := by
  simp [State.judge, hf, hv]

theorem judge_of_pass (hv : x.ownerVerdict (x.sub f.owner.index) f.cls = none) :
    x.judge i m n = x.linkStep i m n := by
  simp [State.judge, hf, hv]

theorem linkStep_kept {l : LinkId} (hpin : f.state = .opened l) (hl : x.eligible f.cls l = true) :
    x.linkStep i m n = x.forwardOn i l m n false := by
  have hkept : x.keptPin f = some l := by simp [State.keptPin, pin_eq_some.mpr hpin, hl]
  simp [State.linkStep, hf, hkept]

theorem linkStep_selects {l : LinkId} (hpin : x.keptPin f = none) (hl : x.selectLink f.cls f.pin = some l) :
    x.linkStep i m n = (x.repinFlow i (some l)).forwardOn i l m n true := by
  simp [State.linkStep, hf, hpin, hl]

theorem linkStep_holds (hpin : x.keptPin f = none) (hl : x.selectLink f.cls f.pin = none) :
    x.linkStep i m n = (x.repinFlow i none, (x.repinFlow i none).chargeReply i .hold false) := by
  simp [State.linkStep, hf, hpin, hl]

end

/-! ## What the touch, a repin and a burst leave as it was -/

/-- A state in the course of a CHARGE of flow `i`, which was `f`: the CI, the links, the ZAS and the TW are as in `s`,
and the flow has its owner and its class. -/
structure State.Charging (s : State) (i : FlowIx) (f : FlowRecord) (x : State) : Prop where
  ci : s.SameCi x
  link : ∀ l, x.link l = s.link l
  zas : x.zas = s.zas
  tw : x.tw = s.tw
  owner : (x.flow i).owner = f.owner
  cls : (x.flow i).cls = f.cls

section
variable {s x : State} {i : FlowIx} {f : FlowRecord}

theorem State.Charging.tariff (hx : s.Charging i f x) (k : TariffIx) : x.tariff k = s.tariff k := by
  simp only [State.tariff, hx.zas]

theorem State.Charging.repinFlow (hx : s.Charging i f x) (p : Option LinkId) : s.Charging i f (x.repinFlow i p) where
  ci := by simpa [State.SameCi] using hx.ci
  link l := by simpa using hx.link l
  zas := by simpa using hx.zas
  tw := by simpa using hx.tw
  owner := by simpa [repinFlow_flow] using hx.owner
  cls := by simpa [repinFlow_flow] using hx.cls

theorem State.Charging.chargeBurst (hx : s.Charging i f x) (o : SubIx) (c : FlowClass) (m n : Nat) :
    s.Charging i f (x.chargeBurst o c m n) where
  ci := by simpa [State.SameCi] using hx.ci
  link l := by simpa using hx.link l
  zas := by simpa using hx.zas
  tw := by simpa using hx.tw
  owner := by simpa using hx.owner
  cls := by simpa using hx.cls

end

/-! ## The answer -/

/-- R54: a judged CHARGE is answered from the state it leaves. -/
theorem charge_answers {s u : State} {ch : Chan} {h : FlowHandle} {bytes : BitVec 16} {seconds : BitVec 8}
    {f : FlowRecord} {v : Verdict} {repinned : Bool} (hq : s.claim .ftc ch = some (.charge h bytes seconds))
    (hk : (s.grantTo .ftc ch).chargeFlow h bytes seconds = (u, u.chargeReply h.index v repinned))
    (hu : s.Charging h.index f u) :
    ∃ t, exec (.charge ch) s = .next t ∧
      s.Answers ch {
        status := .ok, nibble := t.subNibble f.owner.index, flags := { repinned := repinned }
        body := [put 0 v.code ||| put 8 (linkCode v.link) ||| put 16 (t.flow h.index).state.code] } t ∧
      t.stc = u.stc ∧ t.ftc = u.ftc ∧ t.lm = u.lm ∧ t.al = u.al ∧ t.zas = s.zas ∧ t.tw = s.tw := by
  obtain ⟨hexec, hanswers⟩ := exec_answers hq (congrArg some hk) hu.ci
  exact ⟨_, hexec, by simpa [State.chargeReply, hu.owner] using hanswers, by simp [hu.zas, hu.tw]⟩

/-- Settles O38: the checks before the touch; then, from the touched state, the first test on the owner that decides,
or the link step. -/
theorem chargeGivesTheVerdict : Obligations.ChargeGivesTheVerdict := by
  intro s ch h bytes seconds hq
  refine ⟨fun hs => exec_onlyAnswers hq (congrArg some (chargeFlow_stale (by simpa using hs))), fun hs hb => ?_,
    fun f hs hb => ?_⟩
  · obtain ⟨f, hf⟩ := Option.ne_none_iff_exists'.mp hs
    exact exec_onlyAnswers hq (congrArg some (chargeFlow_outOfRange (f := f) (by simpa using hf) hb))
  intro i o s1 r code link ends exhausted passes charged forward
  have hs0 : (s.grantTo .ftc ch).flowOf h = some f := by simpa using hs
  have hjudge : (s.grantTo .ftc ch).chargeFlow h bytes seconds = s1.judge i bytes.toNat seconds.toNat := by
    rw [chargeFlow_judges hs0 hb, useFlow_of_flowOf hs0]
    rfl
  have hflow : s1.flow i = { f with mark := s.tw.currentMark } := by simp [s1]
  have htouched : s.Charging i f s1 := by constructor <;> simp [s1, State.SameCi]
  have hcode : ∀ v, code v = v.code := fun v => by cases v <;> rfl
  have hlink : ∀ v, link v = linkCode v.link := fun v => by cases v <;> rfl
  -- From here on only these facts about the touched state are used.
  clear_value s1 code link
  have answers : ∀ v repinned u, s1.judge i bytes.toNat seconds.toNat = (u, u.chargeReply i v repinned) →
      s.Charging i f u → ends v repinned u := fun v repinned u hk hu => by
    obtain ⟨t, hexec, hanswers, hblocks⟩ := charge_answers hq (hjudge.trans hk) hu
    exact ⟨t, hexec, by rwa [hcode, hlink], hblocks⟩
  have decides : ∀ v, s1.ownerVerdict r f.cls = some v → ends v false s1 := fun v hv =>
    answers v false s1 (judge_of_ownerVerdict hflow hv) htouched
  have forwards : ∀ x l repinned, s1.judge i bytes.toNat seconds.toNat =
      x.forwardOn i l bytes.toNat seconds.toNat repinned → s.Charging i f x → x.sub o = r →
      ends (forward l) repinned (charged x) := fun x l repinned hk hx hr => by
    have hcharged : x.chargeBurst o f.cls bytes.toNat seconds.toNat = charged x := by rw [chargeBurst_eq, hr]
    have hforward : x.linkVerdict f.cls l = forward l := by rw [linkVerdict_eq, hx.link]
    rw [State.forwardOn, hx.owner, hx.cls, hforward, hcharged] at hk
    exact answers _ _ _ hk (hcharged ▸ hx.chargeBurst ..)
  refine ⟨fun hr => decides _ (ownerVerdict_detaching hr), fun hr hc => ⟨fun hheld => ?held,
    fun hheld hbarred => ?barred, fun hheld hbarred hex k hk => ?exhausted⟩, fun hpass => ?passes⟩
  case held => exact decides _ (ownerVerdict_closeHeld hr hc hheld)
  case barred => exact decides _ (ownerVerdict_roamBarred hc hheld hbarred)
  case exhausted =>
    have hverdict := ownerVerdict_exhausted (x := s1) hr hc hheld hbarred hex.1 (creditExhausted_iff.mpr hex.2)
    obtain ⟨hblock, hredirect⟩ := exhaustVerdict_of_tariff (x := s1) hk
    rw [htouched.tariff] at hblock hredirect
    exact ⟨fun he => decides _ (hverdict.trans (congrArg some (hblock he))),
      fun he => decides _ (hverdict.trans (congrArg some (hredirect he)))⟩
  case passes =>
    have hstep : s1.judge i bytes.toNat seconds.toNat = s1.linkStep i bytes.toNat seconds.toNat :=
      judge_of_pass hflow (ownerVerdict_eq_none.mpr hpass)
    have heligible := eligible_congr htouched.link f.cls
    have hselect : s1.selectLink f.cls f.pin = s.selectLink f.cls f.pin := selectLink_congr htouched.link ..
    refine ⟨fun l hpin hl => ?kept, fun hpin => ?_⟩
    case kept =>
      exact forwards s1 l false (hstep.trans (linkStep_kept hflow hpin ((heligible l).trans hl))) htouched rfl
    have hlost : s1.keptPin { f with mark := s.tw.currentMark } = none :=
      keptPin_eq_none fun l hl => (heligible l).trans (hpin l hl)
    refine ⟨fun l hl => ?_, fun hn => ?_⟩
    · exact forwards _ l true (hstep.trans (linkStep_selects hflow hlost (hselect.trans hl)))
        (htouched.repinFlow _) (by simp [r])
    · exact answers _ _ _ (hstep.trans (linkStep_holds hflow hlost (hselect.trans hn))) (htouched.repinFlow _)

end Sys2Proof.Machine
end

section
/-! PROOFS. The charging arithmetic (O16), the low-credit check (O17), a grant on a record (O18) and the expiry of a
grant deadline (O22). -/

namespace Sys2Proof.Machine

/-! ## The charging arithmetic -/

theorem exceeds_iff {w : Nat} (x : BitVec w) (n : Nat) : exceeds x n = true ↔ 2 ^ w - 1 < x.toNat + n := by
  have := Nat.two_pow_pos w
  rw [exceeds, decide_eq_true_iff]
  omega

section
variable (r : SubRecord) (b n : Nat)

/-- R63: both counts of the current accumulator hold at their maximum. -/
theorem charge_current : (r.charge b n).current.bytes.toNat = min (r.current.bytes.toNat + b) 1099511627775 ∧
    (r.charge b n).current.seconds.toNat = min (r.current.seconds.toNat + n) 4294967295 :=
  ⟨satAdd_toNat .., satAdd_toNat ..⟩

/-- R63, R64: what sets SO. -/
theorem charge_so : (r.charge b n).so = true ↔ r.so = true ∨ 1099511627775 < r.current.bytes.toNat + b ∨
    4294967295 < r.current.seconds.toNat + n ∨ 4294967295 < r.byteOverrun.toNat + (b - r.byteAllowance.toNat) ∨
    4294967295 < r.secondsOverrun.toNat + (n - r.secondsAllowance.toNat) := by
  obtain ⟨-, -, hbytes⟩ := takeAmount_spec r.byteAllowance r.byteOverrun b
  obtain ⟨-, -, hseconds⟩ := takeAmount_spec r.secondsAllowance r.secondsOverrun n
  simp only [SubRecord.charge, Bool.or_eq_true, exceeds_iff, Nat.reducePow, Nat.reduceSub, hbytes, hseconds, or_assoc]

theorem charge_exhaustedNoted : (r.charge b n).exhaustedNoted = true ↔ r.exhaustedNoted = true ∨
    (r.byteAllowance ≠ 0 ∧ (r.charge b n).byteAllowance = 0) ∨
    (r.secondsAllowance ≠ 0 ∧ (r.charge b n).secondsAllowance = 0) := by
  simp only [SubRecord.charge, Bool.or_eq_true, emptied_iff, or_assoc]

end

theorem raisesExhausted_iff {before after : SubRecord} : raisesExhausted before after = true ↔
    before.exhaustedNoted = false ∧ ((before.byteAllowance ≠ 0 ∧ after.byteAllowance = 0) ∨
      (before.secondsAllowance ≠ 0 ∧ after.secondsAllowance = 0)) := by
  simp only [raisesExhausted, Bool.and_eq_true, Bool.not_eq_true', Bool.or_eq_true, emptied_iff]

/-- Settles O16: each amount by `takeAmount_spec` and `satAdd_toNat`; EXHAUSTED by its condition. -/
theorem chargingArithmetic : Obligations.ChargingArithmetic := by
  refine ⟨fun r b n => ?_, fun s i b n => ?_⟩
  · obtain ⟨hcovers, hexceeds, -⟩ := takeAmount_spec r.byteAllowance r.byteOverrun b
    obtain ⟨hcovers', hexceeds', -⟩ := takeAmount_spec r.secondsAllowance r.secondsOverrun n
    obtain ⟨hbytes, hseconds⟩ := charge_current r b n
    exact ⟨hbytes, hseconds, hcovers, hexceeds, hcovers', hexceeds', charge_so r b n, charge_exhaustedNoted r b n,
      rfl⟩
  · exact congrArg (State.lowCredit · i) (if_congr raisesExhausted_iff rfl rfl)

/-! ## The low-credit check -/

theorem askingTariff_eq_some {r : SubRecord} {k : TariffIx} :
    askingTariff r = some k ↔ r.state = .attached ∧ r.grant = .none ∧ r.tariff = some k := by
  refine ⟨askingTariff_spec, fun ⟨hstate, hgrant, htariff⟩ => ?_⟩
  simp only [askingTariff, hstate, hgrant, htariff]

theorem belowThreshold_iff {r : SubRecord} {x : TariffTerms} : belowThreshold r x = true ↔
    r.byteAllowance.toNat < x.lowBytes.toNat ∨ r.secondsAllowance.toNat < x.lowSeconds.toNat := by
  simp only [belowThreshold, Bool.or_eq_true, decide_eq_true_iff, BitVec.lt_def]

section
variable {s : State} {i : SubIx}

theorem lowCredit_asks {k : TariffIx} (hk : askingTariff (s.sub i) = some k)
    (hlow : belowThreshold (s.sub i) (s.tariff k).terms = true) :
    s.lowCredit i = s.enterRequested i (s.tariff k).terms.timeout.toNat := by
  simp only [State.lowCredit, hk, hlow, if_true]

theorem lowCredit_quiet
    (h : ∀ k, askingTariff (s.sub i) = some k → belowThreshold (s.sub i) (s.tariff k).terms = false) :
    s.lowCredit i = s := by
  cases hk : askingTariff (s.sub i) with
  | none => simp only [State.lowCredit, hk]
  | some k => simp [State.lowCredit, hk, h k hk]

end

/-- R70: the place that the record takes in the deadline list, by the seconds remaining once its deadline is set. -/
theorem enterRequested_deadlines (s : State) (i : SubIx) (n : Nat) :
    let t := s.enterRequested i n
    ∃ before later, s.stc.deadlines = before ++ later ∧ t.stc.deadlines = before ++ i :: later ∧
      (∀ j ∈ before, t.remainingOf j ≤ t.remainingOf i) ∧
      ∀ j, later.head? = some j → t.remainingOf i < t.remainingOf j :=
  insertDeadline_spec (s.setSub i { s.sub i with grant := .requested (s.after n) }) i s.stc.deadlines

/-- Settles O17: a record that asks and stands below a threshold enters REQUESTED; any other is left alone. -/
theorem lowCreditCheck : Obligations.LowCreditCheck := by
  refine fun s i => ⟨fun k hstate htariff hgrant hlow => ?_, fun hquiet => lowCredit_quiet fun k hk => ?_⟩
  · rw [lowCredit_asks (askingTariff_eq_some.mpr ⟨hstate, hgrant, htariff⟩) (belowThreshold_iff.mpr hlow)]
    obtain ⟨before, later, hlist, hplace⟩ := enterRequested_deadlines s i (s.tariff k).terms.timeout.toNat
    refine ⟨_, before, later, rfl, ?_, fun j hj => by rw [enterRequested_sub, if_neg hj], hlist, hplace.1, hplace.2.1,
      hplace.2.2, by simp, by simp, by simp, by simp, by simp [State.SameTerms], by simp [State.SameCi], rfl⟩
    rw [enterRequested_sub, if_pos rfl, State.after, BitVec.ofNat_toNat]
  · obtain ⟨hstate, hgrant, htariff⟩ := askingTariff_spec hk
    rw [Bool.eq_false_iff, ne_eq, belowThreshold_iff]
    rcases hquiet with hother | hother | hother | ⟨k', htariff', hbytes, hseconds⟩
    · exact absurd hstate hother
    · cases htariff.symm.trans hother
    · exact absurd hgrant hother
    · obtain rfl := Option.some.inj (htariff.symm.trans htariff')
      omega

/-! ## A grant on a record -/

/-- Settles O18: `grantAmount_spec`, for bytes and for seconds. -/
theorem applyingAGrantRepaysTheOverrunFirst : Obligations.ApplyingAGrantRepaysTheOverrunFirst := by
  intro r b n t
  obtain ⟨hoverrun, hallowance⟩ := grantAmount_spec r.byteAllowance r.byteOverrun b
  obtain ⟨hoverrun', hallowance'⟩ := grantAmount_spec r.secondsAllowance r.secondsOverrun n
  exact ⟨hoverrun, hallowance, hoverrun', hallowance', rfl⟩

/-! ## The expiry of a grant deadline -/

section
variable {s : State} {r : SubRecord} {i : SubIx}

theorem overdrawn_applies {k : TariffIx} (hk : r.tariff = some k) (ha : (s.tariff k).terms.noAnswer = .overdraft)
    (hu : r.overdraftUsed = false) : s.overdrawn r =
      { r.applyGrant (s.tariff k).terms.overdraftBytes (s.tariff k).terms.overdraftSeconds with
        overdraftUsed := true } := by
  simp only [State.overdrawn, hk, ha, hu, and_self, if_true]

theorem overdrawn_blocks (h : r.tariff = none ∨ (∃ k, r.tariff = some k ∧ (s.tariff k).terms.noAnswer = .block) ∨
    r.overdraftUsed = true) : s.overdrawn r = r := by
  cases hk : r.tariff with
  | none => simp only [State.overdrawn, hk]
  | some k =>
    have hno : ¬((s.tariff k).terms.noAnswer = .overdraft ∧ r.overdraftUsed = false) := by
      rintro ⟨ha, hu⟩
      simp [hk, ha, hu] at h
    simp only [State.overdrawn, hk, if_neg hno]

theorem expireGrant_sub (j : SubIx) : (s.expireGrant i).sub j =
    if j = i then s.overdrawn { s.sub i with grant := .timedOut } else s.sub j := by
  show (s.setSub i _).sub j = _
  rw [setSub_sub]

theorem exec_grantDeadlineExpiry (hr : s.running = true) (hi : s.expiringGrant = some i) :
    exec .grantDeadlineExpiry s = .next (s.expireGrant i) := by
  refine congrArg Host.Outcome.next ?_
  rw [hr, hi]

end

/-- Settles O22: the head of the list is the one that expires; the overdraft by the tariff's action. -/
theorem grantDeadlineExpiryTimesOut : Obligations.GrantDeadlineExpiryTimesOut := by
  intro s i rest hrun hlist hdue r
  have hexpiring : s.expiringGrant = some i := by simp [State.expiringGrant, hlist, hdue]
  have hself : (s.expireGrant i).sub i = s.overdrawn r := by rw [expireGrant_sub, if_pos rfl]
  refine ⟨_, exec_grantDeadlineExpiry hrun hexpiring, fun k hk ha hu => hself.trans (overdrawn_applies hk ha hu),
    fun h => hself.trans (overdrawn_blocks h), fun j hj => by rw [expireGrant_sub, if_neg hj], ?_, by simp, by simp,
    by simp, by simp, by simp [State.SameTerms], by simp [State.SameCi], rfl⟩
  rw [← hlist]
  rfl

end Sys2Proof.Machine
end

section
/-! PROOFS. USAGE_POST (O21) and SETTLE (O20). -/

namespace Sys2Proof.Machine

/-! ## USAGE_POST -/

theorem exec_usagePost {s : State} {ch : Chan} {h : SubHandle} {code : BitVec 3} {b n : Word}
    (hq : s.claim .stc ch = some (.usagePost h code b n)) : exec (.usagePost ch) s =
      .next (((s.grantTo .stc ch).usagePost h code b n).1.completePosted ch
        ((s.grantTo .stc ch).usagePost h code b n).2) := by
  refine congrArg Host.Outcome.next ?_
  rw [hq]

section
variable {u : State} {h : SubHandle} {code : BitVec 3} {b n : Word} {r : SubRecord}

theorem usagePost_stale (hs : u.subOf h = none) : u.usagePost h code b n = (u, some .staleHandle) := by
  simp only [State.usagePost, hs]

theorem usagePost_outOfRange (hs : u.subOf h = some r) (hc : flowClass code = none) :
    u.usagePost h code b n = (u, some .outOfRange) := by
  simp only [State.usagePost, hs, hc]

theorem usagePost_ok {c : FlowClass} (hs : u.subOf h = some r) (hc : flowClass code = some c) :
    u.usagePost h code b n = (u.postUsage h.index c b n, none) := by
  simp only [State.usagePost, hs, hc]

end

/-- R66: the touch, the mixed flag of a record whose close is held, the charge of a charged class. -/
theorem postUsage_eq (u : State) (i : SubIx) (c : FlowClass) (b n : Word) : u.postUsage i c b n =
    if (u.sub i).cls = .shipSystem ∨ c = .emergency then u.touch i
    else ((u.touch i).markMixed i).chargeSub i b.toNat n.toNat := by
  have hcls : ((u.touch i).sub i).cls = (u.sub i).cls := (touch_follows u i).self.cls
  by_cases hfree : (u.sub i).cls = .shipSystem ∨ c = .emergency
  · rw [if_pos hfree]
    rcases hfree with hship | hemergency
    · simp [State.postUsage, SubRecord.charged, hcls, hship]
    · simp [State.postUsage, hemergency]
  · rw [if_neg hfree]
    obtain ⟨hship, hemergency⟩ := not_or.mp hfree
    simp [State.postUsage, SubRecord.charged, hcls, hship, hemergency]

theorem ChannelRecord.completePosted_none {c : ChannelRecord} {out : Outstanding} (ho : c.outstanding = some out) :
    c.completePosted none = { c with outstanding := none } := by
  simp only [ChannelRecord.completePosted, ho]

/-- A posted request completes at its own channel alone. -/
theorem completePosted_of_sameCi {s u : State} (hu : s.SameCi u) (ch : Chan) (f : Option Status) :
    let t := u.completePosted ch f
    t.chan ch = (s.chan ch).completePosted f ∧ (∀ k, k ≠ ch → t.chan k = s.chan k) ∧ s.SameShell t := by
  obtain ⟨hci, hreset, hpending⟩ := hu
  have hchan : ∀ k, u.chan k = s.chan k := fun k => by simp only [State.chan, hci]
  refine ⟨?_, fun k hk => ?_, by simp [State.SameShell, hci, hreset, hpending]⟩
  · simp [State.completePosted, hchan]
  · simp [State.completePosted, setChan_chan_ne _ _ hk, hchan]

/-- Settles O21: a live handle and a class in range let the usage be posted; else the failure is recorded alone. -/
theorem usagePostChargesOrIsRecorded : Obligations.UsagePostChargesOrIsRecorded := by
  refine ⟨fun s ch h code b n r c hq hs hc => ?_, fun s ch h code b n st hq hfail => ?_⟩
  · intro s1 s2 s3
    obtain ⟨rfl, -, -⟩ := State.subOf_spec hs
    obtain ⟨out, hout, -⟩ := State.claim_outstanding hq
    have hs3 : (s.grantTo .stc ch).postUsage h.index c b n = s3 := by
      simp only [postUsage_eq, grantTo_frame]
      rfl
    have hpost : (s.grantTo .stc ch).usagePost h code b n = (s3, none) := by
      rw [usagePost_ok (by simpa using hs) hc, hs3]
    obtain ⟨hown, hothers, hshell⟩ :=
      completePosted_of_sameCi (s := s) (u := s3) (by simp [← hs3, State.SameCi]) ch none
    rw [exec_usagePost hq, hpost]
    exact ⟨_, rfl, by simp, by simp, by simp [← hs3], by simp [← hs3, State.SameTerms],
      hown.trans (ChannelRecord.completePosted_none hout), hothers, hshell⟩
  · have hpost : (s.grantTo .stc ch).usagePost h code b n = (s.grantTo .stc ch, some st) := by
      rcases hfail with ⟨hstale, rfl⟩ | ⟨⟨hlive, hstamp, hcode⟩, rfl⟩
      · exact usagePost_stale (by simpa using State.subOf_none hstale)
      · exact usagePost_outOfRange (by simpa using State.subOf_some hlive hstamp) (flowClass_eq_none.mpr hcode)
    obtain ⟨hown, hothers, hshell⟩ :=
      completePosted_of_sameCi (s := s) (u := s.grantTo .stc ch) (by simp [State.SameCi]) ch (some st)
    rw [exec_usagePost hq, hpost]
    exact ⟨_, rfl, by simp [State.SameBlocks], hshell, hown, hothers⟩

/-! ## The parts that SETTLE selects -/

theorem SettlePart.closedOf_eq (p : SettlePart) (r : SubRecord) :
    p.closedOf r = if p = .current then none else r.closed := by
  cases p <;> rfl

theorem SettlePart.currentOf_eq (p : SettlePart) (r : SubRecord) : p.currentOf r =
    if p ≠ .closed ∧ decide (r.current.bytes ≠ 0 ∨ r.current.seconds ≠ 0) = true then
      some { zone := r.ratingZone, usage := r.current }
    else none := by
  rw [← Usage.nonzero_eq]
  cases p <;> simp [SettlePart.currentOf]

/-- R181: the words of a SETTLE answer, an absent part reading as an empty one. -/
theorem settleBody_eq (h : SubHandle) (state : SubState) (closed current : Option ClosedSlot) :
    let empty : ClosedSlot := { zone := 0, usage := { bytes := 0, seconds := 0, mixed := false } }
    let c := closed.getD empty
    let d := current.getD empty
    settleBody h state closed current =
      [h.word, put 0 state.code ||| putFlag 8 closed.isSome ||| putFlag 9 current.isSome ||| put 16 c.zone.toNat |||
          putFlag 21 c.usage.mixed ||| put 24 d.zone.toNat ||| putFlag 29 d.usage.mixed,
        c.usage.bytes.setWidth 32, (c.usage.bytes.extractLsb' 32 8).setWidth 32, c.usage.seconds,
        d.usage.bytes.setWidth 32, (d.usage.bytes.extractLsb' 32 8).setWidth 32, d.usage.seconds] := by
  cases closed <;> cases current <;> simp only [settleBody, countWords_eq] <;> rfl

section
variable {u : State} {h : SubHandle} {r : SubRecord} {g : Option SubGuard} {p : SettlePart} (hs : u.subOf h = some r)
  (hg : subGuardPasses g r = true)
include hs hg

theorem settle_nothing (hc : p.closedOf r = none) (hd : p.currentOf r = none) : u.settle h g p =
    (u, .of .nothing (u.nibbleAfter h.index g r) (settleBody h r.state none none)) := by
  simp [State.settle, hs, hg, hc, hd]

theorem settle_parts (hsome : ¬(p.closedOf r = none ∧ p.currentOf r = none)) : u.settle h g p =
    let s1 := u.settleParts h.index (p.closedOf r) (p.currentOf r)
    let t := s1.freeIfSettled h.index
    (t, ⟨.ok, t.settleNibble h.index g r,
      { closeFollowed := (p.closedOf r).isSome && (s1.sub h.index).closed.isSome },
      settleBody h (t.sub h.index).state (p.closedOf r) (p.currentOf r)⟩) := by
  simp [State.settle, hs, hg, hsome]

end

/-! ## The settled parts cleared, and the deferred close -/

section
variable (u : State) (i : SubIx) (c d : Option ClosedSlot)

theorem settled_eq (r : SubRecord) : r.settled c d = { r with
    closed := if c = none then r.closed else none
    current := if d = none then r.current else Usage.zero } := by
  cases c <;> cases d <;> rfl

/-- R80, R81: the record without its settled parts, and the closed-slot count without its slot. -/
def State.clearParts : State :=
  let s1 := u.setSub i ((u.sub i).settled c d)
  { s1 with stc := { s1.stc with closedCount := u.stc.closedCount - if c = none then 0 else 1 } }

theorem clearParts_sub : (u.clearParts i c d).sub i = (u.sub i).settled c d :=
  setSub_sub_same ..

theorem clearParts_setSub (r : SubRecord) : (u.clearParts i c d).setSub i r =
    { u.setSub i r with
      stc := { (u.setSub i r).stc with closedCount := u.stc.closedCount - if c = none then 0 else 1 } } := by
  rw [State.clearParts, setClosedCount_setSub, setSub_setSub]

theorem settleParts_eq : u.settleParts i c d =
    if c ≠ none ∧ (u.sub i).closeHeld = true then (u.clearParts i c d).deferredClose i else u.clearParts i c d := by
  cases c with
  | none => rfl
  | some x =>
    simp only [State.settleParts, Option.isSome_some, if_true, Bool.true_and, dropClosed_sub, setSub_sub_same]
    exact if_congr (iff_and_self.mpr fun _ => Option.some_ne_none x) rfl rfl

/-- R80: the deferred close of a record whose slot is empty, as one write and one count before the recheck. -/
theorem deferredClose_eq (hc : (u.sub i).closed = none) : u.deferredClose i =
    let r := u.sub i
    let left : Bool := decide (r.current.bytes ≠ 0 ∨ r.current.seconds ≠ 0)
    let s1 := u.setSub i { r with
      closeHeld := false
      closed := if left then some { zone := r.ratingZone, usage := r.current } else none
      current := if left then Usage.zero else r.current
      ratingZone := u.zas.currentZone, zoneEpoch := u.zas.zoneEpoch, policyEpoch := u.zas.policyEpoch }
    State.recheck { s1 with stc := { s1.stc with closedCount := u.stc.closedCount + if left then 1 else 0 } } i := by
  have hclose := closeUsage_bringUpToDate (u.setSub i { u.sub i with closeHeld := false }) (i := i) (by simpa using hc)
  simp only [setSub_sub_same, setSub_setSub, setSub_zas, setSub_stcClosedCount] at hclose
  exact hclose

end

/-! ## The end of a record -/

/-- R82: an UNSETTLED record left with nothing unsettled. -/
def SubRecord.spent (r : SubRecord) : Bool :=
  decide (r.state = .unsettled ∧ r.closed = none ∧ r.current.bytes = 0 ∧ r.current.seconds = 0)

section
variable (u : State) (i : SubIx)

theorem freeIfSettled_eq : u.freeIfSettled i = if (u.sub i).spent = true then u.free i else u := by
  refine if_congr ?_ rfl rfl
  have husage := not_congr (unsettledUsage_iff (u.sub i))
  simp only [not_or, not_not, Bool.not_eq_true] at husage
  simp only [SubRecord.spent, Bool.and_eq_true, beq_iff_eq, Bool.not_eq_true', husage, decide_eq_true_iff]
  tauto

/-- R82: the nibble of the answer: zero where the record was freed and no guard was carried. -/
theorem settleNibble_eq (hl : (u.sub i).live = true) (g : Option SubGuard) (r : SubRecord) :
    (u.freeIfSettled i).settleNibble i g r =
      if g.isNone && (u.sub i).spent then Nibble.zero else (u.freeIfSettled i).nibbleAfter i g r := by
  cases g with
  | some x => rfl
  | none =>
    rw [freeIfSettled_eq]
    cases hspent : (u.sub i).spent with
    | true =>
      have hfreed : ((u.free i).sub i).live = false := by rw [free_sub, if_pos rfl]; rfl
      simp [State.settleNibble, hfreed]
    | false => simp [State.settleNibble, State.nibbleAfter, hl]

end

/-- Settles O20: empty parts change nothing; else the parts are cleared, the deferred close made, the record freed. -/
theorem settleHandsUsageOver : Obligations.SettleHandsUsageOver := by
  intro s ch h g p r hq hs hg
  obtain ⟨rfl, hlive, -⟩ := live_of_subOf hs
  intro i body nonzero closed current
  have hs0 : (s.grantTo .stc ch).subOf h = some (s.sub i) := by simpa using hs
  have hclosed : p.closedOf (s.sub i) = closed := p.closedOf_eq _
  have hcurrent : p.currentOf (s.sub i) = current := p.currentOf_eq _
  have hbody : ∀ x c d, settleBody h x c d = body x c d := fun x c d => settleBody_eq h x c d
  refine ⟨fun hc hd => exec_onlyAnswers hq (congrArg some ?_), fun hsome => ?_⟩
  · rw [settle_nothing hs0 hg (hclosed.trans hc) (hcurrent.trans hd), hbody, grantTo_nibbleAfter]
  intro r1 count s0 plain left r2 deferred s1 gone s2
  have hsub : s0.sub i = s.sub i := by simp [s0]
  have hr1 : (s0.sub i).settled closed current = r1 := by rw [hsub, settled_eq]
  have hplain : s0.clearParts i closed current = plain := by
    rw [State.clearParts, hr1]
    rfl
  have hdeferred : closed ≠ none → plain.deferredClose i = deferred := fun hc => by
    have hcleared : (s0.clearParts i closed current).sub i = r1 := (clearParts_sub ..).trans hr1
    rw [← hplain, deferredClose_eq _ _ (by rw [hcleared]; exact if_neg hc)]
    simp only [hcleared, clearParts_setSub]
    rfl
  have hs1 : s0.settleParts i closed current = s1 := by
    rw [settleParts_eq, hplain, hsub]
    exact ite_congr rfl (fun hheld => hdeferred hheld.1) fun _ => rfl
  have hfollows : (s.sub i).Follows (s1.sub i) := by
    rw [← hs1, ← hsub]
    exact (settleParts_follows ..).self
  have hs2 : s1.freeIfSettled i = s2 := by
    rw [freeIfSettled_eq, State.free, SubRecord.vacated, hfollows.stamp]
    rfl
  have hnibble : s2.settleNibble i g (s.sub i) =
      if g.isNone && gone then Nibble.zero else s2.nibbleAfter i g (s.sub i) := by
    rw [← hs2]
    exact settleNibble_eq s1 i (hfollows.live hlive) g (s.sub i)
  have hk : s0.settle h g p = (s2, ⟨.ok, if g.isNone && gone then Nibble.zero else s2.nibbleAfter i g (s.sub i),
      { closeFollowed := closed.isSome && (s1.sub i).closed.isSome }, body (s2.sub i).state closed current⟩) := by
    have hindex : h.index = i := rfl
    rw [settle_parts (u := s0) hs0 hg (by rwa [hclosed, hcurrent]), hclosed, hcurrent]
    simp only [hindex, hs1, hs2, hnibble, hbody]
  obtain ⟨hci, hterms, hftc⟩ : s.SameCi s2 ∧ s.SameTerms s2 ∧ s2.ftc = s.ftc := by
    simp [← hs2, ← hs1, s0, State.SameCi, State.SameTerms]
  obtain ⟨hexec, hanswers⟩ := exec_answers hq (congrArg some hk) hci
  exact ⟨_, hexec, by simp, by simp, by simp [hftc], complete_sameTerms ch _ hterms, by simpa using hanswers⟩

end Sys2Proof.Machine
end

section
/-! PROOFS. The links and the tariff terms stay sound (O56): the moves that write them keep them by their own lemmas,
every other move leaves them as they were. -/

namespace Sys2Proof.Machine

/-! ## The links -/

theorem reset_linksSound : State.reset.LinksSound := by
  unfold State.LinksSound LinkRecord.SoundAt
  decide

/-- R130: the start of a REPIN walk whose target is UP ends it at once, and writes its summary to the link. -/
theorem State.LinksSound.startWalk {s : State} (h : s.LinksSound) (e : WalkEntry) : (s.startWalk e).LinksSound := by
  have hset : (s.setWalk (some (s.newWalk e))).LinksSound := h.of_links (by simp)
  cases e with
  | age => exact hset.of_links (by simp [State.startWalk])
  | zone => exact hset
  | recheck => exact hset
  | repin l =>
    simp only [State.startWalk]
    split
    · exact hset.endRepin l 0 0 false
    · exact hset

theorem State.served_keepsLinks {s : State} {ch : Chan} {q : Request} {k : Taken} (hk : s.served ch q = some k)
    (h : s.LinksSound) : k.1.LinksSound := by
  cases q
  case usagePost | deviceConfig | softReset => cases hk
  case linkAdmin code a =>
    cases a <;> obtain rfl := Option.some.inj hk
    case enable => exact h.enable code
    case disable => exact h.disable code
    case drain => exact h.drain code
    case inject => exact h.inject code
    case snapshot => exact h.snapshot code
  all_goals obtain rfl := Option.some.inj hk
  case linkReport => exact h.linkReport _ _ _
  case linkConfig => exact h.linkConfig _ _ _
  case walkAbort => exact h.walkAbort _ _
  all_goals exact h.of_links (by simp)

theorem State.Moves.keepsLinks {s t : State} (hm : s.Moves t) (h : s.LinksSound) : t.LinksSound := by
  cases hm
  case served hk => exact (State.served_keepsLinks hk (h.of_links (by simp))).finish _
  case powerOn => exact reset_linksSound.of_links rfl
  case clearingEnded => exact h.endClearing _ _
  case staleExpired hd => exact h.expireStale hd
  case snapshotTaken l _ _ => exact (h.takeSnapshot l).of_links (by simp)
  case drained => exact h.takeDrained _
  case walkStarted e _ _ => exact (h.of_links (t := s.setQueue s.tw.queue.tail) (by simp)).startWalk e
  case repinEnded => exact h.endRepin _ _ _ _
  all_goals exact h.of_links (by simp)

/-! ## The terms -/

theorem reset_termsSound : State.reset.TermsSound := by
  refine ⟨by rw [reset_zone]; rfl, List.Pairwise.nil, Nat.zero_le _, fun a ha => ?_, fun t => ?_⟩
  · cases ha
  · rw [reset_tariff]
    rfl

theorem State.served_keepsTerms {s : State} {ch : Chan} {q : Request} {k : Taken} (hk : s.served ch q = some k)
    (h : s.TermsSound) : k.1.TermsSound := by
  cases q
  case usagePost | deviceConfig | softReset => cases hk
  case linkAdmin code a =>
    cases a
    all_goals
      obtain rfl := Option.some.inj hk
      exact h.of_zas (by simp) (by simp) (by simp) (by simp)
  all_goals obtain rfl := Option.some.inj hk
  case zoneChange => exact h.zoneChange _ _
  case zoneDefine => exact h.zoneDefine _ _ _
  case agreementSet => exact h.agreementSet _ _ _ _ _ _
  case agreementRemove => exact h.agreementRemove _
  case tariffSet => exact h.tariffSet _ _
  all_goals exact h.of_zas (by simp) (by simp) (by simp) (by simp)

theorem State.Moves.keepsTerms {s t : State} (hm : s.Moves t) (h : s.TermsSound) : t.TermsSound := by
  cases hm
  case served hk =>
    exact (State.served_keepsTerms hk (h.of_zas (by simp) (by simp) (by simp) (by simp))).finish _
  case powerOn => exact reset_termsSound.of_zas rfl rfl rfl rfl
  all_goals exact h.of_zas (by simp) (by simp) (by simp) (by simp)

/-- Settles O56: each move keeps both, and a step is a move on the state with its command taken, whose links and terms
are those of the state. -/
theorem linksAndTermsStaySound : Obligations.LinksAndTermsStaySound := by
  rintro s t hstep ⟨hlinks, hterms⟩
  obtain rfl | ⟨rest, hm⟩ := step_moves hstep
  · exact ⟨hlinks, hterms⟩
  · exact ⟨hm.keepsLinks hlinks, hm.keepsTerms hterms⟩

end Sys2Proof.Machine
end

section
/-! PROOFS. The outcome of an operator code and the recheck (O24). -/

namespace Sys2Proof.Machine

/-! ## Outcomes -/

section
variable {l before later : List Agreement} {a : Agreement} {code : Operator}

theorem findAgreement_absent (h : ∀ b ∈ l, b.code ≠ code) : findAgreement l code = none := by
  simpa [findAgreement] using h

theorem findAgreement_append (hbefore : ∀ b ∈ before, b.code ≠ code) (ha : a.code = code) :
    findAgreement (before ++ a :: later) code = some a := by
  have hnone : before.find? (fun b => b.code == code) = none := findAgreement_absent hbefore
  simp [findAgreement, hnone, ha]

theorem outcomeIn_absent (h : ∀ b ∈ l, b.code ≠ code) (c : ZoneClass) : outcomeIn l code c = none := by
  simp only [outcomeIn, findAgreement_absent h]

theorem outcomeIn_append (hbefore : ∀ b ∈ before, b.code ≠ code) (ha : a.code = code) (c : ZoneClass) :
    outcomeIn (before ++ a :: later) code c = if a.active then a.tariffFor c else none := by
  simp only [outcomeIn, findAgreement_append hbefore ha]

end

/-! ## The decision and the carry rule -/

section
variable {s : State} {r : SubRecord} {old : Option TariffIx}

/-- R101: only the state of a PASSENGER that is ATTACHED or ROAM_BARRED is decided, by whether it has a tariff. -/
theorem recheckedState_decision (s : State) (r : SubRecord) : recheckedState r.state (s.decision r).2 =
    if r.cls = .passenger ∧ (r.state = .attached ∨ r.state = .roamBarred) then
      if (s.decision r).1.isSome = true then .attached else .roamBarred
    else r.state := by
  cases hcls : r.cls with
  | shipSystem | crew => cases hstate : r.state <;> simp [State.decision, hcls, recheckedState]
  | passenger =>
    cases hout : s.outcome r.home <;> cases hstate : r.state <;> simp [State.decision, hcls, hout, recheckedState]

/-- R102: the bridge amounts are granted on a move to a tariff with carry NO. -/
theorem carryTariff_bridges {k : TariffIx} (hk : r.tariff = some k) (hcharged : r.charged = true) (hold : old ≠ some k)
    (hcarry : (s.tariff k).terms.carry = false) : s.carryTariff r old =
      { r with byteAllowance := 0, secondsAllowance := 0 }.applyGrant (s.tariff k).terms.bridgeBytes
        (s.tariff k).terms.bridgeSeconds := by
  simp [State.carryTariff, hk, hcharged, hold, hcarry]

theorem carryTariff_carries (h : r.tariff = none ∨ r.tariff = old ∨
    ∃ k, r.tariff = some k ∧ (s.tariff k).terms.carry = true) : s.carryTariff r old = r := by
  obtain hnone | rfl | ⟨k, hk, hcarry⟩ := h
  · simp [State.carryTariff, hnone]
  · cases hk : r.tariff <;> simp [State.carryTariff, hk]
  · simp [State.carryTariff, hk, hcarry]

/-- A record that a recheck gives a tariff is of a charged class. -/
theorem charged_of_decision {k : TariffIx} (h : (s.decision r).1 = some k) : r.charged = true := by
  cases hcls : r.cls with
  | shipSystem => simp [State.decision, hcls] at h
  | crew | passenger => simp [SubRecord.charged, hcls]

theorem rechecked_eq (s : State) (r : SubRecord) : s.rechecked r = s.carryTariff
    { r with tariff := (s.decision r).1, state := recheckedState r.state (s.decision r).2 } r.tariff := rfl

theorem rechecked_state (s : State) (r : SubRecord) :
    (s.rechecked r).state = recheckedState r.state (s.decision r).2 := by
  obtain ⟨_, _, _, _, _, h⟩ := rechecked_fields s r
  rw [h]

end

/-- R101: the cause raised by a move of state. -/
theorem raiseRoaming_eq (s : State) (i : SubIx) (before after : SubRecord) : s.raiseRoaming i before after =
    if before.state = .attached ∧ after.state = .roamBarred then s.raise (.subscriber i) .roamBarred
    else if before.state = .roamBarred ∧ after.state = .attached then s.raise (.subscriber i) .roamCleared
    else s := by
  simp only [State.raiseRoaming, barredBy, clearedBy, Bool.and_eq_true, beq_iff_eq]

/-- Settles O24: the outcome by the first agreement of the code; the recheck by its decision, the carry rule on it, and
the state that both leave. -/
theorem recheckDecidesRoaming : Obligations.RecheckDecidesRoaming := by
  refine ⟨fun s code => ⟨fun h => outcomeIn_absent h _, fun before a later hl ha hbefore => ?_⟩, fun s i => ?_⟩
  · have houtcome : s.outcome code = if a.active then a.tariffFor s.currentClass else none := by
      rw [State.outcome, hl, outcomeIn_append hbefore ha]
    refine ⟨fun hactive => by simp [houtcome, hactive], fun hactive => ?_⟩
    rw [houtcome, if_pos hactive]
    refine ⟨?_, ?_, ?_, ?_⟩ <;> exact fun hclass => congrArg a.tariffFor hclass
  · intro r tariff state r1
    have htariff : (s.decision r).1 = tariff := by
      simp only [tariff, State.decision]
      cases r.cls with
      | shipSystem | crew => rfl
      | passenger => cases s.outcome r.home <;> rfl
    have hstate : recheckedState r.state (s.decision r).2 = state := by
      rw [recheckedState_decision, htariff]
    have hrechecked : s.rechecked r = s.carryTariff r1 r.tariff := by
      rw [rechecked_eq, htariff, hstate]
    refine ⟨s.rechecked r, fun k hk hold hcarry => ?_, fun hkeep => ?_, ?_⟩
    · rw [hrechecked]
      exact carryTariff_bridges hk (charged_of_decision (r := r) (htariff.trans hk)) hold hcarry
    · rw [hrechecked]
      exact carryTariff_carries hkeep
    · have hafter : (s.rechecked r).state = state := by rw [rechecked_state, hstate]
      rw [State.recheck, raiseRoaming_eq, hafter]

end Sys2Proof.Machine
end

section
/-! PROOFS. A claim at the ZAS that writes the terms, in the terms of the statements; ZONE_CHANGE (O46). -/

namespace Sys2Proof.Machine

/-! ## What a ZAS claim leaves as it was -/

/-- R87: nothing but the ZAS and the table walker changes. -/
structure State.OnlyTermsMove (s u : State) : Prop where
  ci : s.SameCi u
  stc : u.stc = s.stc
  ftc : u.ftc = s.ftc
  lm : u.lm = s.lm
  al : u.al = s.al

/-- A ZAS claim that moves to `u` completes with its reply, whose words are read from the ZAS as the claim leaves it. -/
theorem exec_writesTerms {s u : State} {ch : Chan} {q : Request} (reply : Zas → Reply)
    (hq : s.claim .zas ch = some q) (hk : s.served ch q = some (u, reply u.zas)) (hu : s.OnlyTermsMove u) :
    ∃ t, exec (q.instr ch) s = .next t ∧ s.Answers ch (reply t.zas) t ∧ t.zas = u.zas ∧ t.tw = u.tw ∧
      t.stc = s.stc ∧ t.ftc = s.ftc ∧ t.lm = s.lm ∧ t.al = s.al := by
  obtain ⟨hexec, hanswers⟩ := exec_answers hq hk hu.ci
  exact ⟨_, hexec, by simpa using hanswers, by simp, by simp, by simp [hu.stc], by simp [hu.ftc], by simp [hu.lm],
    by simp [hu.al]⟩

/-! ## ZONE_CHANGE -/

theorem zoneOf_none {code : BitVec 8} (h : 32 ≤ code.toNat) : zoneOf code = none :=
  if_neg (Nat.not_lt.mpr h)

theorem WalkEntry.blocksZoneChange_iff (e : WalkEntry) : e.blocksZoneChange = true ↔ e = .zone ∨ e = .recheck := by
  cases e <;> simp [WalkEntry.blocksZoneChange]

section
variable {s : State} {z : ZoneIx} {force : Bool}

theorem walkPending_iff : s.walkPending = true ↔ WalkEntry.zone ∈ s.tw.queue ∨ WalkEntry.recheck ∈ s.tw.queue ∨
    s.tw.walk.map Walk.entry = some .zone ∨ s.tw.walk.map Walk.entry = some .recheck := by
  have hqueue : s.tw.queue.any WalkEntry.blocksZoneChange = true ↔
      WalkEntry.zone ∈ s.tw.queue ∨ WalkEntry.recheck ∈ s.tw.queue := by
    simp only [List.any_eq_true, WalkEntry.blocksZoneChange_iff]
    exact ⟨by rintro ⟨e, he, rfl | rfl⟩ <;> simp [he], by rintro (h | h) <;> exact ⟨_, h, by simp⟩⟩
  cases hwalk : s.tw.walk <;> simp [State.walkPending, hwalk, hqueue, WalkEntry.blocksZoneChange_iff, or_assoc]

theorem zoneChangeStatus_undefined (h : (s.zone z).defined = false) : s.zoneChangeStatus z force = .outOfRange := by
  simp [State.zoneChangeStatus, h]

section
variable (hd : (s.zone z).defined = true)
include hd

theorem zoneChangeStatus_current (h : z = s.zas.currentZone) : s.zoneChangeStatus z force = .already := by
  rw [State.zoneChangeStatus, if_neg (by simp [hd]), if_pos h]

variable (hz : z ≠ s.zas.currentZone)
include hz

theorem zoneChangeStatus_walkPending (h : s.walkPending = true) : s.zoneChangeStatus z force = .walkPending := by
  simp [State.zoneChangeStatus, hd, hz, h]

variable (hw : s.walkPending = false)
include hw

theorem zoneChangeStatus_settlePending (hn : 0 < s.stc.closedCount) (hf : force = false) :
    s.zoneChangeStatus z force = .settlePending := by
  simp [State.zoneChangeStatus, hd, hz, hw, hn, hf]

theorem zoneChangeStatus_ok (h : s.stc.closedCount = 0 ∨ force = true) : s.zoneChangeStatus z force = .ok := by
  obtain h | h := h <;> simp [State.zoneChangeStatus, hd, hz, hw, h]

end

variable {code : BitVec 8} (hz : code.toNat = z.toNat)
include hz

theorem zoneChange_refused {status : Status} (h : s.zoneChangeStatus z force = status) (hne : status ≠ .ok) :
    s.zoneChange code force = (s, .plain status (s.zoneChangeBody s.stc.closedCount)) := by
  simp [State.zoneChange, zoneOf_eq hz, h, hne, Reply.plain, Reply.of]

theorem zoneChange_entered (h : s.zoneChangeStatus z force = .ok) : s.zoneChange code force =
    (s.enterZone z, ⟨.ok, .zero, { forced := decide (0 < s.stc.closedCount) },
      (s.enterZone z).zoneChangeBody s.stc.closedCount⟩) := by
  simp [State.zoneChange, zoneOf_eq hz, h]

end

theorem zoneChange_outOfRange {s : State} {code : BitVec 8} (h : 32 ≤ code.toNat) (force : Bool) :
    s.zoneChange code force = (s, .plain .outOfRange (s.zoneChangeBody s.stc.closedCount)) := by
  simp [State.zoneChange, zoneOf_none h]

/-- R97: with no ZONE walk in the queue, the entered zone's walk joins it at the end. -/
theorem enterZone_eq {s : State} (h : WalkEntry.zone ∉ s.tw.queue) (z : ZoneIx) : s.enterZone z = { s with
    zas := { s.zas with currentZone := z, zoneEpoch := s.zas.zoneEpoch + 1 }
    tw := { s.tw with queue := s.tw.queue ++ [.zone] } } := by
  simp [State.enterZone, State.addWalk, h]

theorem enterZone_onlyTermsMove (s : State) (z : ZoneIx) : s.OnlyTermsMove (s.enterZone z) := by
  constructor <;> simp [State.SameCi]

/-- Settles O46: the status by the first condition of R96 that fails; without one the zone is entered. -/
theorem zoneChangeEntersTheZone : Obligations.ZoneChangeEntersTheZone := by
  intro s ch code force hq n body only pending
  have hrefused : ∀ {z : ZoneIx} {status : Status}, code.toNat = z.toNat → s.zoneChangeStatus z force = status →
      status ≠ .ok → only status := fun hz h hne => exec_onlyAnswers hq (congrArg some (zoneChange_refused hz h hne))
  have hidle : ¬pending → s.walkPending = false := fun h => Bool.eq_false_of_not_eq_true (mt walkPending_iff.mp h)
  refine ⟨fun h => exec_onlyAnswers hq (congrArg some (zoneChange_outOfRange h force)), fun z hz => ⟨fun hd => ?_,
    fun hd hcur => ?_, fun hd hcur hp => ?_, fun hd hcur hp hn hf => ?_, fun hd hcur hp hn => ?_⟩⟩
  · exact hrefused hz (zoneChangeStatus_undefined hd) (by decide)
  · exact hrefused hz (zoneChangeStatus_current hd hcur) (by decide)
  · exact hrefused hz (zoneChangeStatus_walkPending hd hcur (walkPending_iff.mpr hp)) (by decide)
  · exact hrefused hz (zoneChangeStatus_settlePending hd hcur (hidle hp) hn hf) (by decide)
  · have hentered := zoneChange_entered hz (zoneChangeStatus_ok hd hcur (hidle hp) hn)
    obtain ⟨t, hexec, hanswers, hzas, htw, hrest⟩ := exec_writesTerms
      (fun x => ⟨.ok, .zero, { forced := decide (0 < n) },
        [put 0 x.currentZone.toNat, put 0 x.zoneEpoch.toNat ||| put 16 x.policyEpoch.toNat, put 0 n]⟩)
      hq (congrArg some hentered) (enterZone_onlyTermsMove s z)
    rw [enterZone_eq (walkPending_false (hidle hp)).1] at hzas htw
    exact ⟨t, hexec, hanswers, hzas, htw, hrest⟩

end Sys2Proof.Machine
end

section
/-! PROOFS. ZONE_DEFINE and TARIFF_SET (O47). -/

namespace Sys2Proof.Machine

/-! ## The policy epoch -/

theorem advancePolicy_eq (s : State) : s.advancePolicy = { s with
    zas := { s.zas with policyEpoch := s.zas.policyEpoch + 1 }
    tw := { s.tw with queue := if WalkEntry.recheck ∈ s.tw.queue then s.tw.queue else s.tw.queue ++ [.recheck] } } := by
  by_cases h : WalkEntry.recheck ∈ s.tw.queue <;> simp [State.advancePolicy, State.addWalk, h]

theorem State.OnlyTermsMove.advance {s u : State} (h : s.OnlyTermsMove u) (b : Bool) :
    s.OnlyTermsMove (u.advancePolicyIf b) where
  ci := by simpa [State.SameCi] using h.ci
  stc := by simp [h.stc]
  ftc := by simp [h.ftc]
  lm := by simp [h.lm]
  al := by simp [h.al]

/-- R91: the new policy epoch stands in the answer of a claim that advanced it. -/
def policyReply (flags : AnswerFlags) (words : List Word) (x : Zas) : Reply :=
  ⟨.ok, .zero, flags, words ++ [if flags.policyAdvanced then put 0 x.policyEpoch.toNat else 0]⟩

/-! ## Operands -/

theorem zoneState_eq {code : BitVec 2} (h : code.toNat ≤ 1) : zoneState code = some (code == 1) := by
  revert code
  decide

theorem zoneState_none {code : BitVec 2} (h : 2 ≤ code.toNat) : zoneState code = none := by
  revert code
  decide

theorem undefinedCode_iff {code : BitVec 2} (h : code.toNat ≤ 1) : (code == 1) = false ↔ code = 0 := by
  revert code
  decide

theorem zoneClassOf_eq {code : BitVec 8} {c : ZoneClass} (h : code.toNat = c.toNat) : zoneClassOf code = some c := by
  rw [zoneClassOf, if_pos (h ▸ c.isLt)]
  refine congrArg some (BitVec.eq_of_toNat_eq ?_)
  rw [BitVec.toNat_setWidth, h, Nat.mod_eq_of_lt c.isLt]

theorem zoneClassOf_none {code : BitVec 8} (h : 4 ≤ code.toNat) : zoneClassOf code = none :=
  if_neg (Nat.not_lt.mpr h)

theorem tariffOf_none {code : BitVec 8} (h : 64 ≤ code.toNat) : tariffOf code = none :=
  if_neg (Nat.not_lt.mpr h)

theorem TariffTerms.inRange_iff (x : TariffTerms) : x.inRange = true ↔
    1 ≤ x.timeout.toNat ∧ 1 ≤ x.flowLimit.toNat ∧ x.flowLimit.toNat ≤ 64 := by
  simp only [TariffTerms.inRange, Bool.and_eq_true, decide_eq_true_iff, and_assoc]

/-! ## ZONE_DEFINE -/

section
variable {s : State}

theorem zoneDefine_outOfRange {zone cls : BitVec 8} {state : BitVec 2}
    (h : 32 ≤ zone.toNat ∨ 2 ≤ state.toNat ∨ 4 ≤ cls.toNat) :
    s.zoneDefine zone state cls = (s, .plain .outOfRange (blank 1)) := by
  unfold State.zoneDefine
  split
  · rename_i hz hd hc
    obtain h | h | h := h
    · cases (zoneOf_none h).symm.trans hz
    · cases (zoneState_none h).symm.trans hd
    · cases (zoneClassOf_none h).symm.trans hc
  · rfl

theorem zoneDefine_inRange {zone cls : BitVec 8} {state : BitVec 2} {z : ZoneIx} {c : ZoneClass}
    (hz : zone.toNat = z.toNat) (hd : state.toNat ≤ 1) (hc : cls.toNat = c.toNat) :
    s.zoneDefine zone state cls = s.defineZone z { defined := state == 1, cls := c } := by
  simp only [State.zoneDefine, zoneOf_eq hz, zoneState_eq hd, zoneClassOf_eq hc]

section
variable {z : ZoneIx} {r : ZoneRecord}

theorem defineZone_conflict (hd : r.defined = false) (hz : z = s.zas.currentZone) :
    s.defineZone z r = (s, .plain .conflict (blank 1)) :=
  if_pos ⟨hd, hz⟩

variable (hc : ¬(r.defined = false ∧ z = s.zas.currentZone))
include hc

theorem defineZone_already (hr : r = s.zone z) : s.defineZone z r = (s, .plain .already (blank 1)) := by
  rw [State.defineZone, if_neg hc, if_pos hr]

theorem defineZone_written (hr : r ≠ s.zone z) {changed : Bool}
    (hch : changed = true ↔ z = s.zas.currentZone ∧ r.cls ≠ (s.zone z).cls) :
    let t := (s.setZone z r).advancePolicyIf changed
    s.defineZone z r = (t, policyReply { policyAdvanced := changed } [] t.zas) := by
  have hchanged : (decide (z = s.zas.currentZone) && decide (r.cls ≠ (s.zone z).cls)) = changed := by
    rw [Bool.eq_iff_iff, hch, Bool.and_eq_true, decide_eq_true_iff, decide_eq_true_iff]
  rw [State.defineZone, if_neg hc, if_neg hr, hchanged]
  rfl

end

theorem setZone_onlyTermsMove (s : State) (z : ZoneIx) (r : ZoneRecord) : s.OnlyTermsMove (s.setZone z r) := by
  constructor <;> simp [State.SameCi]

/-! ## TARIFF_SET -/

theorem setTariff_onlyTermsMove (s : State) (k : TariffIx) (r : TariffRecord) : s.OnlyTermsMove (s.setTariff k r) := by
  constructor <;> simp [State.SameCi]

theorem namedInForce_iff {k : TariffIx} : s.namedInForce k = true ↔
    ∃ a ∈ s.zas.agreements, a.active = true ∧ a.tariffFor s.currentClass = some k := by
  simp only [State.namedInForce, List.any_eq_true, Bool.and_eq_true, beq_iff_eq]

theorem tariffSet_outOfRange {code : BitVec 8} {x : TariffTerms} (h : 64 ≤ code.toNat ∨ x.inRange = false) :
    s.tariffSet code x = (s, .plain .outOfRange (blank 1)) := by
  obtain h | h := h
  · simp only [State.tariffSet, tariffOf_none h]
  · unfold State.tariffSet
    split <;> simp [h]

theorem tariffSet_inRange {code : BitVec 8} {k : TariffIx} {x : TariffTerms} (hk : code.toNat = k.toNat)
    (hx : x.inRange = true) : s.tariffSet code x = s.writeTariff k x := by
  simp only [State.tariffSet, tariffOf_eq hk, hx, if_true]

theorem writeTariff_already {k : TariffIx} {x : TariffTerms}
    (h : (s.tariff k).defined = true ∧ (s.tariff k).terms = x) :
    s.writeTariff k x = (s, .plain .already (blank 1)) :=
  if_pos h

theorem writeTariff_written {k : TariffIx} {x : TariffTerms}
    (h : ¬((s.tariff k).defined = true ∧ (s.tariff k).terms = x)) {changed : Bool}
    (hch : changed = true ↔ (s.tariff k).defined = true ∧ s.namedInForce k = true) :
    let t := (s.setTariff k { defined := true, terms := x }).advancePolicyIf changed
    s.writeTariff k x =
      (t, policyReply { policyAdvanced := changed, definedNew := !(s.tariff k).defined } [] t.zas) := by
  have hchanged : ((s.tariff k).defined && decide ((s.tariff k).terms ≠ x) && s.namedInForce k) = changed := by
    rw [Bool.eq_iff_iff, hch, Bool.and_eq_true, Bool.and_eq_true, decide_eq_true_iff]
    tauto
  simp only [State.writeTariff, if_neg h, hchanged]
  rfl

end

/-- Settles O47: each definition by its checks in order, and by what R91 says of the record written. -/
theorem zonesAndTariffsAreDefined : Obligations.ZonesAndTariffsAreDefined := by
  refine ⟨advancePolicy_eq, fun s ch zone state cls hq => ?_, fun s ch code x hq => ?_⟩
  · intro only
    refine ⟨fun h => exec_onlyAnswers hq (congrArg some (zoneDefine_outOfRange h)), ?_⟩
    intro z c hz hd hc r
    have hserved : s.zoneDefine zone state cls = s.defineZone z r := zoneDefine_inRange hz hd hc
    have hundefined : r.defined = false ↔ state = 0 := undefinedCode_iff hd
    have hconflict : r.defined = false ∧ z = s.zas.currentZone ↔ z = s.zas.currentZone ∧ state = 0 := by
      rw [hundefined, and_comm]
    refine ⟨fun hcur h0 => ?_, fun hno hr => ?_, fun hno hr => ?_⟩
    · exact exec_onlyAnswers hq (congrArg some (hserved.trans (defineZone_conflict (hundefined.mpr h0) hcur)))
    · exact exec_onlyAnswers hq (congrArg some (hserved.trans (defineZone_already (mt hconflict.mp hno) hr)))
    · intro changed s1
      exact exec_writesTerms (policyReply _ _) hq
        (congrArg some (hserved.trans (defineZone_written (mt hconflict.mp hno) hr decide_eq_true_iff)))
        ((setZone_onlyTermsMove s z r).advance changed)
  · intro only fits
    have hfits : x.inRange = true ↔ fits := x.inRange_iff
    refine ⟨fun h => exec_onlyAnswers hq (congrArg some (tariffSet_outOfRange (h.imp_right fun hno => ?_))), ?_⟩
    · exact Bool.eq_false_of_not_eq_true (mt hfits.mp hno)
    · intro k hk hx old
      have hserved : s.tariffSet code x = s.writeTariff k x := tariffSet_inRange hk (hfits.mpr hx)
      refine ⟨fun hdefined hterms => ?_, fun hno => ?_⟩
      · exact exec_onlyAnswers hq (congrArg some (hserved.trans (writeTariff_already ⟨hdefined, hterms⟩)))
      · intro named s1 ends
        have hnamed : s.namedInForce k = true ↔ named := namedInForce_iff
        have hends : ∀ changed : Bool, (changed = true ↔ old.defined = true ∧ named) →
            ends changed (s1.advancePolicyIf changed) := fun changed hch =>
          exec_writesTerms (policyReply _ _) hq
            (congrArg some (hserved.trans (writeTariff_written hno (hch.trans (and_congr_right' hnamed.symm)))))
            ((setTariff_onlyTermsMove s k _).advance changed)
        exact ⟨fun h => hends true (iff_of_true rfl h), fun h => hends false (iff_of_false Bool.false_ne_true h)⟩

end Sys2Proof.Machine
end

section
/-! PROOFS. AGREEMENT_SET and AGREEMENT_REMOVE (O48). -/

namespace Sys2Proof.Machine

/-! ## The list written -/

section
variable {before later : List Agreement} {a : Agreement} {code : Operator}

theorem replaceAgreement_append {old : Agreement} (hbefore : ∀ b ∈ before, b.code ≠ a.code)
    (hold : old.code = a.code) : replaceAgreement a (before ++ old :: later) = before ++ a :: later := by
  induction before with
  | nil => simp [replaceAgreement, hold]
  | cons b rest ih =>
    have hb : b.code ≠ a.code := hbefore b (by simp)
    simp [replaceAgreement, hb, ih fun x hx => hbefore x (by simp [hx])]

theorem insertAgreement_append (hbefore : ∀ b ∈ before, b.code < a.code) (hlater : ∀ b ∈ later, a.code < b.code) :
    insertAgreement a (before ++ later) = before ++ a :: later := by
  induction before with
  | nil =>
    cases later with
    | nil => rfl
    | cons b rest => exact if_pos (hlater b (by simp))
  | cons b rest ih =>
    have hb : ¬a.code < b.code := BitVec.lt_asymm (hbefore b (by simp))
    simp [insertAgreement, hb, ih fun x hx => hbefore x (by simp [hx])]

theorem removeAgreement_append (hrest : ∀ b ∈ before ++ later, b.code ≠ code) (ha : a.code = code) :
    removeAgreement code (before ++ a :: later) = before ++ later := by
  have hkept : removeAgreement code (before ++ later) = before ++ later :=
    List.filter_eq_self.mpr fun b hb => decide_eq_true (hrest b hb)
  rw [← hkept]
  simp [removeAgreement, ha]

/-- The position of the first agreement of its code is the number of the agreements before it. -/
theorem positionOf_first (hbefore : ∀ b ∈ before, b.code ≠ a.code) :
    positionOf a.code (before ++ a :: later) = before.length := by
  have hnone : before.findIdx (fun b => b.code == a.code) = before.length :=
    List.findIdx_eq_length_of_false fun b hb => by simpa using hbefore b hb
  simp [positionOf, List.findIdx_append, List.findIdx_cons, hnone]

end

/-! ## Operands -/

/-- R89, steps 1 and 2: a tariff field is NONE or the index of a DEFINED tariff. -/
def State.NamesTariff (s : State) (c : BitVec 8) : Prop :=
  c = 255 ∨ ∃ k : TariffIx, c.toNat = k.toNat ∧ (s.tariff k).defined = true

theorem agreementState_eq {code : BitVec 2} (h : code = 1 ∨ code = 2) : agreementState code = some (code == 1) := by
  revert code
  decide

theorem agreementState_some {code : BitVec 2} {b : Bool} (h : agreementState code = some b) : code = 1 ∨ code = 2 := by
  revert code b
  decide

section
variable {s : State} {c : BitVec 8}

theorem index_ne_none (h : c.toNat < 64) : c ≠ 255 := by
  rintro rfl
  exact absurd h (by decide)

theorem tariffField_index (h : c.toNat < 64) : tariffField c = some (some (c.setWidth 6)) := by
  rw [tariffField, if_neg (index_ne_none h), if_pos h]

theorem namedTariff_eq (h : s.NamesTariff c) :
    s.namedTariff c = some (if c = 255 then none else some (c.setWidth 6)) := by
  obtain rfl | ⟨k, hk, hdefined⟩ := h
  · rfl
  · have hlt : c.toNat < 64 := hk ▸ k.isLt
    obtain rfl : c.setWidth 6 = k := Option.some.inj ((if_pos hlt).symm.trans (tariffOf_eq hk))
    simp only [State.namedTariff, tariffField_index hlt, hdefined, if_true, if_neg (index_ne_none hlt)]

theorem namesTariff_of_some {x : Option TariffIx} (h : s.namedTariff c = some x) : s.NamesTariff c := by
  by_cases hnone : c = 255
  · exact .inl hnone
  · by_cases hlt : c.toNat < 64
    · refine .inr ⟨c.setWidth 6, by simp [Nat.mod_eq_of_lt hlt], ?_⟩
      by_contra hundefined
      simp only [State.namedTariff, tariffField_index hlt, if_neg hundefined] at h
      cases h
    · have hfield : tariffField c = none := by rw [tariffField, if_neg hnone, if_neg hlt]
      simp only [State.namedTariff, hfield] at h
      cases h

/-- R89, steps 1 and 2. -/
structure State.AgreementInRange (s : State) (state : BitVec 2) (t0 t1 t2 t3 : BitVec 8) : Prop where
  state : state = 1 ∨ state = 2
  tariff0 : s.NamesTariff t0
  tariff1 : s.NamesTariff t1
  tariff2 : s.NamesTariff t2
  tariff3 : s.NamesTariff t3

variable {code : Operator} {state : BitVec 2} {t0 t1 t2 t3 : BitVec 8}

theorem requestedAgreement_eq (h : s.AgreementInRange state t0 t1 t2 t3) :
    s.requestedAgreement code state t0 t1 t2 t3 = some
      { code := code, active := state == 1
        tariff0 := if t0 = 255 then none else some (t0.setWidth 6)
        tariff1 := if t1 = 255 then none else some (t1.setWidth 6)
        tariff2 := if t2 = 255 then none else some (t2.setWidth 6)
        tariff3 := if t3 = 255 then none else some (t3.setWidth 6) } := by
  simp only [State.requestedAgreement, agreementState_eq h.state, namedTariff_eq h.tariff0, namedTariff_eq h.tariff1,
    namedTariff_eq h.tariff2, namedTariff_eq h.tariff3]
  rfl

theorem requestedAgreement_none (h : ¬s.AgreementInRange state t0 t1 t2 t3) :
    s.requestedAgreement code state t0 t1 t2 t3 = none := by
  refine Option.eq_none_iff_forall_ne_some.mpr fun a ha => h ?_
  simp only [State.requestedAgreement, Option.bind_eq_bind, Option.bind_eq_some_iff] at ha
  obtain ⟨_, hstate, _, h0, _, h1, _, h2, _, h3, -⟩ := ha
  exact ⟨agreementState_some hstate, namesTariff_of_some h0, namesTariff_of_some h1, namesTariff_of_some h2,
    namesTariff_of_some h3⟩

end

/-! ## AGREEMENT_SET and AGREEMENT_REMOVE -/

theorem setAgreements_onlyTermsMove (s : State) (l : List Agreement) : s.OnlyTermsMove (s.setAgreements l) := by
  constructor <;> simp [State.SameCi]

section
variable {s : State} {before later : List Agreement} {a : Agreement}

/-- R89, R91: the list written, with its agreement where the request put it. -/
theorem writeAgreement_eq (hbefore : ∀ b ∈ before, b.code ≠ a.code) (replaced : Bool) :
    let l := before ++ a :: later
    let changed := s.outcomeChanges a.code l
    let t := (s.setAgreements l).advancePolicyIf changed
    s.writeAgreement a l replaced = (t, policyReply { policyAdvanced := changed, replaced := replaced }
      [put 0 before.length, put 0 l.length] t.zas) := by
  simp only [State.writeAgreement, positionOf_first hbefore]
  rfl

section
variable {old : Agreement} (hl : s.zas.agreements = before ++ old :: later)
  (hbefore : ∀ b ∈ before, b.code ≠ a.code) (hold : old.code = a.code)
include hl hbefore hold

theorem setAgreement_already (h : old = a) : s.setAgreement a = (s, .plain .already (blank 3)) := by
  have hfind : findAgreement s.zas.agreements a.code = some old := hl ▸ findAgreement_append hbefore hold
  simp only [State.setAgreement, hfind, h, if_true]

theorem setAgreement_replaced (h : old ≠ a) : s.setAgreement a = s.writeAgreement a (before ++ a :: later) true := by
  have hfind : findAgreement s.zas.agreements a.code = some old := hl ▸ findAgreement_append hbefore hold
  simp only [State.setAgreement, hfind, if_neg h]
  rw [hl, replaceAgreement_append hbefore hold]

end

theorem setAgreement_tableFull (h : ∀ b ∈ s.zas.agreements, b.code ≠ a.code)
    (hfull : 256 ≤ s.zas.agreements.length) : s.setAgreement a = (s, .plain .tableFull (blank 3)) := by
  simp only [State.setAgreement, findAgreement_absent h]
  exact if_pos hfull

theorem setAgreement_inserted (hroom : s.zas.agreements.length < 256) (hl : s.zas.agreements = before ++ later)
    (hbefore : ∀ b ∈ before, b.code < a.code) (hlater : ∀ b ∈ later, a.code < b.code) :
    s.setAgreement a = s.writeAgreement a (before ++ a :: later) false := by
  have habsent : ∀ b ∈ s.zas.agreements, b.code ≠ a.code := by
    rw [hl]
    intro b hb
    obtain hb | hb := List.mem_append.mp hb
    · exact BitVec.ne_of_lt (hbefore b hb)
    · exact (BitVec.ne_of_lt (hlater b hb)).symm
  simp only [State.setAgreement, findAgreement_absent habsent]
  rw [if_neg (show ¬Config.agreementCapacity ≤ _ from Nat.not_le.mpr hroom), hl,
    insertAgreement_append hbefore hlater]

theorem agreementRemove_notFound {code : Operator} (h : ∀ b ∈ s.zas.agreements, b.code ≠ code) :
    s.agreementRemove code = (s, .plain .notFound (blank 2)) := by
  simp only [State.agreementRemove, findAgreement_absent h]

theorem agreementRemove_found {code : Operator} (hl : s.zas.agreements = before ++ a :: later) (ha : a.code = code)
    (hrest : ∀ b ∈ before ++ later, b.code ≠ code) :
    let changed := (s.outcome code).isSome
    let t := (s.setAgreements (before ++ later)).advancePolicyIf changed
    s.agreementRemove code =
      (t, policyReply { policyAdvanced := changed } [put 0 (before ++ later).length] t.zas) := by
  have hfind : findAgreement s.zas.agreements code = some a :=
    hl ▸ findAgreement_append (fun b hb => hrest b (List.mem_append_left _ hb)) ha
  have hremoved : removeAgreement code s.zas.agreements = before ++ later := hl ▸ removeAgreement_append hrest ha
  simp only [State.agreementRemove, hfind, hremoved]
  rfl

end

theorem agreementSet_outOfRange {s : State} {state : BitVec 2} {t0 t1 t2 t3 : BitVec 8}
    (h : ¬s.AgreementInRange state t0 t1 t2 t3) (code : Operator) :
    s.agreementSet code state t0 t1 t2 t3 = (s, .plain .outOfRange (blank 3)) := by
  simp only [State.agreementSet, requestedAgreement_none h]

/-- Settles O48: the outcome by the first agreement of the code; each request by its checks in order, the list it
writes, and the outcome of its code before and after. -/
theorem theAgreementListIsWritten : Obligations.TheAgreementListIsWritten := by
  refine ⟨fun l code c => ⟨fun h => outcomeIn_absent h c, ?_⟩, fun s ch code state t0 t1 t2 t3 hq => ?_,
    fun s ch code hq => ⟨fun h => exec_onlyAnswers hq (congrArg some (agreementRemove_notFound h)), ?_⟩⟩
  · rintro before a later rfl hbefore ha
    exact outcomeIn_append hbefore ha c
  · intro l only fits names a inRange ends
    have hrange : inRange ↔ s.AgreementInRange state t0 t1 t2 t3 :=
      ⟨fun ⟨h, h0, h1, h2, h3⟩ => ⟨h, h0, h1, h2, h3⟩, fun ⟨h, h0, h1, h2, h3⟩ => ⟨h, h0, h1, h2, h3⟩⟩
    refine ⟨fun hno => exec_onlyAnswers hq (congrArg some (agreementSet_outOfRange (mt hrange.mpr hno) code)),
      fun hin => ?_⟩
    have hserved : s.agreementSet code state t0 t1 t2 t3 = s.setAgreement a := by
      simp only [State.agreementSet, requestedAgreement_eq (hrange.mp hin)]
      rfl
    have hends : ∀ {before later : List Agreement} {replaced : Bool}, (∀ b ∈ before, b.code ≠ code) →
        s.setAgreement a = s.writeAgreement a (before ++ a :: later) replaced →
        ends (before ++ a :: later) before.length replaced := by
      intro before later replaced hbefore hwritten
      have hk := hserved.trans (hwritten.trans (writeAgreement_eq hbefore replaced))
      exact exec_writesTerms (policyReply _ _) hq (congrArg some hk) ((setAgreements_onlyTermsMove s _).advance _)
    refine ⟨fun before old later hl hbefore hold => ⟨fun h => ?_, fun h => ?_⟩, fun habsent hfull => ?_,
      fun before later hroom hl hbefore hlater => ?_⟩
    · exact exec_onlyAnswers hq (congrArg some (hserved.trans (setAgreement_already hl hbefore hold h)))
    · exact hends hbefore (setAgreement_replaced hl hbefore hold h)
    · exact exec_onlyAnswers hq (congrArg some (hserved.trans (setAgreement_tableFull habsent hfull)))
    · exact hends (fun b hb => BitVec.ne_of_lt (hbefore b hb)) (setAgreement_inserted hroom hl hbefore hlater)
  · intro before a later hl ha hrest changed s1 s2
    exact exec_writesTerms (policyReply _ _) hq (congrArg some (agreementRemove_found hl ha hrest))
      ((setAgreements_onlyTermsMove s _).advance changed)

end Sys2Proof.Machine
end

section
/-! PROOFS. A classification, by the run it counts and the window it completes (O39). -/

namespace Sys2Proof.Machine

/-! ## Notices -/

theorem watched_iff {x : LinkState} : x.watched = true ↔ x = .probing ∨ x = .up ∨ x = .lost := by
  cases x <;> simp [LinkState.watched]

theorem unwatched_iff {x : LinkState} : x.watched = false ↔ x = .offline ∨ x = .draining := by
  cases x <;> simp [LinkState.watched]

section
variable (s : State) (l : LinkId)

/-- R126: both modes notify the entries into LOST and OFFLINE. -/
theorem raiseEntry_down {entered : LinkState} (h : entered = .lost ∨ entered = .offline) :
    s.raiseEntry l entered = s.raise (.link l) .state := by
  obtain rfl | rfl := h <;> rfl

/-- R126: the other entries are notified in the mode ALL. -/
theorem raiseEntry_other {entered : LinkState} (h : entered = .probing ∨ entered = .up ∨ entered = .draining) :
    s.raiseEntry l entered = if (s.link l).config.stateNotice = .all then s.raise (.link l) .state else s := by
  obtain rfl | rfl | rfl := h <;> simp [State.raiseEntry, StateNotice.notifies]

end

/-! ## The class of a quality -/

section
variable (c : LinkConfig) (q : BitVec 6)

theorem classOf_good : c.classOf q = .good ↔ c.threshold.toNat + c.hysteresis.toNat ≤ q.toNat := by
  unfold LinkConfig.classOf
  split
  · simp [*]
  · split <;> simp [*]

theorem classOf_bad (h : q.toNat < c.threshold.toNat) : c.classOf q = .bad := by
  rw [LinkConfig.classOf, if_neg (by omega), if_pos (BitVec.lt_def.mpr h)]

theorem classOf_neutral (hlow : c.threshold.toNat ≤ q.toNat)
    (hhigh : q.toNat < c.threshold.toNat + c.hysteresis.toNat) : c.classOf q = .neutral := by
  rw [LinkConfig.classOf, if_neg (by omega), if_neg (mt BitVec.lt_def.mp (by omega))]

end

/-! ## The runs and the degrade counter -/

/-- R115: only a degrade counter at its maximum saturates. -/
theorem exceeds_degrade (d : BitVec 16) : exceeds d 1 = decide (d = 65535) := by
  refine decide_eq_decide.mpr ?_
  rw [← BitVec.toNat_inj]
  have := d.isLt
  have hmax : (65535 : BitVec 16).toNat = 65535 := rfl
  omega

theorem saturatesOn_iff {r : LinkRecord} {k : ReportClass} :
    r.saturatesOn k = true ↔ k = .bad ∧ r.degrade = 65535 ∧ r.saturated = false := by
  simp only [LinkRecord.saturatesOn, exceeds_degrade, Bool.and_eq_true, beq_iff_eq, decide_eq_true_iff,
    Bool.not_eq_true', and_assoc]

/-- R109, R115: a classification before its window test. -/
def State.counted (s : State) (l : LinkId) (k : ReportClass) : State :=
  let s1 := s.setLink l ((s.link l).classified k)
  if (s.link l).saturatesOn k then s1.raise (.link l) .counterSaturated else s1

theorem classify_eq (s : State) (l : LinkId) (k : ReportClass) : s.classify l k = (s.counted l k).testWindows l := rfl

theorem counted_link (s : State) (l : LinkId) (k : ReportClass) :
    (s.counted l k).link l = (s.link l).classified k := by
  simp only [State.counted]
  split <;> simp

@[simp] theorem classified_config (r : LinkRecord) (k : ReportClass) : (r.classified k).config = r.config := by
  cases k <;> rfl

@[simp] theorem classified_state (r : LinkRecord) (k : ReportClass) : (r.classified k).state = r.state := by
  cases k <;> rfl

/-! ## The window test -/

section
variable {s : State} {l : LinkId}

/-- R110, R111, R126: an UP link with its declare window of BAD reports. -/
theorem testWindows_lost (hup : (s.link l).state = .up)
    (hrun : (s.link l).config.declareWindow.reports ≤ (s.link l).badRun.toNat) :
    let s2 := s.setLink l { s.link l with state := .lost, badRun := 0, goodRun := 0, congested := false }
    s.testWindows l = (s2.raise (.link l) .state).addWalk (.repin l) := by
  have hresult : (s.link l).windowResult = .becomesLost := by simp only [LinkRecord.windowResult, hup, if_pos hrun]
  simp only [State.testWindows, hresult]
  rfl

/-- R110, R112, R126: a PROBING or LOST link with its clear window of GOOD reports. -/
theorem testWindows_up (hdown : (s.link l).state = .probing ∨ (s.link l).state = .lost)
    (hrun : (s.link l).config.clearWindow.toNat ≤ (s.link l).goodRun.toNat) :
    let s2 := s.setLink l { s.link l with state := .up, badRun := 0, goodRun := 0 }
    s.testWindows l = if (s.link l).config.stateNotice = .all then s2.raise (.link l) .state else s2 := by
  have hresult : (s.link l).windowResult = .becomesUp := by
    obtain h | h := hdown <;> simp only [LinkRecord.windowResult, h, if_pos hrun]
  rw [State.testWindows, hresult]
  simp only [State.becomeUp, raiseEntry_other _ _ (.inr (.inl rfl)), setLink_link_same]

theorem testWindows_unchanged
    (hup : (s.link l).state = .up → (s.link l).badRun.toNat < (s.link l).config.declareWindow.reports)
    (hdown : (s.link l).state = .probing ∨ (s.link l).state = .lost →
      (s.link l).goodRun.toNat < (s.link l).config.clearWindow.toNat) : s.testWindows l = s := by
  have hresult : (s.link l).windowResult = .unchanged := by
    unfold LinkRecord.windowResult
    split
    · rename_i h
      exact if_neg (Nat.not_le.mpr (hup h))
    · rename_i h
      exact if_neg (Nat.not_le.mpr (hdown (.inl h)))
    · rename_i h
      exact if_neg (Nat.not_le.mpr (hdown (.inr h)))
    all_goals rfl
  rw [State.testWindows, hresult]

theorem testWindows_config (s : State) (l : LinkId) : ((s.testWindows l).link l).config = (s.link l).config := by
  unfold State.testWindows
  split <;> simp [State.becomeLost, State.becomeUp]

theorem classify_config (s : State) (l : LinkId) (k : ReportClass) :
    ((s.classify l k).link l).config = (s.link l).config := by
  rw [classify_eq, testWindows_config, counted_link, classified_config]

end

/-- Settles O39: the class by its two bounds; a classification counts, and then tests the window of the link's state. -/
theorem classificationsMoveTheLink : Obligations.ClassificationsMoveTheLink := by
  refine ⟨fun c q => ⟨classOf_good c q, classOf_bad c q, classOf_neutral c q⟩, ⟨rfl, rfl⟩,
    fun x y => ⟨satAdd_toNat x 1, satAdd_toNat y 1⟩, fun s l k => ?_⟩
  intro r r1 s1
  have hr1 : r.classified k = r1 := by
    cases k with
    | bad => simp only [LinkRecord.classified, exceeds_degrade, r1]
    | good | neutral => rfl
  have hs1 : s.counted l k = s1 := by
    simp only [State.counted, saturatesOn_iff, s1]
    rw [← hr1]
  have hlink : s1.link l = r1 := by rw [← hs1, counted_link, ← hr1]
  have hconfig : r1.config = r.config := by rw [← hr1, classified_config]
  have hstate : r1.state = r.state := by rw [← hr1, classified_state]
  rw [classify_eq, hs1, ← hconfig, ← hstate, ← hlink]
  exact ⟨testWindows_lost, testWindows_up, testWindows_unchanged⟩

end Sys2Proof.Machine
end

section
/-! PROOFS. A claim at the LM, in the terms of the statements; LINK_REPORT (O40). -/

namespace Sys2Proof.Machine

/-! ## What an LM claim leaves as it was -/

/-- R107: nothing but the LM, the walk queue and the attention list changes. -/
structure State.OnlyLinksMove (s u : State) : Prop where
  ci : s.SameCi u
  stc : u.stc = s.stc
  ftc : u.ftc = s.ftc
  zas : u.zas = s.zas

theorem State.OnlyLinksMove.refl (s : State) : s.OnlyLinksMove s := ⟨⟨rfl, rfl, rfl⟩, rfl, rfl, rfl⟩

theorem State.OnlyLinksMove.trans {s u t : State} (h : s.OnlyLinksMove u) (h' : u.OnlyLinksMove t) :
    s.OnlyLinksMove t := by
  obtain ⟨⟨hci, hreset, hpending⟩, hstc, hftc, hzas⟩ := h
  obtain ⟨⟨hci', hreset', hpending'⟩, hstc', hftc', hzas'⟩ := h'
  exact ⟨⟨hci'.trans hci, hreset'.trans hreset, hpending'.trans hpending⟩, hstc'.trans hstc, hftc'.trans hftc,
    hzas'.trans hzas⟩

section
variable (s : State) (l : LinkId)

theorem setLink_onlyLinksMove (r : LinkRecord) : s.OnlyLinksMove (s.setLink l r) := by
  constructor <;> simp [State.SameCi]

theorem raise_onlyLinksMove (r : AttnRecord) (c : Cause) : s.OnlyLinksMove (s.raise r c) := by
  constructor <;> simp [State.SameCi]

theorem raiseIf_onlyLinksMove (p : Prop) [Decidable p] (r : AttnRecord) (c : Cause) :
    s.OnlyLinksMove (if p then s.raise r c else s) := by
  split
  · exact raise_onlyLinksMove s r c
  · exact .refl s

theorem addWalk_onlyLinksMove (e : WalkEntry) : s.OnlyLinksMove (s.addWalk e) := by
  constructor <;> simp [State.SameCi]

theorem classify_onlyLinksMove (k : ReportClass) : s.OnlyLinksMove (s.classify l k) := by
  constructor <;> simp [State.SameCi]

theorem evaluateCongestion_onlyLinksMove (o : BitVec 8) : s.OnlyLinksMove (s.evaluateCongestion l o) := by
  constructor <;> simp [State.SameCi]

end

/-- An LM claim that moves to `u` completes with its reply, whose words are read from the record of link `l` as the
claim leaves it. -/
theorem exec_movesLinks {s u : State} {ch : Chan} {q : Request} {l : LinkId} (reply : LinkRecord → Reply)
    (hq : s.claim .lm ch = some q) (hk : s.served ch q = some (u, reply (u.link l))) (hu : s.OnlyLinksMove u) :
    ∃ t, exec (q.instr ch) s = .next t ∧ s.Answers ch (reply (t.link l)) t ∧ t.lm = u.lm ∧ t.tw = u.tw ∧
      t.al = u.al ∧ t.stc = s.stc ∧ t.ftc = s.ftc ∧ t.zas = s.zas := by
  obtain ⟨hexec, hanswers⟩ := exec_answers hq hk hu.ci
  exact ⟨_, hexec, by simpa using hanswers, by simp, by simp, by simp, by simp [hu.stc], by simp [hu.ftc],
    by simp [hu.zas]⟩

theorem linkOf_none {code : BitVec 4} (h : 8 ≤ code.toNat) : linkOf code = none :=
  dif_neg (Nat.not_lt.mpr h)

/-- R113: the stale deadline in the words of the statements. -/
theorem staleDeadline_eq (s : State) (l : LinkId) :
    s.staleDeadline l = s.al.count + (s.link l).config.staleInterval.setWidth 32 := by
  rw [State.staleDeadline, State.after, BitVec.ofNat_toNat]

theorem restartDeadline_eq (s : State) (l : LinkId) : s.restartDeadline l = s.setLink l { s.link l with
    deadline := some (s.al.count + (s.link l).config.staleInterval.setWidth 32) } := by
  rw [State.restartDeadline, staleDeadline_eq]

/-! ## Congestion -/

section
variable {s : State} {l : LinkId} {o : BitVec 8} (hup : (s.link l).state = .up)
include hup

theorem evaluateCongestion_onset (hc : (s.link l).congested = false)
    (ho : (s.link l).config.highWater.toNat ≤ o.toNat) :
    s.evaluateCongestion l o = (s.setLink l { s.link l with congested := true }).raise (.link l) .congestion := by
  have hchange : (s.link l).congestionChange o = .onset := by
    simp [LinkRecord.congestionChange, hc, BitVec.le_def, ho]
  simp only [State.evaluateCongestion, if_pos hup, hchange]

theorem evaluateCongestion_relief (hc : (s.link l).congested = true)
    (ho : o.toNat ≤ (s.link l).config.lowWater.toNat) :
    let s1 := s.setLink l { s.link l with congested := false }
    s.evaluateCongestion l o =
      if (s.link l).config.congestionNotice = .both then s1.raise (.link l) .congestion else s1 := by
  have hchange : (s.link l).congestionChange o = .relief := by
    simp [LinkRecord.congestionChange, hc, BitVec.le_def, ho]
  simp only [State.evaluateCongestion, if_pos hup, hchange]

end

theorem evaluateCongestion_unchanged {s : State} {l : LinkId} {o : BitVec 8}
    (honset : ¬((s.link l).state = .up ∧ (s.link l).congested = false ∧ (s.link l).config.highWater.toNat ≤ o.toNat))
    (hrelief : ¬((s.link l).state = .up ∧ (s.link l).congested = true ∧
      o.toNat ≤ (s.link l).config.lowWater.toNat)) : s.evaluateCongestion l o = s := by
  by_cases hup : (s.link l).state = .up
  · have hchange : (s.link l).congestionChange o = .unchanged := by
      cases hc : (s.link l).congested with
      | true => simpa [LinkRecord.congestionChange, hc, BitVec.le_def, hup] using hrelief
      | false => simpa [LinkRecord.congestionChange, hc, BitVec.le_def, hup] using honset
    simp only [State.evaluateCongestion, if_pos hup, hchange]
  · exact if_neg hup

/-! ## LINK_REPORT -/

theorem linkReport_outOfRange {s : State} {code : BitVec 4} {quality occupancy : BitVec 8}
    (h : 8 ≤ code.toNat ∨ 63 < quality.toNat) :
    s.linkReport code quality occupancy = (s, .plain .outOfRange (blank 6)) := by
  obtain h | h := h
  · simp only [State.linkReport, linkOf_none h]
  · unfold State.linkReport
    split
    · rfl
    · exact if_pos h

theorem linkReport_inRange {s : State} {code : BitVec 4} {quality occupancy : BitVec 8} {l : LinkId}
    (hl : code.toNat = l.val) (hquality : quality.toNat ≤ 63) :
    s.linkReport code quality occupancy = s.report l (quality.setWidth 6) occupancy := by
  simp only [State.linkReport, linkOf_eq hl, if_neg (Nat.not_lt.mpr hquality)]

/-- R108: the answer to a report, from the link's record as the report leaves it. -/
def reportReply (k : Option ReportClass) (x : LinkRecord) : Reply :=
  .plain .ok [put 0 x.state.code, (Config.reportClassCode (reportClassIndex k)).setWidth 32, put 0 x.badRun.toNat,
    put 0 x.goodRun.toNat, putFlag 0 x.congested, put 0 x.degrade.toNat]

section
variable {s : State} {l : LinkId} (q : BitVec 6) (o : BitVec 8)

theorem report_unwatched (h : (s.link l).state.watched = false) :
    let t := s.setLink l ((s.link l).measured q o)
    s.report l q o = (t, reportReply none (t.link l)) := by
  simp only [State.report, h, Bool.false_eq_true, if_false]
  rfl

theorem report_watched (h : (s.link l).state.watched = true) :
    let k := (s.link l).config.classOf q
    let s1 := s.setLink l { (s.link l).measured q o with
      deadline := some (s.al.count + (s.link l).config.staleInterval.setWidth 32) }
    let t := (s1.classify l k).evaluateCongestion l o
    s.report l q o = (t, reportReply (some k) (t.link l)) := by
  simp only [State.report, h, if_true, restartDeadline_eq, setLink_link_same, setLink_setLink]
  rfl

end

/-- Settles O40: a report in range measures; on a watched link it also restarts the deadline, classifies, and evaluates
the congestion of the record that the classification leaves. -/
theorem linkReportsAreTaken : Obligations.LinkReportsAreTaken := by
  intro s ch code quality occupancy hq
  refine ⟨fun h => exec_onlyAnswers hq (congrArg some (linkReport_outOfRange h)), fun l hl hquality => ?_⟩
  intro r r1 ends
  have hr1 : r.measured (quality.setWidth 6) occupancy = r1 := by
    simp only [LinkRecord.measured, BitVec.lt_def, r1]
  have hserved := linkReport_inRange (s := s) (occupancy := occupancy) hl hquality
  refine ⟨fun h => ?_, fun h => ?_⟩
  · have hk := hserved.trans (report_unwatched _ occupancy (unwatched_iff.mpr h))
    rw [hr1] at hk
    exact exec_movesLinks (reportReply none) hq (congrArg some hk) (setLink_onlyLinksMove s l r1)
  · intro k s1 x onset relief
    have hconfig : x.config = r.config := by simp only [x, s1, classify_config, setLink_link_same, r1]
    have hk := hserved.trans (report_watched _ occupancy (watched_iff.mpr h))
    rw [hr1] at hk
    have hmoves : s.OnlyLinksMove (s1.evaluateCongestion l occupancy) :=
      ((setLink_onlyLinksMove s l _).trans (classify_onlyLinksMove _ l k)).trans
        (evaluateCongestion_onlyLinksMove s1 l occupancy)
    have hends : ends (s1.evaluateCongestion l occupancy) (reportClassIndex (some k)) :=
      exec_movesLinks (reportReply (some k)) hq (congrArg some hk) hmoves
    simp only [onset, relief, ← hconfig]
    clear_value s1
    refine ⟨_, fun ⟨hup, hc, ho⟩ => evaluateCongestion_onset hup hc ho, fun ⟨hup, hc, ho⟩ hboth => ?_,
      fun ⟨hup, hc, ho⟩ honset => ?_, evaluateCongestion_unchanged, Eq.subst (motive := ends _) ?_ hends⟩
    · exact (evaluateCongestion_relief hup hc ho).trans (if_pos hboth)
    · exact (evaluateCongestion_relief hup hc ho).trans (if_neg (honset ▸ nofun))
    · generalize k = c
      cases c <;> rfl

end Sys2Proof.Machine
end

section
/-! PROOFS. STALE_EXPIRY and the LINK_ADMIN commands (O41, O42), and the snapshots (O43). -/

namespace Sys2Proof.Machine

section
variable {s : State} {ch : Chan} {code : BitVec 4} {l : LinkId}

/-- Every LINK_ADMIN command refuses a link above 7 in the same words. -/
theorem linkAdmin_noLink (h : 8 ≤ code.toNat) (command : LinkCommand) :
    s.served ch (.linkAdmin code command) = some (s, .plain .outOfRange (blank 4)) := by
  have hlink := linkOf_none h
  cases command
  all_goals
    simp only [State.served, State.enable, State.disable, State.drain, State.inject, State.snapshot, hlink]
    rfl

theorem linkAdmin_outOfRange {command : LinkCommand} (hq : s.claim .lm ch = some (.linkAdmin code command))
    (h : 8 ≤ code.toNat) : ∃ t, exec ((Request.linkAdmin code command).instr ch) s = .next t ∧
      s.OnlyAnswers .lm ch (.plain .outOfRange (blank 4)) t :=
  exec_onlyAnswers hq (linkAdmin_noLink h command)

/-! ## STALE_EXPIRY and INJECT -/

theorem staleDue_iff : s.staleDue l = true ↔
    ((s.link l).state = .probing ∨ (s.link l).state = .up ∨ (s.link l).state = .lost) ∧
      (s.link l).deadline = some s.al.count := by
  simp only [State.staleDue, Bool.and_eq_true, watched_iff, decide_eq_true_iff]

theorem exec_staleExpiry (hr : s.running = true) (hd : s.staleDue l = true) :
    exec (.staleExpiry l) s = .next (s.expireStale l) := by
  refine congrArg Host.Outcome.next ?_
  rw [hr, hd]
  rfl

/-- R114: the answer to INJECT, from the link's record as the command leaves it. -/
def injectReply (x : LinkRecord) : Reply :=
  .plain .ok [put 0 x.state.code, put 0 x.badRun.toNat, put 0 x.degrade.toNat, 0]

theorem served_inject (hl : code.toNat = l.val) :
    let t : State := if (s.link l).state = .offline ∨ (s.link l).state = .draining then s else s.classify l .bad
    s.served ch (.linkAdmin code .inject) = some (t, injectReply (t.link l)) := by
  have hwatched : (if (s.link l).state = .offline ∨ (s.link l).state = .draining then s else s.classify l .bad) =
      if (s.link l).state.watched then s.classify l .bad else s := by
    simp only [← unwatched_iff]
    cases (s.link l).state.watched <;> rfl
  simp only [State.served, State.inject, linkOf_eq hl, State.injectLink, hwatched]
  rfl

end

/-- Settles O41: a due expiry and an injection on a watched link are the classification BAD. -/
theorem expiriesAndInjectionsAreBad : Obligations.ExpiriesAndInjectionsAreBad := by
  refine ⟨fun s l hrun hstate hdeadline => ?_, fun s ch code hq => ⟨linkAdmin_outOfRange hq, fun l hl => ?_⟩⟩
  · rw [exec_staleExpiry hrun (staleDue_iff.mpr ⟨hstate, hdeadline⟩), State.expireStale, restartDeadline_eq]
  · intro s1
    have hmoves : s.OnlyLinksMove s1 := by
      simp only [s1]
      split
      · exact .refl s
      · exact classify_onlyLinksMove s l .bad
    exact exec_movesLinks injectReply hq (served_inject hl) hmoves

/-! ## ENABLE, DISABLE and DRAIN -/

section
variable {s : State} {l : LinkId}

theorem enableLink_already (h : (s.link l).state.watched = true) :
    s.enableLink l = (s, .plain .already (blank 4)) :=
  if_pos h

theorem enableLink_probing (h : ¬(s.link l).state.watched = true) :
    let t := s.setLink l { s.link l with
      state := .probing, badRun := 0, goodRun := 0, degrade := 0, saturated := false, peak := 0, congested := false
      deadline := some (s.al.count + (s.link l).config.staleInterval.setWidth 32) }
    s.enableLink l = (if (s.link l).config.stateNotice = .all then t.raise (.link l) .state else t,
      .plain .ok (blank 4)) := by
  simp only [State.enableLink, if_neg h, restartDeadline_eq, raiseEntry_other _ _ (.inl rfl), setLink_link_same,
    setLink_setLink]
  rfl

theorem requestRepin_none {t : State} (h : t.pinnedCount l = 0) : t.requestRepin l = t :=
  if_neg (by omega)

theorem requestRepin_some {t : State} (h : 0 < t.pinnedCount l) : t.requestRepin l = t.addWalk (.repin l) :=
  if_pos h

/-- R126: to OFFLINE the link leaves service with a notice in every mode. -/
theorem leaveService_offline : s.leaveService l .offline =
    (s.setLink l ((s.link l).leftService .offline)).raise (.link l) .state :=
  raiseEntry_down _ _ (.inr rfl)

theorem leaveService_draining : s.leaveService l .draining =
    (let t := s.setLink l ((s.link l).leftService .draining)
    if (s.link l).config.stateNotice = .all then t.raise (.link l) .state else t) := by
  simp only [State.leaveService, raiseEntry_other _ _ (.inr (.inr rfl)), setLink_link_same]
  rfl

theorem disableLink_already (h : (s.link l).state = .offline) : s.disableLink l = (s, .plain .already (blank 4)) :=
  if_pos h

theorem disableLink_unpinned (h : (s.link l).state ≠ .offline) (hn : s.pinnedCount l = 0) : s.disableLink l =
    ((s.setLink l ((s.link l).leftService .offline)).raise (.link l) .state, .plain .ok (blank 4)) := by
  rw [State.disableLink, if_neg h, requestRepin_none (by simpa using hn), hn, leaveService_offline]
  rfl

theorem disableLink_pinned (h : (s.link l).state ≠ .offline) (hn : 0 < s.pinnedCount l) : s.disableLink l =
    (((s.setLink l ((s.link l).leftService .offline)).raise (.link l) .state).addWalk (.repin l),
      .plain .ok (put 0 (s.pinnedCount l) :: blank 3)) := by
  rw [State.disableLink, if_neg h, requestRepin_some (by simpa using hn), leaveService_offline]
  rfl

theorem drainLink_already (h : (s.link l).state = .draining) : s.drainLink l = (s, .plain .already (blank 4)) := by
  simp only [State.drainLink, h]
  rfl

theorem drainLink_conflict (h : (s.link l).state = .offline) : s.drainLink l = (s, .plain .conflict (blank 4)) := by
  simp only [State.drainLink, h]
  rfl

theorem drainLink_leaves (h : (s.link l).state.watched = true) : s.drainLink l =
    ((s.leaveService l (s.drainTarget l)).requestRepin l,
      .plain .ok (put 0 (s.drainTarget l).code :: put 0 (s.pinnedCount l) :: blank 2)) := by
  obtain h | h | h := watched_iff.mp h <;> simp only [State.drainLink, h] <;> rfl

theorem drainLink_unpinned (h : (s.link l).state.watched = true) (hn : s.pinnedCount l = 0) : s.drainLink l =
    ((s.setLink l ((s.link l).leftService .offline)).raise (.link l) .state, .plain .ok (blank 4)) := by
  have htarget : s.drainTarget l = .offline := if_neg (Nat.not_lt.mpr hn.le)
  rw [drainLink_leaves h, htarget, requestRepin_none (by simpa using hn), hn, leaveService_offline]
  rfl

theorem drainLink_pinned (h : (s.link l).state.watched = true) (hn : 0 < s.pinnedCount l) :
    let t := s.setLink l ((s.link l).leftService .draining)
    s.drainLink l =
      ((if (s.link l).config.stateNotice = .all then t.raise (.link l) .state else t).addWalk (.repin l),
        .plain .ok (put 0 4 :: put 0 (s.pinnedCount l) :: blank 2)) := by
  have htarget : s.drainTarget l = .draining := if_pos hn
  rw [drainLink_leaves h, htarget, requestRepin_some (by simpa using hn), leaveService_draining]
  rfl

end

/-- Settles O42: each command by the state of its link, and by whether flows are pinned to it. -/
theorem linkAdministration : Obligations.LinkAdministration := by
  intro s ch code c command hq hc
  obtain rfl : c = (Request.linkAdmin code command).instr ch := by
    obtain ⟨rfl, rfl⟩ | ⟨rfl, rfl⟩ | ⟨rfl, rfl⟩ := hc <;> rfl
  refine ⟨linkAdmin_outOfRange hq, fun l hl => ?_⟩
  intro r n serves ends only noticed left
  have honly : ∀ status, s.served ch (.linkAdmin code command) = some (s, .plain status (blank 4)) → only status :=
    fun status hk => exec_onlyAnswers hq hk
  have hends : ∀ u body, s.served ch (.linkAdmin code command) = some (u, .plain .ok body) → s.OnlyLinksMove u →
      ends u body := fun u body hk hu => exec_movesLinks (l := l) (fun _ => .plain .ok body) hq hk hu
  have hleft : ∀ entered, s.OnlyLinksMove (left entered) := fun entered => setLink_onlyLinksMove s l _
  refine ⟨?_, ?_, ?_⟩
  · rintro rfl
    have hserved : s.served ch (.linkAdmin code .enable) = some (s.enableLink l) := by
      simp only [State.served, State.enable, linkOf_eq hl]
    refine ⟨fun h => honly _ (hserved.trans (congrArg some (enableLink_already (watched_iff.mpr h)))), fun h => ?_⟩
    exact hends _ _ (hserved.trans (congrArg some (enableLink_probing (mt watched_iff.mp h))))
      ((setLink_onlyLinksMove s l _).trans (raiseIf_onlyLinksMove _ _ _ _))
  · rintro rfl
    have hserved : s.served ch (.linkAdmin code .disable) = some (s.disableLink l) := by
      simp only [State.served, State.disable, linkOf_eq hl]
    have hoffline : s.OnlyLinksMove ((left .offline).raise (.link l) .state) := (hleft _).trans (raise_onlyLinksMove ..)
    exact ⟨fun h => honly _ (hserved.trans (congrArg some (disableLink_already h))),
      fun h hn => hends _ _ (hserved.trans (congrArg some (disableLink_unpinned h hn))) hoffline,
      fun h hn => hends _ _ (hserved.trans (congrArg some (disableLink_pinned h hn)))
        (hoffline.trans (addWalk_onlyLinksMove ..))⟩
  · rintro rfl
    have hserved : s.served ch (.linkAdmin code .drain) = some (s.drainLink l) := by
      simp only [State.served, State.drain, linkOf_eq hl]
    refine ⟨fun h => honly _ (hserved.trans (congrArg some (drainLink_already h))),
      fun h => honly _ (hserved.trans (congrArg some (drainLink_conflict h))), fun h hn => ?_, fun h hn => ?_⟩
    · exact hends _ _ (hserved.trans (congrArg some (drainLink_unpinned (watched_iff.mpr h) hn)))
        ((hleft _).trans (raise_onlyLinksMove ..))
    · exact hends _ _ (hserved.trans (congrArg some (drainLink_pinned (watched_iff.mpr h) hn)))
        (((hleft _).trans (raiseIf_onlyLinksMove _ _ _ _)).trans (addWalk_onlyLinksMove ..))

/-! ## Snapshots -/

section
variable {s : State} {l : LinkId}

theorem served_snapshot {ch : Chan} {code : BitVec 4} (hl : code.toNat = l.val) :
    s.served ch (.linkAdmin code .snapshot) = some (s.takeSnapshot l, .plain .ok [put 0 (s.link l).degrade.toNat,
      putFlag 0 (s.link l).saturated, put 0 (s.link l).peak.toNat, s.al.count]) := by
  simp only [State.served, State.snapshot, linkOf_eq hl, State.snapshotLink, State.takeSnapshot, setLink_link_same]
  rfl

theorem exec_autoSnapshot (hr : s.running = true) (hd : s.autoSnapshotDue l = true) :
    exec (.autoSnapshot l) s = .next ((s.takeSnapshot l).setAutoDue l false) := by
  refine congrArg Host.Outcome.next ?_
  rw [hr, hd]
  rfl

theorem takeSnapshot_link (k : LinkId) : (s.takeSnapshot l).link k =
    if k = l then (s.link l).snapshotTaken s.al.count else s.link k := by
  rw [State.takeSnapshot, setLink_link]

end

/-- Settles O43: both snapshots are `takeSnapshot`; the AUTO one also clears its own due flag. -/
theorem snapshotsCopyAndClear : Obligations.SnapshotsCopyAndClear := by
  refine ⟨fun s ch code hq => ⟨linkAdmin_outOfRange hq, fun l hl => ?_⟩, fun s l hrun hdue => ?_⟩
  · intro r
    exact exec_movesLinks (l := l) (fun _ => .plain .ok _) hq (served_snapshot hl) (setLink_onlyLinksMove s l _)
  · intro r
    refine ⟨_, exec_autoSnapshot hrun hdue, ?_, fun k hk => ?_, by simp, fun k => ?_, rfl⟩
    · rw [setAutoDue_link, takeSnapshot_link, if_pos rfl]
      rfl
    · rw [setAutoDue_link, takeSnapshot_link, if_neg hk]
    · simp [setAutoDue_autoSnapshotDue]

end Sys2Proof.Machine
end

section
/-! PROOFS. LINK_CONFIG and the drained notice (O44). -/

namespace Sys2Proof.Machine

/-! ## LINK_CONFIG -/

section
variable {s : State} {code : BitVec 4} {c : LinkConfig} {fallbackCode : BitVec 4} {l : LinkId}

/-- R123, step 1; a low water mark below the high one leaves the high one at least 1. -/
theorem LinkConfig.inRange_iff : c.inRange l fallbackCode = true ↔
    1 ≤ c.hysteresis.toNat ∧ c.threshold.toNat + c.hysteresis.toNat ≤ 63 ∧ 1 ≤ c.clearWindow.toNat ∧
      c.clearWindow.toNat ≤ 64 ∧ 1 ≤ c.staleInterval.toNat ∧ c.staleInterval.toNat ≤ 60 ∧
      c.lowWater.toNat < c.highWater.toNat ∧ fallbackCode.toNat ≤ 8 ∧ c.fallback ≠ some l := by
  have hwater : 1 ≤ c.highWater.toNat ∧ c.lowWater.toNat < c.highWater.toNat ↔
      c.lowWater.toNat < c.highWater.toNat := by omega
  simp only [LinkConfig.inRange, Bool.and_eq_true, decide_eq_true_iff, BitVec.lt_def, and_assoc]
  simp only [← and_assoc (a := 1 ≤ c.highWater.toNat), hwater]

theorem linkConfig_noLink (h : 8 ≤ code.toNat) :
    s.linkConfig code c fallbackCode = (s, .plain .outOfRange []) := by
  simp only [State.linkConfig, linkOf_none h]

theorem linkConfig_outOfRange (hl : code.toNat = l.val) (h : c.inRange l fallbackCode = false) :
    s.linkConfig code c fallbackCode = (s, .plain .outOfRange []) := by
  simp [State.linkConfig, linkOf_eq hl, h]

theorem linkConfig_already (hl : code.toNat = l.val) (h : c.inRange l fallbackCode = true)
    (hc : (s.link l).config = c) : s.linkConfig code c fallbackCode = (s, .plain .already []) := by
  simp [State.linkConfig, linkOf_eq hl, h, hc]

theorem linkConfig_written (hl : code.toNat = l.val) (h : c.inRange l fallbackCode = true)
    (hc : (s.link l).config ≠ c) :
    s.linkConfig code c fallbackCode = (s.setLink l { s.link l with config := c }, .plain .ok []) := by
  simp [State.linkConfig, linkOf_eq hl, h, hc.symm]

/-! ## The drained notice -/

theorem exec_drainedNotice (hr : s.running = true) (hd : s.drainedWaiting l = true) :
    exec (.drainedNotice l) s = .next (s.takeDrained l) := by
  refine congrArg Host.Outcome.next ?_
  rw [hr, hd]
  rfl

theorem takeDrained_ends (hstate : (s.link l).state = .draining) (hn : s.pinnedCount l = 0) : s.takeDrained l =
    ((s.setDrained l false).setLink l { s.link l with state := .offline }).raise (.link l) .state := by
  have hdrained : ((s.setDrained l false).link l).state = .draining ∧ (s.setDrained l false).pinnedCount l = 0 :=
    ⟨hstate, hn⟩
  rw [State.takeDrained, if_pos hdrained, raiseEntry_down _ _ (.inr rfl)]
  rfl

theorem takeDrained_setAside (h : (s.link l).state ≠ .draining ∨ 0 < s.pinnedCount l) :
    s.takeDrained l = s.setDrained l false := by
  refine if_neg ?_
  rintro ⟨hstate, hn⟩
  exact h.elim (· hstate) fun hpos => absurd hn hpos.ne'

end

/-- Settles O44: LINK_CONFIG by its checks in order; a notice by the state and the pinned count that it finds. -/
theorem configurationAndDrainedNotices : Obligations.ConfigurationAndDrainedNotices := by
  refine ⟨fun s ch code c fallbackCode hq => ?_, fun s l hrun hwaiting => ?_⟩
  · intro fits
    have hfits : ∀ l, c.inRange l fallbackCode = true ↔ fits l := fun l => LinkConfig.inRange_iff
    refine ⟨fun h => exec_onlyAnswers hq (congrArg some (linkConfig_noLink h)),
      fun l hl => ⟨fun h => ?_, fun h hc => ?_, fun h hc => ?_⟩⟩
    · have hout : c.inRange l fallbackCode = false := Bool.eq_false_of_not_eq_true (mt (hfits l).mp h)
      exact exec_onlyAnswers hq (congrArg some (linkConfig_outOfRange hl hout))
    · exact exec_onlyAnswers hq (congrArg some (linkConfig_already hl ((hfits l).mpr h) hc))
    · exact exec_movesLinks (l := l) (fun _ => .plain .ok []) hq
        (congrArg some (linkConfig_written hl ((hfits l).mpr h) hc)) (setLink_onlyLinksMove s l _)
  · intro s1
    rw [exec_drainedNotice hrun hwaiting]
    exact ⟨fun hstate hn => congrArg _ (takeDrained_ends hstate hn), fun h => congrArg _ (takeDrained_setAside h)⟩

end Sys2Proof.Machine
end

section
/-! PROOFS. DEVICE_CONFIG and the advance of the ship second count (O54). -/

namespace Sys2Proof.Machine

section
variable {s : State}

/-! ## DEVICE_CONFIG -/

theorem ageDue_iff : s.ageDue = true ↔ s.al.ageDeadline = some s.al.count :=
  decide_eq_true_iff

theorem intervalInRange_iff {interval : Word} :
    intervalInRange interval = true ↔ interval = 0 ∨ 60 ≤ interval.toNat ∧ interval.toNat ≤ 86400 := by
  simp only [intervalInRange, Bool.or_eq_true, Bool.and_eq_true, beq_iff_eq, decide_eq_true_iff]
  rfl

section
variable {ch : Chan} {interval : Word} {enable : Bool} (hq : s.claim .al ch = some (.deviceConfig interval enable))
include hq

theorem exec_deviceConfig : exec (.deviceConfig ch) s =
    .next (if s.ageDue then s else (s.deviceConfig interval enable).finish ch) := by
  refine congrArg Host.Outcome.next ?_
  rw [hq]

/-- Log 6: a due age expiry comes first. -/
theorem exec_deviceConfig_waits (h : s.ageDue = true) : exec (.deviceConfig ch) s = .next s := by
  rw [exec_deviceConfig hq, if_pos h]

theorem exec_deviceConfig_taken (h : ¬s.ageDue = true) :
    exec (.deviceConfig ch) s = .next ((s.deviceConfig interval enable).finish ch) := by
  rw [exec_deviceConfig hq, if_neg h]

end

theorem deviceConfig_outOfRange {interval : Word} (h : ¬intervalInRange interval = true) (enable : Bool) :
    s.deviceConfig interval enable = (s, .plain .outOfRange (blank 6)) :=
  if_neg h

theorem deviceConfig_written {interval : Word} (h : intervalInRange interval = true) (enable : Bool) :
    s.deviceConfig interval enable = (s.configure interval enable,
      .plain .ok (s.deviceConfigWords ++ (s.configure interval enable).deviceConfigWords)) :=
  if_pos h

/-! ## The advance of the count -/

theorem clearing_iff : s.clearing = true ↔ ∃ ch b, s.ci.softReset = .clearing ch b := by
  unfold State.clearing
  cases s.ci.softReset <;> simp

theorem expiringGrant_isSome_iff : s.expiringGrant.isSome = true ↔
    ∃ i rest, s.stc.deadlines = i :: rest ∧ (s.sub i).grant = .requested s.al.count := by
  unfold State.expiringGrant
  cases s.stc.deadlines with
  | nil => simp
  | cons i rest => simp

/-- R71, R113, R117, R144: what an advance of the count waits for. -/
theorem expiryDue_iff : s.expiryDue = true ↔
    (∃ i rest, s.stc.deadlines = i :: rest ∧ (s.sub i).grant = .requested s.al.count) ∨
      (∃ l, ((s.link l).state = .probing ∨ (s.link l).state = .up ∨ (s.link l).state = .lost) ∧
        (s.link l).deadline = some s.al.count) ∨
      (∃ l, s.autoSnapshotDue l = true) ∨ s.al.ageDeadline = some s.al.count := by
  simp only [State.expiryDue, links, Bool.or_eq_true, expiringGrant_isSome_iff, List.any_eq_true, List.mem_finRange,
    true_and, staleDue_iff, exists_or, ageDue_iff, or_assoc]

theorem exec_shipSecondAdvance (hr : s.resetHeld = false) (hi : s.al.ready = true) : exec .shipSecondAdvance s =
    .next (if s.clearing = true ∨ ¬s.expiryDue = true then s.advanceCount else s) := by
  refine congrArg Host.Outcome.next ?_
  simp [hr, hi]

theorem callAutoSnapshots_due (s : State) (l : LinkId) : s.callAutoSnapshots.autoSnapshotDue l = true ↔
    ¬s.clearing = true ∧ (s.link l).config.snapshotMode = .auto := by
  simp [State.callAutoSnapshots, State.autoSnapshotDue, State.link]

theorem advanceCount_due (l : LinkId) : s.advanceCount.autoSnapshotDue l = true ↔
    ¬s.clearing = true ∧ (s.link l).config.snapshotMode = .auto :=
  callAutoSnapshots_due _ l

end

/-- Settles O54: both commands first test what they wait for, and then write what their rule says. -/
theorem theTimebaseIsSetAndAdvances : Obligations.TheTimebaseIsSetAndAdvances := by
  refine ⟨fun s ch interval enable hq => ?_, fun s hreset hready => ?_⟩
  · intro fits due
    have hfits : intervalInRange interval = true ↔ fits := intervalInRange_iff
    have hdue : s.ageDue = true ↔ due := ageDue_iff
    refine ⟨fun h => exec_deviceConfig_waits hq (hdue.mpr h), fun h hno => ?_, fun h hin => ?_⟩
    · refine ⟨_, exec_deviceConfig_taken hq (mt hdue.mp h), ?_⟩
      exact State.onlyAnswers_of hq (deviceConfig_outOfRange (mt hfits.mp hno) enable)
    · intro deadline
      refine ⟨_, exec_deviceConfig_taken hq (mt hdue.mp h), ?_⟩
      rw [deviceConfig_written (hfits.mpr hin)]
      exact ⟨Taken.finish_answers hq rfl rfl rfl, rfl, rfl, rfl, rfl, rfl, rfl⟩
  · intro clearing due
    have hclearing : s.clearing = true ↔ clearing := clearing_iff
    have hdue : s.expiryDue = true ↔ due := expiryDue_iff
    have hexec := exec_shipSecondAdvance hreset hready
    refine ⟨fun h => ⟨_, hexec.trans (congrArg _ (if_pos (h.imp hclearing.mpr (mt hdue.mp)))), rfl, rfl, rfl,
      fun l => ?_⟩, fun hno h => ?_⟩
    · rw [advanceCount_due, hclearing]
    · exact hexec.trans (congrArg _ (if_neg (not_or.mpr ⟨mt hclearing.mp hno, not_not_intro (hdue.mpr h)⟩)))

end Sys2Proof.Machine
end

section
/-! PROOFS. A claim at the table walker, in the terms of the statements; AGE, the age expiry and WALK_ABORT (O49). -/

namespace Sys2Proof.Machine

variable {s : State}

/-- A walker's claim that moves to `u`, where the links, the walker and the attention list alone may differ, completes
with its reply. -/
theorem exec_movesWalker {u : State} {ch : Chan} {q : Request} {r : Reply} (hq : s.claim .tw ch = some q)
    (hk : s.served ch q = some (u, r)) (hu : s.OnlyLinksMove u) :
    ∃ t, exec (q.instr ch) s = .next t ∧ s.Answers ch r t ∧ t.tw = u.tw ∧ t.lm = u.lm ∧ t.al = u.al ∧
      t.stc = s.stc ∧ t.ftc = s.ftc ∧ t.zas = s.zas := by
  obtain ⟨hexec, hanswers⟩ := exec_answers hq hk hu.ci
  exact ⟨_, hexec, hanswers, by simp, by simp, by simp, by simp [hu.stc], by simp [hu.ftc], by simp [hu.zas]⟩

/-! ## AGE and the age expiry -/

theorem addWalk_eq (s : State) (e : WalkEntry) : s.addWalk e = { s with
    tw := { s.tw with queue := if e ∈ s.tw.queue then s.tw.queue else s.tw.queue ++ [e] } } := by
  unfold State.addWalk
  split <;> rfl

/-- The entries ahead of the first AGE entry of a queue. -/
theorem findIdx_age {before : List WalkEntry} (h : WalkEntry.age ∉ before) (later : List WalkEntry) :
    (before ++ .age :: later).findIdx (fun e => e == .age) = before.length := by
  have hbefore : before.findIdx (fun e => e == .age) = before.length := by
    rw [List.findIdx_eq_length]
    exact fun e he => beq_eq_false_iff_ne.mpr (ne_of_mem_of_not_mem he h)
  rw [List.findIdx_append, hbefore, if_neg (Nat.lt_irrefl _), List.findIdx_cons]
  simp

/-- R129: AGE answers the place that its entry comes to hold. -/
theorem ageRequest_eq {before later : List WalkEntry} (hbefore : WalkEntry.age ∉ before)
    (h : (if WalkEntry.age ∈ s.tw.queue then s.tw.queue else s.tw.queue ++ [.age]) = before ++ .age :: later) :
    s.ageRequest = ({ s with tw := { s.tw with queue := before ++ .age :: later } },
      .plain (if WalkEntry.age ∈ s.tw.queue then .already else .ok) [put 0 before.length, s.walkKindWord]) := by
  rw [State.ageRequest, addWalk_eq, h, State.ageBody, findIdx_age hbefore]
  rfl

theorem exec_ageExpiry (hr : s.running = true) (hd : s.ageDue = true) : exec .ageExpiry s = .next s.expireAge := by
  refine congrArg Host.Outcome.next ?_
  rw [hr, hd]
  rfl

/-! ## The selector of WALK_ABORT -/

section
variable {selector : BitVec 8}

theorem linkSelector_none (h : ¬(selector = 255 ∨ selector.toNat ≤ 7)) : linkSelector selector = none := by
  obtain ⟨hall, hlink⟩ := not_or.mp h
  rw [linkSelector, if_neg hall, dif_neg (mt Nat.lt_succ_iff.mp hlink)]

/-- R142: a selector in range selects the REPIN entries of its link, or of every link, and nothing else. -/
theorem linkSelector_some (h : selector = 255 ∨ selector.toNat ≤ 7) : ∃ x, linkSelector selector = some x ∧
    (∀ l, x.selects (.repin l) = decide (selector = 255 ∨ selector.toNat = l.val)) ∧
    x.selects .age = false ∧ x.selects .zone = false ∧ x.selects .recheck = false := by
  by_cases hall : selector = 255
  · exact ⟨.all, if_pos hall, fun l => by simp [LinkSelector.selects, hall], rfl, rfl, rfl⟩
  · have hlink : selector.toNat < 8 := Nat.lt_succ_of_le (h.resolve_left hall)
    refine ⟨.one ⟨selector.toNat, hlink⟩, ?_, fun l => ?_, rfl, rfl, rfl⟩
    · rw [linkSelector, if_neg hall, dif_pos hlink]
    · exact decide_eq_decide.mpr (by rw [or_iff_right hall, Fin.ext_iff, eq_comm])

theorem walkAbort_outOfRange (h : linkSelector selector = none) (kind : WalkKind) :
    s.walkAbort kind selector = (s, .plain .outOfRange (blank 2)) := by
  simp only [State.walkAbort, h]

theorem walkAbort_conflict {x : LinkSelector} (h : linkSelector selector = some x) {kind : WalkKind}
    (hk : kind ≠ .repin) : s.walkAbort kind selector = (s, .plain .conflict (blank 2)) := by
  cases kind with
  | repin => exact absurd rfl hk
  | age | zone | recheck => simp only [State.walkAbort, h]

theorem walkAbort_repin {x : LinkSelector} (h : linkSelector selector = some x) :
    s.walkAbort .repin selector = s.abortWalks x := by
  simp only [State.walkAbort, h]

end

/-! ## The walks that WALK_ABORT ends -/

section
variable {x : LinkSelector}

/-- R142, step 2: the queue without the entries selected. -/
def State.keptQueue (s : State) (x : LinkSelector) : List WalkEntry := s.tw.queue.filter fun e => !x.selects e

/-- R142, step 2: the number of entries selected. -/
def State.removedCount (s : State) (x : LinkSelector) : Nat := s.tw.queue.length - (s.keptQueue x).length

theorem abortedWalk_spared (h : ∀ w, s.tw.walk = some w → x.selects w.entry = false) : s.abortedWalk x = none := by
  unfold State.abortedWalk
  cases hw : s.tw.walk with
  | none => rfl
  | some w => simp [h w hw]

theorem abortedWalk_selected {w : Walk} {l : LinkId} (hw : s.tw.walk = some w) (he : w.entry = .repin l)
    (hx : x.selects w.entry = true) : s.abortedWalk x = some (l, w) := by
  rw [he] at hx
  simp [State.abortedWalk, hw, he, hx, WalkEntry.target]

theorem abortWalks_nothing (h : s.abortedWalk x = none) (hn : s.removedCount x = 0) :
    s.abortWalks x = (s, .plain .nothing (blank 2)) := by
  simp only [State.removedCount, State.keptQueue] at hn
  simp [State.abortWalks, h, hn]

theorem abortWalks_queue (h : s.abortedWalk x = none) (hn : 0 < s.removedCount x) : s.abortWalks x =
    (s.setQueue (s.keptQueue x), .plain .ok [put 0 8, put 0 (s.removedCount x)]) := by
  simp only [State.removedCount, State.keptQueue] at hn ⊢
  simp [State.abortWalks, h, hn.ne', linkCode]

theorem abortWalks_walk {w : Walk} {l : LinkId} (h : s.abortedWalk x = some (l, w)) : s.abortWalks x =
    ((s.endRepin l w.counts.moved w.counts.flowsHeld true).setQueue (s.keptQueue x),
      .plain .ok [put 0 l.val, put 0 (s.removedCount x)]) := by
  simp [State.abortWalks, h, linkCode, State.removedCount, State.keptQueue]

end

/-- Settles O49: AGE and the expiry add the entry; WALK_ABORT by its selector, its kind and what it selects. -/
theorem ageAndAbortChangeTheQueue : Obligations.AgeAndAbortChangeTheQueue := by
  refine ⟨fun s ch hq => ?age, fun s hrun hdue => ?expiry, fun s ch kind selector hq => ?abort⟩
  case age =>
    intro walking ends
    have hends : ∀ {status place queue}, s.ageRequest = ({ s with tw := { s.tw with queue := queue } },
        .plain status [put 0 place, s.walkKindWord]) → ends status place queue := fun hk => by
      obtain ⟨t, hexec, hanswers, htw, hlm, hal, hstc, hftc, hzas⟩ :=
        exec_movesWalker hq (congrArg some hk) ⟨⟨rfl, rfl, rfl⟩, rfl, rfl, rfl⟩
      exact ⟨t, hexec, hanswers, htw, hstc, hftc, hlm, hzas, hal⟩
    refine ⟨fun hnew => hends ?_, fun before later hsplit hbefore => hends ?_⟩
    · rw [ageRequest_eq hnew (if_neg hnew), if_neg hnew]
    · have hmem : WalkEntry.age ∈ s.tw.queue := by simp [hsplit]
      rw [ageRequest_eq hbefore ((if_pos hmem).trans hsplit), if_pos hmem, hsplit]
  case expiry =>
    rw [exec_ageExpiry hrun (decide_eq_true hdue), State.expireAge, addWalk_eq]
  case abort =>
    intro only known selected kept removed spared
    refine ⟨fun hno => exec_onlyAnswers hq (congrArg some (walkAbort_outOfRange (linkSelector_none hno) kind)),
      fun hknown hkind => ?_, fun hknown hkind => ?_⟩
    · obtain ⟨x, hx, -⟩ := linkSelector_some hknown
      exact exec_onlyAnswers hq (congrArg some (walkAbort_conflict hx hkind))
    · subst hkind
      obtain ⟨x, hx, hrepin, hage, hzone, hrecheck⟩ := linkSelector_some hknown
      have hselected : x.selects = selected := by
        funext e
        cases e with
        | age => exact hage
        | zone => exact hzone
        | recheck => exact hrecheck
        | repin l => exact hrepin l
      have hkept : s.keptQueue x = kept := by rw [State.keptQueue, hselected]
      have hremoved : s.removedCount x = removed := by rw [State.removedCount, hkept]
      have hspared : spared → s.abortedWalk x = none := fun h => abortedWalk_spared (by rwa [hselected])
      have hserved : ∀ {k}, s.abortWalks x = k → s.served ch (.walkAbort .repin selector) = some k :=
        fun hk => congrArg some ((walkAbort_repin hx).trans hk)
      refine ⟨fun h hn => ?_, fun h hn => ?_, fun w l hw he hsel => ?_⟩
      · exact exec_onlyAnswers hq (hserved (abortWalks_nothing (hspared h) (hremoved.trans hn)))
      · have hk := abortWalks_queue (hspared h) (hn.trans_eq hremoved.symm)
        rw [hkept, hremoved] at hk
        obtain ⟨t, hexec, hanswers, htw, hlm, hal, hstc, hftc, hzas⟩ :=
          exec_movesWalker hq (hserved hk) ⟨⟨rfl, rfl, rfl⟩, rfl, rfl, rfl⟩
        exact ⟨t, hexec, hanswers, htw, hstc, hftc, hlm, hzas, hal⟩
      · have hk := abortWalks_walk (abortedWalk_selected hw he (by rwa [hselected]))
        rw [hkept, hremoved] at hk
        obtain ⟨t, hexec, hanswers, htw, hlm, hal, hstc, hftc, hzas⟩ :=
          exec_movesWalker hq (hserved hk) ⟨⟨rfl, rfl, rfl⟩, rfl, rfl, rfl⟩
        exact ⟨t, hexec, hanswers, htw, hlm, hal, hstc, hftc, hzas⟩

end Sys2Proof.Machine
end

section
/-! PROOFS. The starts of the walks and their ends (O50). -/

namespace Sys2Proof.Machine

variable {s : State} {w : Walk}

theorem walking_of_running (hr : s.running = true) (hw : s.tw.walk = some w) : s.walking = some w :=
  (if_pos hr).trans hw

/-! ## Starts -/

theorem setWalk_of_idle {u : State} (h : u.tw.walk = none) : u.setWalk none = u := by
  rw [State.setWalk, ← h]

theorem exec_walkStart {e : WalkEntry} {rest : List WalkEntry} (hr : s.running = true) (hw : s.tw.walk = none)
    (hq : s.tw.queue = e :: rest) : exec .walkStart s = .next ((s.setQueue rest).startWalk e) := by
  have hstart : s.startable = some e := by simp [State.startable, hw, hq]
  refine congrArg Host.Outcome.next ?_
  rw [hr, hstart, hq]
  rfl

/-- R130: no start while the block does not run, while a walk is in progress or on an empty queue. -/
theorem exec_walkStart_idle (h : s.running = false ∨ s.tw.walk ≠ none ∨ s.tw.queue = []) :
    exec .walkStart s = .next s := by
  refine congrArg Host.Outcome.next ?_
  obtain hr | hw | hq := h
  · rw [hr]
  · obtain ⟨w, hw⟩ := Option.ne_none_iff_exists'.mp hw
    have hstart : s.startable = none := by simp [State.startable, hw]
    rw [hstart]
    cases s.running <;> rfl
  · have hstart : s.startable = none := by
      unfold State.startable
      cases s.tw.walk <;> simp [hq]
    rw [hstart]
    cases s.running <;> rfl

/-- R130: a REPIN walk of an UP link ends as it starts, and the walker stays IDLE. -/
theorem startWalk_repin_up {l : LinkId} (hw : s.tw.walk = none) (h : (s.link l).state = .up) :
    s.startWalk (.repin l) = (s.setLink l { s.link l with
      repin := { moved := 0, held := 0, aborted := false, completed := s.al.count } }).raise (.link l) .repinDone := by
  refine (if_pos h).trans ?_
  exact setWalk_of_idle (u := (s.setLink l _).raise (.link l) .repinDone) hw

theorem startWalk_repin {l : LinkId} (h : (s.link l).state ≠ .up) :
    s.startWalk (.repin l) = s.setWalk (some (s.newWalk (.repin l))) :=
  if_neg h

/-! ## Ends -/

theorem Walk.size_of_age (he : w.entry = .age) (hf : w.flowPass = true) : w.size = 16384 := by
  simp [Walk.size, he, hf, Config.flowCount]

theorem Walk.size_of_age_pass1 (he : w.entry = .age) (hf : w.flowPass = false) : w.size = 4096 := by
  simp [Walk.size, he, hf, Config.subscriberCount]

theorem Walk.size_of_sub (he : w.entry = .zone ∨ w.entry = .recheck) : w.size = 4096 := by
  obtain he | he := he <;> simp [Walk.size, he, Config.subscriberCount]

theorem Walk.size_of_repin {l : LinkId} (he : w.entry = .repin l) : w.size = 16384 := by
  simp [Walk.size, he, Config.flowCount]

theorem endingWalk_eq (hr : s.running = true) (hw : s.tw.walk = some w) (hsize : w.size ≤ w.cursor)
    (hlast : w.flowPass = true ∨ w.entry ≠ .age) : s.endingWalk = some w := by
  have hover : w.visiting = false := decide_eq_false (Nat.not_lt.mpr hsize)
  simp [State.endingWalk, walking_of_running hr hw, hover, hlast]

section
variable (h : s.endingWalk = some w)
include h

theorem exec_ageWalkEnd (he : w.entry = .age) : exec .ageWalkEnd s = .next (s.ageEnd w) := by
  refine congrArg Host.Outcome.next ?_
  rw [h]
  exact if_pos he

theorem exec_zoneWalkEnd (he : w.entry = .zone) : exec .zoneWalkEnd s = .next (s.zoneEnd w) := by
  refine congrArg Host.Outcome.next ?_
  rw [h]
  exact if_pos he

theorem exec_recheckWalkEnd (he : w.entry = .recheck) : exec .recheckWalkEnd s = .next (s.recheckEnd w) := by
  refine congrArg Host.Outcome.next ?_
  rw [h]
  exact if_pos he

theorem exec_repinWalkEnd {l : LinkId} (he : w.entry = .repin l) :
    exec .repinWalkEnd s = .next (s.endRepin l w.counts.moved w.counts.flowsHeld false) := by
  have htarget : w.entry.target = some l := congrArg WalkEntry.target he
  refine congrArg Host.Outcome.next ?_
  rw [h]
  dsimp only
  rw [htarget]

end

/-- Settles O50: the start by the kind of the head entry; each end once its walk's last pass is over. -/
theorem walksStartAndEnd : Obligations.WalksStartAndEnd := by
  refine ⟨fun s e rest hrun hwalk hq => ?start, fun s h => exec_walkStart_idle h, fun s w hrun hw => ?ends⟩
  case start =>
    intro w tw
    rw [exec_walkStart hrun hwalk hq]
    refine ⟨?_, ?_, ?_⟩
    · rintro rfl
      rfl
    · rintro (rfl | rfl) <;> rfl
    · rintro l rfl
      exact ⟨fun h => congrArg _ (startWalk_repin h), fun h => congrArg _ (startWalk_repin_up hwalk h)⟩
  case ends =>
    intro raised
    refine ⟨fun he hf hc => ?_, fun he hc => ?_, fun he hc => ?_, fun l he hc => ?_⟩
    · exact exec_ageWalkEnd (endingWalk_eq hrun hw (by rwa [Walk.size_of_age he hf]) (.inl hf)) he
    · exact exec_zoneWalkEnd (endingWalk_eq hrun hw (by rwa [Walk.size_of_sub (.inl he)]) (.inr (by simp [he]))) he
    · exact exec_recheckWalkEnd (endingWalk_eq hrun hw (by rwa [Walk.size_of_sub (.inr he)]) (.inr (by simp [he]))) he
    · exact exec_repinWalkEnd (endingWalk_eq hrun hw (by rwa [Walk.size_of_repin he]) (.inr (by simp [he]))) he

end Sys2Proof.Machine
end

section
/-! PROOFS. The visits of an AGE walk (O51). -/

namespace Sys2Proof.Machine

variable {s : State} {w : Walk}

/-! ## The record at the cursor -/

theorem Walk.subAt_eq {i : SubIx} (h : w.cursor = i.toNat) : w.subAt = i := by
  rw [Walk.subAt, h, BitVec.ofNat_toNat, BitVec.setWidth_eq]

theorem Walk.flowAt_eq {i : FlowIx} (h : w.cursor = i.toNat) : w.flowAt = i := by
  rw [Walk.flowAt, h, BitVec.ofNat_toNat, BitVec.setWidth_eq]

theorem Walk.visiting_of_sub {i : SubIx} (h : w.cursor = i.toNat) (hs : w.size = 4096) : w.visiting = true :=
  decide_eq_true (by rw [h, hs]; exact i.isLt)

theorem Walk.visiting_of_flow {i : FlowIx} (h : w.cursor = i.toNat) (hs : w.size = 16384) : w.visiting = true :=
  decide_eq_true (by rw [h, hs]; exact i.isLt)

/-- R131: the walker after an operation that leaves it alone and the move of the walk in progress. -/
theorem setWalk_of_sameWalker {u : State} (h : u.tw = s.tw) (v : Option Walk) :
    u.setWalk v = { u with tw := { s.tw with walk := v } } := by
  rw [State.setWalk, h]

/-- R131: pass 1 ends with the visit to record 4095. -/
theorem Walk.advancePass1_eq {i : SubIx} (h : w.cursor = i.toNat) (counts : WalkCounts) : w.advancePass1 counts =
    if i = 4095 then { w with counts := counts, flowPass := true, cursor := 0 }
    else { w with counts := counts, cursor := w.cursor + 1 } := by
  have hlast : w.cursor + 1 = Config.subscriberCount ↔ i = 4095 := by
    rw [h, Config.subscriberCount, BitVec.toNat_eq]
    exact Nat.succ_inj
  simp only [Walk.advancePass1, hlast, Walk.advance]

/-! ## Pass 1 -/

section
variable {i : SubIx}

theorem exec_agePass1Visit (hr : s.running = true) (hw : s.tw.walk = some w) (he : w.entry = .age)
    (hf : w.flowPass = false) (hc : w.cursor = i.toNat) :
    exec .agePass1Visit s = .next (s.pass1Visit w) := by
  have hvisiting := Walk.visiting_of_sub hc (Walk.size_of_age_pass1 he hf)
  have hwalk : s.pass1Walk = some w := by
    simp [State.pass1Walk, walking_of_running hr hw, he, hf, hvisiting]
  refine congrArg Host.Outcome.next ?_
  rw [hwalk]

theorem doomedSub_iff : s.doomedSub i = true ↔ (s.sub i).state ≠ .vacant ∧ (s.sub i).mark = s.tw.thirdMark := by
  simp [State.doomedSub, SubRecord.live]

theorem retires_iff {r : SubRecord} : r.retires = true ↔
    r.permanent = false ∧ (r.state = .attached ∨ r.state = .roamBarred) ∧ r.closeHeld = false := by
  simp [SubRecord.retires, and_assoc]

/-- R133: a record that is VACANT or not doomed is passed over. -/
theorem ageSub_spared (h : ¬s.doomedSub i = true) : s.ageSub i = s ∧ s.ageSubCount i = 0 := by
  simp [State.ageSub, State.ageSubCount, h]

/-- R133: a doomed record that stays is marked again. -/
theorem ageSub_stays (h : s.doomedSub i = true) (hn : ¬(s.sub i).retires = true) :
    s.ageSub i = s.remark i ∧ s.ageSubCount i = 0 := by
  simp [State.ageSub, State.ageSubCount, h, hn]

theorem ageSub_retires (h : s.doomedSub i = true) (hn : (s.sub i).retires = true) :
    s.ageSub i = (s.enterDetaching i).remark i ∧ s.ageSubCount i = 1 := by
  simp [State.ageSub, State.ageSubCount, h, hn]

theorem remark_sub (s : State) (i j : SubIx) : (s.remark i).sub j =
    if j = i then { s.sub i with mark := s.tw.previousMark } else s.sub j :=
  setSub_sub ..

/-- R133: a retirement changes the STC alone. -/
theorem remark_enterDetaching (s : State) (i : SubIx) : (s.enterDetaching i).remark i =
    { s with stc := ((s.enterDetaching i).remark i).stc } := rfl

end

/-! ## Pass 2 -/

section
variable {i : FlowIx}

theorem exec_agePass2Visit (hr : s.running = true) (hw : s.tw.walk = some w) (he : w.entry = .age)
    (hf : w.flowPass = true) (hc : w.cursor = i.toNat) :
    exec .agePass2Visit s = .next (s.pass2Visit w) := by
  have hvisiting := Walk.visiting_of_flow hc (Walk.size_of_age he hf)
  have hwalk : s.pass2Walk = some w := by
    simp [State.pass2Walk, walking_of_running hr hw, he, hf, hvisiting]
  refine congrArg Host.Outcome.next ?_
  rw [hwalk]

theorem doomedFlow_iff : s.doomedFlow i = true ↔ (s.flow i).state ≠ .vacant ∧ (s.flow i).mark = s.tw.thirdMark := by
  simp [State.doomedFlow, FlowRecord.live]

theorem pass2Visit_retires (hc : w.cursor = i.toNat) (h : s.doomedFlow i = true) : s.pass2Visit w =
    { s.retire i with tw := { s.tw with walk := some (w.advance
      { w.counts with flowsRetired := w.counts.flowsRetired + 1 }) } } := by
  simp only [State.pass2Visit, Walk.flowAt_eq hc, h, if_true]
  exact setWalk_of_sameWalker (by simp) _

theorem pass2Visit_spared (hc : w.cursor = i.toNat) (h : ¬s.doomedFlow i = true) : s.pass2Visit w =
    s.setWalk (some (w.advance w.counts)) := by
  simp [State.pass2Visit, Walk.flowAt_eq hc, h]

end

/-- Settles O51: pass 1 by whether the record is doomed and retires, pass 2 by whether the flow is doomed. -/
theorem ageVisitsRetireTheDoomed : Obligations.AgeVisitsRetireTheDoomed := by
  refine ⟨fun s w i hrun hw he hf hc => ?pass1, fun s w i hrun hw he hf hc => ?pass2⟩
  case pass1 =>
    intro r doomed retires next
    have hdoomed : s.doomedSub i = true ↔ doomed := doomedSub_iff
    have hretires : (s.sub i).retires = true ↔ retires := retires_iff
    have hvisit : ∀ {u : State} {n : Nat}, s.ageSub i = u ∧ s.ageSubCount i = n → u.tw = s.tw →
        exec .agePass1Visit s = .next { u with tw := next n } := by
      rintro _ _ ⟨rfl, rfl⟩ htw
      refine (exec_agePass1Visit hrun hw he hf hc).trans (congrArg Host.Outcome.next ?_)
      rw [State.pass1Visit, Walk.subAt_eq hc, setWalk_of_sameWalker htw, Walk.advancePass1_eq hc]
    refine ⟨fun h => ?_, fun h hstays => ?_, fun h hgoes => ?_⟩
    · exact hvisit (ageSub_spared (mt hdoomed.mp h)) rfl
    · exact hvisit (ageSub_stays (hdoomed.mpr h) (mt hretires.mp hstays)) rfl
    · have hsub := remark_sub (s.enterDetaching i) i
      refine ⟨_, hvisit (ageSub_retires (hdoomed.mpr h) (hretires.mpr hgoes)) (by simp [State.remark]), ?_,
        fun j hj => ?_, rfl, rfl, rfl, rfl,
        congrArg (fun u : State => { u with tw := next 1 }) (remark_enterDetaching s i)⟩
      · exact (hsub i).trans (by simp [enterDetaching_sub, r])
      · exact (hsub j).trans (by simp [enterDetaching_sub, hj])
  case pass2 =>
    intro doomed
    have hdoomed : s.doomedFlow i = true ↔ doomed := doomedFlow_iff
    rw [exec_agePass2Visit hrun hw he hf hc]
    exact ⟨fun h => congrArg _ (pass2Visit_retires hc (hdoomed.mpr h)),
      fun h => congrArg _ (pass2Visit_spared hc (mt hdoomed.mp h))⟩

end Sys2Proof.Machine
end

section
/-! PROOFS. The visits of the ZONE, RECHECK and REPIN walks (O52). -/

namespace Sys2Proof.Machine

variable {s : State} {w : Walk}

/-! ## The state that lazy processing leaves -/

section
variable {i : SubIx}

/-- R101: the state that a recheck gives a record depends on its state, class and home operator, and on the ZAS. -/
theorem rechecked_state_congr {u : State} {r x : SubRecord} (hz : u.zas = s.zas) (hstate : x.state = r.state)
    (hcls : x.cls = r.cls) (hhome : x.home = r.home) : (u.rechecked x).state = (s.rechecked r).state := by
  have hout : u.outcome x.home = s.outcome r.home := by
    simp only [State.outcome, State.currentClass, State.zone, hz, hhome]
  have hdecision : (u.decision x).2 = (s.decision r).2 := by
    simp only [State.decision, hcls, hout]
    cases r.cls with
    | shipSystem | crew => rfl
    | passenger => cases s.outcome r.home <;> rfl
  rw [rechecked_state, rechecked_state, hstate, hdecision]

theorem closeUsage_sub (s : State) (i : SubIx) : (s.closeUsage i).sub i = (s.sub i).closeCurrent := by
  unfold State.closeUsage
  dsimp only
  split <;> simp

theorem closeCurrent_decided (r : SubRecord) :
    r.closeCurrent.state = r.state ∧ r.closeCurrent.cls = r.cls ∧ r.closeCurrent.home = r.home := by
  unfold SubRecord.closeCurrent
  split <;> exact ⟨rfl, rfl, rfl⟩

theorem recheck_state (u : State) (i : SubIx) : ((u.recheck i).sub i).state = (u.rechecked (u.sub i)).state := by
  obtain ⟨_, hsub⟩ := recheck_sub u i
  rw [hsub, if_pos rfl, rechecked_state]

/-- R98: lazy processing moves the state of its record by the recheck, where it makes one. -/
theorem lazy_state (s : State) (i : SubIx) : ((s.lazy i).sub i).state =
    if (s.lazyReport i).rechecked = true then (s.rechecked (s.sub i)).state else (s.sub i).state := by
  cases h : s.lazyBranch (s.sub i) with
  | alreadyHeld => simp [lazy_of_alreadyHeld h, State.lazyReport, h]
  | nothing => simp [lazy_of_nothing h, State.lazyReport, h]
  | hold => simp [lazy_of_hold h, State.lazyReport, h, State.holdClose]
  | policy =>
    have hreport : (s.lazyReport i).rechecked = true := by simp [State.lazyReport, h]
    rw [lazy_of_policy h, recheck_state, if_pos hreport, setSub_sub_same]
    exact rechecked_state_congr (by simp) rfl rfl rfl
  | zone =>
    have hreport : (s.lazyReport i).rechecked = true := by simp [State.lazyReport, h]
    obtain ⟨hstate, hcls, hhome⟩ := closeCurrent_decided (s.sub i)
    rw [lazy_of_zone h, State.bringUpToDate, recheck_state, if_pos hreport, setSub_sub_same, closeUsage_sub]
    exact rechecked_state_congr (by simp) hstate hcls hhome

/-! ## What lazy processing reports -/

/-- R98: the branches of lazy processing are exhaustive. -/
theorem lazyBranch_cases (s : State) (r : SubRecord) :
    (r.closeHeld = true ∧ s.lazyBranch r = .alreadyHeld) ∨
    (r.closeHeld = false ∧ r.zoneEpoch ≠ s.zas.zoneEpoch ∧ r.closed ≠ none ∧ s.lazyBranch r = .hold) ∨
    (r.closeHeld = false ∧ r.zoneEpoch ≠ s.zas.zoneEpoch ∧ r.closed = none ∧ s.lazyBranch r = .zone) ∨
    (r.closeHeld = false ∧ r.zoneEpoch = s.zas.zoneEpoch ∧ (s.lazyBranch r = .policy ∨ s.lazyBranch r = .nothing)) := by
  cases hheld : r.closeHeld with
  | true => exact .inl ⟨rfl, lazyBranch_eq_alreadyHeld hheld⟩
  | false =>
    refine .inr ?_
    by_cases hz : r.zoneEpoch = s.zas.zoneEpoch
    · refine .inr (.inr ⟨rfl, hz, ?_⟩)
      by_cases hp : r.policyEpoch = s.zas.policyEpoch
      · exact .inr (lazyBranch_eq_nothing hheld hz hp)
      · exact .inl (lazyBranch_eq_policy hheld hz hp)
    · by_cases hc : r.closed = none
      · exact .inr (.inl ⟨rfl, hz, hc, lazyBranch_eq_zone hheld hz hc⟩)
      · exact .inl ⟨rfl, hz, hc, lazyBranch_eq_hold hheld hz hc⟩

/-- R100: a record is held where it was so before, or where its slot is not free for the close. -/
theorem lazyReport_held : (s.lazyReport i).held = true ↔ (s.sub i).closeHeld = true ∨
    ((s.sub i).zoneEpoch ≠ s.zas.zoneEpoch ∧ (s.sub i).closed ≠ none) := by
  obtain ⟨hheld, hb⟩ | ⟨hheld, hz, hc, hb⟩ | ⟨hheld, hz, hc, hb⟩ | ⟨hheld, hz, hb | hb⟩ :=
    lazyBranch_cases s (s.sub i)
  all_goals simp [State.lazyReport, *]

/-- R77, R99: usage is closed where the zone changed, the slot is free and there is usage. -/
theorem lazyReport_closed : (s.lazyReport i).closed = true ↔
    ((s.sub i).closeHeld = false ∧ (s.sub i).zoneEpoch ≠ s.zas.zoneEpoch ∧ (s.sub i).closed = none) ∧
      ((s.sub i).current.bytes ≠ 0 ∨ (s.sub i).current.seconds ≠ 0) := by
  rw [← decide_eq_true_iff (p := _ ∨ _), ← Usage.nonzero_eq]
  obtain ⟨hheld, hb⟩ | ⟨hheld, hz, hc, hb⟩ | ⟨hheld, hz, hc, hb⟩ | ⟨hheld, hz, hb | hb⟩ :=
    lazyBranch_cases s (s.sub i)
  all_goals simp [State.lazyReport, *]

/-- R101, R137: a record is barred where its visit moves it from ATTACHED to ROAM_BARRED. -/
theorem lazyReport_barred : (s.lazyReport i).barred = true ↔
    (s.sub i).state = .attached ∧ ((s.lazy i).sub i).state = .roamBarred := by
  rw [lazy_state]
  cases h : s.lazyBranch (s.sub i) <;> simp +contextual [State.lazyReport, h, barredBy]

/-- R101, R138: a record is cleared where its visit moves it from ROAM_BARRED to ATTACHED. -/
theorem lazyReport_cleared : (s.lazyReport i).cleared = true ↔
    (s.sub i).state = .roamBarred ∧ ((s.lazy i).sub i).state = .attached := by
  rw [lazy_state]
  cases h : s.lazyBranch (s.sub i) <;> simp +contextual [State.lazyReport, h, clearedBy]

/-! ## What a visit reports -/

theorem lazyVisit_eq (s : State) (i : SubIx) :
    s.lazyVisit i = if (s.sub i).state = .vacant then s else s.lazy i := by
  simp [State.lazyVisit, SubRecord.live]

/-- R137, R138: a visit reports of a live record what its processing reports. -/
theorem visitReport_iff {field : LazyReport → Bool} (h : field {} = false) : field (s.visitReport i) = true ↔
    (s.sub i).state ≠ .vacant ∧ field (s.lazyReport i) = true := by
  by_cases hv : (s.sub i).state = .vacant <;> simp [State.visitReport, SubRecord.live, hv, h]

/-- A move of state that lazy processing reports is the visit's. -/
theorem visitReport_move {field : LazyReport → Bool} {before after : SubState} (h : field {} = false)
    (hbefore : before ≠ .vacant)
    (hlazy : field (s.lazyReport i) = true ↔ (s.sub i).state = before ∧ ((s.lazy i).sub i).state = after) :
    field (s.visitReport i) = true ↔
      (s.sub i).state = before ∧ ((if (s.sub i).state = .vacant then s else s.lazy i).sub i).state = after := by
  rw [visitReport_iff h, hlazy]
  by_cases hv : (s.sub i).state = .vacant
  · simp [hv, hbefore.symm]
  · simp [hv]

end

theorem countIf_eq {n : Nat} {b : Bool} {p : Prop} [Decidable p] (h : b = true ↔ p) :
    countIf n b = n + if p then 1 else 0 := by
  by_cases hp : p <;> simp [countIf, h, hp]


/-! ## ZONE and RECHECK visits -/

section
variable {i : SubIx} (hr : s.running = true) (hw : s.tw.walk = some w) (hc : w.cursor = i.toNat)
include hr hw hc

theorem exec_zoneVisit (he : w.entry = .zone) : exec .zoneVisit s = .next (s.zoneVisit w) := by
  have hvisiting := Walk.visiting_of_sub hc (Walk.size_of_sub (.inl he))
  have hwalk : s.zoneWalk = some w := by simp [State.zoneWalk, walking_of_running hr hw, he, hvisiting]
  refine congrArg Host.Outcome.next ?_
  rw [hwalk]

theorem exec_recheckVisit (he : w.entry = .recheck) : exec .recheckVisit s = .next (s.recheckVisit w) := by
  have hvisiting := Walk.visiting_of_sub hc (Walk.size_of_sub (.inr he))
  have hwalk : s.recheckWalk = some w := by simp [State.recheckWalk, walking_of_running hr hw, he, hvisiting]
  refine congrArg Host.Outcome.next ?_
  rw [hwalk]

end

/-! ## REPIN visits -/

section
variable {l : LinkId} {i : FlowIx}

theorem exec_repinVisit (hr : s.running = true) (hw : s.tw.walk = some w) (he : w.entry = .repin l)
    (hc : w.cursor = i.toNat) : exec .repinVisit s = .next (s.repinVisit l w) := by
  have hvisiting := Walk.visiting_of_flow hc (Walk.size_of_repin he)
  have hwalk : s.repinWalk = some (l, w) := by
    simp [State.repinWalk, walking_of_running hr hw, he, hvisiting, WalkEntry.target]
  refine congrArg Host.Outcome.next ?_
  rw [hwalk]

theorem repins_iff : s.repins l i = true ↔ (s.flow i).state = .opened l ∧ (s.link l).state ≠ .up := by
  simp [State.repins, pin_eq_some]

theorem repinVisit_passes (hc : w.cursor = i.toNat) (h : ¬s.repins l i = true) :
    s.repinVisit l w = s.setWalk (some (w.advance w.counts)) := by
  simp [State.repinVisit, Walk.flowAt_eq hc, h]

/-- R140: the visit gives the flow what link selection finds, and counts a flow moved or held. -/
theorem repinVisit_acts (hc : w.cursor = i.toNat) (h : s.repins l i = true) {selected : Option LinkId}
    (hs : s.selectLink (s.flow i).cls (some l) = selected) : s.repinVisit l w =
      { s.repinFlow i selected with tw := { s.tw with walk := some (w.advance { w.counts with
        moved := countIf w.counts.moved selected.isSome
        flowsHeld := countIf w.counts.flowsHeld selected.isNone }) } } := by
  simp only [State.repinVisit, Walk.flowAt_eq hc, h, if_true, hs]
  exact setWalk_of_sameWalker (by simp) _

end

/-- Settles O52: ZONE and RECHECK visits by what lazy processing reports of the record, REPIN visits by whether they
act on the flow and what link selection finds. -/
theorem otherVisitsProcessTheRecord : Obligations.OtherVisitsProcessTheRecord := by
  refine ⟨fun s w i hrun hw hc => ?sub, fun s w l i hrun hw he hc => ?flow⟩
  case sub =>
    intro r s1 one live stale closes held barred advanced
    have hs1 : s.lazyVisit i = s1 := lazyVisit_eq s i
    have htw : s1.tw = s.tw := by simp [← hs1]
    have hcount : ∀ {n : Nat} {b : Bool} {p : Prop} [Decidable p], (b = true ↔ p) → countIf n b = n + one p :=
      countIf_eq
    have hclosed : (s.visitReport i).closed = true ↔ closes ∧ (r.current.bytes ≠ 0 ∨ r.current.seconds ≠ 0) := by
      rw [visitReport_iff (field := LazyReport.closed) rfl, lazyReport_closed, ← and_assoc]
    have hheld : (s.visitReport i).held = true ↔ live ∧ (r.closeHeld = true ∨ (stale ∧ r.closed ≠ none)) := by
      rw [visitReport_iff (field := LazyReport.held) rfl, lazyReport_held]
    have hbarred : (s.visitReport i).barred = true ↔ r.state = .attached ∧ (s1.sub i).state = .roamBarred :=
      visitReport_move (field := LazyReport.barred) rfl (by decide) lazyReport_barred
    have hcleared : (s.visitReport i).cleared = true ↔ r.state = .roamBarred ∧ (s1.sub i).state = .attached :=
      visitReport_move (field := LazyReport.cleared) rfl (by decide) lazyReport_cleared
    have hrechecked : (s.visitReport i).rechecked = true ↔
        closes ∨ (live ∧ r.closeHeld = false ∧ ¬stale ∧ r.policyEpoch ≠ s.zas.policyEpoch) := by
      rw [visitReport_iff (field := LazyReport.rechecked) rfl, lazyReport_rechecked]
      by_cases hz : r.zoneEpoch = s.zas.zoneEpoch <;> simp [closes, live, stale, r, hz]
    refine ⟨fun he => ?_, fun he => ?_⟩
    · refine (exec_zoneVisit hrun hw hc he).trans (congrArg Host.Outcome.next ?_)
      simp only [State.zoneVisit, Walk.subAt_eq hc, hs1, hcount hclosed, hcount hheld, hcount hbarred]
      exact setWalk_of_sameWalker htw _
    · refine (exec_recheckVisit hrun hw hc he).trans (congrArg Host.Outcome.next ?_)
      simp only [State.recheckVisit, Walk.subAt_eq hc, hs1, hcount hrechecked, hcount hbarred, hcount hcleared,
        hcount hheld]
      exact setWalk_of_sameWalker htw _
  case flow =>
    intro acts selected advanced
    have hacts : s.repins l i = true ↔ acts := repins_iff
    rw [exec_repinVisit hrun hw he hc]
    refine ⟨fun h => congrArg _ (repinVisit_passes hc (mt hacts.mp h)), fun h hsome => ?_, fun h hnone => ?_⟩
    · obtain ⟨k, hk⟩ := Option.ne_none_iff_exists'.mp hsome
      rw [hk]
      exact congrArg _ (repinVisit_acts hc (hacts.mpr h) hk)
    · exact congrArg _ (repinVisit_acts hc (hacts.mpr h) hnone)

end Sys2Proof.Machine
end

section
/-! PROOFS. The guard tests (O13), and the updates of one field (O31). -/

namespace Sys2Proof.Machine

/-! ## The guard tests -/

theorem allBits_iff (v o : Word) :
    GuardTest.allBits.holds v o = true ↔ ∀ k, k < 32 → o.getLsbD k = true → v.getLsbD k = true := by
  rw [GuardTest.holds, beq_iff_eq]
  refine ⟨fun h k _ ho => ?_, fun h => BitVec.eq_of_getLsbD_eq fun k hk => ?_⟩
  · rw [← h, BitVec.getLsbD_and, Bool.and_eq_true] at ho
    exact ho.1
  · rw [BitVec.getLsbD_and]
    cases ho : o.getLsbD k
    · exact Bool.and_false _
    · rw [h k hk ho, Bool.and_true]

theorem anyBits_iff (v o : Word) :
    GuardTest.anyBits.holds v o = true ↔ ∃ k, k < 32 ∧ o.getLsbD k = true ∧ v.getLsbD k = true := by
  rw [GuardTest.holds, bne_iff_ne]
  constructor
  · intro h
    by_contra hnone
    push Not at hnone
    refine h (BitVec.eq_of_getLsbD_eq fun k hk => ?_)
    cases ho : o.getLsbD k
    · simp [ho]
    · simp [hnone k hk ho]
  · rintro ⟨k, -, ho, hv⟩ h
    have hbit : (v &&& o).getLsbD k = true := by rw [BitVec.getLsbD_and, ho, hv, Bool.and_true]
    simp [h] at hbit

/-- R148: negation turns the test's result into its opposite. -/
theorem Guard.passes_eq {φ : Type} (g : Guard φ) (v : Word) :
    g.passes v = if g.negate then !g.test.holds v g.operand else g.test.holds v g.operand := by
  rw [Guard.passes]
  cases g.negate <;> simp

/-- Settles O13: the order tests by the words' numbers, the bit tests bit by bit, the negation for either guard. -/
theorem guardTestsCompareUnsigned : Obligations.GuardTestsCompareUnsigned := fun v o =>
  ⟨beq_iff_eq, by rw [GuardTest.holds, decide_eq_true_iff, BitVec.lt_def],
    by rw [GuardTest.holds, decide_eq_true_iff, BitVec.lt_def], allBits_iff v o, anyBits_iff v o,
    fun g => g.passes_eq v, fun g => g.passes_eq v⟩

/-! ## What a field accepts, and the record it leaves -/

theorem SubField.permanent_accepts_iff {a : UpdateAction} {v : Word} :
    SubField.permanent.accepts a v = true ↔ a = .set ∧ (v = 0 ∨ v = 1) := by
  have hv : v.toNat ≤ 1 ↔ v = 0 ∨ v = 1 := by bv_omega
  simp [SubField.accepts, hv]

theorem SubField.so_accepts_iff {a : UpdateAction} {v : Word} :
    SubField.so.accepts a v = true ↔ (a = .set ∧ v = 0) ∨ (a = .clearBits ∧ v = 1) := by
  simp [SubField.accepts]

theorem FlowField.cls_accepts_iff {a : UpdateAction} {v : Word} :
    FlowField.cls.accepts a v = true ↔ a = .set ∧ v.toNat ≤ 3 := by
  simp [FlowField.accepts]

theorem SubField.permanent_update {a : UpdateAction} {v : Word} (ha : SubField.permanent.accepts a v = true)
    (r : SubRecord) : SubField.permanent.update a v r = { r with permanent := decide (v = 1) } := by
  obtain ⟨rfl, rfl | rfl⟩ := SubField.permanent_accepts_iff.mp ha <;> rfl

theorem SubField.so_update {a : UpdateAction} {v : Word} (ha : SubField.so.accepts a v = true) (r : SubRecord) :
    SubField.so.update a v r = { r with so := false } := by
  obtain ⟨rfl, rfl⟩ | ⟨rfl, rfl⟩ := SubField.so_accepts_iff.mp ha
  · rfl
  · rw [SubField.update, SubField.get]
    cases r.so <;> rfl

theorem FlowField.cls_update {a : UpdateAction} {v : Word} (ha : FlowField.cls.accepts a v = true) {c : FlowClass}
    (hc : v.toNat = c.code) (r : FlowRecord) : FlowField.cls.update a v r = { r with cls := c } := by
  obtain ⟨rfl, -⟩ := FlowField.cls_accepts_iff.mp ha
  obtain rfl : v = BitVec.ofNat 32 c.code := by rw [← hc, BitVec.ofNat_toNat, BitVec.setWidth_eq]
  cases c <;> rfl

/-! ## An update that passes its checks -/

section
variable {s : State} {ch : Chan} {a : UpdateAction} {v : Word}

theorem subUpdate_outOfRange {f : SubField} (ha : f.accepts a v = false) (h : SubHandle) (g : Option SubGuard) :
    s.subUpdate h g f a v = (s, .plain .outOfRange (blank 3)) := by
  simp [State.subUpdate, ha]

theorem flowUpdate_outOfRange {f : FlowField} (ha : f.accepts a v = false) (h : FlowHandle) (g : Option FlowGuard) :
    s.flowUpdate h g f a v = (s, .plain .outOfRange (blank 3)) := by
  simp [State.flowUpdate, ha]

theorem subUpdate_served {f : SubField} {h : SubHandle} {g : Option SubGuard} {r : SubRecord}
    (ha : f.accepts a v = true) (hs : s.subOf h = some r) (hg : subGuardPasses g r = true) :
    s.subUpdate h g f a v = (s.setSub h.index (f.update a v r),
      .of .ok ((s.setSub h.index (f.update a v r)).nibbleAfter h.index g r)
        [h.word, f.get r, f.get (f.update a v r)]) := by
  simp [State.subUpdate, ha, hs, hg]

theorem flowUpdate_served {f : FlowField} {h : FlowHandle} {g : Option FlowGuard} {r : FlowRecord}
    (ha : f.accepts a v = true) (hs : s.flowOf h = some r) (hg : flowGuardPasses g r = true) :
    s.flowUpdate h g f a v = (s.setFlow h.index (f.update a v r),
      .of .ok ((s.setFlow h.index (f.update a v r)).flowNibbleAfter r.owner.index g r)
        [h.word, f.get r, f.get (f.update a v r)]) := by
  simp [State.flowUpdate, ha, hs, hg]

theorem exec_subUpdate_writes {f : SubField} {h : SubHandle} {g : Option SubGuard} {r r1 : SubRecord}
    (hq : s.claim .stc ch = some (.subUpdate h g f a v)) (ha : f.accepts a v = true) (hs : s.subOf h = some r)
    (hg : subGuardPasses g r = true) (hr : f.update a v r = r1) :
    ∃ t, exec (.subUpdate ch) s = .next t ∧
      s.Answers ch (.of .ok (t.nibbleAfter h.index g r) [h.word, f.get r, f.get r1]) t ∧
      t.stc = ((s.grantTo .stc ch).setSub h.index r1).stc ∧ t.ftc = s.ftc ∧ s.SameTerms t ∧ t.al = s.al := by
  subst hr
  have hu : (s.grantTo .stc ch).subOf h = some r := by simpa using hs
  have hci : s.SameCi ((s.grantTo .stc ch).setSub h.index (f.update a v r)) := by simp [State.SameCi]
  have hterms : s.SameTerms ((s.grantTo .stc ch).setSub h.index (f.update a v r)) := by simp [State.SameTerms]
  obtain ⟨hexec, hanswers⟩ := exec_answers hq (congrArg some (subUpdate_served ha hu hg)) hci
  exact ⟨_, hexec, by simpa using hanswers, by simp, by simp, complete_sameTerms ch _ hterms, by simp⟩

theorem exec_flowUpdate_writes {f : FlowField} {h : FlowHandle} {g : Option FlowGuard} {r : FlowRecord}
    (hq : s.claim .ftc ch = some (.flowUpdate h g f a v)) (ha : f.accepts a v = true) (hs : s.flowOf h = some r)
    (hg : flowGuardPasses g r = true) :
    ∃ t, exec (.flowUpdate ch) s = .next t ∧
      s.Answers ch (.of .ok (t.flowNibbleAfter r.owner.index g r) [h.word, f.get r, f.get (f.update a v r)]) t ∧
      t.ftc = ((s.grantTo .ftc ch).setFlow h.index (f.update a v r)).ftc ∧ t.stc = s.stc ∧ s.SameTerms t ∧
      t.al = s.al := by
  have hu : (s.grantTo .ftc ch).flowOf h = some r := by simpa using hs
  have hci : s.SameCi ((s.grantTo .ftc ch).setFlow h.index (f.update a v r)) := by simp [State.SameCi]
  have hterms : s.SameTerms ((s.grantTo .ftc ch).setFlow h.index (f.update a v r)) := by simp [State.SameTerms]
  obtain ⟨hexec, hanswers⟩ := exec_answers hq (congrArg some (flowUpdate_served ha hu hg)) hci
  exact ⟨_, hexec, by simpa using hanswers, by simp, by simp, complete_sameTerms ch _ hterms, by simp⟩

end

/-- Settles O31: the actions and the checks by their definitions; an update that passes them writes the record that its
field leaves. -/
theorem updatesWriteOneField : Obligations.UpdatesWriteOneField := by
  refine ⟨fun old v => ⟨rfl, satAdd_toNat old v.toNat, rfl, rfl⟩,
    fun a v => ⟨rfl, SubField.permanent_accepts_iff, SubField.so_accepts_iff, rfl, FlowField.cls_accepts_iff⟩,
    fun s ch h g f a v hq => ⟨fun ha => ?_, fun r ha hs hg => ?_⟩,
    fun s ch h g f a v hq => ⟨fun ha => ?_, fun r ha hs hg => ?_⟩⟩
  · exact exec_onlyAnswers hq (congrArg some (subUpdate_outOfRange ha h g))
  · refine exec_subUpdate_writes hq ha hs hg ?_
    cases f
    case userWord => rfl
    case permanent => exact SubField.permanent_update ha r
    case so => exact SubField.so_update ha r
  · exact exec_onlyAnswers hq (congrArg some (flowUpdate_outOfRange ha h g))
  · refine ⟨f.update a v r, ?_, ?_, exec_flowUpdate_writes hq ha hs hg⟩
    · rintro rfl
      rfl
    · rintro c rfl hc
      exact FlowField.cls_update ha hc r

end Sys2Proof.Machine
end

section
/-! PROOFS. What a message spells (O9): its header, its guard part and its body, word by word. -/

namespace Sys2Proof.Machine

/-! ## Codes -/

/-- Two forms of one statement, the second naming an `a`, under the same condition. -/
theorem exists_and_congr {α : Sort*} {A B : Prop} {C : α → Prop} (h : B ↔ ∃ a, C a) :
    A ∧ B ↔ ∃ a, A ∧ C a := by
  rw [h, exists_and_left]

theorem exists₂_and_congr {α β : Sort*} {A B : Prop} {C : α → β → Prop} (h : B ↔ ∃ a b, C a b) :
    A ∧ B ↔ ∃ a b, A ∧ C a b := by
  simp only [h, exists_and_left]

/-- Where a code `x` is read as `a` just when `x = code a`, a request built from what is read names its `a`. -/
theorem map_read_iff {α β : Type} {n : Nat} {read : BitVec n → Option α} {code : α → BitVec n}
    (hread : ∀ x a, read x = some a ↔ x = code a) {x : BitVec n} {f : α → β} {q : β} :
    (read x).map f = some q ↔ ∃ a, x = code a ∧ q = f a := by
  simp only [Option.map_eq_some_iff, hread, eq_comm (b := q)]

/-- The same of a field in which every code has a meaning. -/
theorem read_total_iff {α β : Type} {n : Nat} {read : BitVec n → α} {code : α → BitVec n}
    (hread : ∀ x a, read x = a ↔ x = code a) {x : BitVec n} {f : α → β} {q : β} :
    q = f (read x) ↔ ∃ a, x = code a ∧ q = f a := by
  simp only [← hread, exists_eq_left']

def GuardTest.bits : GuardTest → BitVec 3
  | .eq => 0 | .lt => 1 | .gt => 2 | .allBits => 3 | .anyBits => 4

def SubGuardField.bits : SubGuardField → BitVec 4
  | .state => 0 | .cls => 1 | .flowCount => 2 | .byteAllowance => 3 | .secondsAllowance => 4 | .grantState => 5
  | .closedOccupied => 6 | .permanent => 7 | .userWord => 8

def FlowGuardField.bits : FlowGuardField → BitVec 4
  | .state => 0 | .cls => 1 | .pin => 2 | .userWord => 3

def SubSection.bits : SubSection → BitVec 2
  | .identity => 0 | .charging => 1 | .flows => 2

def SubField.bits : SubField → BitVec 2
  | .userWord => 0 | .permanent => 1 | .so => 2

def FlowField.bits : FlowField → BitVec 2
  | .userWord => 0 | .cls => 1

def UpdateAction.bits : UpdateAction → BitVec 2
  | .set => 0 | .addSat => 1 | .setBits => 2 | .clearBits => 3

def SettlePart.bits : SettlePart → BitVec 2
  | .closed => 1 | .current => 2 | .both => 3

def LinkCommand.bits : LinkCommand → BitVec 3
  | .enable => 0 | .disable => 1 | .drain => 2 | .inject => 3 | .snapshot => 4

def WalkSection.bits : WalkSection → BitVec 2
  | .walker => 0 | .summaries => 1

def WalkKind.bits : WalkKind → BitVec 2
  | .age => 0 | .zone => 1 | .recheck => 2 | .repin => 3

def NoticeFilter.bits : NoticeFilter → BitVec 3
  | .subscriber => 0 | .link => 1 | .walker => 2 | .device => 3 | .any => 4

def OwnerClass.bits : OwnerClass → BitVec 3
  | .gateway => 0 | .cell => 1 | .backhaul => 2 | .billing => 3 | .supervisor => 4

theorem guardTest_iff (x : BitVec 3) (a : GuardTest) : guardTest x = some a ↔ x = a.bits := by
  cases a <;> (revert x; decide)

theorem subGuardField_iff (x : BitVec 4) (a : SubGuardField) : subGuardField x = some a ↔ x = a.bits := by
  cases a <;> (revert x; decide)

theorem flowGuardField_iff (x : BitVec 4) (a : FlowGuardField) : flowGuardField x = some a ↔ x = a.bits := by
  cases a <;> (revert x; decide)

theorem subSection_iff (x : BitVec 2) (a : SubSection) : subSection x = some a ↔ x = a.bits := by
  cases a <;> (revert x; decide)

theorem subField_iff (x : BitVec 2) (a : SubField) : subField x = some a ↔ x = a.bits := by
  cases a <;> (revert x; decide)

theorem flowField_iff (x : BitVec 2) (a : FlowField) : flowField x = some a ↔ x = a.bits := by
  cases a <;> (revert x; decide)

theorem updateAction_iff (x : BitVec 2) (a : UpdateAction) : updateAction x = a ↔ x = a.bits := by
  cases a <;> (revert x; decide)

theorem settlePart_iff (x : BitVec 2) (a : SettlePart) : settlePart x = some a ↔ x = a.bits := by
  cases a <;> (revert x; decide)

theorem linkCommand_iff (x : BitVec 3) (a : LinkCommand) : linkCommand x = some a ↔ x = a.bits := by
  cases a <;> (revert x; decide)

theorem walkSection_iff (x : BitVec 2) (a : WalkSection) : walkSection x = some a ↔ x = a.bits := by
  cases a <;> (revert x; decide)

theorem walkKind_iff (x : BitVec 2) (a : WalkKind) : walkKind x = a ↔ x = a.bits := by
  cases a <;> (revert x; decide)

theorem noticeFilter_iff (x : BitVec 3) (a : NoticeFilter) : noticeFilter x = some a ↔ x = a.bits := by
  cases a <;> (revert x; decide)

theorem ownerClass_iff (x : BitVec 3) (a : OwnerClass) : ownerClass x = some a ↔ x = a.bits := by
  cases a <;> (revert x; decide)

theorem linkOf_iff (x : BitVec 4) (o : Option LinkId) : linkOf x = o ↔ ∀ l, o = some l ↔ x.toNat = l.val := by
  have hread : ∀ l, linkOf x = some l ↔ x.toNat = l.val := fun l => by
    rw [linkOf]
    split
    · simp [Fin.ext_iff]
    · have hl : x.toNat ≠ l.val := by omega
      simp [hl]
  exact ⟨fun h => h ▸ hread, fun h => Option.ext fun l => (hread l).trans (h l).symm⟩

/-! ## The guard part -/

theorem readGuard_iff {φ : Type} {field : BitVec 4 → Option φ} {code : φ → BitVec 4}
    (hfield : ∀ x f, field x = some f ↔ x = code f) {w1 w2 : Word} {g : Guard φ} :
    readGuard field w1 w2 = some g ↔ w1 &&& 0xFFFF78F0 = 0 ∧ ∃ f t, w1.extractLsb' 0 4 = code f ∧
      w1.extractLsb' 8 3 = GuardTest.bits t ∧
      g = { field := f, test := t, negate := w1.getLsbD 15, operand := w2 } := by
  have hmask : ~~~guardMask = 0xFFFF78F0 := rfl
  rw [readGuard, hmask]
  simp [Option.bind_eq_some_iff, hfield, guardTest_iff, Word.field, Word.flag, eq_comm (b := g)]

/-! ## The parts of a message -/

theorem Message.parts_iff {m : Message} {gw : Option (Word × Word)} {body : List Word} :
    m.parts = some (gw, body) ↔
      (m.header.getLsbD 13 = false ∧ gw = none ∧ body = m.words.tail) ∨
      (m.header.getLsbD 13 = true ∧ ∃ g1 g2, m.words.tail = g1 :: g2 :: body ∧ gw = some (g1, g2)) := by
  have hflag : m.guarded = m.header.getLsbD 13 := rfl
  rw [Message.parts, hflag]
  cases m.header.getLsbD 13
  · simp [eq_comm]
  · rcases m.words.tail with _ | ⟨g1, _ | ⟨g2, rest⟩⟩
    · simp
    · simp
    · constructor
      · rintro ⟨⟩
        exact .inr ⟨rfl, g1, g2, rfl, rfl⟩
      · rintro (⟨⟨⟩, -⟩ | ⟨-, _, _, ⟨⟩, rfl⟩)
        rfl

/-- R180: a header without reserved bits, on a message of fitting length. -/
def Message.Headed (m : Message) : Prop := m.unfitting = false ∧ m.header &&& 0x0000C000 = 0

theorem Message.request_iff {m : Message} {k : BitVec 8} {masks : List Word} {q : Request} (hk : m.kind = k)
    (hm : bodyMasks k = some masks) :
    m.request = some q ↔ m.Headed ∧
      ∃ gw body, m.parts = some (gw, body) ∧ fits body masks = true ∧ readRequest k gw body = some q := by
  have hmask : ~~~headerMask = 0x0000C000 := rfl
  rw [Message.request, hk, hm, hmask]
  rcases m.parts with _ | ⟨gw, body⟩
  · simp
  · have hcond : ¬(m.unfitting || (m.header &&& 0x0000C000) != 0 || !fits body masks) = true ↔
        m.Headed ∧ fits body masks = true := by simp [Message.Headed]
    show (if _ then none else readRequest k gw body) = some q ↔ _
    rw [Option.ite_none_left_eq_some, hcond]
    constructor
    · rintro ⟨⟨hheaded, hfit⟩, hq⟩
      exact ⟨hheaded, gw, body, rfl, hfit, hq⟩
    · rintro ⟨hheaded, _, _, ⟨⟩, hfit, hq⟩
      exact ⟨⟨hheaded, hfit⟩, hq⟩

/-! ## The body -/

/-- Some words, one for each mask, have the property `P`. -/
def SomeWords : List Word → (List Word → Prop) → Prop
  | [], P => P []
  | _ :: masks, P => ∃ w, SomeWords masks fun ws => P (w :: ws)

theorem fits_nil_iff {ws : List Word} : fits ws [] = true ↔ ws = [] := by
  cases ws <;> simp [fits]

/-- The reserved bits of the words are 0, word by word, and `P`. -/
def Fitting : List Word → List Word → Prop → Prop
  | [], [], P => P
  | a :: masks, w :: ws, P => w &&& ~~~a = 0 ∧ Fitting masks ws P
  | [], _ :: _, _ => False
  | _ :: _, [], _ => False

theorem fitting_iff {masks ws : List Word} {P : Prop} : Fitting masks ws P ↔ fits ws masks = true ∧ P := by
  induction masks generalizing ws with
  | nil => cases ws <;> simp [Fitting, fits]
  | cons a masks ih => cases ws <;> simp [Fitting, fits, ih, and_assoc]

/-- A word without reserved bits asks for nothing. -/
theorem whole_congr {w : Word} {P Q : Prop} (h : P ↔ Q) : w &&& ~~~wholeMask = 0 ∧ P ↔ Q := by
  simpa [wholeMask] using h

/-- A body that fits supplies the words. -/
theorem someWords_of_fits {masks ws : List Word} {P : List Word → Prop} (hfit : fits ws masks = true) (h : P ws) :
    SomeWords masks P := by
  induction masks generalizing ws P with
  | nil =>
    obtain rfl := fits_nil_iff.mp hfit
    exact h
  | cons a masks ih =>
    cases ws with
    | nil => cases hfit
    | cons w ws => exact ⟨w, ih (Bool.and_eq_true_iff.mp hfit).2 h⟩

theorem exists_of_someWords {masks : List Word} {P : List Word → Prop} (h : SomeWords masks P) : ∃ ws, P ws := by
  induction masks generalizing P with
  | nil => exact ⟨[], h⟩
  | cons a masks ih =>
    obtain ⟨w, h⟩ := h
    obtain ⟨ws, h⟩ := ih h
    exact ⟨w :: ws, h⟩

/-- The words of a body that fits, named one by one. -/
theorem fits_and_iff {masks ws : List Word} {P : List Word → Prop} : fits ws masks = true ∧ P ws ↔
    SomeWords masks fun body => ws = body ∧ Fitting masks body (P body) := by
  constructor
  · rintro ⟨hfit, h⟩
    exact someWords_of_fits hfit ⟨rfl, fitting_iff.mpr ⟨hfit, h⟩⟩
  · intro h
    obtain ⟨body, rfl, h⟩ := exists_of_someWords h
    exact fitting_iff.mp h

/-! ## Messages of a known kind -/

section
variable {m : Message} {k : BitVec 8} {masks : List Word} {q : Request} (hk : m.kind = k)
  (hm : bodyMasks k = some masks)
include hk hm

/-- A kind that takes no guard. -/
theorem Message.plain_iff (hs : guardsSub k = false) (hf : guardsFlow k = false) {P : Prop}
    (hP : (SomeWords masks fun body =>
      m.words.tail = body ∧ Fitting masks body (readPlain k body = some q)) ↔ P) :
    m.request = some q ↔ m.Headed ∧ m.header.getLsbD 13 = false ∧ P := by
  have hread : ∀ gw body, readRequest k gw body = some q ↔ gw = none ∧ readPlain k body = some q := by
    rintro (_ | gw) body <;> simp [readRequest, hs, hf]
  rw [Message.request_iff hk hm, ← hP, ← fits_and_iff]
  simp only [Message.parts_iff, hread]
  refine and_congr_right fun _ => ⟨?_, fun ⟨hflag, hfit, hq⟩ => ⟨none, _, .inl ⟨hflag, rfl, rfl⟩, hfit, rfl, hq⟩⟩
  rintro ⟨gw, body, ⟨hflag, rfl, rfl⟩ | ⟨-, g1, g2, -, rfl⟩, hfit, hgw, hq⟩
  · exact ⟨hflag, hfit, hq⟩
  · cases hgw

/-- A kind that may carry a guard on the fields that `field` reads. -/
theorem Message.guarded_iff {φ : Type} {field : BitVec 4 → Option φ} {code : φ → BitVec 4}
    (hfield : ∀ x f, field x = some f ↔ x = code f) {read : Option (Guard φ) → List Word → Option Request}
    (hread : ∀ gw body, readRequest k gw body = (optionalGuard field gw).bind fun g => read g body)
    {P : Option (Guard φ) → List Word → Prop}
    (hP : ∀ g ws, (SomeWords masks fun body => ws = body ∧ Fitting masks body (read g body = some q)) ↔ P g ws) :
    m.request = some q ↔ m.Headed ∧
      ((m.header.getLsbD 13 = false ∧ P none m.words.tail) ∨
        (m.header.getLsbD 13 = true ∧ ∃ g1 g2 body f t, m.words.tail = g1 :: g2 :: body ∧ g1 &&& 0xFFFF78F0 = 0 ∧
          g1.extractLsb' 0 4 = code f ∧ g1.extractLsb' 8 3 = GuardTest.bits t ∧
          P (some { field := f, test := t, negate := g1.getLsbD 15, operand := g2 }) body)) := by
  rw [Message.request_iff hk hm]
  simp only [← hP, ← fits_and_iff, Message.parts_iff, hread]
  refine and_congr_right fun _ => ⟨?_, ?_⟩
  · rintro ⟨gw, body, ⟨hflag, rfl, rfl⟩ | ⟨hflag, g1, g2, hws, rfl⟩, hfit, hq⟩
    · exact .inl ⟨hflag, hfit, hq⟩
    · obtain ⟨_, hg, hq⟩ := Option.bind_eq_some_iff.mp hq
      obtain ⟨g, hread, rfl⟩ := Option.map_eq_some_iff.mp hg
      obtain ⟨hres, f, t, hf, ht, rfl⟩ := (readGuard_iff hfield).mp hread
      exact .inr ⟨hflag, g1, g2, body, f, t, hws, hres, hf, ht, hfit, hq⟩
  · rintro (⟨hflag, hfit, hq⟩ | ⟨hflag, g1, g2, body, f, t, hws, hres, hf, ht, hfit, hq⟩)
    · exact ⟨none, _, .inl ⟨hflag, rfl, rfl⟩, hfit, hq⟩
    · refine ⟨some (g1, g2), body, .inr ⟨hflag, g1, g2, hws, rfl⟩, hfit, ?_⟩
      rw [optionalGuard, (readGuard_iff hfield).mpr ⟨hres, f, t, hf, ht, rfl⟩]
      exact hq

end

theorem readRequest_sub {k : BitVec 8} (hs : guardsSub k = true) (gw : Option (Word × Word)) (body : List Word) :
    readRequest k gw body = (optionalGuard subGuardField gw).bind fun g => readSubGuarded k g body := by
  simp [readRequest, hs]

theorem readRequest_flow {k : BitVec 8} (hs : guardsSub k = false) (hf : guardsFlow k = true)
    (gw : Option (Word × Word)) (body : List Word) :
    readRequest k gw body = (optionalGuard flowGuardField gw).bind fun g => readFlowGuarded k g body := by
  simp [readRequest, hs, hf]

theorem some_eq_iff {α : Type} {x q : α} : some x = some q ↔ q = x := by
  rw [Option.some_inj, eq_comm]

/-! ## Reading the bodies of single kinds

Where the last field names an alternative, no later reader takes a body that this one refuses. -/

theorem orElse_none {α : Type} (x : Option α) : (x <|> none) = x := by
  cases x <;> rfl

theorem readPlain_linkAdmin (w1 : Word) : readPlain 0x21 [w1] =
    (linkCommand (w1.extractLsb' 8 3)).map fun c => .linkAdmin (w1.extractLsb' 0 4) c :=
  orElse_none _

theorem readPlain_walkStatus (w1 : Word) :
    readPlain 0x41 [w1] = (walkSection (w1.extractLsb' 0 2)).map .walkStatus :=
  orElse_none _

theorem readPlain_noticeFetch (w1 : Word) :
    readPlain 0x50 [w1] = (noticeFilter (w1.extractLsb' 0 3)).map .noticeFetch :=
  orElse_none _

/-- The body of an update: a field's code, read by `read`, and an action's. -/
theorem map_update_iff {α : Type} {read : BitVec 2 → Option α} {code : α → BitVec 2}
    (hread : ∀ x a, read x = some a ↔ x = code a) {x y : BitVec 2} {f : α → UpdateAction → Request} {q : Request} :
    ((read x).map fun a => f a (updateAction y)) = some q ↔
      ∃ a b, x = code a ∧ y = UpdateAction.bits b ∧ q = f a b := by
  rw [map_read_iff hread]
  exact exists_congr fun a => exists_and_congr (read_total_iff updateAction_iff)

theorem linkConfig_iff {n x : BitVec 4} {c : LinkConfig} {q : Request} :
    some (Request.linkConfig n { c with fallback := linkOf x } x) = some q ↔
      ∃ fallback, (∀ l, fallback = some l ↔ x.toNat = l.val) ∧ q = .linkConfig n { c with fallback := fallback } x := by
  simp only [← linkOf_iff, exists_eq_left', some_eq_iff]

theorem Message.request_unknown {m : Message}
    (hk : m.kind.toNat ∉ [1, 2, 3, 4, 5, 6, 7, 8, 0x10, 0x11, 0x12, 0x13, 0x14, 0x15, 0x20, 0x21, 0x22, 0x23, 0x30,
      0x31, 0x32, 0x33, 0x34, 0x35, 0x36, 0x37, 0x40, 0x41, 0x42, 0x50, 0x51, 0x52, 0x60, 0x61, 0x62, 0x63, 0x64]) :
    m.request = none := by
  have hm : bodyMasks m.kind = none := by
    generalize m.kind = k at hk
    unfold bodyMasks
    split
    case h_38 => rfl
    all_goals exact absurd (by decide) hk
  rw [Message.request, hm]

end Sys2Proof.Machine
end

section
/-! PROOFS. The checks at the CI, the dispatch of a message by what they find, and the settlement of O9. -/

namespace Sys2Proof.Machine

/-! ## The checks at the CI -/

theorem Message.heldBack_iff {m : Message} :
    m.heldBack = true ↔ m.kind ≠ 0x08 ∧ m.kind ≠ 0x60 ∧ m.kind ≠ 0x61 := by
  simp [Message.heldBack, Message.posted, and_assoc]

section
variable {c : ChannelRecord} {ch : Chan} {m : Message}

theorem check_deferred {f : HeldFault} (hf : c.pendingFault = some f) (hm : m.heldBack = true) :
    c.check ch m = .deferred := by
  simp [ChannelRecord.check, hf, hm]

/-- The held fault does not stop the message. -/
theorem deferred_false (h : c.pendingFault = none ∨ m.kind = 0x08 ∨ m.kind = 0x60 ∨ m.kind = 0x61) :
    (c.pendingFault.isSome && m.heldBack) = false := by
  rw [← Bool.not_eq_true, Bool.and_eq_true, Message.heldBack_iff, Option.isSome_iff_ne_none]
  tauto

theorem check_passes_of (hd : (c.pendingFault.isSome && m.heldBack) = false) {r : Request} (hr : m.request = some r)
    (hp : permitted c.ownerClass ch r = true) : c.check ch m = .passes r := by
  simp [ChannelRecord.check, hd, hr, hp]

theorem check_fails_of (hd : (c.pendingFault.isSome && m.heldBack) = false) {status : Status}
    (h : (m.request = none ∧ status = .malformed) ∨
      ∃ r, m.request = some r ∧ permitted c.ownerClass ch r = false ∧ status = .notPermitted) :
    c.check ch m = .fails status := by
  obtain ⟨hr, rfl⟩ | ⟨r, hr, hp, rfl⟩ := h
  · simp [ChannelRecord.check, hd, hr]
  · simp [ChannelRecord.check, hd, hr, hp]

end

/-! ## Dispatch -/

theorem exec_dispatch {s : State} {ch : Chan} {m : Message} {rest : List Message} (hheld : s.resetHeld = false)
    (hready : s.al.ready = true) (hidle : s.ci.softReset = .idle) (hout : (s.chan ch).outstanding = none)
    (hm : (s.chan ch).requests = m :: rest) (hroom : m.kind = 0x08 ∨ (s.chan ch).responses.length < 16) :
    exec (.dispatch ch) s = .next (s.dispatch ch m) := by
  have hrun : s.running = true := by simp [State.running, hheld, hready, hidle]
  have hsend : (m.posted || decide ((s.chan ch).responses.length < Config.fifoDepth)) = true := by
    rw [Bool.or_eq_true, decide_eq_true_iff]
    exact hroom.imp_left beq_iff_eq.mpr
  have hd : s.dispatchable ch = some m := by simp [State.dispatchable, hrun, hidle, hout, hm, hsend]
  refine congrArg Host.Outcome.next ?_
  rw [hd]

theorem dispatch_otherwise_same (s : State) (ch : Chan) (m : Message) :
    s.SameBlocks (s.dispatch ch m) ∧ s.SameShell (s.dispatch ch m) ∧
      ∀ c, c ≠ ch → (s.dispatch ch m).chan c = s.chan c := by
  refine ⟨by simp [State.dispatch, State.SameBlocks], by simp [State.dispatch, State.SameShell], fun c hc => ?_⟩
  rw [State.dispatch, setChan_chan, if_neg hc]

/-- What stands on the channel once message `m`, the head of its FIFO, is dispatched. -/
theorem dispatch_chan {s : State} {ch : Chan} {m : Message} {rest : List Message} {x : CiCheck}
    (hm : (s.chan ch).requests = m :: rest) (hx : (s.chan ch).check ch m = x) :
    (s.dispatch ch m).chan ch = ({ s.chan ch with requests := rest } : ChannelRecord).dispatched m x := by
  rw [State.dispatch, setChan_chan, if_pos rfl, hm, ← hx]
  rfl

theorem dispatched_fails_answered {c : ChannelRecord} {m : Message} (hm : m.kind ≠ 0x08) (status : Status) :
    c.dispatched m (.fails status) = c.answer m (.plain status []) := by
  have hp : m.posted = false := by simpa [Message.posted] using hm
  simp [ChannelRecord.dispatched, hp]

theorem dispatched_fails_posted {c : ChannelRecord} {m : Message} (hm : m.kind = 0x08) (status : Status) :
    c.dispatched m (.fails status) = c.recordFault { status := status, kind := m.kind, tag := m.tag } := by
  simp [ChannelRecord.dispatched, Message.posted, hm]

theorem dispatched_deferred {c : ChannelRecord} {f : HeldFault} (hf : c.pendingFault = some f) (m : Message) :
    c.dispatched m .deferred = c.answer m (.plain .deferredFault
      [put 0 f.status.code ||| put 8 f.kind.toNat ||| put 16 f.tag.toNat, put 0 c.faultOverflow.toNat]) := by
  rw [ChannelRecord.dispatched, ChannelRecord.deferredReply, hf, faultWord]

/-! ## The settlement -/

/-- Settles O9: the table of permissions, kind by kind; for each kind the words that its masks and its reader ask for,
each named in turn; and the dispatch by what the checks at the CI find. -/
theorem dispatchMakesTheCiChecks : Obligations.DispatchMakesTheCiChecks := by
  refine ⟨?permissions, fun m q => ⟨rfl, rfl, Message.request_kind, Message.request_unknown, ?attach, ?detach, ?subFind,
      ?subRead, ?subUpdate, ?grant, ?settle, ?usagePost, ?flowOpen, ?flowClose, ?flowFind, ?charge, ?flowRead,
      ?flowUpdate, ?linkReport, ?linkAdmin, ?linkConfig, ?linkRead, ?zoneChange, ?zoneDefine, ?zoneRead, ?agreementSet,
      ?agreementRemove, ?agreementFind, ?tariffSet, ?tariffRead, ?age, ?walkStatus, ?walkAbort, ?noticeFetch,
      ?deviceStatus, ?deviceConfig, ?channelStatus, ?clearFault, ?channelSet, ?channelReset, ?softReset⟩,
    fun s ch m rest hheld hready hidle hout hm hroom => ?dispatch⟩
  case permissions =>
    intro c ch q
    cases q
    case subUpdate h g f a v => cases f <;> simp [permitted, subFieldPermitted]
    case linkAdmin link command => cases command <;> simp [permitted]
    case subFind | subRead => cases c <;> simp [permitted]
    case channelStatus n => simp [permitted, or_comm]
    all_goals simp [permitted]
  case age | deviceStatus | clearFault | softReset =>
    exact fun hk => Message.plain_iff hk rfl rfl rfl <| and_congr_right' some_eq_iff
  case linkReport | linkRead | zoneChange | zoneDefine | zoneRead | agreementRemove | agreementFind | tariffRead |
      channelStatus | channelReset =>
    exact fun hk => Message.plain_iff hk rfl rfl rfl <| exists_congr fun _ =>
      and_congr_right' <| and_congr_right' some_eq_iff
  case attach =>
    exact fun hk => Message.plain_iff hk rfl rfl rfl <| exists₄_congr fun _ _ _ _ =>
      and_congr_right' <| whole_congr <| whole_congr <| and_congr_right' <| and_congr_right' some_eq_iff
  case subFind =>
    exact fun hk => Message.plain_iff hk rfl rfl rfl <| exists₂_congr fun _ _ =>
      and_congr_right' <| whole_congr <| whole_congr some_eq_iff
  case usagePost =>
    exact fun hk => Message.plain_iff hk rfl rfl rfl <| exists₄_congr fun _ _ _ _ =>
      and_congr_right' <| and_congr_right' <| and_congr_right' <| whole_congr <| whole_congr some_eq_iff
  case flowOpen | flowFind =>
    exact fun hk => Message.plain_iff hk rfl rfl rfl <| exists₄_congr fun _ _ _ _ => exists₃_congr fun _ _ _ =>
      and_congr_right' <| and_congr_right' <| whole_congr <| whole_congr <| whole_congr <| whole_congr <|
        whole_congr <| and_congr_right' some_eq_iff
  case charge =>
    exact fun hk => Message.plain_iff hk rfl rfl rfl <| exists₂_congr fun _ _ =>
      and_congr_right' <| and_congr_right' <| and_congr_right' some_eq_iff
  case linkConfig =>
    exact fun hk => Message.plain_iff hk rfl rfl rfl <| exists₄_congr fun _ _ _ _ =>
      exists_and_congr <| exists_and_congr <| exists_and_congr <| exists_and_congr <| exists_and_congr <|
        linkConfig_iff (c := linkConfigOf _ _ _)
  case agreementSet =>
    exact fun hk => Message.plain_iff hk rfl rfl rfl <| exists₂_congr fun _ _ =>
      and_congr_right' <| and_congr_right' <| whole_congr some_eq_iff
  case tariffSet =>
    exact fun hk => Message.plain_iff hk rfl rfl rfl <| exists₄_congr fun _ _ _ _ => exists₃_congr fun _ _ _ =>
      and_congr_right' <| and_congr_right' <| whole_congr <| whole_congr <| whole_congr <| whole_congr <|
        whole_congr <| whole_congr some_eq_iff
  case deviceConfig =>
    exact fun hk => Message.plain_iff hk rfl rfl rfl <| exists₂_congr fun _ _ =>
      and_congr_right' <| whole_congr <| and_congr_right' some_eq_iff
  case linkAdmin =>
    exact fun hk => Message.plain_iff hk rfl rfl rfl <| exists_congr fun _ => exists_and_congr <| exists_and_congr <|
      readPlain_linkAdmin _ ▸ map_read_iff linkCommand_iff
  case walkStatus =>
    exact fun hk => Message.plain_iff hk rfl rfl rfl <| exists_congr fun _ => exists_and_congr <| exists_and_congr <|
      readPlain_walkStatus _ ▸ map_read_iff walkSection_iff
  case noticeFetch =>
    exact fun hk => Message.plain_iff hk rfl rfl rfl <| exists_congr fun _ => exists_and_congr <| exists_and_congr <|
      readPlain_noticeFetch _ ▸ map_read_iff noticeFilter_iff
  case walkAbort =>
    exact fun hk => Message.plain_iff hk rfl rfl rfl <| exists_congr fun _ => exists_and_congr <| exists_and_congr <|
      some_eq_iff.trans <| read_total_iff walkKind_iff (f := fun k => Request.walkAbort k _)
  case channelSet =>
    exact fun hk => Message.plain_iff hk rfl rfl rfl <| exists_congr fun _ => exists_and_congr <| exists_and_congr <|
      map_read_iff ownerClass_iff
  case detach =>
    exact fun hk => Message.guarded_iff hk rfl subGuardField_iff (readRequest_sub rfl) fun _ _ =>
      exists_congr fun _ => and_congr_right' <| and_congr_right' some_eq_iff
  case subRead =>
    exact fun hk => Message.guarded_iff hk rfl subGuardField_iff (readRequest_sub rfl) fun _ _ =>
      exists₂_congr fun _ _ => exists_and_congr <| exists_and_congr <| exists_and_congr <| map_read_iff subSection_iff
  case subUpdate =>
    exact fun hk => Message.guarded_iff hk rfl subGuardField_iff (readRequest_sub rfl) fun _ _ =>
      exists₃_congr fun _ _ _ => exists₂_and_congr <| exists₂_and_congr <| exists₂_and_congr <| whole_congr <|
        map_update_iff subField_iff (f := fun f a => .subUpdate _ _ f a _)
  case grant =>
    exact fun hk => Message.guarded_iff hk rfl subGuardField_iff (readRequest_sub rfl) fun _ _ =>
      exists₃_congr fun _ _ _ => and_congr_right' <| and_congr_right' <| whole_congr <| whole_congr some_eq_iff
  case settle =>
    exact fun hk => Message.guarded_iff hk rfl subGuardField_iff (readRequest_sub rfl) fun _ _ =>
      exists₂_congr fun _ _ => exists_and_congr <| exists_and_congr <| exists_and_congr <| map_read_iff settlePart_iff
  case flowClose | flowRead =>
    exact fun hk => Message.guarded_iff hk rfl flowGuardField_iff (readRequest_flow rfl rfl) fun _ _ =>
      exists_congr fun _ => and_congr_right' <| and_congr_right' some_eq_iff
  case flowUpdate =>
    exact fun hk => Message.guarded_iff hk rfl flowGuardField_iff (readRequest_flow rfl rfl) fun _ _ =>
      exists₃_congr fun _ _ _ => exists₂_and_congr <| exists₂_and_congr <| exists₂_and_congr <| whole_congr <|
        map_update_iff flowField_iff (f := fun f a => .flowUpdate _ _ f a _)
  case dispatch =>
    obtain ⟨hblocks, hshell, hother⟩ := dispatch_otherwise_same s ch m
    refine ⟨_, exec_dispatch hheld hready hidle hout hm hroom, hblocks, hshell, hother, fun f hf h8 h60 h61 => ?_,
      fun hfree => ?_⟩
    · have hc := check_deferred (ch := ch) hf (Message.heldBack_iff.mpr ⟨h8, h60, h61⟩)
      exact (dispatch_chan hm hc).trans (dispatched_deferred (c := { s.chan ch with requests := rest }) hf m)
    · have hd := deferred_false hfree
      refine ⟨fun r hr hp => dispatch_chan hm (check_passes_of hd hr hp), fun status hstatus => ?_⟩
      have ht := dispatch_chan hm (check_fails_of hd hstatus)
      exact ⟨fun h8 => ht.trans (dispatched_fails_answered h8 status),
        fun h8 => ht.trans (dispatched_fails_posted h8 status)⟩

end Sys2Proof.Machine
end

section
/-! PROOFS. The channels stay sound (O57): the moves that reach the CI keep them by their own lemmas, every other move
leaves the CI as it was. -/

namespace Sys2Proof.Machine

theorem reset_channelsSound : State.reset.ChannelsSound := by
  have hbounded : ∀ ch, (State.reset.chan ch).Bounded := by
    unfold ChannelRecord.Bounded
    decide
  exact ⟨hbounded, by decide, trivial⟩

section
variable {s : State} {ch : Chan} {q : Request} {k : Taken}

/-- A request that is answered in its claim is neither posted nor a SOFT_RESET. -/
theorem State.served_answered (hk : s.served ch q = some k) : q.kind ≠ 0x08 ∧ q ≠ .softReset := by
  cases q
  case usagePost | softReset => cases hk
  all_goals exact ⟨by simp [Request.kind], nofun⟩

/-- The owners other than the CI leave the CI as it was until the completion. -/
theorem State.served_ci (hk : s.served ch q = some k) (ho : q.owner ≠ .ci) : k.1.ci = s.ci := by
  cases q
  case usagePost | deviceConfig | softReset => cases hk
  case channelStatus | clearFault | channelSet | channelReset => exact absurd rfl ho
  case linkAdmin code a =>
    cases a
    all_goals
      obtain rfl := Option.some.inj hk
      simp
  all_goals
    obtain rfl := Option.some.inj hk
    simp

theorem State.served_keepsChannels (hk : s.served ch q = some k) (h : s.ChannelsSound) : k.1.ChannelsSound := by
  cases q
  case softReset => cases hk
  case channelStatus => obtain rfl := Option.some.inj hk; exact h
  case clearFault => obtain rfl := Option.some.inj hk; exact h.clearFault ch
  case channelSet code cls quiet => obtain rfl := Option.some.inj hk; exact h.channelSet code cls quiet
  case channelReset code => obtain rfl := Option.some.inj hk; exact h.channelReset ch code
  all_goals exact h.of_ci (State.served_ci hk (by simp [Request.owner]))

/-- The operation of a request leaves it outstanding on its channel; the completion alone takes it away. -/
theorem State.served_outstanding (hk : s.served ch q = some k) :
    (k.1.chan ch).outstanding = (s.chan ch).outstanding := by
  cases q
  case softReset => cases hk
  case channelStatus => obtain rfl := Option.some.inj hk; rfl
  case clearFault => obtain rfl := Option.some.inj hk; simp [State.clearFault, ChannelRecord.faultCleared]
  case channelSet code cls quiet => obtain rfl := Option.some.inj hk; exact channelSet_outstanding s ch code cls quiet
  case channelReset code => obtain rfl := Option.some.inj hk; exact channelReset_outstanding s ch code
  all_goals rw [State.chan, State.chan, State.served_ci hk (by simp [Request.owner])]

end

theorem State.Moves.keepsChannels {s t : State} (hm : s.Moves t) (h : s.ChannelsSound) : t.ChannelsSound := by
  cases hm
  case served o ch q k hq hk =>
    obtain ⟨hanswered, hreset⟩ := State.served_answered hk
    have hkept := State.served_keepsChannels hk (h.of_ci (by simp))
    exact hkept.finish hq (by simp [State.served_outstanding hk]) hanswered hreset
  case posted ch r code bytes seconds hq =>
    have hci : ((s.grantTo .stc ch).usagePost r code bytes seconds).1.ci = s.ci := by simp
    obtain ⟨out, hout, hrequest⟩ := State.claim_outstanding hq
    refine (h.of_ci hci).completePosted (out := out) _ ?_ (hrequest ▸ nofun)
    rw [State.chan, hci]
    exact hout
  case configured hq _ => exact h.taken hq (by simp) (by simp [Request.kind]) nofun
  case softResetTaken hq => exact h.takeSoftReset hq
  case clearingBegun hc => exact h.beginClearing _ hc
  case clearingEnded hp => exact h.endClearing _ hp
  case powerOn => exact reset_channelsSound.of_ci rfl
  case stored bytes _ => exact h.storeBytes bytes
  case submitted bytes _ => exact ((h.storeBytes bytes).submitAll bytes).releaseAll bytes
  case released bytes _ => exact (h.storeBytes bytes).releaseAll bytes
  case dispatched hd => exact h.dispatch hd
  all_goals exact h.of_ci (by simp)

/-- Settles O57: each move keeps the channels sound, and a step is a move on the state with its command taken, whose
channels are those of the state. -/
theorem channelsStaySound : Obligations.ChannelsStaySound := by
  intro s t hstep h
  obtain rfl | ⟨rest, hm⟩ := step_moves hstep
  · exact h
  · exact hm.keepsChannels (h.of_ci rfl)

end Sys2Proof.Machine
end

section
/-! PROOFS. The writes to the windows: which row a transaction is by the offsets it covers, the writes that submit
nothing (O7), and the submissions (O8). -/

namespace Sys2Proof.Machine

/-! ## The offsets that a transaction covers (R179) -/

theorem placeOf_request_zero_iff {offset : Nat} {ch : Chan} :
    placeOf offset = .request ch 0 ↔ 0x040 * ch.val ≤ offset ∧ offset ≤ 0x040 * ch.val + 3 := by
  have hch := ch.isLt
  unfold placeOf
  split
  · simp only [Place.request.injEq, Fin.ext_iff, Fin.ofNat, Fin.coe_ofNat_eq_mod]
    omega
  · split
    all_goals
      simp only [reduceCtorEq, false_iff]
      omega

theorem placeOf_response_zero_iff {offset : Nat} {ch : Chan} :
    placeOf offset = .response ch 0 ↔
      0x200 + 0x040 * ch.val ≤ offset ∧ offset ≤ 0x200 + 0x040 * ch.val + 3 := by
  have hch := ch.isLt
  unfold placeOf
  split
  · simp only [reduceCtorEq, false_iff]
    omega
  · split
    · simp only [Place.response.injEq, Fin.ext_iff, Fin.ofNat, Fin.coe_ofNat_eq_mod]
      omega
    · simp only [reduceCtorEq, false_iff]
      omega

theorem stages_iff {offset : Nat} : stages offset = true ↔ offset < 0x200 := by
  by_cases hrequest : offset < 0x200
  · simp [stages, placeOf, hrequest]
  · by_cases hresponse : offset < 0x400 <;> simp [stages, placeOf, hrequest, hresponse]

theorem submitsOn_eq (bytes : List Host.Cell) (ch : Chan) :
    submitsOn bytes ch = bytes.any fun b => decide (0x040 * ch.val ≤ b.1 ∧ b.1 ≤ 0x040 * ch.val + 3) := by
  simp only [submitsOn, ← placeOf_request_zero_iff]
  rfl

theorem releasesOn_eq (bytes : List Host.Cell) (ch : Chan) :
    releasesOn bytes ch = bytes.any fun b =>
      decide (0x200 + 0x040 * ch.val ≤ b.1 ∧ b.1 ≤ 0x200 + 0x040 * ch.val + 3) := by
  simp only [releasesOn, ← placeOf_response_zero_iff]
  rfl

theorem anyStages_eq (bytes : List Host.Cell) :
    (bytes.any fun b => stages b.1) = bytes.any fun b => decide (b.1 < 0x200) := by
  simp only [← stages_iff, Bool.decide_eq_true]

/-! ## The row of a transaction (log 10) -/

section
variable {s : State} {bytes : List Host.Cell} {n : Chan}

theorem writeRow_submit (h : submitsOn bytes n = true) : writeRow bytes = .submit :=
  if_pos (List.any_eq_true.mpr ⟨n, List.mem_finRange n, h⟩)

theorem anyChannel_eq_false {covers : Chan → Bool} (h : ∀ ch, covers ch = false) :
    (List.finRange 8).any covers = false := by
  simpa using h

theorem writeRow_release (hsubmits : ∀ ch, submitsOn bytes ch = false) (h : releasesOn bytes n = true) :
    writeRow bytes = .release := by
  have hany : (List.finRange 8).any (releasesOn bytes) = true := List.any_eq_true.mpr ⟨n, List.mem_finRange n, h⟩
  simp [writeRow, anyChannel_eq_false hsubmits, hany]

theorem writeRow_otherwise (hsubmits : ∀ ch, submitsOn bytes ch = false)
    (hreleases : ∀ ch, releasesOn bytes ch = false) :
    writeRow bytes = if bytes.any fun b => stages b.1 then .staging else .ignored := by
  simp [writeRow, anyChannel_eq_false hsubmits, anyChannel_eq_false hreleases]

theorem accepts_of_row {row : WriteRow} (hheld : s.resetHeld = false) (hrow : writeRow bytes = row) :
    s.accepts row bytes = true := by
  simp [State.accepts, hheld, hrow]

/-- Log 3: no transaction is accepted while RESET_N is asserted. -/
theorem accepts_of_resetHeld (hheld : s.resetHeld = true) (row : WriteRow) : s.accepts row bytes = false := by
  simp [State.accepts, hheld]

/-! ## What each row leaves -/

theorem exec_writes_of_resetHeld (hheld : s.resetHeld = true) (bytes : List Host.Cell) :
    exec (.stagingWrite bytes) s = .next s ∧ exec (.requestSubmit bytes) s = .next s ∧
      exec (.responseRelease bytes) s = .next s ∧ exec (.ignoredWrite bytes) s = .next s := by
  have hno := accepts_of_resetHeld (bytes := bytes) hheld
  refine ⟨?_, ?_, ?_, ?_⟩
  all_goals
    refine congrArg Host.Outcome.next ?_
    rw [hno]
    rfl

theorem exec_stagingWrite (h : s.accepts .staging bytes = true) :
    exec (.stagingWrite bytes) s = .next (s.storeBytes bytes) :=
  congrArg Host.Outcome.next (if_pos h)

theorem exec_requestSubmit (h : s.accepts .submit bytes = true) :
    exec (.requestSubmit bytes) s = .next (((s.storeBytes bytes).submitAll bytes).releaseAll bytes) :=
  congrArg Host.Outcome.next (if_pos h)

theorem exec_responseRelease (h : s.accepts .release bytes = true) :
    exec (.responseRelease bytes) s = .next ((s.storeBytes bytes).releaseAll bytes) :=
  congrArg Host.Outcome.next (if_pos h)

theorem exec_ignoredWrite (h : s.accepts .ignored bytes = true) :
    exec (.ignoredWrite bytes) s = .next (s.storeBytes bytes) :=
  congrArg Host.Outcome.next (if_pos h)

theorem storeByte_of_not_stages {b : Host.Cell} (h : stages b.1 = false) : s.storeByte b = s := by
  unfold stages at h
  unfold State.storeByte
  split at h <;> simp_all

theorem storeBytes_of_not_stages (h : ∀ b ∈ bytes, stages b.1 = false) : s.storeBytes bytes = s := by
  induction bytes with
  | nil => rfl
  | cons b rest ih =>
    obtain ⟨hb, hrest⟩ := List.forall_mem_cons.mp h
    have hstep : s.storeBytes (b :: rest) = (s.storeByte b).storeBytes rest := rfl
    rw [hstep, storeByte_of_not_stages hb, ih hrest]

theorem releaseAll_staging (s : State) (bytes : List Host.Cell) (ch : Chan) :
    ((s.releaseAll bytes).chan ch).staging = (s.chan ch).staging := by
  rw [releaseAll_chan]
  split <;> rfl

/-- The bytes that stand in the staging words of one state stand in those of another with the same staging words. -/
theorem State.Stores.of_staging {t u : State} (h : s.Stores bytes t)
    (hstaging : ∀ ch, (u.chan ch).staging = (t.chan ch).staging) : s.Stores bytes u := fun off hoff =>
  (readByte_of_staging hoff hstaging).trans (h off hoff)

end

/-- Settles O7: the offsets covered give the row, and each row is the storing of the bytes and, for a release, the
releases. -/
theorem writesThatSubmitNothing : Obligations.WritesThatSubmitNothing := by
  intro s bytes
  simp only [← submitsOn_eq, ← releasesOn_eq, ← anyStages_eq]
  refine ⟨fun hheld => ?held, fun hheld hsubmits =>
    ⟨fun hreleases hstages => ?staging, fun n hreleases => ?release, fun hreleases hstages => ?ignored⟩⟩
  case held =>
    obtain ⟨hstaging, -, hrelease, hignored⟩ := exec_writes_of_resetHeld hheld bytes
    exact ⟨hstaging, hrelease, hignored⟩
  case staging =>
    have hrow : writeRow bytes = .staging := (writeRow_otherwise hsubmits hreleases).trans (if_pos hstages)
    exact ⟨_, exec_stagingWrite (accepts_of_row hheld hrow), storeBytes_stores s bytes, storeBytes_chan s bytes,
      by simp [State.SameBlocks], by simp [State.SameShell]⟩
  case release =>
    have hrow := writeRow_release hsubmits hreleases
    refine ⟨_, exec_responseRelease (accepts_of_row hheld hrow), fun ch => ?_,
      (storeBytes_stores s bytes).of_staging (releaseAll_staging _ bytes), by simp [State.SameBlocks],
      by simp [State.SameShell]⟩
    rw [releaseAll_chan, storeBytes_chan]
    split <;> rfl
  case ignored =>
    have hrow : writeRow bytes = .ignored :=
      (writeRow_otherwise hsubmits hreleases).trans (if_neg (Bool.eq_false_iff.mp hstages))
    have hnone : ∀ b ∈ bytes, stages b.1 = false := by simpa using hstages
    rw [exec_ignoredWrite (accepts_of_row hheld hrow), storeBytes_of_not_stages hnone]

/-! ## Submissions -/

section
variable {s : State} {bytes : List Host.Cell}

theorem message_of_staging {c d : ChannelRecord} (h : c.staging = d.staging) : c.message = d.message := by
  rw [ChannelRecord.message, ChannelRecord.message, h]

section
variable {c : ChannelRecord}

theorem message_fits (h : 1 ≤ headerCount c.staging[0] ∧ headerCount c.staging[0] ≤ 16) :
    c.message = { words := c.staging.toList.take (headerCount c.staging[0]), unfitting := false } :=
  if_pos h

theorem message_unfitting (h : headerCount c.staging[0] = 0 ∨ 16 < headerCount c.staging[0]) :
    c.message = { words := [c.staging[0]], unfitting := true } :=
  if_neg (by omega)

end

/-- R156, R157: a message joins the FIFO where there is room, and else sets the overrun flag. -/
theorem submitted_eq (c : ChannelRecord) :
    c.submitted = { c with
      requests := c.requests ++ if c.requests.length < 16 then [c.message] else []
      overrun := c.overrun || decide (16 ≤ c.requests.length) } := by
  unfold ChannelRecord.submitted
  by_cases h : c.requests.length < 16
  · simp [Config.fifoDepth, h, Nat.not_le.mpr h]
  · simp [Config.fifoDepth, h, Nat.not_lt.mp h]

theorem submitAll_staging (s : State) (bytes : List Host.Cell) (ch : Chan) :
    ((s.submitAll bytes).chan ch).staging = (s.chan ch).staging := by
  rw [submitAll_chan, submitted_eq]
  split <;> rfl

/-- What a REQUEST_SUBMIT makes of one channel, once its bytes are stored. -/
theorem submitAll_releaseAll_chan (s : State) (bytes : List Host.Cell) (ch : Chan) :
    ((s.submitAll bytes).releaseAll bytes).chan ch = { s.chan ch with
      requests := (s.chan ch).requests ++
        if submitsOn bytes ch = true ∧ (s.chan ch).requests.length < 16 then [(s.chan ch).message] else []
      overrun := (s.chan ch).overrun || (submitsOn bytes ch && decide (16 ≤ (s.chan ch).requests.length))
      responses := if releasesOn bytes ch then (s.chan ch).responses.tail else (s.chan ch).responses } := by
  rw [releaseAll_chan, submitAll_chan, submitted_eq]
  cases submitsOn bytes ch <;> cases releasesOn bytes ch <;> simp

theorem storeBytes_overruns (s : State) (bytes : List Host.Cell) (ch : Chan) :
    (s.storeBytes bytes).overruns bytes ch = (submitsOn bytes ch && decide (16 ≤ (s.chan ch).requests.length)) := by
  rw [State.overruns, storeBytes_chan]
  rfl

theorem mem_channels (ch : Chan) : ch ∈ channels := List.mem_finRange ch

theorem submitAll_overrunBitmap (s : State) (bytes : List Host.Cell) (ch : Chan) :
    (s.submitAll bytes).al.overrunBitmap.getLsbD ch.val =
      (s.al.overrunBitmap.getLsbD ch.val || s.overruns bytes ch) := by
  simpa [State.submitAll, mem_channels] using (submits_al s bytes channels (List.nodup_finRange 8)).1 ch

theorem submitAll_list (s : State) (bytes : List Host.Cell) :
    (s.submitAll bytes).al.list = if ∃ ch, s.overruns bytes ch = true
      then raiseIn s.al.list .device .channelOverrun else s.al.list := by
  simpa [State.submitAll, mem_channels] using (submits_al s bytes channels (List.nodup_finRange 8)).2

/-- The submissions change the overrun bitmap and the attention list of the AL/TB alone. -/
theorem submitAll_al (s : State) (bytes : List Host.Cell) :
    (s.submitAll bytes).al = { s.al with
      overrunBitmap := (s.submitAll bytes).al.overrunBitmap, list := (s.submitAll bytes).al.list } := by
  obtain ⟨-, -, -, -, -, -, -, -, hready, hcount, hinterval, hdeadline, hinterrupt⟩ := submitAll_frame s bytes
  dsimp only
  rw [← hready, ← hcount, ← hinterval, ← hdeadline, ← hinterrupt]

end

/-- Settles O8: the bytes stored, then the submissions and releases channel by channel; the message by its count. -/
theorem submissionsJoinOrOverrun : Obligations.SubmissionsJoinOrOverrun := by
  refine ⟨fun s bytes => ?_, fun c =>
    ⟨headerCount c.staging[0], rfl, fun hn => ?fits, fun hn => message_unfitting hn⟩⟩
  · simp only [← submitsOn_eq, ← releasesOn_eq]
    refine ⟨fun hheld => ?held, fun n hheld hsubmits => ?submit⟩
    case held =>
      obtain ⟨-, hsubmit, -, -⟩ := exec_writes_of_resetHeld hheld bytes
      exact hsubmit
    case submit =>
      have hexec := exec_requestSubmit (accepts_of_row hheld (writeRow_submit hsubmits))
      have hstaging : ∀ ch, ((((s.storeBytes bytes).submitAll bytes).releaseAll bytes).chan ch).staging =
          ((s.storeBytes bytes).chan ch).staging := fun ch =>
        (releaseAll_staging _ bytes ch).trans (submitAll_staging _ bytes ch)
      refine ⟨_, hexec, (storeBytes_stores s bytes).of_staging hstaging, fun ch => ?chan, fun ch => ?bitmap, ?al,
        by simp, by simp, by simp [State.SameTerms], by simp [State.SameShell]⟩
      case chan => rw [message_of_staging (hstaging ch), hstaging, submitAll_releaseAll_chan, storeBytes_chan]
      case bitmap => simp only [releaseAll_frame, submitAll_overrunBitmap, storeBytes_overruns, storeBytes_frame]
      case al =>
        have hal := submitAll_al (s.storeBytes bytes) bytes
        simp only [submitAll_list, storeBytes_overruns] at hal
        simpa using hal
  case fits =>
    rw [message_fits hn]
    have hlength : (c.staging.toList.take (headerCount c.staging[0])).length = headerCount c.staging[0] := by
      simpa using hn.2
    exact ⟨rfl, hlength, fun k hk => by simp [hk]⟩

end Sys2Proof.Machine
end

section
/-! PROOFS. Where the failure of a posted request goes (O10), and the requests that administer a channel (O11). -/

namespace Sys2Proof.Machine

/-! ## The failure of a posted request -/

section
variable {c : ChannelRecord} {out : Outstanding}

theorem recordFault_held (hquiet : c.quiet = false) (hnone : c.pendingFault = none) (f : HeldFault) :
    c.recordFault f = { c with pendingFault := some f } := by
  simp [ChannelRecord.recordFault, hquiet, hnone]

theorem recordFault_counted (h : c.quiet = true ∨ c.pendingFault ≠ none) (f : HeldFault) :
    c.recordFault f = { c with faultOverflow := satAdd c.faultOverflow 1 } := by
  have hheld : (!c.quiet && c.pendingFault.isNone) = false := by
    rw [← Bool.not_eq_true, Bool.and_eq_true, Bool.not_eq_true', Option.isNone_iff_eq_none]
    rintro ⟨hquiet, hnone⟩
    exact h.elim (by simp [hquiet]) (absurd hnone)
  simp [ChannelRecord.recordFault, hheld]

theorem completePosted_none (c : ChannelRecord) : c.completePosted none = { c with outstanding := none } := by
  cases hout : c.outstanding with
  | none =>
    have hsame : c = { c with outstanding := none } := by rw [← hout]
    rw [ChannelRecord.completePosted, hout]
    exact hsame
  | some out => rw [ChannelRecord.completePosted, hout]

theorem completePosted_failed (hout : c.outstanding = some out) (status : Status) :
    c.completePosted (some status) =
      if out.discard then { c with outstanding := none }
      else { c with outstanding := none }.recordFault
        { status := status, kind := out.request.kind, tag := out.tag } := by
  simp [ChannelRecord.completePosted, hout]

end

/-- Settles O10: a failure is held or counted by `recordFault`, unless the mark for discard drops it. -/
theorem postedFailuresAreHeldOrCounted : Obligations.PostedFailuresAreHeldOrCounted := by
  refine fun c f => ⟨fun hquiet hnone => recordFault_held hquiet hnone f,
    fun h => ⟨_, recordFault_counted h f, satAdd_toNat c.faultOverflow 1⟩, fun out status hout hdiscard => ?_,
    fun out status hout hdiscard => ?_, completePosted_none c⟩
  · rw [completePosted_failed hout, if_pos hdiscard]
  · rw [completePosted_failed hout, if_neg (Bool.eq_false_iff.mp hdiscard)]

/-! ## The administration of channels -/

section
variable {s : State} {ch n : Chan} {code : BitVec 8} {cls : OwnerClass} {quiet : Bool}

/-- A request of the CI that writes channel `n` and leaves its own request outstanding. -/
theorem exec_setChan_answers {q : Request} {c : ChannelRecord} {r : Reply} (hq : s.claim .ci ch = some q)
    (hk : s.served ch q = some (s.setChan n c, r)) :
    ∃ t, exec (q.instr ch) s = .next t ∧ s.SameBlocks t ∧ (s.setChan n c).Answers ch r t := by
  obtain ⟨out, hout, -⟩ := State.claim_outstanding hq
  have hstands : ((s.setChan n c).chan ch).outstanding = some out := (State.served_outstanding hk).trans hout
  exact ⟨_, exec_of_claim hq hk, by simp [State.SameBlocks], State.complete_answers r hstands⟩

theorem chanOf_outOfRange (h : 8 ≤ code.toNat) : chanOf code = none := by
  simp [chanOf, Nat.not_lt.mpr h]

theorem channelSet_outOfRange (h : 8 ≤ code.toNat) (cls : OwnerClass) (quiet : Bool) :
    s.channelSet code cls quiet = (s, .plain .outOfRange (blank 4)) := by
  rw [State.channelSet, chanOf_outOfRange h]

theorem channelSet_conflict (h : code.toNat = (7 : Chan).val) (hcls : cls ≠ .supervisor) :
    s.channelSet code cls quiet = (s, .plain .conflict (blank 4)) := by
  simp [State.channelSet, chanOf_eq h, State.setChannel, hcls]

theorem channelSet_already (h : code.toNat = n.val) (h7 : n = 7 → cls = .supervisor)
    (hheld : (s.chan n).ownerClass = cls ∧ (s.chan n).quiet = quiet) :
    s.channelSet code cls quiet = (s, .plain .already (blank 4)) := by
  have hconflict : ¬(n = 7 ∧ cls ≠ .supervisor) := fun hc => hc.2 (h7 hc.1)
  simp only [State.channelSet, chanOf_eq h, State.setChannel]
  rw [if_neg hconflict, if_pos hheld]

theorem channelSet_writes (h : code.toNat = n.val) (h7 : n = 7 → cls = .supervisor)
    (hnew : ¬((s.chan n).ownerClass = cls ∧ (s.chan n).quiet = quiet)) :
    s.channelSet code cls quiet = (s.setChan n { s.chan n with ownerClass := cls, quiet := quiet },
      .plain .ok [put 0 (s.chan n).ownerClass.code, putFlag 0 (s.chan n).quiet, put 0 cls.code, putFlag 0 quiet]) := by
  have hconflict : ¬(n = 7 ∧ cls ≠ .supervisor) := fun hc => hc.2 (h7 hc.1)
  simp only [State.channelSet, chanOf_eq h, State.setChannel]
  rw [if_neg hconflict, if_neg hnew]
  rfl

theorem channelReset_outOfRange (h : 8 ≤ code.toNat) (ch : Chan) :
    s.channelReset ch code = (s, .plain .outOfRange (blank 2)) := by
  rw [State.channelReset, chanOf_outOfRange h]

/-- R166: the requester's own request stays as it is, another channel's is marked for discard. -/
theorem channelReset_inRange (h : code.toNat = n.val) (ch : Chan) :
    s.channelReset ch code = (s.setChan n { s.chan n with
      requests := [], responses := [], pendingFault := none, faultOverflow := 0, overrun := false
      outstanding := if n = ch then (s.chan n).outstanding
        else (s.chan n).outstanding.map fun o => { o with discard := true } },
      .plain .ok [put 0 (s.chan n).requests.length, put 0 (s.chan n).responses.length]) := by
  simp only [State.channelReset, chanOf_eq h, ChannelRecord.resetBy, beq_iff_eq]
  rfl

end

/-- Settles O11: each request is its operation on the state, which writes one channel or nothing. -/
theorem channelAdministration : Obligations.ChannelAdministration := by
  refine ⟨⟨fun s ch hq => exec_setChan_answers hq rfl, ?set, ?reset⟩, fun s ch code => ⟨fun cls quiet hq =>
    ⟨fun h => ?setOutOfRange, fun h hcls => ?setConflict, fun n h h7 hcls hquiet => ?setAlready⟩,
    fun hq h => ?resetOutOfRange⟩⟩
  case set =>
    intro s ch n code cls quiet hq h c h7 hnew
    exact exec_setChan_answers hq (congrArg some (channelSet_writes h h7 hnew))
  case reset =>
    intro s ch n code hq h c
    exact exec_setChan_answers hq (congrArg some (channelReset_inRange h ch))
  case setOutOfRange => exact exec_onlyAnswers hq (congrArg some (channelSet_outOfRange h cls quiet))
  case setConflict =>
    have h7 : code.toNat = (7 : Chan).val := by rw [h]; rfl
    exact exec_onlyAnswers hq (congrArg some (channelSet_conflict h7 hcls))
  case setAlready => exact exec_onlyAnswers hq (congrArg some (channelSet_already h h7 ⟨hcls, hquiet⟩))
  case resetOutOfRange => exact exec_onlyAnswers hq (congrArg some (channelReset_outOfRange h ch))

end Sys2Proof.Machine
end

section
/-! PROOFS. The attention list and NOTICE_FETCH (O53): each list operation passes the entries of other records and acts
on the record's own. -/

namespace Sys2Proof.Machine

/-! ## The operations on the list -/

section
variable {before later : List AttnEntry} {e : AttnEntry} {r : AttnRecord}

theorem raiseIn_append (h : ∀ x ∈ before, x.record ≠ r) (l : List AttnEntry) (c : Cause) :
    raiseIn (before ++ l) r c = before ++ raiseIn l r c := by
  induction before with
  | nil => rfl
  | cons x before ih =>
    obtain ⟨hx, hbefore⟩ := List.forall_mem_cons.mp h
    simp [raiseIn, hx, ih hbefore]

theorem withdrawIn_append (h : ∀ x ∈ before, x.record ≠ r) (l : List AttnEntry) (c : Cause) :
    withdrawIn (before ++ l) r c = before ++ withdrawIn l r c := by
  induction before with
  | nil => rfl
  | cons x before ih =>
    obtain ⟨hx, hbefore⟩ := List.forall_mem_cons.mp h
    simp [withdrawIn, hx, ih hbefore]

theorem removeIn_lacking {l : List AttnEntry} (h : ∀ x ∈ l, x.record ≠ r) : removeIn l r = l :=
  List.filter_eq_self.mpr fun x hx => decide_eq_true (h x hx)

theorem raiseIn_lacking {l : List AttnEntry} (h : ∀ x ∈ l, x.record ≠ r) (c : Cause) :
    raiseIn l r c = l ++ [{ record := r, causes := c.mask }] := by
  simpa [raiseIn] using raiseIn_append h [] c

theorem withdrawIn_lacking {l : List AttnEntry} (h : ∀ x ∈ l, x.record ≠ r) (c : Cause) : withdrawIn l r c = l := by
  simpa [withdrawIn] using withdrawIn_append h [] c

section
variable (hbefore : ∀ x ∈ before, x.record ≠ r) (he : e.record = r)
include hbefore he

theorem raiseIn_listed (c : Cause) :
    raiseIn (before ++ e :: later) r c = before ++ { e with causes := e.causes ||| c.mask } :: later := by
  rw [raiseIn_append hbefore, raiseIn, if_pos he]

theorem withdrawIn_listed (c : Cause) : withdrawIn (before ++ e :: later) r c =
    before ++ if e.causes &&& ~~~c.mask = 0 then later
      else { e with causes := e.causes &&& ~~~c.mask } :: later := by
  rw [withdrawIn_append hbefore, withdrawIn, if_pos he]

theorem removeIn_listed (hlater : ∀ x ∈ later, x.record ≠ r) :
    removeIn (before ++ e :: later) r = before ++ later := by
  have hsplit : removeIn (before ++ e :: later) r = removeIn before r ++ removeIn later r := by
    simp [removeIn, he]
  rw [hsplit, removeIn_lacking hbefore, removeIn_lacking hlater]

end

/-! ## The causes of a record, ATTN_N and the filters -/

variable {s : State}

theorem causesOf_lacking (h : ∀ x ∈ s.al.list, x.record ≠ r) : s.causesOf r = 0 := by
  have hnone : (s.al.list.find? fun x => decide (x.record = r)) = none := by simpa using h
  rw [State.causesOf, hnone]

theorem causesOf_listed (hl : s.al.list = before ++ e :: later) (hbefore : ∀ x ∈ before, x.record ≠ r)
    (he : e.record = r) : s.causesOf r = e.causes := by
  have hfirst : (s.al.list.find? fun x => decide (x.record = r)) = some e :=
    List.find?_eq_some_iff_append.mpr ⟨by simpa using he, before, later, hl, by simpa using hbefore⟩
  rw [State.causesOf, hfirst]

theorem attnAsserted_iff : s.attnAsserted = true ↔ s.al.list ≠ [] ∧ s.al.interruptEnable = true := by
  simp [State.attnAsserted]

/-- The filter that admits the records of `r`'s kind and no others. -/
def AttnRecord.kindFilter : AttnRecord → NoticeFilter
  | .subscriber _ => .subscriber
  | .link _ => .link
  | .walker => .walker
  | .device => .device

theorem NoticeFilter.admits_iff {f : NoticeFilter} : f.admits r = true ↔ f = r.kindFilter ∨ f = .any := by
  cases r <;> cases f <;> simp [NoticeFilter.admits, AttnRecord.kindCode, AttnRecord.kindFilter]

/-! ## NOTICE_FETCH -/

theorem fetch_noticeNibble (s : State) (e : AttnEntry) (r : AttnRecord) :
    (s.fetch e).noticeNibble r = s.noticeNibble r := by
  cases r <;> simp [State.noticeNibble, State.subNibble, State.nibbleOf]

theorem fetch_al (s : State) (e : AttnEntry) :
    (s.fetch e).al = { (s.clearBitmapFor e.record).al with list := removeIn s.al.list e.record } := by
  unfold State.fetch State.clearBitmapFor
  cases e.record <;> rfl

/-- R179: a WALKER or DEVICE notice has zero in the place of the state. -/
theorem noticeBody_of_no_state (h : s.noticeState e.record = 0) (left : Nat) : s.noticeBody e left =
    [put 0 e.record.kindCode, s.noticeIndex e.record, e.causes,
      put 0 (s.noticeBitmap e.record) ||| put 16 left] := by
  rw [State.noticeBody, h]
  simp [put]

theorem noticeFetch_nothing {f : NoticeFilter} (h : ∀ x ∈ s.al.list, f.admits x.record = false) :
    s.noticeFetch f = (s, .plain .nothing [0, 0, 0, put 16 s.al.list.length]) := by
  have hnone : s.oldestNotice f = none := by simpa [State.oldestNotice] using h
  rw [State.noticeFetch, hnone]

section
variable {f : NoticeFilter} (hl : s.al.list = before ++ e :: later)
  (hbefore : ∀ x ∈ before, f.admits x.record = false) (he : f.admits e.record = true)
  (honce : ∀ x ∈ before ++ later, x.record ≠ e.record)
include hl hbefore he honce

/-- R170: the oldest entry that the filter admits leaves the list, and its notice is answered. -/
theorem noticeFetch_oldest : s.noticeFetch f =
    (s.fetch e, .of .ok (s.noticeNibble e.record) (s.noticeBody e (before ++ later).length)) ∧
      (s.fetch e).al = { (s.clearBitmapFor e.record).al with list := before ++ later } := by
  have holdest : s.oldestNotice f = some e :=
    List.find?_eq_some_iff_append.mpr ⟨he, before, later, hl, by simpa using hbefore⟩
  obtain ⟨honceBefore, honceLater⟩ := List.forall_mem_append.mp honce
  have hal : (s.fetch e).al = { (s.clearBitmapFor e.record).al with list := before ++ later } := by
    rw [fetch_al, hl, removeIn_listed honceBefore rfl honceLater]
  refine ⟨?_, hal⟩
  rw [State.noticeFetch, holdest]
  simp only [fetch_noticeNibble, hal]

theorem exec_noticeFetch_oldest {ch : Chan} (hq : s.claim .al ch = some (.noticeFetch f)) :
    ∃ t, exec (.noticeFetch ch) s = .next t ∧
      s.Answers ch (.of .ok (s.noticeNibble e.record) (s.noticeBody e (before ++ later).length)) t ∧
      t.al = { (s.clearBitmapFor e.record).al with list := before ++ later } ∧
      t.stc = s.stc ∧ t.ftc = s.ftc ∧ t.lm = s.lm ∧ t.zas = s.zas ∧ t.tw = s.tw := by
  obtain ⟨hfetch, hal⟩ := noticeFetch_oldest hl hbefore he honce
  obtain ⟨hexec, hanswers⟩ := exec_answers hq (congrArg some hfetch) (by simp [State.SameCi])
  exact ⟨_, hexec, hanswers, by simpa using hal, by simp⟩

end

end

/-- Settles O53: the list operations by the entries they pass; the fetch by the oldest entry admitted, whose kind gives
the words of the notice. -/
theorem noticeFetchTakesTheOldest : Obligations.NoticeFetchTakesTheOldest := by
  refine ⟨fun l r c => ?list, fun s r c => ⟨rfl, rfl, rfl, causesOf_lacking,
    fun before e later hl hbefore he => causesOf_listed hl hbefore he, attnAsserted_iff⟩,
    fun f i l => ⟨NoticeFilter.admits_iff, NoticeFilter.admits_iff, NoticeFilter.admits_iff, NoticeFilter.admits_iff⟩,
    fun s ch f hq => ⟨fun hnone => exec_onlyAnswers hq (congrArg some (noticeFetch_nothing hnone)), ?fetch⟩⟩
  case list =>
    intro bit
    have hbit : bit = c.mask := by cases c <;> rfl
    rw [hbit]
    refine ⟨fun h => ⟨raiseIn_lacking h c, withdrawIn_lacking h c, removeIn_lacking h⟩, ?_⟩
    rintro before e later rfl hother he
    obtain ⟨hbefore, hlater⟩ := List.forall_mem_append.mp hother
    have hwithdraw := withdrawIn_listed (later := later) hbefore he c
    exact ⟨raiseIn_listed hbefore he c, fun h => by rw [hwithdraw, if_pos h], fun h => by rw [hwithdraw, if_neg h],
      removeIn_listed hbefore he hlater⟩
  case fetch =>
    rintro before ⟨record, causes⟩ later hl hbefore he honce left ends bitmap
    have hfetch := exec_noticeFetch_oldest hl hbefore he honce hq
    refine ⟨?subscriber, ?link, ?walker, ?device⟩
    case subscriber => rintro i rfl; exact hfetch
    case link => rintro l rfl; exact hfetch
    case walker => rintro rfl; rw [noticeBody_of_no_state rfl] at hfetch; exact hfetch
    case device => rintro rfl; rw [noticeBody_of_no_state rfl] at hfetch; exact hfetch

end Sys2Proof.Machine
end

section
/-! PROOFS. Start-up (O5), and the invariants at reset (O60). -/

namespace Sys2Proof.Machine

/-- Settles O5: the edges of RESET_N act in every state, initialization complete on a released device in INIT. -/
theorem startUp : Obligations.StartUp := by
  refine fun s => ⟨rfl, rfl, fun hreset hready => ?_⟩
  have hbegins : (!s.resetHeld && !s.al.ready) = true := by simp [hreset, hready]
  exact congrArg Host.Outcome.next (if_pos hbegins)

/-- Settles O60: reset is what power-on reset leaves of itself, and after power-on reset every record is VACANT and
every list empty. -/
theorem invariantsHoldAtReset : Obligations.InvariantsHoldAtReset := by
  intro s hs
  obtain ⟨u, rfl⟩ : ∃ u : State, s = u.powerOn := by
    obtain rfl | ⟨u, hexec⟩ := hs
    · exact ⟨State.reset, rfl⟩
    · exact ⟨u, (Host.Outcome.next.inj hexec).symm⟩
  have hsub : ∀ i, (u.powerOn.sub i).live = false := fun _ => rfl
  have hflow : ∀ i, (u.powerOn.flow i).live = false := fun _ => rfl
  obtain ⟨htags, hkeys⟩ := placed_of_vacant hsub hflow
  have hqueue : u.powerOn.tw.queue.Nodup := List.nodup_nil
  have hlist : ListExact u.powerOn.al.list := ListExact.nil
  have hdeadlines : u.powerOn.DeadlinesInOrder := ⟨List.Pairwise.nil, nofun, nofun⟩
  have hcounts : u.powerOn.FlowCountsBounded := fun _ => Nat.zero_le _
  exact ⟨powerOn_tablesCanonical u, hqueue, hlist, reset_linksSound.of_links rfl,
    reset_termsSound.of_zas rfl rfl rfl rfl, reset_channelsSound.of_ci rfl, reset_recordsExact u,
    marksSound_of_vacant hsub hflow rfl rfl rfl rfl, htags, hkeys, hdeadlines, hcounts,
    zoneEpochsBounded_of_vacant hsub rfl⟩

end Sys2Proof.Machine
end

section
/-! PROOFS. A step and the queue of commands (O1), and what every command leaves of it (O2). -/

namespace Sys2Proof.Machine

theorem step_of_pending_cons {s : State} {c : Instr} {rest : List Instr} (h : s.pending = c :: rest) :
    step s = exec c { s with pending := rest } := by
  simp only [step, h]

theorem step_of_pending_nil {s : State} (h : s.pending = []) : step s = .next s := by
  simp only [step, h]

/-- Settles O1: the two branches of a step; a command placed before the queue of `s` leaves `s` when it is taken. -/
theorem stepRunsTheFrontCommand : Obligations.StepRunsTheFrontCommand :=
  ⟨fun _ _ _ => step_of_pending_cons, fun _ => step_of_pending_nil, fun _ _ => step_of_pending_cons rfl⟩

/-- Settles O2: every command answers a next state, and by the frame of its meaning that state has the same queue. -/
theorem everyCommandAnswersANextState : Obligations.EveryCommandAnswersANextState := by
  intro c s
  obtain ⟨t, hnext⟩ := exec_next c s
  exact ⟨t, hnext, exec_pending c s t hnext⟩

end Sys2Proof.Machine
end
